-- ==== Sys2Proof/Word.lean ====
section
/-! DEFINITION. The word types of the Oluca 2 (R3, R141). -/

namespace Sys2Proof

/-- A byte of any memory (R3). -/
abbrev Byte := BitVec 8

/-- A lane of a vector tile, or an instruction word (R142, R274). -/
abbrev W32 := BitVec 32

/-- A g register, a mailbox or a counter (R141). -/
abbrev W64 := BitVec 64

/-- A 64-byte line, a descriptor image or a pattern entry (R144, R145, R146). -/
abbrev Line := BitVec 512

/-- A row of a vector tile or of a weight plane: 64 lanes of 32 bits (R141, R365). -/
abbrev Row := BitVec 2048

/-- A row of an accumulator: 64 elements of 64 bits (R141). -/
abbrev AccRow := BitVec 4096

end Sys2Proof
end

