-- ==== Sys2Proof/Syntax.lean ====
section
/-! DEFINITION. The instructions of the four streams and the events of the module: one constructor for each row of spec/opcode_table.json. -/

namespace Sys2Proof

/-- The four streams of a core (R139). -/
inductive Stream where
  | s | v | m | x
  deriving DecidableEq, Repr

/-- Functions of alu (R292). -/
inductive AluFn where
  | add | sub | and | or | xor | andn | sll | srl | sra | slt | sltu | seq | min | max | minu | maxu
  | sel | clz | popc
  deriving DecidableEq, Repr

/-- Functions of muldiv (R293). -/
inductive MulFn where
  | mul | mulh | mulhu | div | divu | rem | remu
  deriving DecidableEq, Repr

/-- Functions of alui (R295). -/
inductive AluiFn where
  | addi | andi | ori | xori | slli | srli | srai | slti
  deriving DecidableEq, Repr

/-- Conditions of pcmp and b (R281). -/
inductive Cond where
  | eq | ne | lt | ge | ltu | geu
  deriving DecidableEq, Repr

/-- Operations of plog and klog (R297, R362). -/
inductive LogOp where
  | and | or | xor | andn | orn | nand | nor | xnor
  deriving DecidableEq, Repr

/-- Sizes of ldc and ldp (R298). -/
inductive LdSize where
  | b | bu | h | hu | w | wu | d
  deriving DecidableEq, Repr

/-- Access widths (R281). -/
inductive Width where
  | b | h | w | d
  deriving DecidableEq, Repr

/-- Scopes (R213). -/
inductive Scope where
  | core | clu | mod | sys
  deriving DecidableEq, Repr

/-- Orders (R281). -/
inductive Order where
  | rlx | acq | rel | ar
  deriving DecidableEq, Repr

/-- Operations of amo (R233). -/
inductive AmoFn where
  | add | and | or | xor | min | max | minu | maxu | swap
  deriving DecidableEq, Repr

/-- Operations of amof (R234). -/
inductive AmofFn where
  | fadd | fmin | fmax
  deriving DecidableEq, Repr

/-- Kinds of fence (R321). -/
inductive FenceKind where
  | acq | rel | sc
  deriving DecidableEq, Repr

/-- Kinds of wait (R322). -/
inductive WaitKind where
  | chk | dwl
  deriving DecidableEq, Repr

/-- The fmt codes of VR and VA (R281). -/
inductive VFmt where
  | f32 | int32 | f64 | f16x2 | b16x2 | int16x2 | int8x4
  deriving DecidableEq, Repr

/-- Functions of varith (R340). -/
inductive VarithFn where
  | add | sub | mul | fma | fms | min | max | abs | neg
  deriving DecidableEq, Repr

/-- Functions of vlogic (R342). -/
inductive VlogicFn where
  | and | or | xor | shl | shr | sra
  deriving DecidableEq, Repr

/-- Functions of vcmp (R343). -/
inductive VcmpFn where
  | eq | ne | lt | le | gt | ge | ltu | geu | uno
  deriving DecidableEq, Repr

/-- Functions of vsfu (R257). -/
inductive SfuFn where
  | rsq | rcp | ex2 | lg2
  deriving DecidableEq, Repr

/-- Rounding modes (R247). -/
inductive Rnd where
  | rne | rtz | rdn | rup | rdi
  deriving DecidableEq, Repr

/-- Number formats (R242); code 0xF is reserved. -/
inductive Fmt where
  | int4 | uint4 | nq4 | e2m1 | int8 | uint8 | e4m3 | e5m2 | int16 | f16 | b16 | f32 | int32 | f64 | int64
  deriving DecidableEq, Repr

/-- The axis of a VA instruction (R282). -/
inductive Axis where
  | row | col
  deriving DecidableEq, Repr

/-- The two cold spaces (R59). -/
inductive CSpace where
  | cold | pool
  deriving DecidableEq, Repr

/-- The part of an 8-byte BAR0 register that an access of 8 or 4 bytes reaches (R20). -/
inductive Lane where
  | full | low | high
  deriving DecidableEq, Repr

/-- A signed or measured image of a boot stage, a routine, calibration data or configuration (R32, R33, R163): its header states its
type, length and SVN, and those of a routine its fields. -/
structure Image where
  /-- 0 stage-one firmware, 1 kernel, 2 routine, 3 calibration data, 4 keeper configuration (log 105). -/
  kind : Nat
  length : Nat
  svn : BitVec 8
  body : List Byte
  /-- 29,792 bytes, byte 0 lowest (R32). -/
  sig : BitVec 238336
  /-- The CRC-32C stored with calibration data and configuration (R33). -/
  crc : BitVec 32
  /-- The header of a routine (R163); 0 for the other kinds. -/
  num : Nat
  s0 : Nat
  w : Nat
  fmin : Nat
  deriving DecidableEq, Repr

/-- What a Dretex flit carries for this module (R26, R122, R230). -/
inductive Msg where
  /-- A system-scope write to warm memory of the context `asid`: write number, its causal predecessors, and for each byte its address,
  its value and the bits that are written. -/
  | write (src : Nat) (id : Nat) (deps : List Nat) (asid : BitVec 8) (cells : List (BitVec 48 × Byte × Byte))
  /-- A system-scope atomic of width `n`: the operation code of the model's request (R233, R234). -/
  | atomic (src : Nat) (id : Nat) (deps : List Nat) (asid : BitVec 8) (addr : BitVec 48) (op : Nat) (n : Nat) (v e : BitVec 64)
  /-- A system-scope read of the bytes at some addresses. -/
  | read (src : Nat) (id : Nat) (deps : List Nat) (asid : BitVec 8) (addrs : List (BitVec 48))
  /-- The acknowledgement of a write or atomic that this module sent. -/
  | ack (id : Nat)
  /-- The result of a read or atomic that this module sent: its bytes, and the writes observed with their predecessors. -/
  | result (id : Nat) (bytes : List Byte) (seen : List Nat)
  /-- The arrivals of the replica of module `src` at a system barrier, with its release slot (R122). -/
  | barrier (src : Nat) (asid : BitVec 8) (beacon : BitVec 3) (cslot : Nat)
  /-- The completion of the replica of module `src` (R108). -/
  | complete (src : Nat) (asid : BitVec 8)
  /-- The home module reports a hard fault of an access of this module (R316). -/
  | hardFault (id : Nat) (poisoned : Bool)
  /-- Keeper traffic, migrations and replication, whose contents the manual does not give. -/
  | keeper (bytes : List Byte)
  deriving DecidableEq, Repr

/-- A flit of 256 bytes: 252 and their CRC-32C (R24). A message takes as many flits as it needs, and is whole with the last of them. `acks`
acknowledges, for each class, the flits below a sequence number that its sender has received (log 106). -/
structure Flit where
  seq : Nat
  cls : Nat
  acks : List Nat
  payload : BitVec 2016
  crc : BitVec 32
  msg : Option Msg
  deriving DecidableEq, Repr

/-- What a sparing change remaps (R11), or the lane of a Dretex port that is repaired (R25). -/
inductive SpareKind where
  | core | lane | hbm | dretex
  deriving DecidableEq, Repr

/-- The ways a move can fail (R65, R71). -/
inductive MoveErr where
  /-- A deep-tier read failed with the data intact. -/
  | deepReadIntact
  /-- A deep-tier read was uncorrectable. -/
  | deepReadLost
  /-- A deep-tier write failed. -/
  | deepWrite
  /-- The HBM frame being read has an uncorrectable error. -/
  | hbmRead
  /-- The HBM write failed, or the new frame has an uncorrectable error. -/
  | hbmWrite
  deriving DecidableEq, Repr

/-- What a keeper writes of the frozen state of context core `j` through a freeze window (R177, R178): a register, 64 bits of one, or 64 bits of
cold storage, word `w`. -/
inductive WindowReg where
  | thaw
  | g (j : Nat) (r : BitVec 5)
  | sreg (j : Nat) (num : BitVec 12)
  | p (j : Nat) (r : BitVec 3)
  | lc (j : Nat) (r : BitVec 2)
  /-- A mailbox, and its valid bit. -/
  | m (j : Nat) (r : BitVec 3)
  | mValid (j : Nat) (r : BitVec 3)
  | h (j : Nat) (r : BitVec 4)
  /-- A counter, and its error bit. -/
  | tc (j : Nat) (r : BitVec 3)
  | tcErr (j : Nat) (r : BitVec 3)
  | tk (j : Nat) (r : BitVec 3)
  | k (j : Nat) (r : BitVec 3) (row : BitVec 4)
  | v (j : Nat) (r : BitVec 3) (row : BitVec 4) (w : BitVec 5)
  | a (j : Nat) (r : BitVec 2) (row : BitVec 4) (w : BitVec 6)
  /-- A field of the matrix configuration, in the order of `Core.matrixChunks`; the scale binding of a column; a plane row. -/
  | conf (j : Nat) (i : BitVec 3)
  | scale (j : Nat) (col : BitVec 6)
  | plane (j : Nat) (shadow : Bool) (row : BitVec 7) (w : BitVec 5)
  | pat (j : Nat) (i : BitVec 6) (w : BitVec 3)
  | cold (j : Nat) (w : BitVec 14)
  /-- The pool of context cluster `cl`. -/
  | pool (cl : Nat) (w : BitVec 17)
  deriving DecidableEq, Repr

/-- A write into a freeze window: where, and the value. -/
structure WindowWrite where
  reg : WindowReg
  v : BitVec 64
  deriving DecidableEq, Repr

/-- A write of a fault ring's FRCONS, or of its FROVF (R88). -/
inductive RingWrite where
  | cons (v : BitVec 64)
  | ovfcnt (v : BitVec 64)
  deriving DecidableEq, Repr

/-- The data that a passed calibration has made: calibration data, and keeper configuration (R35, R40). -/
structure CalData where
  data : Option (List Byte)
  config : Option (List Byte)
  deriving DecidableEq, Repr

/-- One constructor for each row of spec/opcode_table.json. `g` is the GAP field (R112). The encoded instructions come
first, then the events in the order of the table; an event's operands name what acts and what its agent chose. -/
inductive Instr where
  -- S stream (R280)
  | nop (g : BitVec 2)
  | alu (g : BitVec 2) (rd ra rb : BitVec 5) (p : BitVec 3) (fn : AluFn)
  | muldiv (g : BitVec 2) (rd ra rb : BitVec 5) (p : BitVec 3) (fn : MulFn)
  | alui (g : BitVec 2) (rd ra : BitVec 5) (fn : AluiFn) (imm : BitVec 12)
  | lih (g : BitVec 2) (rd : BitVec 5) (imm : BitVec 20)
  | pcmp (g : BitVec 2) (pd : BitVec 3) (ra rb : BitVec 5) (cond : Cond)
  | plog (g : BitVec 2) (pd : BitVec 3) (op : LogOp) (pa pb : BitVec 3)
  | ldc (g : BitVec 2) (rd ra : BitVec 5) (size : LdSize) (imm : BitVec 12)
  | ldp (g : BitVec 2) (rd ra : BitVec 5) (size : LdSize) (imm : BitVec 12)
  | stc (g : BitVec 2) (p : BitVec 3) (rs ra : BitVec 5) (wd : Width) (imm : BitVec 10)
  | stp (g : BitVec 2) (p : BitVec 3) (rs ra : BitVec 5) (wd : Width) (imm : BitVec 10)
  | wld (g : BitVec 2) (m : BitVec 3) (ra : BitVec 5) (wd : Width) (acq : Bool) (scope : Scope) (imm : BitVec 11)
  | wst (g : BitVec 2) (p : BitVec 3) (rs ra : BitVec 5) (wd : Width) (rel : Bool) (scope : Scope) (imm : BitVec 6)
  | mmv (g : BitVec 2) (rd : BitVec 5) (m : BitVec 3) (p : BitVec 3)
  | amo (g : BitVec 2) (m : BitVec 3) (ra rb : BitVec 5) (op : AmoFn) (scope : Scope) (order : Order) (dbl : Bool)
  | amocas (g : BitVec 2) (m : BitVec 3) (ra : BitVec 5) (rb : BitVec 4) (scope : Scope) (order : Order) (dbl : Bool)
  | amof (g : BitVec 2) (m : BitVec 3) (ra rb : BitVec 5) (op : AmofFn) (scope : Scope) (order : Order) (dbl : Bool)
  | b (g : BitVec 2) (ra rb : BitVec 5) (cond : Cond) (off : BitVec 12)
  | j (g : BitVec 2) (off : BitVec 20)
  | jal (g : BitVec 2) (rd : BitVec 5) (off : BitVec 20)
  | jalr (g : BitVec 2) (rd ra : BitVec 5) (imm : BitVec 12)
  | loopImm (g : BitVec 2) (count : BitVec 12) (n : BitVec 12)
  | loopLc (g : BitVec 2) (lc : BitVec 2) (n : BitVec 12)
  | lcsetReg (g : BitVec 2) (r : BitVec 5) (lc : BitVec 2)
  | lcsetImm (g : BitVec 2) (lc : BitVec 2) (imm : BitVec 12)
  | gapl (g : BitVec 2) (f : BitVec 25)
  | fence (g : BitVec 2) (kind : FenceKind) (scope : Scope)
  | wait (g : BitVec 2) (r : BitVec 5) (kind : WaitKind) (tc : BitVec 3) (imm : BitVec 12)
  | bar (g : BitVec 2) (beacon : BitVec 3)
  | tokPost (g : BitVec 2) (cell : BitVec 3)
  | tokExpect (g : BitVec 2) (cell : BitVec 3) (d : BitVec 12)
  | align (g : BitVec 2) (k : BitVec 4) (c : BitVec 12)
  | ckpt (g : BitVec 2) (tab : BitVec 12)
  | ckptOvl (g : BitVec 2) (ovl : BitVec 4) (tab : BitVec 12)
  | sethImm (g : BitVec 2) (h : BitVec 4) (tid : BitVec 16)
  | sethReg (g : BitVec 2) (h : BitVec 4) (ra : BitVec 5)
  | spat (g : BitVec 2) (pat : BitVec 6) (ra : BitVec 5) (imm : BitVec 12)
  | srd (g : BitVec 2) (r : BitVec 5) (num : BitVec 12)
  | swr (g : BitVec 2) (r : BitVec 5) (num : BitVec 12)
  | trap (g : BitVec 2) (n : BitVec 12)
  | halt (g : BitVec 2)
  -- V stream (R283)
  | varith (g : BitVec 2) (vd : BitVec 3) (sa sb sc : BitVec 4) (k : BitVec 3) (fmt : VFmt) (fn : VarithFn)
  | vlogic (g : BitVec 2) (vd : BitVec 3) (sa sb : BitVec 4) (k : BitVec 3) (fmt : VFmt) (fn : VlogicFn)
  | vcmp (g : BitVec 2) (kd : BitVec 3) (sa sb : BitVec 4) (k : BitVec 3) (fmt : VFmt) (fn : VcmpFn)
  | vsel (g : BitVec 2) (vd : BitVec 3) (sa sb : BitVec 4) (k : BitVec 3) (fmt : VFmt)
  | vcvt (g : BitVec 2) (vd : BitVec 3) (sa : BitVec 4) (src dst : Fmt) (rnd : Rnd) (sat : Bool) (k : BitVec 3) (pos : BitVec 3)
  | vnarrow (g : BitVec 2) (vd : BitVec 3) (a : BitVec 2) (int : Bool) (dst : Fmt) (rnd : Rnd) (sat : Bool) (k : BitVec 3) (pos : BitVec 3)
  | vsfu (g : BitVec 2) (vd : BitVec 3) (sa : BitVec 4) (k : BitVec 3) (fmt : VFmt) (fn : SfuFn)
  | vrot (g : BitVec 2) (vd : BitVec 3) (sa : BitVec 4) (axis : Axis) (amount : BitVec 6) (k : BitVec 3) (fmt : VFmt)
  | vbc (g : BitVec 2) (vd : BitVec 3) (sa : BitVec 4) (axis : Axis) (amount : BitVec 6) (k : BitVec 3) (fmt : VFmt)
  | vred (g : BitVec 2) (vd : BitVec 3) (sa : BitVec 4) (axis : Axis) (k : BitVec 3) (fmt : VFmt)
  | vld (g : BitVec 2) (v : BitVec 3) (h : BitVec 4) (gy gx : BitVec 5) (k : BitVec 3) (sp : CSpace)
  | vst (g : BitVec 2) (v : BitVec 3) (h : BitVec 4) (gy gx : BitVec 5) (k : BitVec 3) (sp : CSpace)
  | vgath (g : BitVec 2) (v : BitVec 3) (h : BitVec 4) (gy gx : BitVec 5) (k : BitVec 3) (sp : CSpace)
  | vsplat (g : BitVec 2) (vd : BitVec 3) (r : BitVec 5) (k : BitVec 3) (dbl : Bool)
  | vput (g : BitVec 2) (v : BitVec 3) (port : BitVec 2) (k : BitVec 3)
  | vpop (g : BitVec 2) (v : BitVec 3) (port : BitVec 3) (k : BitVec 3)
  | ksetBox (g : BitVec 2) (kd : BitVec 3) (ncol : BitVec 7) (nrow : BitVec 5)
  | ksetReg (g : BitVec 2) (kd : BitVec 3) (r : BitVec 5)
  | klog (g : BitVec 2) (kd : BitVec 3) (ka kb : BitVec 3) (op : LogOp)
  | vloopImm (g : BitVec 2) (count : BitVec 12) (n : BitVec 12)
  | vloopLc (g : BitVec 2) (lc : BitVec 2) (n : BitVec 12)
  | vgap (g : BitVec 2) (f : BitVec 25)
  | vtkPost (g : BitVec 2) (cell : BitVec 3)
  | vtkExpect (g : BitVec 2) (cell : BitVec 3) (d : BitVec 12)
  -- M stream (R286)
  | tcfg (g : BitVec 2) (m : BitVec 6) (n k : BitVec 2) (fa fw : BitVec 4)
  | ldsw (g : BitVec 2) (src : BitVec 4) (gy gx : BitVec 5)
  | swap (g : BitVec 2)
  | mma (g : BitVec 2) (src : BitVec 4) (ad : BitVec 2) (acc : Bool) (gy gx : BitVec 5) (ovr : Bool) (m : BitVec 6)
  | mzero (g : BitVec 2) (ad : BitVec 2)
  | mread (g : BitVec 2) (a : BitVec 2) (port : BitVec 2) (dst : Fmt) (rnd : Rnd) (sat : Bool) (first rows : BitVec 4)
  | mscl (g : BitVec 2) (h : BitVec 3) (gy gx : BitVec 5)
  | mloopImm (g : BitVec 2) (count : BitVec 12) (n : BitVec 12)
  | mloopLc (g : BitVec 2) (lc : BitVec 2) (n : BitVec 12)
  | mgap (g : BitVec 2) (f : BitVec 25)
  | mtkPost (g : BitVec 2) (cell : BitVec 3)
  | mtkExpect (g : BitVec 2) (cell : BitVec 3) (d : BitVec 12)
  -- X stream (R288)
  | xbind (g : BitVec 2) (port : BitVec 3) (pat : BitVec 6) (tc : BitVec 3) (len : Bool) (gx gy : BitVec 5) (out : Bool)
  | xfree (g : BitVec 2) (port : BitVec 3) (out : Bool)
  | xmode (g : BitVec 2) (idx : BitVec 8)
  | xin (g : BitVec 2) (pat : BitVec 6) (tc : BitVec 3) (sp : CSpace) (off : BitVec 15)
  | xout (g : BitVec 2) (pat : BitVec 6) (tc : BitVec 3) (sp : CSpace) (off : BitVec 15)
  | xcmv (g : BitVec 2) (pat : BitVec 6) (tc : BitVec 3) (sp : CSpace) (off : BitVec 15)
  | xpref (g : BitVec 2) (src : BitVec 6) (tc : BitVec 3) (routine : BitVec 6) (down : Bool)
  | xcopy (g : BitVec 2) (src dst : BitVec 6) (tc : BitVec 3) (routine : BitVec 6) (flags : BitVec 3)
  | xded (g : BitVec 2) (src dst : BitVec 6) (tc : BitVec 3) (routine : BitVec 6) (flags : BitVec 3)
  | xpost (g : BitVec 2) (tc : BitVec 3)
  | xloopImm (g : BitVec 2) (count : BitVec 12) (n : BitVec 12)
  | xloopLc (g : BitVec 2) (lc : BitVec 2) (n : BitVec 12)
  | xgap (g : BitVec 2) (f : BitVec 25)
  | xtkPost (g : BitVec 2) (cell : BitVec 3)
  | xtkExpect (g : BitVec 2) (cell : BitVec 3) (d : BitVec 12)
  -- The host (R20-R22, R42, R43)
  | qtailWrite (q : BitVec 3) (lane : Lane) (v : BitVec 64)
  | qbaseWrite (q : BitVec 3) (lane : Lane) (v : BitVec 64)
  | qcfgWrite (q : BitVec 3) (lane : Lane) (v : BitVec 64)
  | qstatOvrClear (q : BitVec 3) (lane : Lane) (v : BitVec 64)
  | w2baseWrite (lane : Lane) (v : BitVec 64)
  | w2discClear (lane : Lane) (v : BitVec 64)
  | registerWrite (off : BitVec 22) (lane : Lane) (v : BitVec 64)
  | bar0UnsupportedAccess (read : Bool) (off : BitVec 22) (size : Nat)
  | bar2Read (off : BitVec 36) (len : Nat)
  | bar2Write (off : BitVec 36) (bytes : List Byte)
  -- Keepers taking commands (R45-R48)
  | illegalCommand (q : BitVec 3)
  | launch (q : BitVec 3)
  | map (q : BitVec 3) (frames : List Nat)
  | unmap (q : BitVec 3)
  | migrate (q : BitVec 3) (frames : List Nat)
  | copyin (q : BitVec 3)
  | copyout (q : BitVec 3)
  | signal (q : BitVec 3)
  | abort (q : BitVec 3)
  | quote (q : BitVec 3)
  | rstepWin (q : BitVec 3)
  | rstepSlot (q : BitVec 3)
  | rstepWrite (q : BitVec 3)
  | watch (q : BitVec 3)
  | trace (q : BitVec 3)
  | account (q : BitVec 3)
  | resume (q : BitVec 3)
  | commandStart (seq : Nat) (frames : List Nat)
  | launchEnqueue (seq : Nat)
  | commandEnd (seq : Nat)
  -- Module services (R11-R40, R56-R58, R184, R212)
  | journalPersist
  | moduleReset
  | bootPhase (kheap : BitVec 11)
  | routineLoad (img : Image)
  | quoteRequestMgmt (nonce : BitVec 256)
  | clockCorrection (offset : Int)
  | keeperStartCommand
  | keeperStopCommand
  | temperatureMeasurement (t4k t40k : Nat)
  | soakTimeout
  | holdTimeout
  | calibrationDone (passed : Bool) (data : CalData) (weights : BitVec 64)
  | sparingChange (kind : SpareKind) (logical physical : Nat)
  | keeperRestart
  | keeperHandlerFetchFault (keeper : BitVec 4)
  | dretexFlitReceive (port : BitVec 3) (flit : Flit)
  | dretexReplayTimeout (port : BitVec 3) (seq : Nat)
  | dretexLaneFailure (port : BitVec 3)
  | dretexRetrainComplete (port : BitVec 3)
  -- Launching (R98-R109, R392)
  | launchAging
  | undoRingAllocate (frames : List Nat)
  | launchPlace
  | codeLoad (k : Nat) (bases : List Nat) (frames : List Nat)
  | contextStart (k : Nat)
  | serialIterationStart (k : Nat)
  | haltRetire (k j : Nat)
  -- The timetable (R115-R138)
  | resultLanding (k j : Nat)
  | wheelPoint (k : Nat)
  | heatEvaluation
  | barrierRelease (k : Nat) (beacon : BitVec 3) (inst : Nat)
  | systemBarrierArrivals (k : Nat) (beacon : BitVec 3)
  | checkpointHoldEnd (k : Nat)
  | checkpointOverdue (k : Nat)
  -- Freezes (R172-R203)
  | thawWrite (k : Nat) (w : WindowWrite)
  | freezeAckWrite (k : Nat) (v : BitVec 64)
  | contextResume (k : Nat)
  | serviceTrapService (k : Nat)
  | preemptSave (k : Nat)
  | restore (asid : BitVec 8)
  | dumpClose (k : Nat)
  | retainSpill (k : Nat)
  | softError (k j : Nat)
  -- Warm memory, translation, moves (R63-R92, R219)
  | warmAccessPerform (k id : Nat)
  | frconsWrite (ring : BitVec 4) (w : RingWrite)
  | frbaseWrite (ring : BitVec 4) (v : BitVec 64)
  | lightFaultService (ring : BitVec 4) (frames : List Nat)
  | tlbinvWrite (v : BitVec 64)
  | markerRetire (source : Nat)
  | moveComplete (asid : BitVec 8) (vpn : Nat)
  | moveError (asid : BitVec 8) (vpn : Nat) (err : MoveErr)
  | eccUncorrectable (frame : Nat)
  | xprefPost (k id : Nat)
  -- Crossings, mesh, system scope, copy engines (R153-R171, R229, R230)
  | inboundRowIssue (k j : Nat) (port : BitVec 3)
  | inboundRowReady (k j : Nat) (port : BitVec 3)
  | outboundRowApply (k id : Nat)
  | xinGranuleLanding (k id : Nat)
  | xoutApply (k id : Nat)
  | meshLanding (k id : Nat)
  | mailboxLanding (k id : Nat)
  | systemResultArrival (id : Nat) (bytes : List Byte) (seen : List Nat)
  | remoteApply (id : Nat)
  | systemAcknowledge (id : Nat)
  | copyCommandStart (k id : Nat)
  | copyCommandPost (k id : Nat)
  | routineComplete (k id : Nat)
  | dedupRemapService (k id : Nat)
  | watchImpreciseFreeze (k : Nat)
  | nvmeDriveLost (drive : BitVec 1)
  | ptpLock (locked : Bool)
  deriving DecidableEq, Repr

end Sys2Proof
end

