-- ==== Sys2Proof/WellFormed.lean ====
section
/-! DEFINITION. The limits that R275 puts on an instruction beyond the shape of its word: a word that breaks one is no
instruction. Every limit here is a limit on the word alone; limits that need the core's state are checked at issue. -/

namespace Sys2Proof

/-- Width of an element in bits (R242). -/
def Fmt.width : Fmt → Nat
  | .int4 | .uint4 | .nq4 | .e2m1 => 4
  | .int8 | .uint8 | .e4m3 | .e5m2 => 8
  | .int16 | .f16 | .b16 => 16
  | .f32 | .int32 => 32
  | .f64 | .int64 => 64

/-- Elements per row for the position field: an accumulator or a 32-bit format has 64 (R284). -/
def Fmt.perRow (f : Fmt) : Nat := 2048 / f.width

/-- vcvt and vnarrow take no NQ4 and no INT64 (R284). -/
def Fmt.convertible : Fmt → Bool
  | .nq4 | .int64 => false
  | _ => true

/-- The position lies below max / min of the element counts (R284). -/
def posOk (ns nd : Nat) (pos : BitVec 3) : Bool := pos.toNat < max ns nd / min ns nd

def VFmt.isInt : VFmt → Bool
  | .int32 | .int16x2 | .int8x4 => true
  | _ => false

def VlogicFn.isShift : VlogicFn → Bool
  | .shl | .shr | .sra => true
  | _ => false

/-- fn 6 and 7 compare integers only, fn 8 floats only (R343). -/
def VcmpFn.okIn (fn : VcmpFn) (fmt : VFmt) : Bool :=
  match fn with
  | .ltu | .geu => fmt.isInt
  | .uno => !fmt.isInt
  | _ => true

def SfuFn.fmtOk : VFmt → Bool
  | .f32 | .f16x2 | .b16x2 => true
  | _ => false

def VredFmt.ok : VFmt → Bool
  | .f32 | .int32 | .f64 => true
  | _ => false

/-- A rotation or broadcast by column axis names one of 16 rows (R351, R352). -/
def axisOk (axis : Axis) (amount : BitVec 6) : Bool := axis == .row || amount.toNat < 16

/-- The destination formats of mread (R286). -/
def Fmt.mreadOk : Fmt → Bool
  | .nq4 | .f64 | .int64 => false
  | _ => true

/-- A source that is a port has gy and gx zero (R286). -/
def srcOk (src : BitVec 4) (gy gx : BitVec 5) : Bool := 8 ≤ src.toNat || (gy == 0 && gx == 0)

/-- The limits of R275 on one instruction. -/
def Instr.wf : Instr → Bool
  | .alu _ _ _ rb _ fn => (fn != .clz && fn != .popc) || rb == 0
  | .alui _ _ _ fn imm => (fn != .slli && fn != .srli && fn != .srai) || imm.toNat < 64
  | .loopImm _ _ n | .loopLc _ _ n | .vloopImm _ _ n | .vloopLc _ _ n
  | .mloopImm _ _ n | .mloopLc _ _ n | .xloopImm _ _ n | .xloopLc _ _ n => n != 0
  | .align _ k c => k.toNat ≤ 12 && c.toNat < 2 ^ k.toNat
  | .varith _ _ _ sb sc _ _ fn =>
    (fn == .fma || fn == .fms || sc == 0) && ((fn != .abs && fn != .neg) || sb == 0)
  | .vlogic _ _ _ _ _ fmt fn => !fn.isShift || fmt.isInt
  | .vcmp _ _ _ _ _ fmt fn => fn.okIn fmt
  | .vcvt _ _ _ src dst _ _ _ pos => src.convertible && dst.convertible && posOk src.perRow dst.perRow pos
  | .vnarrow _ _ _ _ dst _ _ _ pos => dst.convertible && posOk 64 dst.perRow pos
  | .vsfu _ _ _ _ fmt _ => SfuFn.fmtOk fmt
  | .vrot _ _ _ axis amount _ _ | .vbc _ _ _ axis amount _ _ => axisOk axis amount
  | .vred _ _ _ _ _ fmt => VredFmt.ok fmt
  | .ksetBox _ _ ncol nrow => ncol.toNat ≤ 64 && nrow.toNat ≤ 16
  | .ldsw _ src gy gx => srcOk src gy gx
  | .mma _ src ad _ gy gx ovr m =>
    srcOk src gy gx && (if ovr then m.toNat + 1 ≤ 16 * (4 - ad.toNat) else m == 0)
  | .mread _ _ _ dst _ _ first rows => dst.mreadOk && first.toNat + rows.toNat + 1 ≤ 16
  | .xbind _ port _ _ len _ _ out => !out || (port.toNat < 4 && !len)
  | .xfree _ port out => !out || port.toNat < 4
  | _ => true

end Sys2Proof
end

