-- ==== Sys2Proof/Decode.lean ====
section
/-! DEFINITION. Decoding of the 32-bit words of the four streams (R274-R289) and the encoder, from the same tables. -/

namespace Sys2Proof

/-- Field [lo + len - 1 : lo] of a word (R3). -/
def fld (w : W32) (lo len : Nat) : BitVec len := w.extractLsb' lo len

/-- The field [lo + len - 1 : lo] of a word is zero: the fields that the tables mark 0 (R275). -/
def zero (w : W32) (lo len : Nat) : Bool := w.extractLsb' lo len == 0

/-- A one-bit field as a truth value. -/
def bitOf (w : W32) (lo : Nat) : Bool := w.getLsbD lo

/-! Codes of the enumerated fields: value `n` is entry `n` of the table (R280-R288, R242, R281). -/

def AluFn.all : List AluFn := [.add, .sub, .and, .or, .xor, .andn, .sll, .srl, .sra, .slt, .sltu, .seq,
  .min, .max, .minu, .maxu, .sel, .clz, .popc]
def AluFn.code (f : AluFn) : BitVec 7 := BitVec.ofNat 7 f.ctorIdx
def MulFn.all : List MulFn := [.mul, .mulh, .mulhu, .div, .divu, .rem, .remu]
def MulFn.code (f : MulFn) : BitVec 7 := BitVec.ofNat 7 f.ctorIdx
def AluiFn.all : List AluiFn := [.addi, .andi, .ori, .xori, .slli, .srli, .srai, .slti]
def AluiFn.code (f : AluiFn) : BitVec 3 := BitVec.ofNat 3 f.ctorIdx
def Cond.all : List Cond := [.eq, .ne, .lt, .ge, .ltu, .geu]
def Cond.code (f : Cond) : BitVec 3 := BitVec.ofNat 3 f.ctorIdx
def LogOp.all : List LogOp := [.and, .or, .xor, .andn, .orn, .nand, .nor, .xnor]
def LogOp.code (f : LogOp) : BitVec 3 := BitVec.ofNat 3 f.ctorIdx
def LdSize.all : List LdSize := [.b, .bu, .h, .hu, .w, .wu, .d]
def LdSize.code (f : LdSize) : BitVec 3 := BitVec.ofNat 3 f.ctorIdx
def Width.all : List Width := [.b, .h, .w, .d]
def Width.code (f : Width) : BitVec 2 := BitVec.ofNat 2 f.ctorIdx
def Scope.all : List Scope := [.core, .clu, .mod, .sys]
def Scope.code (f : Scope) : BitVec 2 := BitVec.ofNat 2 f.ctorIdx
def Order.all : List Order := [.rlx, .acq, .rel, .ar]
def Order.code (f : Order) : BitVec 2 := BitVec.ofNat 2 f.ctorIdx
def AmoFn.all : List AmoFn := [.add, .and, .or, .xor, .min, .max, .minu, .maxu, .swap]
def AmoFn.code (f : AmoFn) : BitVec 4 := BitVec.ofNat 4 f.ctorIdx
def AmofFn.all : List AmofFn := [.fadd, .fmin, .fmax]
def AmofFn.code (f : AmofFn) : BitVec 4 := BitVec.ofNat 4 f.ctorIdx
def FenceKind.all : List FenceKind := [.acq, .rel, .sc]
def FenceKind.code (f : FenceKind) : BitVec 4 := BitVec.ofNat 4 f.ctorIdx
def WaitKind.all : List WaitKind := [.chk, .dwl]
def WaitKind.code (f : WaitKind) : BitVec 4 := BitVec.ofNat 4 f.ctorIdx
def VFmt.all : List VFmt := [.f32, .int32, .f64, .f16x2, .b16x2, .int16x2, .int8x4]
def VFmt.code (f : VFmt) : BitVec 3 := BitVec.ofNat 3 f.ctorIdx
def VarithFn.all : List VarithFn := [.add, .sub, .mul, .fma, .fms, .min, .max, .abs, .neg]
def VarithFn.code (f : VarithFn) : BitVec 4 := BitVec.ofNat 4 f.ctorIdx
def VlogicFn.all : List VlogicFn := [.and, .or, .xor, .shl, .shr, .sra]
def VlogicFn.code (f : VlogicFn) : BitVec 4 := BitVec.ofNat 4 f.ctorIdx
def VcmpFn.all : List VcmpFn := [.eq, .ne, .lt, .le, .gt, .ge, .ltu, .geu, .uno]
def VcmpFn.code (f : VcmpFn) : BitVec 4 := BitVec.ofNat 4 f.ctorIdx
def SfuFn.all : List SfuFn := [.rsq, .rcp, .ex2, .lg2]
def SfuFn.code (f : SfuFn) : BitVec 4 := BitVec.ofNat 4 f.ctorIdx
def Rnd.all : List Rnd := [.rne, .rtz, .rdn, .rup, .rdi]
def Rnd.code (f : Rnd) : BitVec 3 := BitVec.ofNat 3 f.ctorIdx
def Fmt.all : List Fmt := [.int4, .uint4, .nq4, .e2m1, .int8, .uint8, .e4m3, .e5m2, .int16, .f16, .b16, .f32,
  .int32, .f64, .int64]
def Fmt.code (f : Fmt) : BitVec 4 := BitVec.ofNat 4 f.ctorIdx
/-- The format of a code; 0xF is reserved (R242). -/
def Fmt.ofCode (c : BitVec 4) : Option Fmt := Fmt.all[c.toNat]?
def Axis.ofBit (b : Bool) : Axis := if b then .col else .row
def Axis.code (a : Axis) : BitVec 1 := if a = .col then 1 else 0
def CSpace.ofBit (b : Bool) : CSpace := if b then .pool else .cold
def CSpace.code (c : CSpace) : BitVec 1 := if c = .pool then 1 else 0

/-- A value that a condition on zero fields guards. -/
def onlyIf {α : Type} (c : Bool) (o : Option α) : Option α := if c then o else none

/-- The S stream (R277-R280). -/
def decodeS (w : W32) : Option Instr :=
  let g := fld w 25 2
  let rd := fld w 20 5
  let ra := fld w 15 5
  let rb := fld w 10 5
  let p := fld w 7 3
  let sub := (fld w 16 4).toNat
  let noR := zero w 20 5
  match (fld w 27 5).toNat with
  | 0x00 => onlyIf (zero w 0 25) (some (.nop g))
  | 0x01 => (AluFn.all[(fld w 0 7).toNat]?).map (.alu g rd ra rb p ·)
  | 0x02 => (MulFn.all[(fld w 0 7).toNat]?).map (.muldiv g rd ra rb p ·)
  | 0x03 => (AluiFn.all[(fld w 12 3).toNat]?).map (.alui g rd ra · (fld w 0 12))
  | 0x04 => some (.lih g rd (fld w 0 20))
  | 0x05 => onlyIf (zero w 0 9) ((Cond.all[(fld w 9 3).toNat]?).map (.pcmp g (fld w 22 3) (fld w 17 5) (fld w 12 5) ·))
  | 0x06 => onlyIf (zero w 0 3 && zero w 12 10)
      ((LogOp.all[(fld w 9 3).toNat]?).map (.plog g (fld w 22 3) · (fld w 6 3) (fld w 3 3)))
  | 0x07 => (LdSize.all[(fld w 12 3).toNat]?).map (.ldc g rd ra · (fld w 0 12))
  | 0x08 => (LdSize.all[(fld w 12 3).toNat]?).map (.ldp g rd ra · (fld w 0 12))
  | 0x09 => (Width.all[(fld w 10 2).toNat]?).map (.stc g (fld w 22 3) (fld w 17 5) (fld w 12 5) · (fld w 0 10))
  | 0x0A => (Width.all[(fld w 10 2).toNat]?).map (.stp g (fld w 22 3) (fld w 17 5) (fld w 12 5) · (fld w 0 10))
  | 0x0B => onlyIf (zero w 14 1) do
      let wd ← Width.all[(fld w 15 2).toNat]?
      let sc ← Scope.all[(fld w 11 2).toNat]?
      some (.wld g (fld w 22 3) (fld w 17 5) wd (bitOf w 13) sc (fld w 0 11))
  | 0x0C => onlyIf (zero w 8 1) do
      let wd ← Width.all[(fld w 10 2).toNat]?
      let sc ← Scope.all[(fld w 6 2).toNat]?
      some (.wst g (fld w 22 3) (fld w 17 5) (fld w 12 5) wd (bitOf w 9) sc (fld w 0 6))
  | 0x0D => onlyIf (zero w 18 2 && zero w 10 5 && zero w 0 7) (some (.mmv g rd (fld w 15 3) p))
  | 0x0E => onlyIf (zero w 23 2 && bitOf w 1) do
      let op ← AmoFn.all[(fld w 6 4).toNat]?
      let sc ← Scope.all[(fld w 4 2).toNat]?
      let o ← Order.all[(fld w 2 2).toNat]?
      some (.amo g (fld w 20 3) ra rb op sc o (bitOf w 0))
  | 0x0F => onlyIf (zero w 23 2 && zero w 10 1 && zero w 6 4 && bitOf w 1) do
      let sc ← Scope.all[(fld w 4 2).toNat]?
      let o ← Order.all[(fld w 2 2).toNat]?
      some (.amocas g (fld w 20 3) ra (fld w 11 4) sc o (bitOf w 0))
  | 0x10 => onlyIf (zero w 23 2 && bitOf w 1) do
      let op ← AmofFn.all[(fld w 6 4).toNat]?
      let sc ← Scope.all[(fld w 4 2).toNat]?
      let o ← Order.all[(fld w 2 2).toNat]?
      some (.amof g (fld w 20 3) ra rb op sc o (bitOf w 0))
  | 0x11 => (Cond.all[(fld w 12 3).toNat]?).map (.b g rd ra · (fld w 0 12))
  | 0x12 => onlyIf noR (some (.j g (fld w 0 20)))
  | 0x13 => some (.jal g rd (fld w 0 20))
  | 0x14 => onlyIf (zero w 12 3) (some (.jalr g rd ra (fld w 0 12)))
  | 0x15 => if bitOf w 24 then some (.loopImm g (fld w 12 12) (fld w 0 12))
      else onlyIf (zero w 12 10) (some (.loopLc g (fld w 22 2) (fld w 0 12)))
  | 0x16 => onlyIf (zero w 14 2) (match sub with
      | 0 => onlyIf (zero w 0 12) (some (.lcsetReg g rd (fld w 12 2)))
      | 1 => onlyIf noR (some (.lcsetImm g (fld w 12 2) (fld w 0 12)))
      | _ => none)
  | 0x17 => some (.gapl g (fld w 0 25))
  | 0x18 => onlyIf (noR && zero w 14 2 && zero w 0 12) do
      let kd ← FenceKind.all[sub]?
      let sc ← Scope.all[(fld w 12 2).toNat]?
      some (.fence g kd sc)
  | 0x19 => onlyIf (zero w 15 1) ((WaitKind.all[sub]?).map (.wait g rd · (fld w 12 3) (fld w 0 12)))
  | 0x1A => onlyIf (noR && zero w 15 5 && zero w 0 12) (some (.bar g (fld w 12 3)))
  | 0x1B => onlyIf (noR && zero w 15 1) (match sub with
      | 0 => onlyIf (zero w 0 12) (some (.tokPost g (fld w 12 3)))
      | 1 => some (.tokExpect g (fld w 12 3) (fld w 0 12))
      | _ => none)
  | 0x1C => onlyIf (noR && zero w 16 4) (some (.align g (fld w 12 4) (fld w 0 12)))
  | 0x1D => onlyIf noR (match sub with
      | 0 => onlyIf (zero w 12 4) (some (.ckpt g (fld w 0 12)))
      | 1 => some (.ckptOvl g (fld w 12 4) (fld w 0 12))
      | _ => none)
  | 0x1E => match (fld w 0 2).toNat with
      | 0 => onlyIf (zero w 2 3) (some (.sethImm g (fld w 21 4) (fld w 5 16)))
      | 1 => onlyIf (zero w 2 14) (some (.sethReg g (fld w 21 4) (fld w 16 5)))
      | 2 => some (.spat g (fld w 19 6) (fld w 14 5) (fld w 2 12))
      | _ => none
  | 0x1F => onlyIf (zero w 12 4) (match sub with
      | 0 => some (.srd g rd (fld w 0 12))
      | 1 => some (.swr g rd (fld w 0 12))
      | 2 => onlyIf noR (some (.trap g (fld w 0 12)))
      | 3 => onlyIf (noR && zero w 0 12) (some (.halt g))
      | _ => none)
  | _ => none

/-- The loop, gap and token forms of V, M and X: `i` is 0 for the loop, 1 for the gap, 2 for the token (R289). -/
def decodeForm (w : W32) (i : Nat) (loopI : BitVec 12 → BitVec 12 → Instr)
    (loopL : BitVec 2 → BitVec 12 → Instr) (gap : BitVec 25 → Instr)
    (post : BitVec 3 → Instr) (expect : BitVec 3 → BitVec 12 → Instr) : Option Instr :=
  match i with
  | 0 => if bitOf w 24 then some (loopI (fld w 12 12) (fld w 0 12))
      else onlyIf (zero w 12 10) (some (loopL (fld w 22 2) (fld w 0 12)))
  | 1 => some (gap (fld w 0 25))
  | _ => onlyIf (zero w 20 5 && zero w 15 1) (match (fld w 16 4).toNat with
      | 0 => onlyIf (zero w 0 12) (some (post (fld w 12 3)))
      | 1 => some (expect (fld w 12 3) (fld w 0 12))
      | _ => none)

/-- The V stream (R282, R283). -/
def decodeV (w : W32) : Option Instr :=
  let g := fld w 25 2
  let vd := fld w 22 3
  let sa := fld w 18 4
  let sb := fld w 14 4
  let sc := fld w 10 4
  let k := fld w 7 3
  let fmt := VFmt.all[(fld w 4 3).toNat]?
  let vm (mk : CSpace → Instr) : Option Instr :=
    onlyIf (zero w 3 2) (match (fld w 0 3).toNat with
      | 0 => some (mk .cold)
      | 1 => some (mk .pool)
      | _ => none)
  match (fld w 27 5).toNat with
  | 0x00 => onlyIf (zero w 0 25) (some (.nop g))
  | 0x01 => do
      let f ← fmt
      let fn ← VarithFn.all[(fld w 0 4).toNat]?
      some (.varith g vd sa sb sc k f fn)
  | 0x02 => onlyIf (zero w 10 4) do
      let f ← fmt
      let fn ← VlogicFn.all[(fld w 0 4).toNat]?
      some (.vlogic g vd sa sb k f fn)
  | 0x03 => onlyIf (zero w 10 4) do
      let f ← fmt
      let fn ← VcmpFn.all[(fld w 0 4).toNat]?
      some (.vcmp g vd sa sb k f fn)
  | 0x04 => onlyIf (zero w 10 4 && zero w 0 4) (fmt.map (.vsel g vd sa sb k ·))
  | 0x05 => do
      let s ← Fmt.ofCode (fld w 14 4)
      let d ← Fmt.ofCode (fld w 10 4)
      let r ← Rnd.all[(fld w 7 3).toNat]?
      some (.vcvt g vd sa s d r (bitOf w 6) (fld w 3 3) (fld w 0 3))
  | 0x06 => onlyIf (zero w 20 2) do
      let s ← Fmt.ofCode (fld w 14 4)
      let d ← Fmt.ofCode (fld w 10 4)
      let r ← Rnd.all[(fld w 7 3).toNat]?
      onlyIf (s == .f64 || s == .int64)
        (some (.vnarrow g vd (fld w 18 2) (s == .int64) d r (bitOf w 6) (fld w 3 3) (fld w 0 3)))
  | 0x07 => onlyIf (zero w 10 8) do
      let f ← fmt
      let fn ← SfuFn.all[(fld w 0 4).toNat]?
      some (.vsfu g vd sa k f fn)
  | 0x08 => onlyIf (zero w 0 5)
      ((VFmt.all[(fld w 5 3).toNat]?).map (.vrot g vd sa (Axis.ofBit (bitOf w 17)) (fld w 11 6) (fld w 8 3) ·))
  | 0x09 => onlyIf (zero w 0 5)
      ((VFmt.all[(fld w 5 3).toNat]?).map (.vbc g vd sa (Axis.ofBit (bitOf w 17)) (fld w 11 6) (fld w 8 3) ·))
  | 0x0A => onlyIf (zero w 0 5 && zero w 11 6)
      ((VFmt.all[(fld w 5 3).toNat]?).map (.vred g vd sa (Axis.ofBit (bitOf w 17)) (fld w 8 3) ·))
  | 0x0B => vm (.vld g vd sa (fld w 13 5) (fld w 8 5) (fld w 5 3) ·)
  | 0x0C => vm (.vst g vd sa (fld w 13 5) (fld w 8 5) (fld w 5 3) ·)
  | 0x0D => vm (.vgath g vd sa (fld w 13 5) (fld w 8 5) (fld w 5 3) ·)
  | 0x0E => onlyIf (zero w 13 9 && zero w 1 4) (some (.vsplat g vd (fld w 8 5) (fld w 5 3) (bitOf w 0)))
  | 0x0F => onlyIf (zero w 20 2 && zero w 8 10 && zero w 0 5) (some (.vput g vd (fld w 18 2) (fld w 5 3)))
  | 0x10 => onlyIf (zero w 21 1 && zero w 8 10 && zero w 0 5) (some (.vpop g vd (fld w 18 3) (fld w 5 3)))
  | 0x11 => match (fld w 0 3).toNat with
      | 0 => onlyIf (zero w 3 7) (some (.ksetBox g vd (fld w 15 7) (fld w 10 5)))
      | 1 => onlyIf (zero w 13 9 && zero w 3 5) (some (.ksetReg g vd (fld w 8 5)))
      | _ => none
  | 0x12 => onlyIf (zero w 21 1 && zero w 17 1 && zero w 3 11)
      ((LogOp.all[(fld w 0 3).toNat]?).map (.klog g vd (fld w 18 3) (fld w 14 3) ·))
  | 0x13 => decodeForm w 0 (.vloopImm g) (.vloopLc g) (.vgap g) (.vtkPost g) (.vtkExpect g)
  | 0x14 => decodeForm w 1 (.vloopImm g) (.vloopLc g) (.vgap g) (.vtkPost g) (.vtkExpect g)
  | 0x15 => decodeForm w 2 (.vloopImm g) (.vloopLc g) (.vgap g) (.vtkPost g) (.vtkExpect g)
  | _ => none

/-- The M stream (R285, R286). -/
def decodeM (w : W32) : Option Instr :=
  let g := fld w 25 2
  match (fld w 27 5).toNat with
  | 0x00 => onlyIf (zero w 0 25) (some (.nop g))
  | 0x01 => onlyIf (zero w 0 7) (some (.tcfg g (fld w 19 6) (fld w 17 2) (fld w 15 2) (fld w 11 4) (fld w 7 4)))
  | 0x02 => onlyIf (zero w 0 11) (some (.ldsw g (fld w 21 4) (fld w 16 5) (fld w 11 5)))
  | 0x03 => onlyIf (zero w 0 25) (some (.swap g))
  | 0x04 => onlyIf (zero w 0 1)
      (some (.mma g (fld w 21 4) (fld w 19 2) (bitOf w 18) (fld w 13 5) (fld w 8 5) (bitOf w 7) (fld w 1 6)))
  | 0x05 => onlyIf (zero w 21 4 && zero w 0 19) (some (.mzero g (fld w 19 2)))
  | 0x06 => onlyIf (zero w 0 5) do
      let d ← Fmt.ofCode (fld w 17 4)
      let r ← Rnd.all[(fld w 14 3).toNat]?
      some (.mread g (fld w 23 2) (fld w 21 2) d r (bitOf w 13) (fld w 9 4) (fld w 5 4))
  | 0x07 => onlyIf (bitOf w 24 && zero w 0 11) (some (.mscl g (fld w 21 3) (fld w 16 5) (fld w 11 5)))
  | 0x08 => decodeForm w 0 (.mloopImm g) (.mloopLc g) (.mgap g) (.mtkPost g) (.mtkExpect g)
  | 0x09 => decodeForm w 1 (.mloopImm g) (.mloopLc g) (.mgap g) (.mtkPost g) (.mtkExpect g)
  | 0x0A => decodeForm w 2 (.mloopImm g) (.mloopLc g) (.mgap g) (.mtkPost g) (.mtkExpect g)
  | _ => none

/-- The X stream (R287, R288). -/
def decodeX (w : W32) : Option Instr :=
  let g := fld w 25 2
  let pat := fld w 19 6
  let tc := fld w 16 3
  let sp := CSpace.ofBit (bitOf w 15)
  match (fld w 27 5).toNat with
  | 0x00 => onlyIf (zero w 0 25) (some (.nop g))
  | 0x01 => onlyIf (zero w 0 1)
      (some (.xbind g (fld w 22 3) (fld w 16 6) (fld w 13 3) (bitOf w 12) (fld w 7 5) (fld w 2 5) (bitOf w 1)))
  | 0x02 => onlyIf (zero w 2 20 && zero w 0 1) (some (.xfree g (fld w 22 3) (bitOf w 1)))
  | 0x03 => onlyIf (zero w 8 17) (some (.xmode g (fld w 0 8)))
  | 0x04 => some (.xin g pat tc sp (fld w 0 15))
  | 0x05 => some (.xout g pat tc sp (fld w 0 15))
  | 0x06 => some (.xcmv g pat tc sp (fld w 0 15))
  | 0x07 => onlyIf (zero w 13 6 && zero w 1 3) (some (.xpref g pat (fld w 10 3) (fld w 4 6) (bitOf w 0)))
  | 0x08 => onlyIf (zero w 3 1) (some (.xcopy g pat (fld w 13 6) (fld w 10 3) (fld w 4 6) (fld w 0 3)))
  | 0x09 => onlyIf (zero w 3 1) (some (.xded g pat (fld w 13 6) (fld w 10 3) (fld w 4 6) (fld w 0 3)))
  | 0x0A => onlyIf (zero w 19 6 && zero w 0 16) (some (.xpost g tc))
  | 0x0B => decodeForm w 0 (.xloopImm g) (.xloopLc g) (.xgap g) (.xtkPost g) (.xtkExpect g)
  | 0x0C => decodeForm w 1 (.xloopImm g) (.xloopLc g) (.xgap g) (.xtkPost g) (.xtkExpect g)
  | 0x0D => decodeForm w 2 (.xloopImm g) (.xloopLc g) (.xgap g) (.xtkPost g) (.xtkExpect g)
  | _ => none

/-- The instruction of a word in a stream, or none where the word is no instruction (R275). -/
def decode (st : Stream) (w : W32) : Option Instr :=
  (match st with
    | .s => decodeS w
    | .v => decodeV w
    | .m => decodeM w
    | .x => decodeX w).filter Instr.wf

/-- Why a word is no instruction: what `decode` rejects, by name (R275). -/
inductive Reject where
  /-- MAJ, a function field or a field that must be zero has a value that the stream's table does not list. -/
  | unassigned (st : Stream) (w : W32)
  /-- The fields are assigned and break a limit of the instruction. -/
  | limit (i : Instr)
  deriving DecidableEq, Repr

/-- Decoding with the reason of a rejection. -/
def decodeOrReject (st : Stream) (w : W32) : Except Reject Instr :=
  match (match st with
    | .s => decodeS w
    | .v => decodeV w
    | .m => decodeM w
    | .x => decodeX w) with
  | none => .error (.unassigned st w)
  | some i => if i.wf then .ok i else .error (.limit i)

/-! The encoder, from the same tables. -/

/-- A word from its MAJ, its GAP and its 25-bit body (R274). -/
def word (maj : BitVec 5) (g : BitVec 2) (body : BitVec 25) : W32 := maj ++ g ++ body

def Bool.bit (b : Bool) : BitVec 1 := BitVec.ofBool b

/-- SX: r, sub, arg, imm12 (R279). -/
def sx (maj : BitVec 5) (g : BitVec 2) (r : BitVec 5) (sub arg : BitVec 4) (imm : BitVec 12) : W32 :=
  word maj g (r ++ sub ++ arg ++ imm)

def loopI (maj : BitVec 5) (g : BitVec 2) (c n : BitVec 12) : W32 := word maj g (1#1 ++ c ++ n)
def loopL (maj : BitVec 5) (g : BitVec 2) (lc : BitVec 2) (n : BitVec 12) : W32 := word maj g (0#1 ++ lc ++ 0#10 ++ n)
def tokP (maj : BitVec 5) (g : BitVec 2) (c : BitVec 3) : W32 := sx maj g 0 0 (0#1 ++ c) 0
def tokE (maj : BitVec 5) (g : BitVec 2) (c : BitVec 3) (d : BitVec 12) : W32 := sx maj g 0 1 (0#1 ++ c) d

/-- SA: mailbox, address, value, op, scope, order, width (R278). -/
def sa (maj : BitVec 5) (g : BitVec 2) (m : BitVec 3) (ra rb : BitVec 5) (op : BitVec 4) (sc o : BitVec 2) (dbl : Bool) :
    W32 := word maj g (0#2 ++ m ++ ra ++ rb ++ op ++ sc ++ o ++ 1#1 ++ BitVec.ofBool dbl)

/-- The word of an encoded instruction; events have none. -/
def encode : Instr → Option W32
  | .nop g => some (word 0x00 g 0)
  | .alu g rd ra rb p fn => some (word 0x01 g (rd ++ ra ++ rb ++ p ++ fn.code))
  | .muldiv g rd ra rb p fn => some (word 0x02 g (rd ++ ra ++ rb ++ p ++ fn.code))
  | .alui g rd ra fn imm => some (word 0x03 g (rd ++ ra ++ fn.code ++ imm))
  | .lih g rd imm => some (word 0x04 g (rd ++ imm))
  | .pcmp g pd ra rb c => some (word 0x05 g (pd ++ ra ++ rb ++ c.code ++ 0#9))
  | .plog g pd op pa pb => some (word 0x06 g (pd ++ 0#10 ++ op.code ++ pa ++ pb ++ 0#3))
  | .ldc g rd ra sz imm => some (word 0x07 g (rd ++ ra ++ sz.code ++ imm))
  | .ldp g rd ra sz imm => some (word 0x08 g (rd ++ ra ++ sz.code ++ imm))
  | .stc g p rs ra wd imm => some (word 0x09 g (p ++ rs ++ ra ++ wd.code ++ imm))
  | .stp g p rs ra wd imm => some (word 0x0A g (p ++ rs ++ ra ++ wd.code ++ imm))
  | .wld g m ra wd acq sc imm => some (word 0x0B g (m ++ ra ++ wd.code ++ 0#1 ++ BitVec.ofBool acq ++ sc.code ++ imm))
  | .wst g p rs ra wd rel sc imm => some (word 0x0C g (p ++ rs ++ ra ++ wd.code ++ BitVec.ofBool rel ++ 0#1 ++ sc.code ++ imm))
  | .mmv g rd m p => some (word 0x0D g (rd ++ 0#2 ++ m ++ 0#5 ++ p ++ 0#7))
  | .amo g m ra rb op sc o dbl => some (sa 0x0E g m ra rb op.code sc.code o.code dbl)
  | .amocas g m ra rb sc o dbl => some (sa 0x0F g m ra (rb ++ 0#1) 0 sc.code o.code dbl)
  | .amof g m ra rb op sc o dbl => some (sa 0x10 g m ra rb op.code sc.code o.code dbl)
  | .b g ra rb c off => some (word 0x11 g (ra ++ rb ++ c.code ++ off))
  | .j g off => some (word 0x12 g (0#5 ++ off))
  | .jal g rd off => some (word 0x13 g (rd ++ off))
  | .jalr g rd ra imm => some (word 0x14 g (rd ++ ra ++ 0#3 ++ imm))
  | .loopImm g c n => some (loopI 0x15 g c n)
  | .loopLc g lc n => some (loopL 0x15 g lc n)
  | .lcsetReg g r lc => some (sx 0x16 g r 0 (0#2 ++ lc) 0)
  | .lcsetImm g lc imm => some (sx 0x16 g 0 1 (0#2 ++ lc) imm)
  | .gapl g f => some (word 0x17 g f)
  | .fence g kd sc => some (sx 0x18 g 0 kd.code (0#2 ++ sc.code) 0)
  | .wait g r kd tc imm => some (sx 0x19 g r kd.code (0#1 ++ tc) imm)
  | .bar g b => some (sx 0x1A g 0 0 (0#1 ++ b) 0)
  | .tokPost g c => some (tokP 0x1B g c)
  | .tokExpect g c d => some (tokE 0x1B g c d)
  | .align g k c => some (sx 0x1C g 0 0 k c)
  | .ckpt g tab => some (sx 0x1D g 0 0 0 tab)
  | .ckptOvl g ovl tab => some (sx 0x1D g 0 1 ovl tab)
  | .sethImm g h tid => some (word 0x1E g (h ++ tid ++ 0#3 ++ 0#2))
  | .sethReg g h ra => some (word 0x1E g (h ++ ra ++ 0#14 ++ 1#2))
  | .spat g pat ra imm => some (word 0x1E g (pat ++ ra ++ imm ++ 2#2))
  | .srd g r num => some (sx 0x1F g r 0 0 num)
  | .swr g r num => some (sx 0x1F g r 1 0 num)
  | .trap g n => some (sx 0x1F g 0 2 0 n)
  | .halt g => some (sx 0x1F g 0 3 0 0)
  | .varith g vd sa sb sc k f fn => some (word 0x01 g (vd ++ sa ++ sb ++ sc ++ k ++ f.code ++ fn.code))
  | .vlogic g vd sa sb k f fn => some (word 0x02 g (vd ++ sa ++ sb ++ 0#4 ++ k ++ f.code ++ fn.code))
  | .vcmp g vd sa sb k f fn => some (word 0x03 g (vd ++ sa ++ sb ++ 0#4 ++ k ++ f.code ++ fn.code))
  | .vsel g vd sa sb k f => some (word 0x04 g (vd ++ sa ++ sb ++ 0#4 ++ k ++ f.code ++ 0#4))
  | .vcvt g vd sa s d r sat k pos => some (word 0x05 g (vd ++ sa ++ s.code ++ d.code ++ r.code ++ BitVec.ofBool sat ++ k ++ pos))
  | .vnarrow g vd a int d r sat k pos => some (word 0x06 g (vd ++ 0#2 ++ a ++ (if int then Fmt.int64 else Fmt.f64).code
      ++ d.code ++ r.code ++ BitVec.ofBool sat ++ k ++ pos))
  | .vsfu g vd sa k f fn => some (word 0x07 g (vd ++ sa ++ 0#8 ++ k ++ f.code ++ fn.code))
  | .vrot g vd sa ax am k f => some (word 0x08 g (vd ++ sa ++ ax.code ++ am ++ k ++ f.code ++ 0#5))
  | .vbc g vd sa ax am k f => some (word 0x09 g (vd ++ sa ++ ax.code ++ am ++ k ++ f.code ++ 0#5))
  | .vred g vd sa ax k f => some (word 0x0A g (vd ++ sa ++ ax.code ++ 0#6 ++ k ++ f.code ++ 0#5))
  | .vld g v h gy gx k sp => some (word 0x0B g (v ++ h ++ gy ++ gx ++ k ++ 0#4 ++ sp.code))
  | .vst g v h gy gx k sp => some (word 0x0C g (v ++ h ++ gy ++ gx ++ k ++ 0#4 ++ sp.code))
  | .vgath g v h gy gx k sp => some (word 0x0D g (v ++ h ++ gy ++ gx ++ k ++ 0#4 ++ sp.code))
  | .vsplat g vd r k dbl => some (word 0x0E g (vd ++ 0#9 ++ r ++ k ++ 0#4 ++ BitVec.ofBool dbl))
  | .vput g v p k => some (word 0x0F g (v ++ 0#2 ++ p ++ 0#10 ++ k ++ 0#5))
  | .vpop g v p k => some (word 0x10 g (v ++ 0#1 ++ p ++ 0#10 ++ k ++ 0#5))
  | .ksetBox g kd nc nr => some (word 0x11 g (kd ++ nc ++ nr ++ 0#10))
  | .ksetReg g kd r => some (word 0x11 g (kd ++ 0#9 ++ r ++ 0#5 ++ 1#3))
  | .klog g kd ka kb op => some (word 0x12 g (kd ++ 0#1 ++ ka ++ 0#1 ++ kb ++ 0#11 ++ op.code))
  | .vloopImm g c n => some (loopI 0x13 g c n)
  | .vloopLc g lc n => some (loopL 0x13 g lc n)
  | .vgap g f => some (word 0x14 g f)
  | .vtkPost g c => some (tokP 0x15 g c)
  | .vtkExpect g c d => some (tokE 0x15 g c d)
  | .tcfg g m n k fa fw => some (word 0x01 g (m ++ n ++ k ++ fa ++ fw ++ 0#7))
  | .ldsw g src gy gx => some (word 0x02 g (src ++ gy ++ gx ++ 0#11))
  | .swap g => some (word 0x03 g 0)
  | .mma g src ad acc gy gx ovr m => some (word 0x04 g (src ++ ad ++ BitVec.ofBool acc ++ gy ++ gx ++ BitVec.ofBool ovr ++ m ++ 0#1))
  | .mzero g ad => some (word 0x05 g (0#4 ++ ad ++ 0#19))
  | .mread g a p d r sat first rows => some (word 0x06 g (a ++ p ++ d.code ++ r.code ++ BitVec.ofBool sat ++ first ++ rows ++ 0#5))
  | .mscl g h gy gx => some (word 0x07 g (1#1 ++ h ++ gy ++ gx ++ 0#11))
  | .mloopImm g c n => some (loopI 0x08 g c n)
  | .mloopLc g lc n => some (loopL 0x08 g lc n)
  | .mgap g f => some (word 0x09 g f)
  | .mtkPost g c => some (tokP 0x0A g c)
  | .mtkExpect g c d => some (tokE 0x0A g c d)
  | .xbind g port pat tc len gx gy out => some (word 0x01 g (port ++ pat ++ tc ++ BitVec.ofBool len ++ gx ++ gy ++ BitVec.ofBool out ++ 0#1))
  | .xfree g port out => some (word 0x02 g (port ++ 0#20 ++ BitVec.ofBool out ++ 0#1))
  | .xmode g idx => some (word 0x03 g (0#17 ++ idx))
  | .xin g pat tc sp off => some (word 0x04 g (pat ++ tc ++ sp.code ++ off))
  | .xout g pat tc sp off => some (word 0x05 g (pat ++ tc ++ sp.code ++ off))
  | .xcmv g pat tc sp off => some (word 0x06 g (pat ++ tc ++ sp.code ++ off))
  | .xpref g src tc rt down => some (word 0x07 g (src ++ 0#6 ++ tc ++ rt ++ 0#3 ++ BitVec.ofBool down))
  | .xcopy g src dst tc rt fl => some (word 0x08 g (src ++ dst ++ tc ++ rt ++ 0#1 ++ fl))
  | .xded g src dst tc rt fl => some (word 0x09 g (src ++ dst ++ tc ++ rt ++ 0#1 ++ fl))
  | .xpost g tc => some (word 0x0A g (0#6 ++ tc ++ 0#16))
  | .xloopImm g c n => some (loopI 0x0B g c n)
  | .xloopLc g lc n => some (loopL 0x0B g lc n)
  | .xgap g f => some (word 0x0C g f)
  | .xtkPost g c => some (tokP 0x0D g c)
  | .xtkExpect g c d => some (tokE 0x0D g c d)
  | _ => none

/-- The stream whose store holds the instruction's word; nop is the same word in each and is counted to S (R274). -/
def Instr.stream : Instr → Stream
  | .varith .. | .vlogic .. | .vcmp .. | .vsel .. | .vcvt .. | .vnarrow .. | .vsfu .. | .vrot .. | .vbc .. | .vred ..
  | .vld .. | .vst .. | .vgath .. | .vsplat .. | .vput .. | .vpop .. | .ksetBox .. | .ksetReg .. | .klog ..
  | .vloopImm .. | .vloopLc .. | .vgap .. | .vtkPost .. | .vtkExpect .. => .v
  | .tcfg .. | .ldsw .. | .swap .. | .mma .. | .mzero .. | .mread .. | .mscl .. | .mloopImm .. | .mloopLc .. | .mgap ..
  | .mtkPost .. | .mtkExpect .. => .m
  | .xbind .. | .xfree .. | .xmode .. | .xin .. | .xout .. | .xcmv .. | .xpref .. | .xcopy .. | .xded .. | .xpost ..
  | .xloopImm .. | .xloopLc .. | .xgap .. | .xtkPost .. | .xtkExpect .. => .x
  | _ => .s

/-- The stream in which a bare table word is read: the first of S, V, M, X in which it is an instruction. The table
numbers the bits of a word and not its stream, and the MAJ space is per stream (R274); see log 7. -/
def tableStream (w : W32) : Stream :=
  if (decode .s w).isSome then .s
  else if (decode .v w).isSome then .v
  else if (decode .m w).isSome then .m
  else .x

/-- The instruction that the decoder reads from a word of the opcode table. -/
def decodeTableWord (nbits w : Nat) : Option Instr :=
  if nbits ≤ 32 then decode (tableStream (BitVec.ofNat 32 w)) (BitVec.ofNat 32 w) else none

end Sys2Proof
end

