-- ==== Sys2Proof/Machine/Bits.lean ====
section
/-! DEFINITION. Bit fields, sign extension, byte order and the sparse map in canonical form that holds every register file
and every memory. -/

namespace Sys2Proof.Machine

/-- A finite map with a default: keys strictly rising, and no entry equal to the default. -/
abbrev SMap (α : Type) := List (Nat × α)

namespace SMap
variable {α : Type}

/-- The value at a key; an unlisted key reads as the default. -/
def get (d : α) : SMap α → Nat → α
  | [], _ => d
  | (i, v) :: r, k => if i = k then v else get d r k

/-- Insert or replace a key. -/
def put : SMap α → Nat → α → SMap α
  | [], k, v => [(k, v)]
  | (i, x) :: r, k, v =>
    if k < i then (k, v) :: (i, x) :: r else if k = i then (k, v) :: r else (i, x) :: put r k v

/-- Drop a key. -/
def drop (m : SMap α) (k : Nat) : SMap α := m.filter fun c => c.1 != k

/-- The map with one key set; writing the default removes the entry. -/
def set [DecidableEq α] (d : α) (m : SMap α) (k : Nat) (v : α) : SMap α := if v = d then m.drop k else m.put k v

/-- Every key of the map is at least `lo`, keys rise strictly, no value is the default. -/
def wfFrom [DecidableEq α] (d : α) : Nat → SMap α → Bool
  | _, [] => true
  | lo, (i, v) :: r => decide (lo ≤ i) && decide (v ≠ d) && wfFrom d (i + 1) r

/-- The canonical form. -/
def wf [DecidableEq α] (d : α) (m : SMap α) : Bool := wfFrom d 0 m

/-- The map without the keys of [lo, hi). -/
def erase (m : SMap α) (lo hi : Nat) : SMap α := m.filter fun c => !(decide (lo ≤ c.1) && decide (c.1 < hi))

/-- The entries of [lo, hi). -/
def slice (m : SMap α) (lo hi : Nat) : SMap α := m.filter fun c => decide (lo ≤ c.1) && decide (c.1 < hi)

/-- The entry of a key, if it is listed. -/
def find (m : SMap α) (k : Nat) : Option α := (List.find? (fun c => c.1 == k) m).map (·.2)

/-- The entries of [src, src + n) copied to [dst, dst + n). -/
def copy [DecidableEq α] (d : α) (m : SMap α) (src dst n : Nat) : SMap α :=
  (slice m src (src + n)).foldl (fun m' c => m'.set d (c.1 - src + dst) c.2) (erase m dst (dst + n))

end SMap

/-- A byte memory: listed bytes in canonical form, every other byte is zero (log 3). -/
abbrev Memory := SMap Byte

namespace Memory

/-- What an unlisted address reads as. -/
def blank : Byte := 0

/-- The canonical form of a memory. -/
def wf (m : Memory) : Bool := SMap.wf blank m

/-- One byte. -/
def byte (m : Memory) (a : Nat) : Byte := SMap.get blank m a

/-- One byte set. -/
def setByte (m : Memory) (a : Nat) (b : Byte) : Memory := SMap.set blank m a b

/-- `n` bytes from `a`, little-endian (R3). -/
def read (m : Memory) : Nat → Nat → Nat
  | _, 0 => 0
  | a, n + 1 => (m.byte a).toNat + 256 * read m (a + 1) n

/-- `n` bytes from `a`, lowest address first. -/
def readList (m : Memory) : Nat → Nat → List Byte
  | _, 0 => []
  | a, n + 1 => m.byte a :: readList m (a + 1) n

/-- `n` bytes of `v` to `a`, little-endian (R3). -/
def write (m : Memory) : Nat → Nat → Nat → Memory
  | _, 0, _ => m
  | a, n + 1, v => write (m.setByte a (BitVec.ofNat 8 v)) (a + 1) n (v / 256)

/-- `n` bytes of `v` to `a` where the bit mask `k` has ones; the other bits keep their contents. -/
def writeMask (m : Memory) : Nat → Nat → Nat → Nat → Memory
  | _, 0, _, _ => m
  | a, n + 1, v, k =>
    let b := BitVec.ofNat 8 k
    writeMask (if b = 0 then m else m.setByte a ((m.byte a &&& ~~~b) ||| (BitVec.ofNat 8 v &&& b))) (a + 1) n (v / 256) (k / 256)

/-- A list of bytes to `a`, first byte first. -/
def writeList (m : Memory) : Nat → List Byte → Memory
  | _, [] => m
  | a, b :: r => writeList (m.setByte a b) (a + 1) r

/-- [lo, hi) zeroed. -/
def zero (m : Memory) (lo hi : Nat) : Memory := SMap.erase m lo hi

/-- The bytes of [src, src + n) copied to [dst, dst + n), as one action. -/
def copy (m : Memory) (src dst n : Nat) : Memory :=
  (SMap.slice m src (src + n)).foldl (fun m' c => m'.setByte (c.1 - src + dst) c.2) (m.zero dst (dst + n))

end Memory

/-- bits(x, hi, lo) of R7 on a number. -/
def bits (x hi lo : Nat) : Nat := x / 2 ^ lo % 2 ^ (hi + 1 - lo)

/-- The bytes of a little-endian number, lowest first. -/
def toBytes : Nat → Nat → List Byte
  | 0, _ => []
  | n + 1, v => BitVec.ofNat 8 v :: toBytes n (v / 256)

/-- The little-endian number of a byte list. -/
def ofBytes : List Byte → Nat
  | [] => 0
  | b :: r => b.toNat + 256 * ofBytes r

/-- The two's complement value of the low `w` bits. -/
def toSigned (w x : Nat) : Int :=
  let y := x % 2 ^ w
  if y < 2 ^ (w - 1) then y else (y : Int) - 2 ^ w

/-- The low `w` bits of an integer. -/
def ofInt (w : Nat) (x : Int) : Nat := (x % (2 ^ w : Int)).toNat

/-- bitrev6 of R248. -/
def bitrev6 (x : Nat) : Nat :=
  (List.range 6).foldl (fun a i => if x.testBit i then a + 2 ^ (5 - i) else a) 0

/-- Leading zero bits of a 64-bit value (R292). -/
def clz64 (x : Nat) : Nat := if x = 0 then 64 else 63 - Nat.log2 x

/-- Set bits among the lowest `w` (R292). -/
def popc : Nat → Nat → Nat
  | 0, _ => 0
  | w + 1, x => x % 2 + popc w (x / 2)

/-- ceil(a / b). -/
def cdiv (a b : Nat) : Nat := (a + b - 1) / b

/-- The greatest `n < 2^k` for which `p n` holds, for a downward closed `p` that holds of 0. -/
def bisect (p : Nat → Bool) : Nat → Nat → Nat
  | 0, acc => acc
  | k + 1, acc => if p (acc + 2 ^ k) then bisect p k (acc + 2 ^ k) else bisect p k acc

/-- floor of the square root, for x < 2^(2 k). -/
def isqrt (k x : Nat) : Nat := bisect (fun n => decide (n * n ≤ x)) k 0

/-- CRC-32C of R167, bit by bit. -/
def crcByte (c : Nat) : Nat → Nat
  | 0 => c
  | n + 1 => crcByte (if c % 2 = 1 then c / 2 ^^^ 0x82F63B78 else c / 2) n

/-- CRC-32C: reflected, initial and final value all ones (R167). -/
def crc32c (l : List Byte) : BitVec 32 :=
  BitVec.ofNat 32 ((l.foldl (fun c b => crcByte (c ^^^ b.toNat) 8) 0xFFFFFFFF) ^^^ 0xFFFFFFFF)

/-- Insertion by a key, after equal ones. -/
def insertBy {α : Type} (key : α → Nat) (a : α) : List α → List α
  | [] => [a]
  | b :: r => if key a < key b then a :: b :: r else b :: insertBy key a r

/-- A list in ascending order of a key, stable. -/
def sortBy {α : Type} (key : α → Nat) (l : List α) : List α := l.foldl (fun acc a => insertBy key a acc) []

/-- List update by index. -/
def setAt {α : Type} : List α → Nat → α → List α
  | [], _, _ => []
  | _ :: r, 0, v => v :: r
  | x :: r, n + 1, v => x :: setAt r n v

end Sys2Proof.Machine
end

