-- ==== Sys2Proof/Machine/Flags.lean ====
section
/-! DEFINITION. FLAGS (R143, R252) and the arithmetic of "Number Formats and Arithmetic" to the bit: exact values, rounding,
special values and saturation (R242-R258), atomics (R233, R234), matrix sums (R253, R254). -/

namespace Sys2Proof.Machine

/-- FLAGS bits [5:0]: SAT, INX, UFL, OVF, DZ, INV (R143). -/
abbrev Flags := BitVec 6

namespace Flag
def inv : Flags := 1
def dz : Flags := 2
def ovf : Flags := 4
def ufl : Flags := 8
def inx : Flags := 16
def sat : Flags := 32
end Flag

/-- An exact dyadic value (-1)^neg * m * 2^e; a zero keeps its sign. -/
structure Dy where
  neg : Bool
  m : Nat
  e : Int
  deriving DecidableEq, Repr

/-- A decoded floating-point element (R243). -/
inductive Num where
  /-- A NaN: its sign, its mantissa field, whether it is signalling. -/
  | nan (neg : Bool) (man : Nat) (signalling : Bool)
  | inf (neg : Bool)
  | fin (d : Dy)
  deriving DecidableEq, Repr

/-- The shape of a float format: exponent bits, mantissa bits, bias, whether it has Inf, whether it has NaN (R242, R243). -/
structure Shape where
  eb : Nat
  mb : Nat
  bias : Nat
  hasInf : Bool
  hasNan : Bool
  deriving DecidableEq, Repr

/-- The float shape of a format code, none for an integer or NQ4 (R242). -/
def shape : Fmt → Option Shape
  | .e2m1 => some ⟨2, 1, 1, false, false⟩
  | .e4m3 => some ⟨4, 3, 7, false, true⟩
  | .e5m2 => some ⟨5, 2, 15, true, true⟩
  | .f16 => some ⟨5, 10, 15, true, true⟩
  | .b16 => some ⟨8, 7, 127, true, true⟩
  | .f32 => some ⟨8, 23, 127, true, true⟩
  | .f64 => some ⟨11, 52, 1023, true, true⟩
  | _ => none

namespace Shape
variable (s : Shape)

def width : Nat := 1 + s.eb + s.mb
/-- The exponent of the least normal (R248). -/
def emin : Int := 1 - s.bias
def signBit (neg : Bool) : Nat := if neg then 2 ^ (s.eb + s.mb) else 0
/-- Max finite without its sign (R243). -/
def maxFin : Nat :=
  if s.hasInf then (2 ^ s.eb - 1) * 2 ^ s.mb - 1
  else if s.hasNan then 2 ^ (s.eb + s.mb) - 2
  else 2 ^ (s.eb + s.mb) - 1
def infBits (neg : Bool) : Nat := s.signBit neg + (2 ^ s.eb - 1) * 2 ^ s.mb
/-- The default NaN (R243). -/
def defNan : Nat := if s.hasInf then (2 ^ s.eb - 1) * 2 ^ s.mb + 2 ^ (s.mb - 1) else 2 ^ (s.eb + s.mb) - 1

/-- The value of an element's bits (R243). -/
def decode (x : Nat) : Num :=
  let neg := x.testBit (s.eb + s.mb)
  let e := x / 2 ^ s.mb % 2 ^ s.eb
  let m := x % 2 ^ s.mb
  if s.hasInf && e == 2 ^ s.eb - 1 then
    if m = 0 then .inf neg else .nan neg m (!m.testBit (s.mb - 1))
  else if !s.hasInf && s.hasNan && e == 2 ^ s.eb - 1 && m == 2 ^ s.mb - 1 then .nan neg m false
  else if e = 0 then .fin ⟨neg, m, s.emin - s.mb⟩
  else .fin ⟨neg, 2 ^ s.mb + m, (e : Int) - s.bias - s.mb⟩

/-- A NaN of mantissa field `man` (`mb` bits wide) quieted into this format: sign kept, payload aligned at its high end (R243). -/
def nanBits (neg : Bool) (man mb : Nat) : Nat :=
  if s.hasInf then
    let pay := man % 2 ^ (mb - 1)
    let pay := if mb ≤ s.mb then pay * 2 ^ (s.mb - mb) else pay / 2 ^ (mb - s.mb)
    s.signBit neg + (2 ^ s.eb - 1) * 2 ^ s.mb + 2 ^ (s.mb - 1) + pay
  else s.signBit neg + 2 ^ (s.eb + s.mb) - 1

/-- The mantissa width that a NaN payload of this format has; an E4M3 NaN has none (R243, log 8). -/
def payWidth : Nat := s.mb
/-- The mantissa field of a NaN as a payload; E4M3 NaNs carry none (log 8). -/
def payload (man : Nat) : Nat := if s.hasInf then man else 0

end Shape

/-- A rounding: the mode, and the dither step d of R248. -/
structure RMode where
  rnd : Rnd
  d : Nat
  deriving DecidableEq, Repr

def rne : RMode := ⟨.rne, 0⟩

/-- m * 2^sh rounded to an integer in a mode, and whether it is inexact (R247, R248). -/
def roundInt (mode : RMode) (neg : Bool) (m : Nat) (sh : Int) : Nat × Bool :=
  if 0 ≤ sh then (m * 2 ^ sh.toNat, false)
  else
    let k := (-sh).toNat
    -- a shift far beyond the value leaves a fraction below one part in 2^8: it keeps every comparison below
    let small := decide (Nat.log2 m + 9 < k)
    let k := if small then Nat.log2 m + 9 else k
    let q := m / 2 ^ k
    let r := m % 2 ^ k
    if r = 0 then (q, false)
    else
      let up := match mode.rnd with
        | .rne => decide (2 ^ k < 2 * r) || (2 * r == 2 ^ k && q % 2 == 1)
        | .rtz => false
        | .rdn => neg
        | .rup => !neg
        | .rdi => decide (2 ^ k * 128 ≤ r * 128 + (2 * mode.d + 1) * 2 ^ k)
      (if up then q + 1 else q, true)

/-- Comparison of exact values: the exact difference is negative, zero or positive. -/
def Dy.toPair (a b : Dy) : Int × Int :=
  let lo := min a.e b.e
  let v (x : Dy) : Int := (if x.neg then -1 else 1) * ((x.m * 2 ^ (x.e - lo).toNat : Nat) : Int)
  (v a, v b)

def Dy.lt (a b : Dy) : Bool := let (x, y) := a.toPair b; decide (x < y)
def Dy.eq (a b : Dy) : Bool := let (x, y) := a.toPair b; decide (x = y)

/-- The exact value `d` delivered in a float format: bits and flags (R247, R248, R251, R252). `sat` is the saturate bit. -/
def Shape.round (s : Shape) (mode : RMode) (sat : Bool) (d : Dy) : Nat × Flags :=
  if d.m = 0 then (s.signBit d.neg, 0)
  else
    let e := (Nat.log2 d.m : Int) + d.e
    let q := (max e s.emin) - s.mb
    let big := decide ((2 ^ s.eb : Int) < e)
    let (n, inx) := if big then (2 ^ (s.mb + 2), true) else roundInt mode d.neg d.m (d.e - q)
    -- n * 2^q with the exponent range unbounded above; its encoding counts from the binade of q
    let enc := if n < 2 ^ s.mb then n else (q + s.mb + s.bias - 1).toNat * 2 ^ s.mb + n
    -- a format without Inf is clamped beyond max finite, whatever the value rounds to (R251)
    let clipped := !s.hasInf && enc == s.maxFin && inx && match s.decode s.maxFin with
      | .fin t => Dy.lt { t with neg := false } { d with neg := false }
      | _ => false
    let beyond := big || clipped || decide (s.maxFin < enc)
    if beyond then
      if s.hasInf && !sat then
        let toInf := match mode.rnd with
          | .rne | .rdi => true
          | .rtz => false
          | .rdn => d.neg
          | .rup => !d.neg
        (if toInf then s.infBits d.neg else s.signBit d.neg + s.maxFin, Flag.ovf ||| Flag.inx)
      else (s.signBit d.neg + s.maxFin, Flag.sat ||| Flag.inx)
    else
      -- tininess: the value rounded to the target's precision with an unbounded exponent lies below the least normal
      let (t, _) := roundInt mode d.neg d.m (d.e - (e - s.mb))
      let tiny := decide (e < s.emin - 1) || (decide (e < s.emin) && decide (t < 2 ^ (s.mb + 1)))
      (s.signBit d.neg + enc, (if inx then Flag.inx else 0) ||| (if inx && tiny then Flag.ufl else 0))

/-- The exact sum; a zero sum is -0 only when both terms are negative (IEEE 754, R247). -/
def Dy.add (a b : Dy) : Dy :=
  let lo := min a.e b.e
  let (x, y) := a.toPair b
  let z := x + y
  if z = 0 then ⟨a.neg && b.neg, 0, 0⟩ else ⟨decide (z < 0), z.natAbs, lo⟩

def Dy.mul (a b : Dy) : Dy := ⟨a.neg != b.neg, a.m * b.m, a.e + b.e⟩
def Dy.negate (a : Dy) : Dy := { a with neg := !a.neg }

/-- The first NaN of a list of operands, quieted in `s`, and INV if any operand is signalling (R250). -/
def nanOf (s : Shape) (ops : List Num) : Option (Nat × Flags) :=
  let sig := ops.any fun x => match x with | .nan _ _ sg => sg | _ => false
  (ops.findSome? fun x => match x with
    | .nan n m _ => some (s.nanBits n m s.mb)
    | _ => none).map fun b => (b, if sig then Flag.inv else 0)

/-- A signed infinity or finite value plus another, both in `s` (R247, R250). -/
def addNum (s : Shape) (mode : RMode) (x y : Num) : Nat × Flags :=
  match nanOf s [x, y] with
  | some r => r
  | none => match x, y with
    | .inf a, .inf b => if a = b then (s.infBits a, 0) else (s.defNan, Flag.inv)
    | .inf a, _ => (s.infBits a, 0)
    | _, .inf b => (s.infBits b, 0)
    | .fin a, .fin b => s.round mode false (a.add b)
    | _, _ => (s.defNan, 0)

def negNum : Num → Num
  | .nan n m g => .nan n m g
  | .inf n => .inf (!n)
  | .fin d => .fin d.negate

/-- The exact product of two decoded operands without NaN, or none for 0 times Inf (R250). -/
def mulExact : Num → Num → Option Num
  | .inf a, .inf b => some (.inf (a != b))
  | .inf a, .fin b => if b.m = 0 then none else some (.inf (a != b.neg))
  | .fin a, .inf b => if a.m = 0 then none else some (.inf (a.neg != b))
  | .fin a, .fin b => some (.fin (a.mul b))
  | .nan n m g, _ => some (.nan n m g)
  | _, .nan n m g => some (.nan n m g)

/-- RNE(a x b) (R340). -/
def mulNum (s : Shape) (x y : Num) : Nat × Flags :=
  match nanOf s [x, y] with
  | some r => r
  | none => match mulExact x y with
    | none => (s.defNan, Flag.inv)
    | some (.inf n) => (s.infBits n, 0)
    | some (.fin d) => s.round rne false d
    | some (.nan n m _) => (s.nanBits n m s.mb, 0)

/-- RNE(a x b + c), exact product; 0 x Inf with a NaN c returns c quieted and raises INV (R250, R340). -/
def fmaNum (s : Shape) (x y z : Num) : Nat × Flags :=
  match nanOf s [x, y] with
  | some (r, f) => (r, f ||| (match z with | .nan _ _ true => Flag.inv | _ => 0))
  | none => match mulExact x y with
    | none => match z with
      | .nan n m _ => (s.nanBits n m s.mb, Flag.inv)
      | _ => (s.defNan, Flag.inv)
    | some p => addNum s rne p z

/-- Order of two numbers without NaN: x < y. -/
def Num.lt : Num → Num → Bool
  | .inf a, .inf b => a && !b
  | .inf a, _ => a
  | _, .inf b => !b
  | .fin a, .fin b => a.lt b
  | _, _ => false

def Num.eq : Num → Num → Bool
  | .inf a, .inf b => a == b
  | .fin a, .fin b => a.eq b
  | _, _ => false

def Num.isNan : Num → Bool
  | .nan .. => true
  | _ => false

def Num.isSig : Num → Bool
  | .nan _ _ g => g
  | _ => false

def Num.neg : Num → Bool
  | .nan n _ _ => n
  | .inf n => n
  | .fin d => d.neg

/-- min (`mx` false) or max of two elements given as bits; -0 lies below +0 (R340). -/
def minmaxBits (s : Shape) (mx : Bool) (a b : Nat) : Nat × Flags :=
  let x := s.decode a
  let y := s.decode b
  match nanOf s [x, y] with
  | some r => r
  | none =>
    let less := x.lt y || (x.eq y && x.neg && !y.neg)
    (if less != mx then a else b, 0)

/-! Integer elements (R340). -/

/-- An elementwise function of varith on `w`-bit integers, wrapping. -/
def intArith (fn : VarithFn) (w a b c : Nat) : Nat :=
  let x := toSigned w a
  let y := toSigned w b
  match fn with
  | .add => ofInt w (x + y)
  | .sub => ofInt w (x - y)
  | .mul => ofInt w (x * y)
  | .fma => ofInt w (x * y + toSigned w c)
  | .fms => ofInt w (x * y - toSigned w c)
  | .min => if x ≤ y then a else b
  | .max => if x ≤ y then b else a
  | .abs => ofInt w (if x < 0 then -x else x)
  | .neg => ofInt w (-x)

/-- An elementwise function of varith on a float format (R340, R341). -/
def floatArith (fn : VarithFn) (s : Shape) (a b c : Nat) : Nat × Flags :=
  let x := s.decode a
  let y := s.decode b
  match fn with
  | .add => addNum s rne x y
  | .sub => addNum s rne x (negNum y)
  | .mul => mulNum s x y
  | .fma => fmaNum s x y (s.decode c)
  | .fms => fmaNum s x y (negNum (s.decode c))
  | .min => minmaxBits s false a b
  | .max => minmaxBits s true a b
  | .abs => (a % 2 ^ (s.eb + s.mb), 0)
  | .neg => (a ^^^ 2 ^ (s.eb + s.mb), 0)

/-- A comparison of vcmp in a float view: result and flags (R343). -/
def floatCmp (fn : VcmpFn) (s : Shape) (a b : Nat) : Bool × Flags :=
  let x := s.decode a
  let y := s.decode b
  let un := x.isNan || y.isNan
  let sig := if x.isSig || y.isSig then Flag.inv else 0
  let ord := if un then Flag.inv else 0
  match fn with
  | .eq => (!un && x.eq y, sig)
  | .ne => (un || !x.eq y, sig)
  | .lt => (!un && x.lt y, ord)
  | .le => (!un && (x.lt y || x.eq y), ord)
  | .gt => (!un && y.lt x, ord)
  | .ge => (!un && (y.lt x || x.eq y), ord)
  | .uno => (un, sig)
  | _ => (false, 0)

/-- A comparison of vcmp in an integer view of `w` bits (R343). -/
def intCmp (fn : VcmpFn) (w a b : Nat) : Bool :=
  let x := toSigned w a
  let y := toSigned w b
  match fn with
  | .eq => a == b
  | .ne => a != b
  | .lt => decide (x < y)
  | .le => decide (x ≤ y)
  | .gt => decide (x > y)
  | .ge => decide (x ≥ y)
  | .ltu => decide (a < b)
  | .geu => decide (a ≥ b)
  | .uno => false

/-! Conversion (R346-R348). -/

/-- Range of an integer format: signed?, none for the floats (R242). -/
def intSigned : Fmt → Option Bool
  | .int4 | .int8 | .int16 | .int32 | .int64 => some true
  | .uint4 | .uint8 => some false
  | _ => none

/-- The integer value of an element (R242). -/
def intVal (signed : Bool) (w x : Nat) : Int := if signed then toSigned w x else (x % 2 ^ w : Nat)

def intMin (signed : Bool) (w : Nat) : Int := if signed then -(2 ^ (w - 1) : Int) else 0
def intMax (signed : Bool) (w : Nat) : Int := if signed then 2 ^ (w - 1) - 1 else 2 ^ w - 1

/-- An exact value to an integer format after rounding (R248, R251). -/
def toIntFmt (signed : Bool) (w : Nat) (mode : RMode) (d : Dy) : Nat × Flags :=
  if d.m ≠ 0 && decide ((200 : Int) < d.e + Nat.log2 d.m) then
    (ofInt w (if d.neg then intMin signed w else intMax signed w), Flag.sat ||| Flag.inx)
  else
    let (n, inx) := roundInt mode d.neg d.m d.e
    let v : Int := if d.neg then -(n : Int) else n
    let inxF := if inx then Flag.inx else 0
    if v < intMin signed w then (ofInt w (intMin signed w), Flag.sat ||| Flag.inx)
    else if intMax signed w < v then (ofInt w (intMax signed w), Flag.sat ||| Flag.inx)
    else (ofInt w v, inxF)

/-- One element converted from `src` to `dst` (R348, R250, R251). -/
def convert (src dst : Fmt) (mode : RMode) (sat : Bool) (x : Nat) : Nat × Flags :=
  match shape src, shape dst, intSigned src, intSigned dst with
  | some ss, some ds, _, _ => match ss.decode (x % 2 ^ ss.width) with
    | .nan n m g =>
      if ds.hasNan then (ds.nanBits n (ss.payload m) ss.mb, if g then Flag.inv else 0) else (0, Flag.inv)
    | .inf n =>
      if ds.hasInf && !sat then (ds.infBits n, 0) else (ds.signBit n + ds.maxFin, Flag.sat)
    | .fin d => ds.round mode sat d
  | some ss, none, _, some dsg => match ss.decode (x % 2 ^ ss.width) with
    | .nan .. => (0, Flag.inv)
    | .inf n => (ofInt dst.width (if n then intMin dsg dst.width else intMax dsg dst.width), Flag.sat)
    | .fin d => toIntFmt dsg dst.width mode d
  | none, some ds, some ssg, _ =>
    let v := intVal ssg src.width x
    ds.round mode sat ⟨decide (v < 0), v.natAbs, 0⟩
  | none, none, some ssg, some dsg =>
    let v := intVal ssg src.width x
    if dst.width < src.width && sat then
      if v < intMin dsg dst.width then (ofInt dst.width (intMin dsg dst.width), Flag.sat ||| Flag.inx)
      else if intMax dsg dst.width < v then (ofInt dst.width (intMax dsg dst.width), Flag.sat ||| Flag.inx)
      else (ofInt dst.width v, 0)
    else (ofInt dst.width v, 0)
  | _, _, _, _ => (0, 0)

/-! Approximate functions (R257, R258). -/

/-- round(p) to nearest where `p n` says n is at most the exact value and `h n` that n + 1/2 lies below it. -/
def near (p h : Nat → Bool) (k : Nat) : Nat :=
  let n := bisect p k 0
  if h n then n + 1 else n

/-- T of vrsq.a times 2^12: 1/sqrt(y), y = (65 + 2j)/64 * 2^(e AND 1), to 12 significant bits. -/
def rsqT (j odd : Nat) : Nat :=
  let y := (65 + 2 * j) * 2 ^ odd            -- y * 64
  near (fun n => decide (n * n * y ≤ 2 ^ 30)) (fun n => decide ((2 * n + 1) * (2 * n + 1) * y < 2 ^ 32)) 13

/-- T of vrcp.a times 2^12: 1/y, y = (65 + 2j)/64. -/
def rcpT (j : Nat) : Nat := (2 * 2 ^ 18 + (65 + 2 * j)) / (2 * (65 + 2 * j))

/-- T of vex2.a times 2^11: 2^y, y = (2j + 1)/64. -/
def ex2T (j : Nat) : Nat :=
  near (fun n => decide (n ^ 64 ≤ 2 ^ (705 + 2 * j))) (fun n => decide ((2 * n + 1) ^ 64 < 2 ^ (769 + 2 * j))) 12

/-- T of vlg2.a: log2 y, y = (65 + 2j)/64, rounded to 12 significant bits, as mantissa and binary scale. -/
def lg2Table : List (Nat × Nat) :=
  [(2932, 17), (2166, 15), (3556, 15), (2453, 14), (3110, 14), (3749, 14), (2186, 13), (2489, 13), (2784, 13), (3072, 13), (3354, 13), (3629, 13), (3897, 13), (2080, 12), (2208, 12), (2334, 12), (2457, 12), (2578, 12), (2696, 12), (2812, 12), (2926, 12), (3037, 12), (3146, 12), (3254, 12), (3359, 12), (3463, 12), (3565, 12), (3665, 12), (3764, 12), (3861, 12), (3956, 12), (4050, 12)]

/-- x = 2^e * 1.f, and j, the top five bits of f (R257). -/
def normalise (d : Dy) : Int × Nat :=
  let l := Nat.log2 d.m
  ((l : Int) + d.e, (d.m * 32 / 2 ^ l) % 32)

/-- One approximate function on an F32 value; the result is rounded into `s` (R257, R258). INX is never raised. -/
def sfu (fn : SfuFn) (s : Shape) (a : Nat) : Nat × Flags :=
  let f32 : Shape := ⟨8, 23, 127, true, true⟩
  let out (d : Dy) : Nat × Flags :=
    let (b, fl) := f32.round rne false d
    let (b', fl') := if s = f32 then (b, fl) else match f32.decode b with
      | .fin d' => let (c, g) := s.round rne false d'; (c, fl ||| g)
      | .inf n => (s.infBits n, fl)
      | .nan .. => (s.defNan, fl)
    (b', fl' &&& ~~~Flag.inx)
  match s.decode a with
  | .nan n m g => (s.nanBits n m s.mb, if g then Flag.inv else 0)
  | .inf n => match fn, n with
    | .rsq, false => (0, 0)
    | .rcp, false => (0, 0)
    | .rcp, true => (s.signBit true, 0)
    | .ex2, false => (s.infBits false, 0)
    | .ex2, true => (0, 0)
    | .lg2, false => (s.infBits false, 0)
    | _, true => (s.defNan, Flag.inv)
  | .fin d =>
    if d.m = 0 then match fn with
      | .rsq => (s.infBits d.neg, Flag.dz)
      | .rcp => (s.infBits d.neg, Flag.dz)
      | .ex2 => out ⟨false, ex2T 0, -11⟩
      | .lg2 => (s.infBits true, Flag.dz)
    else
      let (e, j) := normalise d
      match fn with
      | .rsq => if d.neg then (s.defNan, Flag.inv) else
        let odd := (e % 2).toNat
        out ⟨false, rsqT j odd, -12 - (e - odd) / 2⟩
      | .rcp => out ⟨d.neg, rcpT j, -12 - e⟩
      | .ex2 =>
        if (300 : Int) < e + 0 then out ⟨false, 1, if d.neg then -1000 else 1000⟩
        else
          -- 32 x = p / 2^k exactly; n = floor(x), j = floor(32 (x - n)); beyond |x| = 2^12 the result is out of range
          if (12 : Int) < e then out ⟨false, 1, if d.neg then -1000 else 1000⟩
          else
            let k := (-(d.e)).toNat
            let v : Int := (if d.neg then -1 else 1) * (d.m * 2 ^ (d.e).toNat : Nat)
            let t : Int := (32 * v) / (2 ^ k : Nat)
            out ⟨false, ex2T (t % 32).toNat, t / 32 - 11⟩
      | .lg2 => if d.neg then (s.defNan, Flag.inv) else
        let (n, sc) := lg2Table.getD j (0, 0)
        out ((⟨decide (e < 0), e.natAbs, 0⟩ : Dy).add ⟨false, n, -(sc : Int)⟩)

/-! Atomics (R233, R234). -/

/-- The integer operation of amo on `w`-bit words (R233). -/
def amoVal (fn : AmoFn) (w old v : Nat) : Nat :=
  let x := toSigned w old
  let y := toSigned w v
  match fn with
  | .add => (old + v) % 2 ^ w
  | .and => old &&& v
  | .or => old ||| v
  | .xor => old ^^^ v
  | .min => if x ≤ y then old else v
  | .max => if x ≤ y then v else old
  | .minu => min old v
  | .maxu => max old v
  | .swap => v

/-- The floating operation of amof (R234). -/
def amofVal (fn : AmofFn) (s : Shape) (x y : Nat) : Nat :=
  let a := s.decode x
  let b := s.decode y
  match a, b with
  | .nan n m _, _ => s.nanBits n m s.mb
  | _, .nan n m _ => s.nanBits n m s.mb
  | _, _ => match fn with
    | .fadd => (addNum s rne a b).1
    | .fmin => if a.lt b || (a.eq b && a.neg) then x else y
    | .fmax => if b.lt a || (a.eq b && !a.neg) then x else y

def f32Shape : Shape := ⟨8, 23, 127, true, true⟩
def f64Shape : Shape := ⟨11, 52, 1023, true, true⟩

/-! Matrix sums (R244, R253, R254). -/

/-- k_c of NQ4, times 128 (R244). -/
def nq4 (c : Nat) : Int := [-128, -92, -70, -53, -39, -26, -13, 0, 11, 22, 34, 47, 62, 80, 102, 128].getD c 0

/-- An operand element of the matrix engine as a number; NQ4 code c is k_c / 128 (R254). -/
def matVal (f : Fmt) (x : Nat) : Num :=
  match f with
  | .nq4 => let v := nq4 (x % 16); .fin ⟨decide (v < 0), v.natAbs, -7⟩
  | _ => match shape f with
    | some s => s.decode (x % 2 ^ s.width)
    | none => let v := intVal ((intSigned f).getD true) f.width x; .fin ⟨decide (v < 0), v.natAbs, 0⟩

/-- The class of tcfg: integer, float or neither (R253). -/
def intClass : Fmt → Bool
  | .int4 | .uint4 | .int8 | .uint8 | .int16 => true
  | _ => false

def floatClass (fw : Bool) : Fmt → Bool
  | .e2m1 | .e4m3 | .e5m2 | .f16 | .b16 | .f32 => true
  | .nq4 => fw
  | _ => false

/-- The exact integer sum of the products (R254). -/
def intSlice (fa fw : Fmt) (a w : List Nat) : Int :=
  (a.zip w).foldl (fun s p => s + intVal ((intSigned fa).getD true) fa.width p.1 * intVal ((intSigned fw).getD true) fw.width p.2) 0

/-- A product rounded or added into a partial sum in `s`; NaN by R250: activation before weight, sum before term. -/
def sliceStep (s : Shape) (acc : Option Nat) (x y : Num) (xs ys : Shape) : Nat :=
  let prod : Num := match x, y with
    | .nan n m _, _ => s.decode (s.nanBits n (xs.payload m) xs.mb)
    | _, .nan n m _ => s.decode (s.nanBits n (ys.payload m) ys.mb)
    | _, _ => (mulExact x y).getD (s.decode s.defNan)
  match acc with
  | some a => (addNum s rne (s.decode a) prod).1
  | none => match prod with
    | .nan n m _ => s.nanBits n m s.mb
    | .inf n => s.infBits n
    | .fin d => (s.round rne false d).1

/-- The float slice sum, k ascending, in F32, or in F64 where an operand is F32 (R254): the bits and their shape. -/
def floatSlice (fa fw : Fmt) (a w : List Nat) : Nat × Shape :=
  let s := if fa = .f32 ∨ fw = .f32 then f64Shape else f32Shape
  let xs := (shape fa).getD f32Shape
  let ys := (shape fw).getD f32Shape
  (((a.zip w).foldl (fun acc p => some (sliceStep s acc (matVal fa p.1) (matVal fw p.2) xs ys)) none).getD 0, s)

/-- acc := RNE_F64(acc + s x bs), with bs = (code + 1) x S / 2^15, or 1 when there is no binding (R254, R246). -/
def accumulate (acc : Nat) (s : Nat) (sh : Shape) (bs : Option (Nat × Nat)) : Nat :=
  let x := f64Shape.decode acc
  let t : Num := sh.decode s
  let t : Num := match t with
    | .nan n m _ => f64Shape.decode (f64Shape.nanBits n m sh.mb)
    | t => t
  let term : Num := match bs with
    | none => t
    | some (code, sup) => match t, f32Shape.decode sup with
      | .nan n m g, _ => .nan n m g
      | _, .nan n m _ => f64Shape.decode (f64Shape.nanBits n m 23)
      | t, b => match mulExact t (match b with
          | .fin d => .fin ⟨d.neg, d.m * (code + 1), d.e - 15⟩
          | b => b) with
        | some r => r
        | none => f64Shape.decode f64Shape.defNan
  (addNum f64Shape rne x term).1

/-- The decode of an NQ4 element (R246) in a target float shape, rounded once. -/
def nq4Decode (s : Shape) (c code sup : Nat) : Nat × Flags :=
  let k := nq4 c
  match f32Shape.decode sup with
  | .nan n m g => (s.nanBits n m 23, if g then Flag.inv else 0)
  | .inf n => if k = 0 then (s.defNan, Flag.inv) else (s.infBits (decide (k < 0) != n), 0)
  | .fin d =>
    let r := s.round rne false ⟨decide (k < 0) != d.neg, k.natAbs * (code + 1) * d.m, d.e - 15⟩
    if k = 0 ∨ d.m = 0 then (0, 0) else (if r.1 = s.signBit true then 0 else r.1, r.2)

end Sys2Proof.Machine
end

