-- ==== Sys2Proof/Config.lean ====
section
/-! DEFINITION. What one module or its keeper firmware fixes and the manual leaves open: constants with no body, so that no
proof can rest on a value (log 4, 5). -/

namespace Sys2Proof.Config

/-- The serial number (R410, R38). -/
opaque serial : BitVec 64

/-- The fused security version number (R32, R36). -/
opaque fusedSvn : BitVec 8

/-- The fused SHAKE256 of the Vrelmet root public key (R32). -/
opaque rootHash : BitVec 256

/-- The fused identity seed: SK.seed, SK.prf and PK.seed (R32, R37). -/
opaque seed : BitVec 768

/-- The 32 bytes of randomness of a signature, by the MSLOT at which it is made (R37, log 140). -/
opaque signRandom : Nat → BitVec 256

/-- The bytes of an image's header (R32, R163): the manual gives its fields and no layout. The header is a function of the fields alone. -/
opaque headerBytes : (kind length svn num s0 w fmin : Nat) → List Byte

/-- The 252 bytes of a flit before its CRC (R24): sequence number, class, acknowledgements, message, and which of the message's flits it is. The
manual gives no layout. -/
opaque flitBytes : Nat → Nat → List Nat → Msg → Nat → BitVec 2016

/-- How many flits a message takes beyond its first (R24). -/
opaque moreFlits : Msg → Nat

/-- The number of this module among the modules of a launch (R27). -/
opaque self : BitVec 5

/-- The Dretex port by which a module is reached (R24): the manual gives no routing. -/
opaque route : Nat → Fin 8

/-- The HBM channel of a physical page (R158): the manual gives no map. -/
opaque channel : Nat → Nat

/-- How many source granules a routine reads for a copy command, and how many destination granules it writes, in one slot (R164, R219): by
ASID, issue slot of the command, and CSLOT. The routine's choice. -/
opaque copyReads : Nat → Nat → Nat → Nat
opaque copyWrites : Nat → Nat → Nat → Nat

/-- Whether the machine holds an access that it could perform (R220): by ASID, CSLOT or, while the context is stopped, MSLOT, core, queue, and
issue slot. -/
opaque hold : Nat → Nat → Nat → Nat → Nat → Bool

/-- Bytes of the dump area of the NVMe drives (R186). -/
opaque dumpArea : Nat

/-- FWBASE, the keeper physical address of the freeze windows (R178). -/
opaque fwbase : Nat

/-- The ISA revision (R410). -/
def isaRev : BitVec 8 := 1

end Sys2Proof.Config
end

