-- ==== Sys2Proof/Machine/State.lean ====
section
/-! DEFINITION. The whole state of the module as plain data, the reasons a step can stop, and the state after reset. Register
contents are bit vectors; slots (MSLOT, CSLOT), addresses, indices and counts are natural numbers. A register file is a sparse
map in canonical form (Bits.lean). -/

namespace Sys2Proof.Machine

/-- The reasons a step can fault. -/
inductive Fault where
  /-- Raised by a stream instruction given to `exec` when no core is issuing it: `step` never does that. Safe: the machine has no
  such step. -/
  | noIssuer
  deriving DecidableEq, Repr

/-- The reasons a step can be refused. -/
inductive Refusal where
  /-- Raised by no meaning; kept for an arm that has none. Safe. -/
  | notModelled (mnemonic : String)
  deriving DecidableEq, Repr

/-! A core. -/

/-- A loop stack entry (R139, R308). -/
structure Loop where
  start : Nat
  stop : Nat
  left : BitVec 32
  deriving DecidableEq, Repr

/-- A taken transfer whose target has not issued: the target index, which may lie outside the store, and the last slot of the
delay window (R303, R304). -/
structure Transfer where
  target : Nat
  last : Nat
  deriving DecidableEq, Repr

/-- One stream of a core (R139). -/
structure StreamSt where
  /-- The instruction store of 4,096 words. -/
  store : SMap W32
  /-- Index of the next word. -/
  pc : Nat
  /-- The word at `pc` issues at `ready` + its GAP (R112). -/
  ready : Nat
  loops : List Loop
  xfer : Option Transfer
  deriving DecidableEq, Repr

/-- Where a pending result goes: the kinds of R176, and the state registers that are written one slot or more after issue. -/
inductive Dest where
  | g (r : Nat) | p (r : Nat) | lc (r : Nat)
  | k (r row : Nat) | v (r row : Nat) | a (r row : Nat)
  | shadow (row : Nat)
  | cold (line : Nat) | pool (line : Nat)
  /-- A handle (R330), a pattern table entry (R331), a state register written by swr (R333). -/
  | h (r : Nat) | pat (i : Nat) | sreg (num : Nat)
  /-- DPHASE advanced by 17 (R249). -/
  | dphase
  /-- The planes exchange (R368). -/
  | planes
  /-- Both planes and a0-a3 become zero (R366). -/
  | clear
  /-- The scale binding of one column (R372): code in bits [7:0], super-scale in [39:8]. -/
  | scale (col : Nat)
  /-- A shadow column of an NQ4 ldsw (R367). -/
  | column (col : Nat)
  /-- The mesh target (R376). -/
  | mesh
  /-- A row leaves for outbound port `o`, binding `gen` (R359, R371). -/
  | send (o gen : Nat)
  deriving DecidableEq, Repr

/-- How an accumulator row takes its value at its landing slot (R369). -/
inductive AccMode where
  | set
  /-- acc + value, 64-bit integers. -/
  | int
  /-- RNE_F64(acc + value x scale): the shape of the slice sums, and the scale bytes bound at the read slot. -/
  | float (wide : Bool) (scales : Option (List (Nat × Nat)))
  deriving DecidableEq, Repr

/-- A pending result (R176). The mask has a bit for each unit of the destination: lane, column, element, byte or bit. -/
structure Pend where
  dst : Dest
  land : Nat
  issue : Nat
  stream : Stream
  mask : BitVec 64
  /-- The bits of a tile row that are written, where a lane is written in part (R347). -/
  fine : Option Row
  value : BitVec 4096
  flags : BitVec 6
  acc : AccMode
  deriving DecidableEq, Repr

/-- The walk of a pattern over a tensor: the table entry with its START, and the descriptor (R146, R373). -/
structure Walk where
  pat : Line
  desc : Line
  deriving DecidableEq, Repr

/-- A multi-slot instruction in flight (R139, R174): what it captured at its issue slot, and the row it reaches next. -/
structure Op where
  instr : Instr
  stream : Stream
  issue : Nat
  next : Nat
  rows : Nat
  /-- Slots between rows. -/
  period : Nat
  /-- Mask rows read at issue. -/
  mask : List (BitVec 64)
  /-- Descriptor of the tensor, and the coordinates c0-c3. -/
  desc : Line
  coord : List Nat
  /-- c1 of each row of a vgath, the g register of a vsplat, the binding of a vput or mread, and of an mread whether its class is integer. -/
  index : List Nat
  /-- The dither phase at issue (R248). -/
  phase : Nat
  deriving DecidableEq, Repr

/-- A bank access planned for a slot (R119). -/
structure BankUse where
  slot : Nat
  pool : Bool
  line : Nat
  /-- The instruction: its issue slot and stream. -/
  issue : Nat
  stream : Nat
  write : Bool
  deriving DecidableEq, Repr

/-- An in-flight range of the hazard checker (R151). -/
structure Range where
  pool : Bool
  lo : Nat
  hi : Nat
  write : Bool
  /-- Last slot in flight. -/
  upto : Nat
  deriving DecidableEq, Repr

/-- A landed entry of an inbound port (R147). -/
structure Entry where
  row : Nat
  value : Row
  deriving DecidableEq, Repr

/-- An inbound port (R147, R154, R180, R181). -/
structure InPort where
  walk : Option Walk
  tc : Nat
  lenient : Bool
  /-- Number of the binding, so that rows of an old binding are discarded (R375). -/
  gen : Nat
  /-- The next row of the plan and the earliest slot at which it issues (R154). -/
  planNext : Nat
  planX : Nat
  /-- The next row to issue; behind `planNext` while the unit is halted or catching up. -/
  next : Nat
  /-- The slot of the next catch-up row (R180, R181): an MSLOT while the context is stopped. -/
  catchX : Nat
  /-- The row at which the unit has halted. -/
  halted : Option Nat
  entries : List Entry
  popped : Nat
  /-- Entries reserved: landed, or in flight, of this and earlier bindings (RES of R143). -/
  res : Nat
  /-- Those of them that are of the cluster's shared remainder (R147). -/
  shared : Nat := 0
  min : Nat
  cap : Nat
  /-- FILLn (R129). -/
  fill : BitVec 32
  /-- Source bytes by virtual address for the pattern's checksum (R167). -/
  crc : SMap Byte
  /-- Rows below it have been walked before a pre-emption: the last row posts no second time (R183). -/
  rewalk : Nat
  deriving DecidableEq, Repr

/-- An outbound port (R148, R155). -/
structure OutPort where
  walk : Option Walk
  tc : Nat
  gen : Nat
  /-- Rows sent, the crossing slot of the last one, rows applied. -/
  sent : Nat
  lastY : Nat
  applied : Nat
  /-- Rows in the queue, of this and earlier bindings. -/
  queued : Nat
  cap : Nat
  crc : SMap Byte
  deriving DecidableEq, Repr

/-- A mailbox (R149): its value, its valid bit, and the last access issued to it and the last one landed. -/
structure Mailbox where
  value : W64
  valid : Bool
  last : Nat
  landed : Nat
  deriving DecidableEq, Repr

/-- A timeline counter (R150). -/
structure Counter where
  value : W64
  err : Bool
  /-- CSLOT of the last post with an error (R333). -/
  errAt : Nat
  deriving DecidableEq, Repr

/-- The matrix engine's state (R364). Plane rows are rows of 64 elements at the width of fw. -/
structure Matrix where
  valid : Bool
  m : Nat
  n : Nat
  k : Nat
  fa : Fmt
  fw : Fmt
  pair : Bool
  active : SMap Row
  shadow : SMap Row
  /-- The scale binding of the 64 columns: code in bits [7:0], super-scale in [39:8]. -/
  scale : SMap (BitVec 40)
  bound : Bool
  deriving DecidableEq, Repr

/-- First slots at which each unit accepts a new instruction (R118). -/
structure Units where
  divider : Nat
  vector : Nat
  array : Nat
  loader : Nat
  reader : Nat
  mask : Nat
  deriving DecidableEq, Repr

/-- The registers of a core that software names (R141, R143). -/
structure Regs where
  g : SMap W64
  p : SMap Bool
  lc : SMap W32
  m : SMap Mailbox
  h : SMap (BitVec 16)
  tc : SMap Counter
  /-- Row `r` of tile `v` has key 16 v + r. -/
  v : SMap Row
  k : SMap (BitVec 64)
  a : SMap AccRow
  pat : SMap Line
  /-- Token cells, all ones at start (R131). -/
  tk : SMap W64
  flags : BitVec 6
  dphase : BitVec 6
  /-- The mesh target of xmode (R376). -/
  mesh : Nat
  deriving DecidableEq, Repr

/-- A checkpoint that a core issues in this slot: overlay form, overlay, table (R328). -/
structure Ckpt where
  ovl : Option Nat
  tab : Nat
  word : W32
  deriving DecidableEq, Repr

/-- A freeze record's own fields (R175); the rest of the record is a view of the core. -/
structure Record where
  cause : Nat
  causes : BitVec 64
  reported : Bool
  word : W32
  stream : Nat
  port : Nat
  detail : W64
  deriving DecidableEq, Repr

/-- A cold core. -/
structure Core where
  /-- Logical core id (R10), context core index, and whether the core is idle (R97). -/
  id : Nat
  idx : Nat
  idle : Bool
  s : StreamSt
  v : StreamSt
  m : StreamSt
  x : StreamSt
  regs : Regs
  mat : Matrix
  units : Units
  inb : SMap InPort
  outb : SMap OutPort
  /-- The cold bank (R59). -/
  cold : Memory
  pend : List Pend
  ops : List Op
  banks : List BankUse
  ranges : List Range
  /-- Held by a bar (beacon, slot) or a checkpoint (slot); the last slot of the hold once it is known (R114). -/
  barred : Option (Nat × Nat)
  hold : Option (Nat × Nat)
  /-- This slot's checkpoint. -/
  ckpt : Option Ckpt
  /-- The slots at which halt issued, and at which the halt line rose (R107). -/
  halt : Option Nat
  line : Option Nat
  record : Record
  /-- Lines of the cold bank that have been written in the open window, and cold entries taken (R189, R190). -/
  logged : List Nat
  entries : Nat
  /-- The causal set K (R228): numbers of warm writes. -/
  causal : List Nat
  /-- Accesses that later accesses of the core must follow: reads and writes, once they are performed; system accesses, and system writes
and atomics, once they have landed (R224, R232). -/
  orderR : List Nat
  orderW : List Nat
  orderS : List Nat
  orderT : List Nat
  /-- Writes that must have been acknowledged before a later system access leaves, and accesses whose observed writes join them at their
landing (R232). -/
  orderK : List Nat
  orderA : List Nat
  deriving DecidableEq, Repr

/-! Warm accesses. -/

/-- What a warm access does at its home. -/
inductive Act where
  | read
  | write
  /-- An atomic: operation code 0-8 of amo, 16 cas, 32-34 of amof (R233, R234). -/
  | atomic (op : Nat)
  deriving DecidableEq, Repr

/-- What a warm access's completion does on the cold side. -/
inductive Use where
  | mailbox (m : Nat)
  /-- A row of inbound port `i`, binding `gen`. -/
  | row (i gen k : Nat)
  /-- A row of outbound port `o`, binding `gen`; the counter that it posts if it is the last of its walk. -/
  | sent (o gen k : Nat) (post : Option Nat)
  /-- Granule `g` of crossing `x` of the core. -/
  | granule (x g : Nat)
  | store
  deriving DecidableEq, Repr

/-- A warm access that has issued (R219): a packed value, element by element. -/
structure Req where
  id : Nat
  core : Nat
  /-- Queue: 0-7 inbound, 8-11 outbound, 12 scalar, 13 unbound (R87, R153). -/
  queue : Nat
  act : Act
  use : Use
  sys : Bool
  /-- Element addresses as (bit position in the value, bit address), and the element width. -/
  elems : List (Nat × Nat)
  width : Nat
  value : BitVec 4096
  /-- Expected value of a cas. -/
  expect : W64
  /-- Mask of a write, bit by bit of the value. -/
  mask : BitVec 4096
  /-- The issue slot of the instruction that sent the row, for a row of an outbound port; otherwise the issue (R193). -/
  opIssue : Nat
  /-- The tensor's check word, read or written with the last row or granule of a checked pattern: its bit address (R167). -/
  check : Option Nat
  issue : Nat
  home : Nat
  /-- Distance from home point to landing. -/
  dist : Nat
  /-- The planned landing slot of a read or atomic. -/
  land : Nat
  /-- Accesses that must be performed first. -/
  after : List Nat
  /-- Accesses that must have landed, or been acknowledged, first (R231, R232). -/
  gone : List Nat
  /-- Writes of its issuer's K that must have left the send queue first, and accesses of `gone` whose observed writes join them (R232). -/
  acks : List Nat
  scs : List Nat
  /-- It does not wait for the context to run (R180, R220, R405): `home` is an MSLOT, at which it may be performed, or, once it has
  been, may land. -/
  async : Bool
  /-- A row of a port that has crossed after its planned slot (R180). -/
  tardy : Bool := false
  performed : Bool
  /-- The CSLOT at which it was performed. -/
  done : Nat
  /-- Halted by a fault until its source is restarted (R84). -/
  held : Bool
  /-- Sent to its home module and not yet acknowledged (R229). -/
  sent : Bool
  release : Bool
  acquire : Bool
  /-- A row that has read a line while a copy command of the context was writing it (R192). -/
  met : Bool
  /-- The causal set at issue (R228), and the writes that a performed read has observed, with their predecessors. -/
  seen : List Nat
  got : List Nat
  /-- The word of the instruction that made it (R400). -/
  word : W32
  deriving DecidableEq, Repr

/-- A crossing of the unbound queue or a mesh move (R159, R160). -/
structure Xing where
  id : Nat
  core : Nat
  /-- 0 xin, 1 xout, 2 xcmv. -/
  kind : Nat
  walk : Walk
  tc : Nat
  pool : Bool
  off : Nat
  bytes : Nat
  issue : Nat
  /-- Target core of an xcmv, and the hop count. -/
  target : Nat
  hops : Nat
  /-- Cold bytes read so far of an xout or xcmv, and granules read. -/
  data : SMap Byte
  next : Nat
  /-- Granules landed or applied. -/
  done : Nat
  checksum : Bool
  crc : SMap Byte
  /-- The check word read with the last granule of an xin (R167). -/
  check : Option Nat
  posted : Bool
  err : Bool
  word : W32
  deriving DecidableEq, Repr

/-- A copy-engine command (R164). -/
structure Cmd where
  id : Nat
  core : Nat
  cluster : Nat
  /-- 0 xcopy, 1 xded, 2 xpref. -/
  kind : Nat
  src : Walk
  dst : Walk
  tc : Nat
  routine : Nat
  flags : BitVec 4
  bytes : Nat
  issue : Nat
  start : Nat
  post : Nat
  /-- Accesses that its reads, and its writes, must follow (R223, R224, R232). -/
  afterR : List Nat
  afterW : List Nat
  /-- What its reads, and its writes, of the sys: range must follow until it has landed, and the writes that must have applied before them
  (R231, R232). -/
  goneR : List Nat
  goneW : List Nat
  acks : List Nat
  scs : List Nat
  started : Bool
  /-- Source granules read, and those whose bytes have come; destination granules written. A check word that is compared counts as a
  source granule beyond the last, one that is written as a destination granule (R167). -/
  read : Nat
  taken : Nat
  written : Nat
  /-- The source's bytes so far, the scales of NQ4, and the source and destination bytes by virtual address for the checksums. -/
  data : Nat
  scales : Nat
  crc : SMap Byte
  dcrc : SMap Byte
  /-- The source's check word, once it has been read. -/
  check : Option Nat
  /-- The routine has done its work; its post has the error bit. -/
  done : Bool
  err : Bool
  /-- Halted behind a fault. -/
  held : Bool
  /-- It has been held, by a fault of its own or behind a command that was: it has no fixed post slot, and no overrun (R164). -/
  late : Bool
  posted : Bool
  /-- Granule index at which it has halted. -/
  faulted : Option Nat
  /-- Pages of an xpref that the keeper has not decided yet (R69, R70); pages of an xded that have not been looked up (R170). -/
  pages : List Nat
  second : Bool
  /-- The issuing core's causal set, with what the command has observed and written (R228). -/
  seen : List Nat
  word : W32
  deriving DecidableEq, Repr

/-- A counter post that a pre-emption has taken into its image, with its planned CSLOT (R182, R183). -/
structure Post where
  slot : Nat
  core : Nat
  tc : Nat
  err : Bool
  issue : Nat
  deriving DecidableEq, Repr

/-- An xpost waiting for the operations it joins (R380). -/
structure Join where
  core : Nat
  tc : Nat
  issue : Nat
  xings : List Nat
  cmds : List Nat
  /-- An operation that had posted before it posted an error. -/
  err : Bool
  deriving DecidableEq, Repr

/-! A context. -/

/-- An entry of an undo log (R189, R191), with the window it belongs to. -/
structure Undo where
  kind : Nat
  space : Nat
  foreign : Bool
  atomic : Bool
  spilled : Bool
  source : Nat
  core : Nat
  cslot : Nat
  addr : Nat
  win : Nat
  payload : BitVec 512
  /-- Its place in the ring that holds it (R189, R191). -/
  place : Nat := 0
  /-- The model's own: the issue slot of the operation behind it; the binding and the row, for a row of a port; a service; whether it was
  made after the issues of its slot. -/
  issue : Option Nat := none
  row : Option (Nat × Nat) := none
  svc : Bool := false
  late : Bool := false
  /-- The operation whose completion a post is, by its issue slot. -/
  op : Option Nat := none
  deriving DecidableEq, Repr

/-- A lane hold (R157): cluster, direction, lanes, last slot if known, and the bound port it belongs to (core, port). -/
structure LaneHold where
  cluster : Nat
  out : Bool
  lanes : Nat
  upto : Option Nat
  port : Option (Nat × Nat)
  deriving DecidableEq, Repr

/-- A window: its start, its flags (R188), the account at its start. -/
structure Window where
  num : Nat
  start : Nat
  mslot : Nat
  heat : Int
  tainted : Bool
  irrevocable : Bool
  unrecoverable : Bool
  spilled : Bool
  /-- The warm ring has dropped an append of this window (R197). -/
  dropping : Bool
  /-- The live-range table of its snapshot, and the cores as they stood at its start, for what the header names only by a position:
  port bindings, units, holds. -/
  table : List (List Nat)
  cores : List Core
  serial : List Nat
  /-- The crossing and copy-engine queues as they stood at its start: the operations whose effects in the window are carried (R193). -/
  reqs : List Req
  xings : List Xing
  cmds : List Cmd
  joins : List Join
  posts : List Post
  lanes : List LaneHold
  /-- The checkpoint slot that the next one is counted from, and the account, at its start (R124, R211). -/
  lastCkpt : Nat
  deriving DecidableEq, Repr

/-- Why a core or its warm side stops the context (R172). -/
structure Cause where
  /-- Context core index, and logical core id (R10). -/
  core : Nat
  lid : Nat
  code : Nat
  stream : Nat
  word : W32
  port : Nat
  detail : W64
  deriving DecidableEq, Repr

/-- A stop that takes effect at a slot not earlier than `at` (R172, R173). -/
structure Stop where
  slot : Nat
  cause : Cause
  deriving DecidableEq, Repr

/-- The run state of a context (R111). -/
inductive Run where
  /-- Placed; its code is being loaded, or its CSLOT 0 has not come. -/
  | loading
  | starting (origin : Nat)
  | running
  /-- Dwelling: the MSLOT at which it began, wheels asked for (0: until the waits are satisfied), and the kind: 0 heat, 1 late
  arrival, 2 foghorn, 3 system barrier (R125, R122, R137). -/
  | dwelling (since wheels kind : Nat)
  /-- Frozen, since the MSLOT; the MSLOT of the thaw request, if one has been made (R177). -/
  | frozen (since : Nat) (thaw : Option Nat)
  /-- Its completion tree has fired, and it waits for those of the other replicas (R108). -/
  | ended
  /-- Its launch has ended, and its moves are being finished before it is released (R109). -/
  | gone
  deriving DecidableEq, Repr

/-- A watchpoint's registers (R204). -/
structure Watch where
  addr : BitVec 64
  mask : BitVec 64
  ctl : BitVec 64
  hit : BitVec 64
  /-- The first slot at which it matches (R209). -/
  first : Nat
  /-- CSLOTs of hits that have not been told to the trace rings (R210). -/
  untold : List Nat
  deriving DecidableEq, Repr

/-- The context header of the freeze window (R178, R401). -/
structure Header where
  cause : Nat
  core : Nat
  cslot : Nat
  mslot : Nat
  freezes : Nat
  detail : W64
  service : Nat
  ack : Bool
  handlerLost : Bool
  /-- A RETAIN spill is due (R196). -/
  spill : Bool
  /-- Under the debugger; held by it; a RESUME given before the condition holds (R401). -/
  debugged : Bool
  held : Bool
  resume : Bool
  serviced : Bool
  /-- The context is to end with status FATAL, after its dump (R172, R17, R203). -/
  fatal : Bool
  /-- It ends with status NOMEM instead (R69). -/
  nomem : Bool
  deriving DecidableEq, Repr

/-- A replay toward a CSLOT (R200), with the entries still to be fed and the live state it must not touch. -/
structure Replay where
  target : Nat
  feed : List Undo
  /-- RSTEP.WRITE: the byte sought, its space and core, and the last matching slot. -/
  seek : Option (Nat × Nat × Nat)
  found : Option Nat
  /-- System accesses that the original run had sent after the window's start and that were still out (R199). -/
  ghosts : List Req
  /-- Posts, by core, counter and issue slot of the operation, that the operation has reached before the log does, with their error. -/
  owed : List (Nat × Nat × Nat × Bool)
  /-- The window it started from. -/
  win : Nat
  tainted : Bool
  /-- Continue live at the target (R203). -/
  live : Bool
  /-- The command that waits for the end. -/
  cmd : Option Nat
  deriving DecidableEq, Repr

/-- The lost-time account (R211). -/
structure Account where
  issue : SMap Nat
  gap : Nat
  heat : Nat
  late : Nat
  slip : Nat
  fault : Nat
  preempt : Nat
  service : Nat
  other : Nat
  deriving DecidableEq, Repr

/-- A fault record (R85) with what is needed to restart its source. -/
structure FaultRec where
  source : Nat
  kind : Nat
  src : Nat
  asid : BitVec 8
  write : Bool
  fetch : Bool
  raised : Bool
  unit : Nat
  port : Nat
  level : Nat
  addr : Nat
  cslot : Nat
  mslot : Nat
  position : Nat
  entry : BitVec 64
  /-- The context slot and access, or command, that halted. -/
  ctx : Nat
  req : Nat
  /-- The page of a SHARED fault as it stood at the fault, by offset (R406). -/
  snap : SMap Byte := []
  deriving DecidableEq, Repr

/-- How far the load of a code object has come: the runs of bytes that have been read, with their values, and the load bases of the segments, each
with whether it is placed whole (R83, R392). -/
structure Loading where
  reads : List (Nat × Nat × Nat)
  placed : List (Nat × Bool)
  deriving DecidableEq, Repr

def Loading.start : Loading := { reads := [], placed := [] }

/-- What the loader took from the code object (R382-R391): kernels' store bases, constant and overlay tables. -/
structure Code where
  /-- Store base of each stream (R384). -/
  base : List Nat
  gp : W64
  got : W64
  /-- Live-range tables: kind, first, last, length, base (R390). -/
  live : List (List (List Nat))
  /-- Reservations of .timetab: kind, cluster, count, length, start (R391). -/
  time : List (List Nat)
  /-- Overlays: number, stream, index, words (R385). -/
  overlays : List (Nat × Nat × Nat × List W32)
  /-- Overlays whose fetch faulted, with the record that is held (R385). -/
  faulted : List (Nat × FaultRec)
  deriving DecidableEq, Repr

/-- A placed, queued or saved context. -/
structure Ctx where
  /-- Context slot 0-7 (R178). -/
  slot : Nat
  asid : BitVec 8
  /-- The 512-byte launch record (R94), and the launch command's number. -/
  record : BitVec 4096
  cmd : Nat
  /-- Places of the warm undo ring, and the place of the next entry (R191). -/
  ring : Nat
  ringPos : Nat
  /-- Frames of the ring: first, count. -/
  ringAt : Nat × Nat
  die : Nat
  rot : Nat
  phase : Nat
  origin : Nat
  cslot : Nat
  run : Run
  /-- The MSLOT of its placement, and the ns that it had spent in the launch queues (R101, R103). -/
  placed : Nat
  aged : Nat
  code : Code
  loading : Loading
  /-- Serial coordinates, highest-numbered level last (R98). -/
  serial : List Nat
  cores : List Core
  /-- Pools of the clusters (R59). -/
  pools : List Memory
  /-- Tensor descriptor table (R145). -/
  tdt : SMap Line
  /-- HEAT and HEATA (R136), and the charges of the present slot (R133). -/
  heat : Int
  allow : Nat
  charge : Nat
  win : Window
  windows : List Window
  /-- Cold undo rings of the clusters, oldest first, and the warm ring (R189, R191). -/
  coldLog : List (List Undo)
  warmLog : List Undo
  /-- The next place of each cluster's cold undo area, and its tag array (R189). -/
  coldNext : List Nat
  tags : List (SMap (BitVec 128))
  /-- Entries of the warm ring that have still to be written to its bytes in HBM in this slot: place and bytes (R191). -/
  unwritten : List (Nat × BitVec 640)
  /-- Warm lines and pool lines written in the open window. -/
  warmSeen : List Nat
  poolSeen : List (Nat × Nat)
  lastCkpt : Nat
  /-- Iteration start or checkpoint that opens a window at the next slot: the table that says what is live. -/
  opening : Option (List (List Nat))
  /-- Between two serial iterations: the CSLOT at which the next starts (R98). -/
  next : Option Nat
  /-- The release slot R whose heat dwell has been taken, as 2 R, or whose foghorn dwell has, as 2 R + 1 (R135, R137). -/
  dwelt : Option Nat
  /-- System barriers whose arrivals have been sent to the other replicas: beacon and release slot (R122). -/
  signalled : List (Nat × Nat)
  /-- Wheels dwelt at the present wait (R324). -/
  waited : Nat
  reqs : List Req
  nextReq : Nat
  xings : List Xing
  cmds : List Cmd
  joins : List Join
  posts : List Post
  /-- The causal set K of each copy engine (R215, R228). -/
  engineK : SMap (List Nat)
  lanes : List LaneHold
  /-- Granules that the crossings of the present wheel take: wheel number and page-offset address (R158). -/
  ticks : List (Nat × Nat)
  watch : List Watch
  stops : List Stop
  /-- The issues of the present slot have been made, and nothing has stopped it: what is left of it are the untimetabled agents and the
  reads (R216, R221). -/
  done : Bool
  header : Header
  victim : Bool
  replay : Option Replay
  /-- Posts, by core, counter and issue slot of the operation, that a replay's log has fed before the operation has come to them (R402). -/
  posted : List (Nat × Nat × Nat) := []
  /-- Service traps: the CSLOT of each freeze and the MSLOTs that it lasted, for the account of a replay (R211). -/
  services : List (Nat × Nat) := []
  /-- The data error or soft error already rolled back once (R172, R203). -/
  retried : Option Nat
  account : Account
  /-- Dedup index: fingerprint and frame (R170). -/
  index : List (BitVec 64 × Nat)
  /-- Fault records raised in the present slot, on their way to the ring (R85). -/
  reports : List FaultRec
  deriving DecidableEq, Repr

/-! The module. -/

/-- A leaf or pointer entry of a page table (R75), by level and first virtual address. -/
structure Pte where
  level : Nat
  va : Nat
  word : BitVec 64
  /-- The MAP named its physical base (R69). -/
  pinned : Bool
  deriving DecidableEq, Repr

/-- One address space (R74), as its keeper knows it: the physical address of its level-1 table, the tables of levels 2 and 3 with the first
virtual address and the physical address of each, and its leaves. The tables themselves are bytes of the keeper heap. -/
structure Space where
  asid : BitVec 8
  root : Nat
  tabs : List (Nat × Nat × Nat)
  ptes : List Pte
  deriving DecidableEq, Repr

/-- A cached leaf (R78): the source number of R87 (destination of a copy engine: plus 8,192), ASID, leaf. -/
structure Tlb where
  source : Nat
  asid : BitVec 8
  level : Nat
  va : Nat
  word : BitVec 64
  deriving DecidableEq, Repr

/-- A fault ring (R86-R89). -/
structure Ring where
  log2n : Nat
  base : Nat
  prod : BitVec 32
  cons : BitVec 32
  ovf : BitVec 32
  /-- Records written, oldest first. -/
  recs : List FaultRec
  /-- Held records, one a source; HELD is their count and BITMAP their sources. -/
  held : List FaultRec
  /-- Records the keeper has taken and not served. -/
  taken : List FaultRec
  deriving DecidableEq, Repr

/-- A marker of TLBINV (R90, R91): number, word, the MSLOT of the write, the sources whose queues hold it with the accesses ahead of it
there, and the leaves that those accesses still use. -/
structure Marker where
  num : Nat
  word : BitVec 64
  mslot : Nat
  queues : List (Nat × List (Nat × Nat))
  old : List (BitVec 8 × Pte)
  /-- Accesses ahead of it that have halted, and walk afresh (R81). -/
  fresh : List (Nat × Nat)
  deriving DecidableEq, Repr

/-- A page in a move (R65): the first page that asked for it, the physical address of its old frame, which names the move for every page
that maps the frame (R63), direction, new frame, requesters (an ASID and a command of its context, or 256 and a host command, or 257 for the
service of light faults). -/
structure Move where
  asid : BitVec 8
  vpn : Nat
  old : Nat
  size : Nat
  up : Bool
  frame : Nat
  who : List (Nat × Nat)
  /-- The light fault whose service has started it (R66, R71). -/
  fault : Option FaultRec := none
  /-- The invalidation that must be done before the page is copied (R63). -/
  mark : Nat
  deriving DecidableEq, Repr

/-- The state of a host command (R49, R54). -/
inductive CmdState where
  | accepted | started | aborting
  deriving DecidableEq, Repr

/-- An accepted host command (R46). -/
structure HostCmd where
  seq : Nat
  queue : Nat
  index : Nat
  words : BitVec 512
  /-- SEQ of the command taken before it from its queue (R49). -/
  prev : Option Nat
  /-- The launch record of a LAUNCH, as it stood at acceptance. -/
  record : BitVec 4096
  state : CmdState
  /-- Pages of a MIGRATE still to be decided, and how they fared: moved, busy, failed. -/
  pages : List Nat
  moved : Nat
  busy : Bool
  failed : Bool
  /-- Bytes moved, or the marker an UNMAP waits for. -/
  count : Nat
  result : Option (Nat × Nat)
  deriving DecidableEq, Repr

/-- A host queue (R42). -/
structure HQueue where
  base : BitVec 18
  log2n : BitVec 4
  cls : BitVec 2
  en : Bool
  tail : BitVec 32
  head : BitVec 32
  dropped : BitVec 32
  ovr : Bool
  /-- SEQ of the entry of the command taken last, which a WAITPREV behind it waits for (R49). -/
  last : Option Nat
  deriving DecidableEq, Repr

/-- A waiting launch (R101): the command, the record, the ns at which it entered its queue, and the saved context of a
pre-empted one (R103). -/
structure Waiting where
  cmd : Nat
  asid : BitVec 8
  record : BitVec 4096
  prio : Nat
  since : Nat
  /-- The millisecond at which it was last due to rise and found the next queue full (R101). -/
  blocked : Option Nat
  /-- First frame of its undo ring, once the keeper has allocated it. -/
  ring : Option Nat
  saved : Option Ctx
  deriving DecidableEq, Repr

/-- A loaded routine (R163, R165). -/
structure Routine where
  num : Nat
  s0 : Nat
  w : Nat
  fmin : Nat
  deriving DecidableEq, Repr

/-- A Dretex port (R24, R25). -/
structure Port where
  /-- The next sequence number of each class, to send and to receive. -/
  next : SMap Nat
  expect : SMap Nat
  /-- The replay buffer: flits sent and not acknowledged, at most 64; flits that wait for it or for a retrain; flits that arrived during
  a retrain. -/
  replay : List Flit
  heldOut : List Flit
  heldIn : List Flit
  /-- Lanes lost and not repaired. -/
  failed : Nat
  retraining : Bool
  /-- Every flit that this module has put on the link, newest last. -/
  wire : List Flit
  deriving DecidableEq, Repr

/-- A system-scope operation that has arrived (R215, R230). -/
structure Remote where
  id : Nat
  port : Nat
  msg : Msg
  halted : Bool
  deriving DecidableEq, Repr

/-- A system access that this module has sent (R229): the ASID of its context, the access or copy command, its home module, the granule
of the command, its first address, the sys: addresses of the bytes that it reads, the bytes that it writes with the bits written, its
predecessors, and whether an atomic has been acknowledged and waits for its result. -/
structure SysSend where
  id : Nat
  ctx : Nat
  req : Nat
  home : Nat
  gran : Nat
  addr : Nat
  reads : List Nat
  cells : List (Nat × Byte × Byte)
  deps : List Nat
  acked : Bool
  deriving DecidableEq, Repr

/-- A trace ring (R210). -/
structure Trace where
  slot : Nat
  base : Nat
  size : Nat
  mask : BitVec 64
  woff : Nat
  dropped : Nat
  deriving DecidableEq, Repr

/-- A core dump on NVMe (R185, R186): its context slot and ASID, the bytes of the file, where its notes start and how long they are,
whether it is open, whether it was cut short. -/
structure Dump where
  slot : Nat
  asid : BitVec 8
  file : Memory
  noteAt : Nat
  noteLen : Nat
  isOpen : Bool
  short : Bool
  deriving DecidableEq, Repr

/-- The host side of the module (R19-R22, R41-R57). -/
structure HostSide where
  queues : List HQueue
  w2base : BitVec 11
  w2disc : BitVec 32
  jwsel : BitVec 7
  /-- The queue from which a command was last taken, for each class (R45). -/
  turn : List Nat
  /-- MSI-X vectors raised, newest last (R19). -/
  msix : List Nat
  /-- Data of the last BAR2 read, or none for an Unsupported Request (R20, R22). -/
  data : Option (List Byte)
  /-- The last BAR0 access completed with Unsupported Request. -/
  unsupported : Bool
  /-- Host memory on the PCIe bus (R47). -/
  memory : Memory
  deriving DecidableEq, Repr

/-- The journal (R53-R58). -/
structure Journal where
  next : Nat
  persisted : Nat
  /-- Entries of 128 bytes by slot. -/
  ring : SMap (BitVec 1024)
  /-- The copy on NVMe. -/
  saved : SMap (BitVec 1024)
  /-- The millisecond of the keepers' timer in which the firmware last took its turn to persist it (R56, R212). -/
  ms : Nat
  deriving DecidableEq, Repr

/-- A slot of the boot flash: the root public key and the stage-one firmware (R33, R35). -/
structure FlashSlot where
  /-- 64 bytes, byte 0 lowest (R32). -/
  key : BitVec 512
  image : Image
  deriving DecidableEq, Repr

/-- What a Dretex port reports to the keepers: a lane failure or a finished retrain (R25). -/
inductive LinkEvent where
  | laneFailed (port : Nat)
  | retrained (port : Nat)
  deriving DecidableEq, Repr

/-- A remap request in the dedup ring of a keeper (R170, R171). -/
structure Remap where
  ring : Nat
  asid : BitVec 8
  /-- The page, its own frame, and the frame that it is to share. -/
  page : Nat
  own : Nat
  shared : Nat
  /-- The xded that has posted it; none once its context has been released. -/
  cmd : Option Nat
  /-- The marker of step 1, or 0. -/
  mark : Nat
  deriving DecidableEq, Repr

/-- The keepers' own state (R12, R16, R30-R39, R184). -/
structure Keepers where
  /-- BOOTSTAT (R36). -/
  bootPhase : BitVec 4
  fstage : BitVec 8
  attempts : BitVec 8
  kheap : BitVec 11
  meas : List (BitVec 512)
  loads : BitVec 64
  routines : List Routine
  present : List Bool
  spares : Nat
  /-- Boot flash slots and NVMe drives: images; present or lost (R29, R35). -/
  flash : List FlashSlot
  drives : List (List Image)
  /-- The root public key that phase 0 has loaded (R33). -/
  rootKey : BitVec 512
  /-- Reports of the Dretex ports (R25). -/
  linkLog : List LinkEvent
  lost : List Bool
  fresh : Bool
  /-- The reply of a quote and the measurement reports on the management port (R38, R40). -/
  replies : List (List Byte)
  dumps : List Dump
  dumpSpace : Nat
  /-- Console ring (R179). -/
  console : List Byte
  /-- sie bit 24 of each keeper (R178). -/
  sie : BitVec 16
  /-- Freezes whose ACK has not been written, by context slot and ASID: sip bit 24 of the keeper that serves the ASID (R178). -/
  unacked : List (Nat × BitVec 8)
  /-- The foghorn's interrupt is raised to the keepers (R137, log 141). -/
  foghornIrq : Bool
  /-- The dedup rings of the 16 keepers, oldest request first (R170). -/
  dedup : List Remap
  deriving DecidableEq, Repr

/-- The cold stage (R16-R18, R136-R138). -/
structure ColdStage where
  state : Fin 8
  /-- The time of the keepers' timer, in ns, at which it was entered, from which SOAK and HOLD are timed (R16, R212). -/
  entered : Nat
  t4k : BitVec 16
  t40k : BitVec 16
  holds : BitVec 8
  calibrated : Bool
  wx : BitVec 16
  wm : BitVec 16
  wv : BitVec 16
  wi : BitVec 16
  /-- Charges of the present wheel, and of the last 15. -/
  charge : Nat
  history : List Nat
  /-- Cores that running contexts have charged in the present slot (R137). -/
  ran : Nat
  foghorn : Bool
  hot : Nat
  /-- Sparing maps: logical to physical where not the identity (R11). -/
  coreMap : SMap Nat
  laneMap : SMap Nat
  hbmMap : SMap Nat
  deriving DecidableEq, Repr

/-- Warm memory and translation (R62, R74-R92). -/
structure Warm where
  mem : Memory
  spaces : List Space
  /-- CTXTR of each placed context, by context slot (R76). -/
  ctxtrs : List (Nat × BitVec 64)
  /-- 256-byte units of the keeper heap that tables of levels 2 and 3 have taken (log 111). -/
  tables : Nat
  /-- Frames of 64 KiB in use, and retired: first frame number (physical address >> 16) and count. -/
  used : List (Nat × Nat)
  retired : List (Nat × Nat)
  /-- The dedup reference counts (R170). -/
  refs : SMap (BitVec 32)
  tlbs : List Tlb
  moves : List Move
  rings : List Ring
  /-- Keeper SRAM, where the records of the rings lie (R88). -/
  sram : Memory
  invseq : Nat
  invdone : Nat
  markers : List Marker
  /-- Frames (first, count) freed once INVDONE reaches a marker (R92): the marker comes first. -/
  freeing : List (Nat × Nat × Nat)
  /-- The number of the last write performed at each byte, and the predecessors of the system-scope ones (R228). -/
  writers : SMap Nat
  deps : List (Nat × List Nat)
  deriving DecidableEq, Repr

/-- The arrivals of another module's replica at a system barrier, with its release slot, or, with no beacon, its completion (R108, R122). -/
structure Arrival where
  src : Nat
  asid : BitVec 8
  beacon : Option (BitVec 3)
  slot : Nat
  deriving DecidableEq, Repr

/-- The links (R24-R28, R212, R229, R230). -/
structure Links where
  ports : List Port
  send : List SysSend
  remote : List Remote
  /-- Writes applied here, by number. -/
  applied : List Nat
  /-- Replicas whose arrivals, or completions, have come (R108, R122). -/
  arrived : List Arrival
  /-- Station clock, corrections, lock, slew left in ns, and the slot it was last advanced (R212). -/
  clock : Nat
  corr : BitVec 32
  locked : Bool
  slew : Int
  corrections : List Int
  deriving DecidableEq, Repr

/-- The whole machine. -/
structure Mach where
  mslot : Nat
  host : HostSide
  journal : Journal
  keepers : Keepers
  cold : ColdStage
  warm : Warm
  links : Links
  cmds : List HostCmd
  /-- Launch queues of priority 0-3, heads first (R101). -/
  launch : List (List Waiting)
  ctxs : List Ctx
  traces : List Trace
  /-- WATCH commands taken for contexts not yet placed: ASID, watchpoint number, registers (R398). -/
  kept : List (BitVec 8 × Nat × Watch)
  /-- Contexts that RSTEP.WRITE has changed, as they stood before it, with the warm lines that a restore undoes: it may still fail (R201). -/
  aside : List (Ctx × List (Nat × BitVec 512))
  deriving DecidableEq, Repr

/-- What is left to do in the present MSLOT: the model's own (log 1). -/
inductive Task where
  /-- The events of the module, the resumes and starts that are due, then the slots of the contexts, then the next MSLOT. -/
  | globals
  | resumes
  | slots
  | advance
  /-- Asynchronous events whose posts a wait of the same MSLOT sees, and restarts (R181, R322); then the untimetabled agents act (R216). -/
  | arrivals
  | agents
  /-- A read by the host through the window base that stood when it arrived (R22). -/
  | hostRead (base : BitVec 11) (i : Instr)
  /-- An event, or a timetabled effect that is due. -/
  | event (i : Instr)
  /-- One slot of the context in slot `k`: its stages. -/
  | openSlot (k : Nat)
  | homes (k : Nat)
  | landings (k : Nat)
  | issues (k : Nat)
  /-- The word of one stream of one core issues. -/
  | issue (k j : Nat) (st : Stream)
  | rows (k : Nat)
  | close (k : Nat)
  /-- Reads at their homes, after every write and atomic of the slot (R221); then the slot is over. -/
  | reads (k : Nat)
  | commit (k : Nat)
  deriving DecidableEq, Repr

/-- An input of an untimetabled agent, and the MSLOT at which it acts (log 1). -/
structure Input where
  mslot : Nat
  op : Instr
  deriving DecidableEq, Repr

/-- The instruction that is issuing: context slot, core index, stream, its word. -/
structure Issue where
  k : Nat
  j : Nat
  st : Stream
  word : W32
  deriving DecidableEq, Repr

/-- The state of the model: the machine, and what the model needs to take it one micro-step at a time (log 1, 6). -/
structure State where
  now : Mach
  /-- The machine as it stood when the present slot of the present context opened (R127). -/
  snap : Option Mach
  todo : List Task
  inputs : List Input
  cur : Option Issue
  /-- The causes that have arisen in the present slot, and whether a wait or a release asks for a dwell: wheels, kind. -/
  causes : List Cause
  dwell : Option (Nat × Nat)
  deriving DecidableEq, Repr

/-! Values at reset. -/

def HQueue.reset : HQueue := { base := 0, log2n := 6, cls := 2, en := false, tail := 0, head := 0, dropped := 0, ovr := false, last := none }

def Ring.reset : Ring := { log2n := 6, base := 0, prod := 0, cons := 0, ovf := 0, recs := [], held := [], taken := [] }

def Port.reset : Port :=
  { next := [], expect := [], replay := [], heldOut := [], heldIn := [], failed := 0, retraining := false, wire := [] }

def Mach.reset : Mach :=
  { mslot := 0
    host := { queues := List.replicate 8 HQueue.reset, w2base := 0, w2disc := 0, jwsel := 0, turn := [7, 7, 7], msix := [], data := some []
              unsupported := false, memory := [] }
    journal := { next := 0, persisted := 0, ring := [], saved := [], ms := 0 }
    keepers := { bootPhase := 0, fstage := 0, attempts := 0, kheap := 0, meas := List.replicate 8 0, loads := 0, routines := []
                 present := List.replicate 16 true, spares := 4, flash := [], drives := [[], []], rootKey := 0, linkLog := [], lost := [false, false]
                 fresh := false, replies := [], dumps := [], dumpSpace := 0, console := [], sie := 0, unacked := [], foghornIrq := false, dedup := [] }
    cold := { state := 0, entered := 0, t4k := 0xFFFF, t40k := 0xFFFF, holds := 0, calibrated := false, wx := 0x64, wm := 0x258, wv := 0x28
              wi := 2, charge := 0, history := [], ran := 0, foghorn := false, hot := 0, coreMap := [], laneMap := [], hbmMap := [] }
    warm := { mem := [], spaces := [], ctxtrs := [], tables := 0, used := [], retired := [], refs := [], tlbs := [], moves := []
              rings := List.replicate 16 Ring.reset, sram := [], invseq := 0, invdone := 0, markers := [], freeing := [], writers := [], deps := [] }
    links := { ports := List.replicate 8 Port.reset, send := [], remote := [], applied := [], arrived := []
               clock := 0, corr := 0, locked := false, slew := 0, corrections := [] }
    cmds := [], launch := [[], [], [], []], ctxs := [], traces := [], kept := [], aside := [] }

/-- The machine right after module reset (R16, R18, R33, R42, R56, R110). -/
def State.reset : State :=
  { now := Mach.reset, snap := none, todo := [], inputs := [], cur := none, causes := [], dwell := none }

end Sys2Proof.Machine
end

