-- ==== Sys2Proof/Machine/Ops.lean ====
section
/-! DEFINITION. The named operations over memory and registers: reading and writing state, landing results, logging, posting
counters, sequencing a stream, taking a freeze and returning from one, and issuing an instruction. -/

namespace Sys2Proof.Machine

/-- What a meaning answers. -/
abbrev Out := Host.Outcome State Fault Refusal

/-- S, V, M, X in the order of R120, which is also the stream code of a freeze record (R175). -/
def rank : Stream → Nat
  | .s => 0
  | .v => 1
  | .m => 2
  | .x => 3

/-! Contexts and cores. -/

def Mach.ctx? (M : Mach) (k : Nat) : Option Ctx := M.ctxs.find? fun x => x.slot == k

/-- The context put in place of the one in its slot. -/
def Mach.setCtx (M : Mach) (x : Ctx) : Mach := { M with ctxs := M.ctxs.map fun y => if y.slot == x.slot then x else y }

def Ctx.core? (x : Ctx) (j : Nat) : Option Core := x.cores[j]?

def Ctx.setCore (x : Ctx) (c : Core) : Ctx := { x with cores := setAt x.cores c.idx c }

/-- The context changed in its core `j`. -/
def Ctx.onCore (x : Ctx) (j : Nat) (f : Core → Core) : Ctx :=
  match x.core? j with
  | none => x
  | some c => x.setCore (f c)

/-- The machine changed in its context in slot `k`. -/
def Mach.onCtx (M : Mach) (k : Nat) (f : Ctx → Ctx) : Mach :=
  match M.ctx? k with
  | none => M
  | some x => M.setCtx (f x)

/-- The context of an ASID; one that only waits for its release has ended (R109). -/
def Mach.byAsid (M : Mach) (a : BitVec 8) : Option Ctx := M.ctxs.find? fun x => x.asid == a && x.run != .gone

/-- A little-endian field of the launch record: byte offset and size (R94). -/
def recField (r : BitVec 4096) (off n : Nat) : Nat := r.toNat / 2 ^ (8 * off) % 2 ^ (8 * n)

def Ctx.field (x : Ctx) (off n : Nat) : Nat := recField x.record off n

/-- CLUSTERS (R94). -/
def Ctx.clusters (x : Ctx) : Nat := x.field 0x004 1

/-- POLICY is ROLL (R196). -/
def Ctx.roll (x : Ctx) : Bool := x.field 0x005 1 == 1

/-- The cluster of a context core. -/
def Core.cluster (c : Core) : Nat := c.idx / 8

/-! Registers (R141). -/

def Core.g (c : Core) (r : BitVec 5) : W64 := if r = 0 then 0 else SMap.get 0 c.regs.g r.toNat
def Core.p (c : Core) (r : BitVec 3) : Bool := r == 0 || SMap.get false c.regs.p r.toNat
def Core.lc (c : Core) (r : BitVec 2) : W32 := SMap.get 0 c.regs.lc r.toNat
def Core.h (c : Core) (r : BitVec 4) : BitVec 16 := SMap.get 0 c.regs.h r.toNat
def Core.k (c : Core) (r : BitVec 3) (row : Nat) : BitVec 64 :=
  if r = 0 then BitVec.allOnes 64 else SMap.get 0 c.regs.k (16 * r.toNat + row)
def Core.tile (c : Core) (r row : Nat) : Row := SMap.get 0 c.regs.v (16 * r + row)
def Core.acc (c : Core) (r row : Nat) : AccRow := SMap.get 0 c.regs.a (16 * r + row)
def Core.pat (c : Core) (i : Nat) : Line := SMap.get 0 c.regs.pat i
def Core.tk (c : Core) (i : Nat) : W64 := SMap.get (BitVec.allOnes 64) c.regs.tk i

def Mailbox.start : Mailbox := { value := 0, valid := false, last := 0, landed := 0 }
def Core.mb (c : Core) (i : Nat) : Mailbox := SMap.get Mailbox.start c.regs.m i

def Counter.start : Counter := { value := 0, err := false, errAt := 0 }
def Core.tc (c : Core) (i : Nat) : Counter := SMap.get Counter.start c.regs.tc i

def InPort.start : InPort :=
  { walk := none, tc := 0, lenient := false, gen := 0, planNext := 0, planX := 0, next := 0, catchX := 0, halted := none
    entries := [], popped := 0, res := 0, shared := 0, min := 0, cap := 0, fill := 0, crc := [], rewalk := 0 }
def Core.inp (c : Core) (i : Nat) : InPort := SMap.get InPort.start c.inb i
/-- One entry is reserved: from the minimum while that has one left, else from the shared remainder (R147). -/
def InPort.reserve (q : InPort) : InPort :=
  { q with res := q.res + 1, shared := if q.res < q.shared + q.min then q.shared else q.shared + 1 }
/-- `n` entries are freed: they return to the minimum until it is full, and then to the shared remainder (R147). -/
def InPort.release (q : InPort) (n : Nat) : InPort := { q with res := q.res - n, shared := Nat.min q.shared (q.res - n) }
def Core.setInp (c : Core) (i : Nat) (q : InPort) : Core := { c with inb := SMap.set InPort.start c.inb i q }

def OutPort.start : OutPort :=
  { walk := none, tc := 0, gen := 0, sent := 0, lastY := 0, applied := 0, queued := 0, cap := 0, crc := [] }
def Core.outp (c : Core) (i : Nat) : OutPort := SMap.get OutPort.start c.outb i
def Core.setOutp (c : Core) (i : Nat) (q : OutPort) : Core := { c with outb := SMap.set OutPort.start c.outb i q }

def Core.onRegs (c : Core) (f : Regs → Regs) : Core := { c with regs := f c.regs }

/-- A write to g0 is discarded (R141). -/
def Core.setG (c : Core) (r : Nat) (v : W64) : Core :=
  if r = 0 then c else c.onRegs fun q => { q with g := SMap.set 0 q.g r v }
/-- A write to p0 is discarded (R141). -/
def Core.setP (c : Core) (r : Nat) (v : Bool) : Core :=
  if r = 0 then c else c.onRegs fun q => { q with p := SMap.set false q.p r v }
def Core.setLc (c : Core) (r : Nat) (v : W32) : Core := c.onRegs fun q => { q with lc := SMap.set 0 q.lc r v }
def Core.setH (c : Core) (r : Nat) (v : BitVec 16) : Core := c.onRegs fun q => { q with h := SMap.set 0 q.h r v }
/-- A write to k0 is discarded (R141). -/
def Core.setK (c : Core) (r row : Nat) (v : BitVec 64) : Core :=
  if r = 0 then c else c.onRegs fun q => { q with k := SMap.set 0 q.k (16 * r + row) v }
def Core.setV (c : Core) (r row : Nat) (v : Row) : Core := c.onRegs fun q => { q with v := SMap.set 0 q.v (16 * r + row) v }
def Core.setA (c : Core) (r row : Nat) (v : AccRow) : Core :=
  c.onRegs fun q => { q with a := SMap.set 0 q.a (16 * r + row) v }
def Core.setPat (c : Core) (i : Nat) (v : Line) : Core := c.onRegs fun q => { q with pat := SMap.set 0 q.pat i v }
def Core.setTk (c : Core) (i : Nat) (v : W64) : Core :=
  c.onRegs fun q => { q with tk := SMap.set (BitVec.allOnes 64) q.tk i v }
def Core.setMb (c : Core) (i : Nat) (v : Mailbox) : Core := c.onRegs fun q => { q with m := SMap.set Mailbox.start q.m i v }
def Core.setTc (c : Core) (i : Nat) (v : Counter) : Core := c.onRegs fun q => { q with tc := SMap.set Counter.start q.tc i v }
def Core.raiseFlags (c : Core) (f : Flags) : Core := c.onRegs fun q => { q with flags := q.flags ||| f }

/-! Pending results (R115, R176, R290). -/

/-- A result added to the pending results: `lat` slots after `now`; a result of a false guard never lands (R290). -/
def Core.land (c : Core) (guard : Bool) (dst : Dest) (st : Stream) (now lat : Nat) (v : W64) : Core :=
  if guard then
    { c with pend := c.pend ++ [{ dst, land := now + lat, issue := now, stream := st, mask := BitVec.allOnes 64, fine := none
                                  value := v.setWidth 4096, flags := 0, acc := .set }] }
  else c

/-- A row result, with its mask and flags, landing at an absolute slot. -/
def Core.landRow (c : Core) (dst : Dest) (st : Stream) (issue at' : Nat) (mask : BitVec 64) (v : Nat) (f : Flags) (acc : AccMode) :
    Core :=
  { c with pend := c.pend ++ [{ dst, land := at', issue, stream := st, mask, fine := none, value := BitVec.ofNat 4096 v, flags := f
                                acc }] }

/-- The bits of `u` for each set bit of a 64-bit mask. -/
def spread (u : Nat) (m : BitVec 64) : Nat :=
  (List.range 64).foldl (fun a i => if m.getLsbD i then a + (2 ^ u - 1) * 2 ^ (u * i) else a) 0

/-- `new` where the mask has ones, `old` elsewhere. -/
def merge (old new mask : Nat) : Nat := (old ^^^ (old &&& mask)) ||| (new &&& mask)

/-- `old` with the units of a mask replaced. -/
def mergeUnits (u : Nat) (m : BitVec 64) (old new : Nat) : Nat :=
  if m = BitVec.allOnes 64 then new % 2 ^ (64 * u) else if m = 0 then old else merge old new (spread u m)

/-- One element of a packed value. -/
def elem (w i x : Nat) : Nat := x / 2 ^ (w * i) % 2 ^ w

/-- A packed value from its elements, element 0 lowest. -/
def pack (w : Nat) : List Nat → Nat
  | [] => 0
  | e :: r => e % 2 ^ w + 2 ^ w * pack w r

/-- One column of an accumulator row after an mma row lands (R254). -/
def accColumn (mode : AccMode) (old s n : Nat) : Nat :=
  match mode with
  | .set => s
  | .int => (old + s) % 2 ^ 64
  | .float wide scales => accumulate old s (if wide then f64Shape else f32Shape) (scales.map fun l => l.getD n (0, 0))

/-- The value that an accumulator row takes, from the row as it stood before the slot's landings (R369). -/
def accRow (p : Pend) (old : AccRow) : Nat :=
  match p.acc with
  | .set => p.value.toNat
  | m => pack 64 ((List.range 64).map fun n =>
      if p.mask.getLsbD n then accColumn m (elem 64 n old.toNat) (elem 64 n p.value.toNat) n else 0)

/-! Undo logging (R187-R198). -/

/-- Append to the open window's flags word and count in the header of one core (R188): bytes 0x030-0x037 of cold:0x1_C000. -/
def Ctx.flagsWord (x : Ctx) : Nat :=
  (if x.win.tainted then 1 else 0) + (if x.win.irrevocable then 2 else 0) + (if x.win.unrecoverable then 4 else 0)
    + (if x.win.spilled then 8 else 0)

/-- The header's flags and counts of every non-idle core brought up to date (R188). -/
def Ctx.syncHeader (x : Ctx) : Ctx :=
  { x with cores := x.cores.map fun c =>
      if c.idle then c
      else { c with cold := (c.cold.write 0x1C030 4 x.flagsWord).write 0x1C034 4 c.entries } }

def Ctx.onWin (x : Ctx) (f : Window → Window) : Ctx := { x with win := f x.win }

def Ctx.unrecoverable (x : Ctx) : Ctx := (x.onWin fun w => { w with unrecoverable := true }).syncHeader

/-- Discard the oldest earlier window of the warm ring (R197). -/
def Ctx.dropOldest (x : Ctx) : Option Ctx :=
  match x.warmLog.find? fun e => e.win < x.win.num with
  | none => none
  | some e => some { x with warmLog := x.warmLog.filter fun f => f.win ≠ e.win
                            windows := x.windows.filter fun w => w.num ≠ e.win }

/-- The 16-byte header of an entry, which is also the tag of a cold one (R189, R191). -/
def Undo.tag (e : Undo) : BitVec 128 :=
  let bit (b : Bool) (i : Nat) : Nat := if b then 2 ^ i else 0
  BitVec.ofNat 128 (e.kind % 256 + 2 ^ 8 * (e.space % 4 + bit e.foreign 2 + bit e.atomic 3 + bit e.spilled 4) + 2 ^ 16 * (e.source % 2 ^ 16)
    + 2 ^ 32 * (e.cslot % 2 ^ 48) + 2 ^ 80 * (e.addr % 2 ^ 48))

/-- The 80 bytes of an entry (R191). -/
def Undo.bytes (e : Undo) : BitVec 640 := e.payload ++ e.tag

/-- Whole windows are discarded, the oldest first, until `n` more entries fit (R197); false if they do not fit beside the open window. -/
def Ctx.makeRoom (x : Ctx) (n : Nat) : Nat → Ctx × Bool
  | 0 => (x, decide (x.warmLog.length + n ≤ x.ring))
  | fuel + 1 =>
    if x.warmLog.length + n ≤ x.ring then (x, true)
    else match x.dropOldest with
      | none => (x, false)
      | some y => y.makeRoom n fuel

/-- One entry, or a group that stands consecutively, appended to the warm ring (R191, R197). -/
def Ctx.append (x : Ctx) (group : List Undo) : Ctx :=
  if x.win.dropping then x
  else
    let left := x.ring - x.ringPos
    let pad : Undo := { kind := 0, space := 0, foreign := false, atomic := false, spilled := false, source := 0, core := 0
                        cslot := x.cslot, addr := 0, win := x.win.num, payload := 0 }
    let es := List.replicate (if group.length ≤ left then 0 else left) pad ++ group
    match x.makeRoom es.length x.warmLog.length with
    | (y, true) =>
      let placed := (es.zip (List.range es.length)).map fun e => { e.1 with place := (y.ringPos + e.2) % max 1 y.ring, late := x.done }
      { y with warmLog := y.warmLog ++ placed, ringPos := (y.ringPos + es.length) % max 1 y.ring
               unwritten := y.unwritten ++ placed.map fun e => (e.place, e.bytes) }
    | (y, false) => (y.onWin fun w => { w with unrecoverable := true, dropping := true }).syncHeader

/-- The logical id of a core, which is the Source of its entries (R10, R191). -/
def Ctx.lid (x : Ctx) (core : Nat) : Nat := ((x.core? core).map (·.id)).getD 0

/-- An ARRIVAL entry: source, destination code and payload bytes, and the issue slot of a carried operation (R192, R193). During replay
logging rebuilds the same entries (R200). -/
def Ctx.arrivalFrom (x : Ctx) (source : Nat) (issue : Option Nat) (core code : Nat) (payload : Nat) : Ctx :=
  x.append [{ kind := 3, space := 0, foreign := false, atomic := false, spilled := false, source, core
              cslot := x.cslot, addr := code, win := x.win.num, payload := BitVec.ofNat 512 payload, issue }]

def Ctx.arrivalOf (x : Ctx) (issue : Option Nat) (core code : Nat) (payload : Nat) : Ctx :=
  x.arrivalFrom (x.lid core) issue core code payload

def Ctx.arrival (x : Ctx) (core code : Nat) (payload : Nat) : Ctx := x.arrivalOf none core code payload

/-- An IRREV entry: destination and the first 48 bytes sent; the window becomes irrevocable (R194). -/
def Ctx.irrev (x : Ctx) (source core dest : Nat) (bytes : Nat) : Ctx :=
  ((x.append [{ kind := 4, space := 3, foreign := false, atomic := false, spilled := false, source, core
                cslot := x.cslot, addr := dest % 2 ^ 48, win := x.win.num
                payload := BitVec.ofNat 512 (dest % 2 ^ 64 + 2 ^ 64 * (bytes % 2 ^ 384)) }]).onWin
    fun w => { w with irrevocable := true }).syncHeader

/-- An effect of an operation issued before the open window is carried (R193). -/
def Ctx.carried (x : Ctx) (issue : Nat) : Bool := decide (issue < x.win.start) && decide (0 < x.win.num)

/-- A cold entry taken for a line before a write changes it, charged to core `c` (R189, R190, R196). -/
def Ctx.logOld (x : Ctx) (j : Nat) (pool : Bool) (line : Nat) (old : BitVec 512) : Ctx :=
  match x.core? j with
  | none => x
  | some c =>
    let cl := c.cluster
    let seen := if pool then x.poolSeen.contains (cl, line) else c.logged.contains line
    if seen then x
    else if 512 ≤ c.entries then x.unrecoverable
    else
      let e : Undo := { kind := 1, space := if pool then 1 else 0, foreign := false, atomic := false, spilled := false
                        source := c.id, core := j, cslot := x.cslot, addr := 64 * line, win := x.win.num, payload := old }
      let log := x.coldLog.getD cl []
      let x := if log.length < 4096 then x else match log with
        | o :: _ => { x with windows := x.windows.filter fun w => decide (o.win < w.num) }
        | [] => x
      let place := x.coldNext.getD cl 0
      let log := (if log.length < 4096 then log else log.drop 1) ++ [{ e with place }]
      let c := { c with entries := c.entries + 1, logged := if pool then c.logged else line :: c.logged
                        cold := c.cold.write 0x1C034 4 (c.entries + 1) }
      { (x.setCore c) with
        coldLog := setAt x.coldLog cl log, poolSeen := if pool then (cl, line) :: x.poolSeen else x.poolSeen
        coldNext := setAt x.coldNext cl ((place + 1) % 4096), tags := setAt x.tags cl (SMap.set 0 (x.tags.getD cl []) place e.tag)
        pools := setAt x.pools cl ((x.pools.getD cl []).write (0xC0000 + 64 * place) 64 old.toNat) }

/-- One line of a core's cold bank, or of its cluster's pool. -/
def Ctx.lineOf (x : Ctx) (j : Nat) (pool : Bool) (line : Nat) : Nat :=
  match x.core? j with
  | none => 0
  | some c => (if pool then x.pools.getD c.cluster [] else c.cold).read (64 * line) 64

/-- The internal watch of RSTEP.WRITE has met a write to its byte in slot `t` (R202). -/
def Ctx.sawWrite (x : Ctx) (t : Nat) (hit : Nat × Nat × Nat → Bool) : Ctx :=
  match x.replay with
  | none => x
  | some p => if (p.seek.map hit).getD false then { x with replay := some { p with found := some t } } else x

/-- A write of the masked bits of one line, as of its point: logged, then applied, and carried over a checkpoint if its
operation was issued before the window (R189, R193, R217). -/
def Ctx.writeLine (x : Ctx) (j : Nat) (pool : Bool) (line issue value mask : Nat) : Ctx :=
  if mask = 0 then x
  else
    let x := x.logOld j pool line (BitVec.ofNat 512 (x.lineOf j pool line))
    let x := x.sawWrite x.cslot fun q => q.1 / 64 == line && mask / 2 ^ (8 * (q.1 % 64)) % 256 != 0
      && if pool then q.2.1 == 1 && q.2.2 / 8 == j / 8 else q.2.1 == 0 && q.2.2 == j
    match x.core? j with
    | none => x
    | some c =>
      let y := if pool then { x with pools := setAt x.pools c.cluster ((x.pools.getD c.cluster []).writeMask (64 * line) 64 value mask) }
        else x.setCore { c with cold := c.cold.writeMask (64 * line) 64 value mask }
      if x.carried issue then
        y.append [{ kind := 2, space := if pool then 1 else 0, foreign := false, atomic := false, spilled := false, source := c.id
                    core := j, cslot := x.cslot, addr := 64 * line, win := x.win.num
                    payload := BitVec.ofNat 512 (y.lineOf j pool line), issue := some issue }]
      else y

/-- The quota of R190 leaves room for the lines of a store about to issue: those logged, and those of stores in flight, count. -/
def Ctx.quotaOk (x : Ctx) (c : Core) (pool : Bool) (lines : List Nat) : Bool :=
  let flight := (c.banks.filter fun b => b.write && decide (x.cslot ≤ b.slot)).map fun b => (b.pool, b.line)
  let want := (flight ++ lines.map fun l => (pool, l)).eraseDups.filter fun q =>
    if q.1 then !x.poolSeen.contains (c.cluster, q.2) else !c.logged.contains q.2
  decide (c.entries + want.length ≤ 512) || lines.all fun l =>
    if pool then x.poolSeen.contains (c.cluster, l) else c.logged.contains l

/-! Landing a result. -/

/-- A write to a state register takes effect (R333). -/
def Core.writeSreg (c : Core) (num : Nat) (now : Nat) (v : W64) : Core :=
  if num = 0x020 then c.onRegs fun q => { q with flags := v.setWidth 6 }
  else if num = 0x021 then c.onRegs fun q => { q with dphase := v.setWidth 6 }
  else if num = 0x058 then
    (List.range 8).foldl (fun c i =>
      let t := c.tc i
      if v.getLsbD i && decide (t.errAt < now) then c.setTc i { t with err := false } else c) c
  else c

def Core.onMat (c : Core) (f : Matrix → Matrix) : Core := { c with mat := f c.mat }

/-- A plane whose column `col` takes 64 elements of 4 bits, element k in row k (R365, NQ4). -/
def setColumn (plane : SMap Row) (col v : Nat) : SMap Row :=
  (List.range 64).foldl (fun m k =>
    SMap.set 0 m k (BitVec.ofNat 2048 (merge (SMap.get 0 m k).toNat (elem 4 k v * 2 ^ (4 * col)) (15 * 2 ^ (4 * col))))) plane

/-- One pending result reaches its destination; `c0` is the core before the slot's landings (R115, R120, R369). -/
def Ctx.landOne (x : Ctx) (j : Nat) (c0 : Core) (p : Pend) : Ctx :=
  let v := p.value.toNat
  let reg (f : Core → Core) : Ctx := x.onCore j fun c => (f c).raiseFlags p.flags
  match p.dst with
  | .g r => reg fun c => c.setG r (BitVec.ofNat 64 v)
  | .p r => reg fun c => c.setP r (v % 2 == 1)
  | .lc r => reg fun c => c.setLc r (BitVec.ofNat 32 v)
  | .h r => reg fun c => c.setH r (BitVec.ofNat 16 v)
  | .pat i => reg fun c => c.setPat i (BitVec.ofNat 512 v)
  | .k r row => reg fun c => c.setK r row ((c.k (BitVec.ofNat 3 r) row &&& ~~~p.mask) ||| (BitVec.ofNat 64 v &&& p.mask))
  | .v r row => reg fun c => c.setV r row (BitVec.ofNat 2048 (match p.fine with
      | none => mergeUnits 32 p.mask (c.tile r row).toNat v
      | some f => merge (c.tile r row).toNat v f.toNat))
  | .a r row => reg fun c => c.setA r row (BitVec.ofNat 4096 (mergeUnits 64 p.mask (c.acc r row).toNat (accRow p (c0.acc r row))))
  | .shadow row => reg fun c => c.onMat fun m => { m with shadow := SMap.set 0 m.shadow row (BitVec.ofNat 2048 v) }
  | .column col => reg fun c => c.onMat fun m => { m with shadow := setColumn m.shadow col v }
  | .scale col => reg fun c => c.onMat fun m => { m with scale := SMap.set 0 m.scale col (BitVec.ofNat 40 v), bound := true }
  | .planes => reg fun c => c.onMat fun m => { m with active := m.shadow, shadow := m.active }
  | .clear => reg fun c => { c with mat := { c.mat with active := [], shadow := [] }, regs := { c.regs with a := [] } }
  | .sreg n => reg fun c => c.writeSreg n x.cslot (BitVec.ofNat 64 v)
  | .dphase => reg fun c => c.onRegs fun q => { q with dphase := q.dphase + 17 }
  | .mesh => reg fun c => c.onRegs fun q => { q with mesh := v }
  | .send .. => x
  | .cold line => x.writeLine j false line p.issue v (spread 8 p.mask)
  | .pool line => x.writeLine j true line p.issue v (spread 8 p.mask)

/-- swr results land before the flags and the phase steps of the same slot (R143, R249, R333); others by issue, then stream (R120). -/
def Pend.key (p : Pend) : Nat := match p.dst with
  | .sreg _ => 0
  | _ => 1 + 4 * p.issue + rank p.stream

/-- Insertion by key, stable. -/
def insertPend (p : Pend) : List Pend → List Pend
  | [] => [p]
  | q :: r => if p.key < q.key then p :: q :: r else q :: insertPend p r

/-- A row leaving for an outbound port is no landing (R359). -/
def Pend.sends (p : Pend) : Bool := match p.dst with
  | .send .. => true
  | _ => false

/-- Every result of core `j` that lands at the present slot, or that was to land before it, lands (R115, R120). -/
def Ctx.landDue (x : Ctx) (j : Nat) : Ctx :=
  match x.core? j with
  | none => x
  | some c =>
    let due := (c.pend.filter fun p => decide (p.land ≤ x.cslot) && !p.sends).foldr insertPend []
    let x := x.setCore { c with pend := c.pend.filter fun p => decide (x.cslot < p.land) || p.sends }
    due.foldl (fun x p => x.landOne j c p) x

/-! Counters and mailboxes (R149, R150). -/

/-- The bytes of new entries reach the ring in HBM (R191). -/
def Mach.writeLog (M : Mach) (k : Nat) : Mach :=
  match M.ctx? k with
  | none => M
  | some x =>
    if x.unwritten = [] then M
    else
      let mem := x.unwritten.foldl (fun m e => m.write (65536 * x.ringAt.1 + 80 * e.1) 80 e.2.toNat) M.warm.mem
      { M with warm := { M.warm with mem } }.setCtx { x with unwritten := [] }

/-- A completion posts counter `i` of core `j` (R150). -/
def Ctx.post (x : Ctx) (j i : Nat) (err : Bool) : Ctx :=
  x.onCore j fun c =>
    let t := c.tc i
    c.setTc i { value := t.value + 1, err := t.err || err, errAt := if err then x.cslot else t.errAt }

/-- The post of an operation: an entry that replay has still to feed for it (R192, R200, R405). -/
def Ctx.postFed (x : Ctx) (j i issue : Nat) : Bool :=
  x.replay.any fun p => p.feed.any fun e => e.kind == 3 && e.core == j && e.addr == 0x200 + i && e.issue.isNone && e.op == some issue

/-- Counter `i` posts, with its log entry: of a carried operation, or, as `free`, of one that has no fixed slot (R192, R193). -/
def Ctx.postNow (x : Ctx) (j i : Nat) (err : Bool) (issue : Nat) (free : Bool) : Ctx :=
  let y := x.post j i err
  if free || x.carried issue then match y.core? j with
    | none => y
    | some c => y.append [{ kind := 3, space := 0, foreign := false, atomic := false, spilled := false, source := y.lid j, core := j, cslot := y.cslot
                            addr := 0x200 + i, win := y.win.num, issue := if free then none else some issue, op := some issue
                            payload := BitVec.ofNat 512 ((c.tc i).value.toNat + 2 ^ 64 * (if (c.tc i).err then 1 else 0)) }]
  else y

/-- An operation completes and posts its counter; what replay feeds from the log, at its slot, or has fed, does not post here (R150, R200, R402). -/
def Ctx.postOp (x : Ctx) (j i : Nat) (err : Bool) (issue : Nat) (free : Bool) : Ctx :=
  if x.postFed j i issue then { x with replay := x.replay.map fun p => { p with owed := p.owed ++ [(j, i, issue, err)] } }
  else if x.posted.contains (j, i, issue) then { x with posted := x.posted.erase (j, i, issue) }
  else x.postNow j i err issue free

/-! Sequencing (R112, R303, R308, R309). -/

def Core.stream (c : Core) : Stream → StreamSt
  | .s => c.s
  | .v => c.v
  | .m => c.m
  | .x => c.x

def Core.setStream (c : Core) (st : Stream) (q : StreamSt) : Core :=
  match st with
  | .s => { c with s := q }
  | .v => { c with v := q }
  | .m => { c with m := q }
  | .x => { c with x := q }

/-- The end check of R308 at index `e`: the loop stack, top first, and the next index. -/
def loopNext : List Loop → Nat → List Loop × Nat
  | [], e => ([], e + 1)
  | l :: r, e =>
    if l.stop = e then
      if l.left = 0 then loopNext r e else ({ l with left := l.left - 1 } :: r, l.start)
    else (l :: r, e + 1)

/-- A word has issued: the end check outside a delay window, and the slot from which the next word's GAP counts. -/
def StreamSt.step (q : StreamSt) (ready : Nat) : StreamSt :=
  match q.xfer with
  | some _ => { q with pc := q.pc + 1, ready }
  | none =>
    let (loops, pc) := loopNext q.loops q.pc
    { q with loops, pc, ready }

/-- A transfer whose window has ended takes the stream to its target (R303). -/
def StreamSt.redirect (q : StreamSt) (now : Nat) : StreamSt :=
  match q.xfer with
  | some f => if f.last < now then { q with pc := f.target, ready := f.last + 1, xfer := none } else q
  | none => q

def StreamSt.word (q : StreamSt) (i : Nat) : W32 := SMap.get 0 q.store i

/-- The GAP field (R112). -/
def gapOf (w : W32) : Nat := bits w.toNat 26 25

/-- The word of the stream issues at `now` (R112, R140). -/
def StreamSt.due (q : StreamSt) (now : Nat) : Bool :=
  let q := q.redirect now
  if q.pc < 4096 then q.ready + gapOf (q.word q.pc) == now else q.ready == now

/-- `n` unheld slots pass to a stream that was held (R114). -/
def StreamSt.shift (q : StreamSt) (n : Nat) : StreamSt :=
  { q with ready := q.ready + n, xfer := q.xfer.map fun f => { f with last := f.last + n } }

def Core.shift (c : Core) (n : Nat) : Core :=
  { c with s := c.s.shift n, v := c.v.shift n, m := c.m.shift n, x := c.x.shift n }

/-- A core that a bar or a checkpoint holds, or that has halted, issues nothing (R107, R114). -/
def Core.stopped (c : Core) : Bool := c.idle || c.barred.isSome || c.hold.isSome || c.halt.isSome

/-- The lost-time account counts an issue (R211). -/
def Ctx.countIssue (x : Ctx) (st : Stream) : Ctx :=
  { x with account := { x.account with issue := SMap.set 0 x.account.issue (rank st) (SMap.get 0 x.account.issue (rank st) + 1) } }

/-- Stream `st` of core `j` goes on after its word: `ready` is the slot from which the successor's GAP counts. -/
def Ctx.advance (x : Ctx) (j : Nat) (st : Stream) (ready : Nat) : Ctx :=
  (x.onCore j fun c => c.setStream st ((c.stream st).step ready)).countIssue st

/-! Taking a freeze: the one exception of the machine (R172-R178). -/

def isFault (code : Nat) : Bool := decide (0x10 ≤ code) && decide (code ≤ 0x23)
def isSlip (code : Nat) : Bool := decide (1 ≤ code) && decide (code ≤ 0x0A)

/-- The class in which a cause is reported: faults, then slips, then stops (R173). -/
def causeClass (code : Nat) : Nat := if isFault code then 0 else if isSlip code then 1 else 2

/-- `a` is reported before `b`: class, code, logical core id (R128, R173). -/
def Cause.before (a b : Cause) : Bool :=
  let ka := (causeClass a.code, a.code, a.lid)
  let kb := (causeClass b.code, b.code, b.lid)
  decide (ka.1 < kb.1 ∨ (ka.1 = kb.1 ∧ (ka.2.1 < kb.2.1 ∨ (ka.2.1 = kb.2.1 ∧ ka.2.2 < kb.2.2))))

/-- The reported cause (R173). -/
def reported : List Cause → Option Cause
  | [] => none
  | c :: r => match reported r with
    | none => some c
    | some d => if d.before c then some d else some c

/-- The cause of lowest code; of two alike the first. -/
def lowestCause (l : List Cause) : Option Cause :=
  l.foldl (fun b q => match b with
    | none => some q
    | some p => if q.code < p.code then some q else some p) none

/-- The freeze record's own fields of one core: those of its lowest cause (R175). -/
def recordOf (all : List Cause) (rep : Cause) (c : Core) : Record :=
  let mine := all.filter fun q => q.core == c.idx
  match lowestCause mine with
  | none => { cause := 0, causes := 0, reported := false, word := 0, stream := 0, port := 0, detail := 0 }
  | some q => { cause := q.code
                causes := mine.foldl (fun b a => b ||| BitVec.ofNat 64 (2 ^ a.code)) 0
                reported := rep.core == c.idx && rep.code == q.code, word := q.word, stream := q.stream, port := q.port % 16, detail := q.detail }

/-- A replay toward the target of a reverse step (R201, R208). -/
def Ctx.reversing (x : Ctx) : Bool := x.replay.any fun p => !p.live

/-- The context freezes at its present slot with the causes that arose there (R127, R173-R175, R178). -/
def Ctx.freeze (x : Ctx) (mslot : Nat) (causes : List Cause) : Ctx :=
  match reported causes with
  | none => x
  | some rep =>
    { x with
      run := .frozen mslot none
      cores := x.cores.map fun c => if c.idle then c else { c with record := recordOf causes rep c }
      stops := x.stops.filter fun q => x.cslot < q.slot || (causeClass q.cause.code == 2 && q.cause.code != rep.code)
      header := { x.header with
        cause := rep.code, core := rep.core, cslot := x.cslot, mslot, freezes := x.header.freezes + 1, detail := rep.detail
        service := if rep.code = 0x33 then rep.detail.toNat else 0
        spill := rep.code == 0x33 && rep.port == 16
        ack := false, serviced := false
        held := rep.code == 0x23 || rep.code == 0x34
          || (x.header.debugged && !x.reversing && rep.code != 0x21 && rep.code != 0x22 && (isFault rep.code || isSlip rep.code))
        resume := false } }

/-- A disposition of R172 and R127: the cause ends the context unless the debugger has it. -/
def planError (code : Nat) : Bool := code = 3 || code = 4 || code = 5 || code = 6 || code = 7 || code = 10
def fatalCode (code : Nat) : Bool := planError code || (decide (0x10 ≤ code) && decide (code ≤ 0x20))

/-- A thaw is requested: the context resumes at the first MSLOT that keeps its phase, 64 slots or more later (R177). -/
def Ctx.thaw (x : Ctx) (mslot : Nat) : Ctx :=
  match x.run with
  | .frozen since _ => { x with run := .frozen since (some mslot) }
  | _ => x

/-- The first MSLOT m at or after `t` with m = a (mod 4,096). -/
def alignTo (t a : Nat) : Nat := t + (a + 4096 - t % 4096) % 4096

/-- The MSLOT at which a thawed context resumes (R177). -/
def resumeAt (since thaw : Nat) : Nat := alignTo (thaw + 64) (since % 4096)

/-- The context runs again; its stop has moved its origin (R106, R177). -/
def Ctx.resume (x : Ctx) (mslot : Nat) : Ctx := { x with run := .running, origin := mslot - x.cslot }

/-! Issuing an instruction. -/

/-- A cause that the issuing instruction raises. -/
structure Trouble where
  code : Nat
  detail : W64
  /-- The port of R175; 16 marks the full log of R196, whose port field is 0. -/
  port : Nat
  deriving DecidableEq, Repr

/-- Why an instruction does not issue: a cause, two slips at once (R128), or a wait that makes the context dwell (R324). -/
inductive Stall where
  | cause (t : Trouble)
  | both (t u : Trouble)
  | dwell
  deriving DecidableEq, Repr

def trouble (code : Nat) : Stall := .cause { code, detail := 0, port := 0 }
def troubleAt (code detail : Nat) : Stall := .cause { code, detail := BitVec.ofNat 64 detail, port := 0 }

/-- A slip with a code and a detail, if its condition holds. -/
def slipIf (b : Bool) (code detail : Nat) : Option Trouble := if b then some { code, detail := BitVec.ofNat 64 detail, port := 0 } else none

/-- Every slip that arises at an issue is recorded (R128). -/
def slips (t u : Option Trouble) : Except Stall Unit :=
  match t, u with
  | none, none => .ok ()
  | some t, none => .error (.cause t)
  | none, some u => .error (.cause u)
  | some t, some u => .error (.both t u)

/-- A meaning of a stream instruction: from the machine, the issuing context and its core, a stall or the context after. -/
abbrev Meaning := Mach → Ctx → Core → Except Stall Ctx

/-- The issuing instruction's cause is recorded; the slot will be rolled back (R127). -/
def State.raise (s : State) (i : Issue) (lid : Nat) (t : Trouble) : State :=
  { s with causes := s.causes ++ [{ core := i.j, lid, code := t.code, stream := rank i.st, word := i.word, port := t.port, detail := t.detail }] }

/-- Run a meaning for the word that is issuing. -/
def State.issueRaw (s : State) (f : Issue → Meaning) : Out :=
  match s.cur with
  | none => .fault .noIssuer
  | some i => match s.now.ctx? i.k with
    | none => .fault .noIssuer
    | some x => match x.core? i.j with
      | none => .fault .noIssuer
      | some c => match f i s.now x c with
        | .error (.cause t) => .next (s.raise i c.id t)
        | .error (.both t u) => .next ((s.raise i c.id t).raise i c.id u)
        | .error .dwell => .next { s with dwell := some (1, 1) }
        | .ok y => .next { s with now := s.now.setCtx y }

/-- An instruction whose successor issues GAP + 1 slots later. -/
def State.issue (s : State) (f : Issue → Meaning) : Out :=
  s.issueRaw fun i M x c => (f i M x c).map fun y => y.advance i.j i.st (x.cslot + 1)

/-- An instruction that only changes its own core. -/
def State.issueCore (s : State) (f : Issue → Ctx → Core → Core) : Out := s.issue fun i _ x c => .ok (x.setCore (f i x c))

/-- An event of the context in slot `k`; with no such context nothing happens. -/
def State.onCtx (s : State) (k : Nat) (f : Ctx → Ctx) : Out := .next { s with now := s.now.onCtx k f }

/-- An event of the machine. -/
def State.onMach (s : State) (f : Mach → Mach) : Out := .next { s with now := f s.now }

end Sys2Proof.Machine
end

