-- ==== Sys2Proof/Machine/Operands.lean ====
section
/-! DEFINITION. Every operand form: the functions of the scalar instructions, addresses and their checks, tensors and their rows,
patterns and their walks, bank accesses and hazard ranges. -/

namespace Sys2Proof.Machine

/-! Scalar functions (R281, R292-R298). -/

def condVal (c : Cond) (a b : W64) : Bool :=
  match c with
  | .eq => a == b
  | .ne => a != b
  | .lt => a.slt b
  | .ge => !a.slt b
  | .ltu => a.ult b
  | .geu => !a.ult b

def logVal {n : Nat} (op : LogOp) (a b : BitVec n) : BitVec n :=
  match op with
  | .and => a &&& b
  | .or => a ||| b
  | .xor => a ^^^ b
  | .andn => a &&& ~~~b
  | .orn => a ||| ~~~b
  | .nand => ~~~(a &&& b)
  | .nor => ~~~(a ||| b)
  | .xnor => ~~~(a ^^^ b)

/-- A Bool as a 64-bit 0 or 1. -/
def flag64 (b : Bool) : W64 := if b then 1 else 0

/-- The functions of alu (R292); `p` is the predicate that sel reads. -/
def aluVal (fn : AluFn) (a b : W64) (p : Bool) : W64 :=
  let sh := b.toNat % 64
  match fn with
  | .add => a + b
  | .sub => a - b
  | .and => a &&& b
  | .or => a ||| b
  | .xor => a ^^^ b
  | .andn => a &&& ~~~b
  | .sll => a <<< sh
  | .srl => a >>> sh
  | .sra => a.sshiftRight sh
  | .slt => flag64 (a.slt b)
  | .sltu => flag64 (a.ult b)
  | .seq => flag64 (a == b)
  | .min => if a.slt b then a else b
  | .max => if a.slt b then b else a
  | .minu => if a.ult b then a else b
  | .maxu => if a.ult b then b else a
  | .sel => if p then a else b
  | .clz => BitVec.ofNat 64 (clz64 a.toNat)
  | .popc => BitVec.ofNat 64 (popc 64 a.toNat)

/-- The functions of muldiv with the borderline cases of R293. -/
def mulVal (fn : MulFn) (a b : W64) : W64 :=
  match fn with
  | .mul => a * b
  | .mulh => BitVec.ofInt 64 (a.toInt * b.toInt / 2 ^ 64)
  | .mulhu => BitVec.ofNat 64 (a.toNat * b.toNat / 2 ^ 64)
  | .div => if b = 0 then BitVec.allOnes 64 else BitVec.ofInt 64 (a.toInt.tdiv b.toInt)
  | .divu => if b = 0 then BitVec.allOnes 64 else BitVec.ofNat 64 (a.toNat / b.toNat)
  | .rem => if b = 0 then a else BitVec.ofInt 64 (a.toInt.tmod b.toInt)
  | .remu => if b = 0 then a else BitVec.ofNat 64 (a.toNat % b.toNat)

def MulFn.isDiv : MulFn → Bool
  | .mul | .mulh | .mulhu => false
  | _ => true

/-- Latency of muldiv (R116). -/
def mulLat (fn : MulFn) : Nat := if MulFn.isDiv fn then 40 else 6

/-- The functions of alui (R295). -/
def aluiVal (fn : AluiFn) (a : W64) (imm : BitVec 12) : W64 :=
  let i := imm.signExtend 64
  let sh := imm.toNat % 64
  match fn with
  | .addi => a + i
  | .andi => a &&& i
  | .ori => a ||| i
  | .xori => a ^^^ i
  | .slli => a <<< sh
  | .srli => a >>> sh
  | .srai => a.sshiftRight sh
  | .slti => flag64 (a.slt i)

def ldBytes : LdSize → Nat
  | .b | .bu => 1
  | .h | .hu => 2
  | .w | .wu => 4
  | .d => 8

/-- Extension of a loaded value (R298). -/
def ldExtend (sz : LdSize) (v : Nat) : W64 :=
  match sz with
  | .b => (BitVec.ofNat 8 v).signExtend 64
  | .h => (BitVec.ofNat 16 v).signExtend 64
  | .w => (BitVec.ofNat 32 v).signExtend 64
  | _ => BitVec.ofNat 64 v

def widthBytes : Width → Nat
  | .b => 1
  | .h => 2
  | .w => 4
  | .d => 8

/-- An address aligned to its size by ignoring the low bits (R300, R313). -/
def alignDown (a n : Nat) : Nat := a - a % n

/-- base + offset modulo 2^64, aligned. -/
def scalarAddr (base : W64) (off : Int) (n : Nat) : Nat := alignDown (base + BitVec.ofInt 64 off).toNat n

/-! Cold spaces (R59, R60). -/

/-- A scalar or tile access of [a, a + n) is legal in its space. -/
def coldOk (pool write : Bool) (a n : Nat) : Bool :=
  if pool then decide (a + n ≤ 0xC0000)
  else if write then decide (a + n ≤ 0x1C000) else decide (a + n ≤ 0x20000)

/-- The memory of a cold space as a core sees it. -/
def Ctx.space (x : Ctx) (c : Core) (pool : Bool) : Memory := if pool then x.pools.getD c.cluster [] else c.cold

def Core.useBank (c : Core) (slot : Nat) (pool : Bool) (line issue stream : Nat) (write : Bool) : Core :=
  { c with banks := c.banks ++ [{ slot, pool, line, issue, stream, write }] }

/-! Tensors (R145). -/

/-- A little-endian field of a 64-byte image. -/
def lfield (d : Line) (off n : Nat) : Nat := d.toNat / 2 ^ (8 * off) % 2 ^ (8 * n)

def dBase (d : Line) : Nat := lfield d 0 8
def dExt (d : Line) (i : Nat) : Nat := lfield d (8 + 4 * i) 4
def dStr (d : Line) (i : Nat) : Int := toSigned 32 (lfield d (0x18 + 4 * i) 4)
def dScale (d : Line) : Nat := lfield d 0x28 2
def dFmt (d : Line) : Option Fmt := Fmt.ofCode (BitVec.ofNat 4 (lfield d 0x2A 1))
def dWidth (d : Line) : Nat := ((dFmt d).map Fmt.width).getD 0
def dDims (d : Line) : Nat := lfield d 0x2B 1 % 8
/-- 0 cold, 1 pool, 2 warm, 3 sys. -/
def dSpace (d : Line) : Nat := lfield d 0x2B 1 / 16 % 4
def dRead (d : Line) : Bool := (lfield d 0x2C 1).testBit 0
def dWrite (d : Line) : Bool := (lfield d 0x2C 1).testBit 1
def dIn (d : Line) : Bool := (lfield d 0x2C 1).testBit 2
def dOut (d : Line) : Bool := (lfield d 0x2C 1).testBit 3
def dPerm (d : Line) : Nat := lfield d 0x2D 1 % 64

/-- The descriptor of a tensor id: below TDTN and not empty (check 1 of R145). -/
def Ctx.tensor (x : Ctx) (tid : Nat) : Option Line :=
  if tid < x.field 0x028 4 then
    let d := SMap.get 0 x.tdt tid
    if d = 0 then none else some d
  else none

/-- Coordinates c0-c3 from gx and gy. -/
def coords (gx gy : W64) : List Nat := [gx.toNat % 2 ^ 32, gx.toNat / 2 ^ 32, gy.toNat % 2 ^ 32, gy.toNat / 2 ^ 32]

/-- The element position e, exact and signed. -/
def elemPos (d : Line) (c : List Nat) : Int :=
  (c.getD 0 0 : Int) * dStr d 0 + (c.getD 1 0 : Int) * dStr d 1 + (c.getD 2 0 : Int) * dStr d 2 + (c.getD 3 0 : Int) * dStr d 3

/-- The byte address of a row's first element, before permutation. -/
def rowAddr (d : Line) (c : List Nat) : Int := (dBase d : Int) + (elemPos d c * dWidth d) / 8

/-- A row of a cold or pool tensor: its first byte before permutation, and a mask of its enabled bytes. -/
structure TRow where
  row : Nat
  addr : Int
  bytes : Nat
  deriving DecidableEq, Repr

/-- The bits of `v` from bit `d` on; for a negative `d` those bits above zeros. -/
def shiftDown (v : Nat) (d : Int) : Nat := if 0 ≤ d then v / 2 ^ d.toNat else v * 2 ^ (-d).toNat

/-- The lines that a row's enabled bytes lie in: line before permutation, and the mask of its 64 bytes. A row may start below byte 0 with elements
that its mask does not enable (R354). -/
def TRow.lines (t : TRow) : List (Nat × Nat) :=
  ((List.range 6).map fun l =>
    let line : Int := t.addr / 64 + (l : Nat)
    (line.toNat, if line < 0 then 0 else shiftDown t.bytes (64 * line - t.addr) % 2 ^ 64)).filter fun q => q.2 != 0

/-- Each line's part of a row value, as the 512 bits of the line. -/
def TRow.part (t : TRow) (line value : Nat) : Nat := shiftDown value (512 * (line : Nat) - 8 * t.addr) % 2 ^ 512

/-- The row's bytes as they stand in a memory, through the permutation. -/
def readTRow (m : Memory) (perm : Nat) (t : TRow) : Nat :=
  t.lines.foldl (fun acc q =>
    let v := merge 0 (m.read (64 * (q.1 ^^^ perm)) 64) (spread 8 (BitVec.ofNat 64 q.2))
    acc ||| shiftDown v (8 * t.addr - 512 * (q.1 : Nat))) 0

/-- Every enabled byte lies where R60 permits, after permutation. -/
def TRow.ok (t : TRow) (pool write : Bool) (perm : Nat) : Bool :=
  t.bytes == 0 || (t.bytes % 2 ^ min (-t.addr).toNat 1024 == 0 && decide (t.addr < 2 ^ 40)
    && t.lines.all fun q => coldOk pool write (64 * (q.1 ^^^ perm)) 64)

/-- First and last byte of the rows' enabled bytes, after permutation. -/
def spanOf (perm : Nat) (rows : List TRow) : Option (Nat × Nat) :=
  rows.foldl (fun acc t => t.lines.foldl (fun acc q =>
    let b := 64 * (q.1 ^^^ perm)
    let lo := b + ((List.range 64).find? fun i => q.2.testBit i).getD 0
    let hi := b + Nat.log2 q.2
    match acc with
    | none => some (lo, hi)
    | some (l, h) => some (min l lo, max h hi)) acc) none

/-- Bytes enabled by a mask row over 64 lanes; in a 64-bit format bit 2c governs lanes 2c and 2c + 1 (R142, R354). -/
def laneMask (wide : Bool) (m : BitVec 64) : BitVec 64 :=
  if wide then
    let e := m &&& BitVec.ofNat 64 0x5555555555555555
    e ||| (e <<< 1)
  else m

/-- In-flight ranges (R151): the new ranges of one instruction against those in flight. -/
def overlaps (a b : Range) : Bool := a.pool == b.pool && decide (a.lo ≤ b.hi) && decide (b.lo ≤ a.hi) && (a.write || b.write)

/-- The ranges that a new range of core `c` is compared with: its own for the cold bank, the cluster's for the pool. -/
def Ctx.ranges (x : Ctx) (c : Core) (pool : Bool) : List Range :=
  (if pool then (x.cores.filter fun d => d.cluster == c.cluster).flatMap (·.ranges) else c.ranges).filter fun r =>
    r.pool == pool && decide (x.cslot ≤ r.upto)

def Ctx.hazard (x : Ctx) (c : Core) (r : Range) : Bool := (x.ranges c r.pool).any (overlaps r)

def Core.addRange (c : Core) (r : Range) : Core := { c with ranges := c.ranges ++ [r] }

/-- The slips of an instruction that needs a unit and a range of cold storage (R118, R128, R151). -/
def Ctx.unitSlips (x : Ctx) (c : Core) (busy : Bool) (r : Option Range) : Except Stall Unit :=
  slips (r.bind fun r => slipIf (x.hazard c r) 5 r.lo) (slipIf busy 6 0)

/-! Patterns and walks (R146, R373). -/

def pTid (p : Line) : Nat := lfield p 0 2
def pFlags (p : Line) : Nat := lfield p 2 1
def pLenient (p : Line) : Bool := (pFlags p).testBit 0
def pCheck (p : Line) : Bool := (pFlags p).testBit 1
def pLanes (p : Line) : Nat := lfield p 3 1
def pRow (p : Line) : Nat := lfield p 4 1
def pLoops (p : Line) : Nat := lfield p 5 1
def pTc (p : Line) : Nat := lfield p 6 1
def pCount (p : Line) (i : Nat) : Nat := lfield p (8 + 8 * i) 2 + 1
def pDim (p : Line) (i : Nat) : Nat := lfield p (10 + 8 * i) 2 % 4
def pStep (p : Line) (i : Nat) : Int := toSigned 32 (lfield p (12 + 8 * i) 4)
def pStart (p : Line) (i : Nat) : Nat := lfield p (0x28 + 4 * i) 4

/-- The limits of the table of R146, but for the lane share, the row length of a bound port, and the counter, which a copy command ignores
(R288). -/
def pForm (p : Line) : Bool :=
  decide (pFlags p < 4) && decide (1 ≤ pLanes p) && decide (pLanes p ≤ 32) && decide (1 ≤ pRow p) && decide (pRow p ≤ 64)
    && decide (1 ≤ pLoops p) && decide (pLoops p ≤ 4) && lfield p 7 1 == 0 && lfield p 0x38 8 == 0
    && (List.range 4).all fun i => lfield p (10 + 8 * i) 2 < 4

/-- The same with the counter, for what posts the counter that its pattern names. -/
def pShape (p : Line) : Bool := pForm p && decide (pTc p < 8)

/-- A table entry with START replaced at bind. -/
def pBind (p : Line) (gx gy : W64) : Line :=
  BitVec.ofNat 512 (merge p.toNat ((gx.toNat + 2 ^ 64 * gy.toNat) * 2 ^ 320) ((2 ^ 128 - 1) * 2 ^ 320))

namespace Walk
variable (w : Walk)

def width : Nat := dWidth w.desc
/-- R: the number of rows. -/
def rows : Nat := (List.range (min 4 (pLoops w.pat))).foldl (fun n i => n * pCount w.pat i) 1
/-- b: bytes of a row. -/
def rowBytes : Nat := cdiv (pRow w.pat * w.width) 8
/-- B: bytes of the walk. -/
def bytes : Nat := w.rows * w.rowBytes

/-- The loop indices of row `k`, innermost first. -/
def indices (k : Nat) : List Nat :=
  ((List.range (min 4 (pLoops w.pat))).foldl (fun (st : Nat × List Nat) i =>
    (st.1 / pCount w.pat i, st.2 ++ [st.1 % pCount w.pat i])) (k, [])).2

/-- The pattern position of R85: four 16-bit indices, innermost lowest. -/
def position (k : Nat) : Nat := pack 16 (w.indices k)

/-- The coordinates of row `k`, exact. -/
def coord (k : Nat) : List Int :=
  let idx := w.indices k
  (List.range 4).map fun d => (List.range idx.length).foldl (fun (c : Int) i =>
    if pDim w.pat i = d then c + (idx.getD i 0 : Int) * pStep w.pat i else c) (pStart w.pat d : Int)

/-- The address of element `i` of row `k` in bits, modulo 2^67. -/
def elemBit (k i : Nat) : Nat :=
  let c := w.coord k
  let e := (c.getD 0 0 + i) * dStr w.desc 0 + c.getD 1 0 * dStr w.desc 1 + c.getD 2 0 * dStr w.desc 2 + c.getD 3 0 * dStr w.desc 3
  ofInt 67 (8 * (dBase w.desc : Int) + e * w.width)

/-- The elements of row `k` as (bit position in the row, bit address). -/
def rowElems (k : Nat) : List (Nat × Nat) := (List.range (pRow w.pat)).map fun i => (w.width * i, w.elemBit k i)

/-- The elements of bytes [lo, hi) of the packed stream, as (bit position counted from `lo`, bit address) (R373). -/
def spanElems (lo hi : Nat) : List (Nat × Nat) :=
  if w.rowBytes = 0 ∨ hi ≤ lo then []
  else
    let k0 := lo / w.rowBytes
    let k1 := (hi - 1) / w.rowBytes
    (List.range (k1 + 1 - k0)).flatMap fun n =>
      let k := k0 + n
      (w.rowElems k).filterMap fun q =>
        let bit := 8 * (k * w.rowBytes) + q.1
        if 8 * lo ≤ bit ∧ bit < 8 * hi then some (bit - 8 * lo, q.2) else none

/-- Least and greatest coordinate of dimension `d` that the walk reaches, elements included. -/
def reach (d : Nat) : Int × Int :=
  let ends := (List.range (min 4 (pLoops w.pat))).foldl (fun (r : Int × Int) i =>
    if pDim w.pat i = d then
      let s := pStep w.pat i * ((pCount w.pat i - 1 : Nat) : Int)
      (min r.1 (r.1 + s), max r.2 (r.2 + s))
    else r) ((pStart w.pat d : Int), (pStart w.pat d : Int))
  if d = 0 then (ends.1, ends.2 + ((pRow w.pat - 1 : Nat) : Int)) else ends

/-- Check 3 of R145 over the walk (R373): the first dimension that leaves its extent. -/
def outside : Option Nat := (List.range 4).find? fun d =>
  let r := w.reach d
  decide (r.1 < 0) || decide ((dExt w.desc d : Int) ≤ r.2)

/-- A 4-bit row starts at an odd element (check 4 of R145). -/
def odd : Bool :=
  w.width == 4 && (List.range (min 4 (pLoops w.pat))).any (fun i =>
      1 < pCount w.pat i && (pStep w.pat i * dStr w.desc (pDim w.pat i)) % 2 != 0)
    || (w.width == 4 && (elemPos w.desc ((List.range 4).map (pStart w.pat))) % 2 != 0)

end Walk

/-! Mesh distance (R10, R160). -/

def hops (a b : Nat) : Nat :=
  if a = b then 0
  else
    let d1 := a / 64
    let d2 := b / 64
    let c1 := a / 8 % 8
    let c2 := b / 8 % 8
    let dd := max d1 d2 - min d1 d2
    let dc := max c1 c2 - min c1 c2
    4 * dd + min dc (8 - dc) + 1

end Sys2Proof.Machine
end

