-- ==== Sys2Proof/Machine/Scalar.lean ====
section
/-! DEFINITION. The S stream's arithmetic, predicates, scalar cold accesses, transfers, loops and gaps (R290-R312). -/

namespace Sys2Proof.Machine

/-- nop (R291). -/
def execNop (_g : BitVec 2) (s : State) : Out := s.issueCore fun _ _ c => c

/-- alu (R292); sel's predicate is an operand and not a guard. -/
def execAlu (_g : BitVec 2) (rd ra rb : BitVec 5) (p : BitVec 3) (fn : AluFn) (s : State) : Out :=
  s.issueCore fun _ x c =>
    c.land (fn == .sel || c.p p) (.g rd.toNat) .s x.cslot 2 (aluVal fn (c.g ra) (c.g rb) (c.p p))

/-- muldiv (R293, R294): a divide occupies the divider for 40 slots whatever its guard. -/
def execMuldiv (_g : BitVec 2) (rd ra rb : BitVec 5) (p : BitVec 3) (fn : MulFn) (s : State) : Out :=
  s.issue fun _ _ x c =>
    if MulFn.isDiv fn && decide (x.cslot < c.units.divider) then .error (trouble 6)
    else
      let c := if MulFn.isDiv fn then { c with units := { c.units with divider := x.cslot + 40 } } else c
      .ok (x.setCore (c.land (c.p p) (.g rd.toNat) .s x.cslot (mulLat fn) (mulVal fn (c.g ra) (c.g rb))))

/-- alui (R295). -/
def execAlui (_g : BitVec 2) (rd ra : BitVec 5) (fn : AluiFn) (imm : BitVec 12) (s : State) : Out :=
  s.issueCore fun _ x c => c.land true (.g rd.toNat) .s x.cslot 2 (aluiVal fn (c.g ra) imm)

/-- lih (R296). -/
def execLih (_g : BitVec 2) (rd : BitVec 5) (imm : BitVec 20) (s : State) : Out :=
  s.issueCore fun _ x c => c.land true (.g rd.toNat) .s x.cslot 1 (imm.signExtend 64 <<< 12)

/-- pcmp (R297). -/
def execPcmp (_g : BitVec 2) (pd : BitVec 3) (ra rb : BitVec 5) (cond : Cond) (s : State) : Out :=
  s.issueCore fun _ x c => c.land true (.p pd.toNat) .s x.cslot 2 (flag64 (condVal cond (c.g ra) (c.g rb)))

/-- plog (R297). -/
def execPlog (_g : BitVec 2) (pd : BitVec 3) (op : LogOp) (pa pb : BitVec 3) (s : State) : Out :=
  s.issueCore fun _ x c =>
    c.land true (.p pd.toNat) .s x.cslot 1
      ((logVal op (BitVec.ofBool (c.p pa)) (BitVec.ofBool (c.p pb))).setWidth 64)

/-- A scalar load from a cold space (R298, R300): the value as of the read point, which is the issue slot. -/
def scalarLoad (rd ra : BitVec 5) (size : LdSize) (imm : BitVec 12) (pool : Bool) (lat bank : Nat) : Issue → Meaning :=
  fun _ _ x c =>
    let n := ldBytes size
    let a := scalarAddr (c.g ra) imm.toInt n
    if !coldOk pool false a n then .error (troubleAt 0x13 a)
    else
      let v := ldExtend size ((x.space c pool).read a n)
      .ok (x.setCore ((c.land true (.g rd.toNat) .s x.cslot lat v).useBank (x.cslot + bank) pool (a / 64) x.cslot 0 false))

/-- ldc (R298). -/
def execLdc (_g : BitVec 2) (rd ra : BitVec 5) (size : LdSize) (imm : BitVec 12) (s : State) : Out :=
  s.issue (scalarLoad rd ra size imm false 8 2)

/-- ldp (R298). -/
def execLdp (_g : BitVec 2) (rd ra : BitVec 5) (size : LdSize) (imm : BitVec 12) (s : State) : Out :=
  s.issue (scalarLoad rd ra size imm true 12 4)

/-! Watchpoints on core stores (R205, R206, R208). -/

/-- The watchpoint's range: its size in bytes, and its base. -/
def Watch.size (w : Watch) : Nat := 16 * 2 ^ bits w.ctl.toNat 5 4
def Watch.base (w : Watch) : Nat := alignDown (w.addr.toNat % 2 ^ 48) w.size
def Watch.space (w : Watch) : Nat := bits w.ctl.toNat 7 6
def Watch.core (w : Watch) : Nat := bits w.ctl.toNat 15 8
/-- Enabled, with a size and a space that do not disable it, and armed at slot `t`. -/
def Watch.on (w : Watch) (t : Nat) : Bool :=
  w.ctl.getLsbD 0 && w.space != 3 && bits w.ctl.toNat 5 4 != 3 && decide (w.first ≤ t)

/-- The lowest byte of `bytes` that the watchpoint watches. -/
def Watch.match (w : Watch) (bytes : List Nat) : Option Nat :=
  bytes.foldl (fun best a =>
    if w.base ≤ a ∧ a < w.base + w.size ∧ w.mask.getLsbD (a - w.base) = true then
      match best with
      | none => some a
      | some b => some (min a b)
    else best) none

/-- WPHIT takes its first hit; every hit is still to be traced (R208, R210). -/
def Watch.record (w : Watch) (prec : Bool) (kind src slot : Nat) : Watch :=
  let w : Watch := { w with untold := w.untold ++ [slot] }
  if w.hit.getLsbD 63 then w
  else { w with hit := BitVec.ofNat 64 (2 ^ 63 + (if prec then 2 ^ 62 else 0) + 2 ^ 60 * kind + 2 ^ 48 * (src % 1024) + slot % 2 ^ 48) }

/-- A core store is matched at its issue slot; the context stops at the next (R206). -/
def Ctx.watchStore (x : Ctx) (i : Issue) (c : Core) (space : Nat) (bytes : List Nat) : Ctx :=
  if x.reversing then x
  else
    let same (w : Watch) : Bool := space == 2 || (if space == 1 then w.core / 8 == c.cluster else w.core == c.idx)
    let hit (w : Watch) : Option Nat := if w.on x.cslot && w.ctl.getLsbD 1 && w.space == space && same w then w.match bytes else none
    match (x.watch.filterMap hit) with
    | [] => x
    | a :: r =>
      { x with
        watch := x.watch.map fun w => if (hit w).isSome then w.record true 1 c.id x.cslot else w
        stops := x.stops ++ [{ slot := x.cslot + 1, cause := { core := c.idx, lid := c.id, code := 0x23, stream := rank i.st, word := i.word
                                                               port := 0, detail := BitVec.ofNat 64 (r.foldl min a) } }] }

/-- The log is full (R196): under RETAIN the context freezes at the store's slot for a spill, under ROLL it goes on. -/
def Ctx.logRoom (x : Ctx) (c : Core) (pool : Bool) (lines : List Nat) : Except Stall Unit :=
  if x.quotaOk c pool lines || x.roll then .ok ()
  else .error (.cause { code := 0x33, detail := 0x7FF, port := 16 })

/-- A scalar store to a cold space (R299-R301). -/
def scalarStore (p : BitVec 3) (rs ra : BitVec 5) (wd : Width) (imm : BitVec 10) (pool : Bool) (lat : Nat) : Issue → Meaning :=
  fun i _ x c =>
    if !c.p p then .ok x
    else
      let n := widthBytes wd
      let a := scalarAddr (c.g ra) (imm.toInt * n) n
      if !coldOk pool true a n then .error (troubleAt 0x13 a)
      else do
        x.logRoom c pool [a / 64]
        let off := a % 64
        let v := (c.g rs).toNat % 2 ^ (8 * n) * 2 ^ (8 * off)
        let mask := BitVec.ofNat 64 ((2 ^ n - 1) * 2 ^ off)
        let c' := c.landRow (if pool then .pool (a / 64) else .cold (a / 64)) .s x.cslot (x.cslot + lat) mask v 0 .set
        let c' := c'.useBank (x.cslot + lat) pool (a / 64) x.cslot 0 true
        .ok ((x.setCore c').watchStore i c (if pool then 1 else 0) ((List.range n).map (a + ·)))

/-- stc (R299). -/
def execStc (_g : BitVec 2) (p : BitVec 3) (rs ra : BitVec 5) (wd : Width) (imm : BitVec 10) (s : State) : Out :=
  s.issue (scalarStore p rs ra wd imm false 4)

/-- stp (R299). -/
def execStp (_g : BitVec 2) (p : BitVec 3) (rs ra : BitVec 5) (wd : Width) (imm : BitVec 10) (s : State) : Out :=
  s.issue (scalarStore p rs ra wd imm true 6)

/-! Transfers of control (R302-R309). -/

/-- Slots that a word keeps its stream silent for, beyond its own (R113, R132). -/
def silence (w : W32) (slot : Nat) : Nat :=
  match decode .s w with
  | some (.gapl _ f) => f.toNat + 1
  | some (.align _ k c) => (c.toNat + 2 ^ k.toNat - (slot + 1) % 2 ^ k.toNat) % 2 ^ k.toNat
  | _ => 0

/-- The index of the first sequential word that does not issue in a window that ends at `last` (R306); `ready` counts GAPs. -/
def returnIndex (q : StreamSt) (last : Nat) : Nat → Nat → Nat → Nat
  | 0, i, _ => i
  | n + 1, i, ready =>
    let slot := ready + gapOf (q.word i)
    if last < slot then i else returnIndex q last n (i + 1) (slot + 1 + silence (q.word i) slot)

/-- A taken b or j leaves the loops whose bodies contain the word and not the target (R309). -/
def leaveLoops (e target : Nat) : List Loop → List Loop
  | [] => []
  | l :: r =>
    if l.start ≤ e ∧ e ≤ l.stop ∧ ¬(l.start ≤ target ∧ target ≤ l.stop) then leaveLoops e target r else l :: r

/-- A transfer taken at slot `t` (R303): a new window opens, and an earlier pending target is abandoned. -/
def StreamSt.transfer (q : StreamSt) (t target : Nat) (pops : Bool) : StreamSt :=
  { q with loops := if pops then leaveLoops q.pc target q.loops else q.loops
           pc := q.pc + 1, ready := t + 1, xfer := some { target, last := t + 4 } }

/-- The target of a relative transfer, modulo 2^64 (R302). -/
def relTarget (q : StreamSt) (off : Int) : Nat := ofInt 64 ((q.pc : Int) + off)

/-- A taken transfer with an optional link register. -/
def Ctx.takeTransfer (x : Ctx) (c : Core) (target : Nat) (pops : Bool) (link : Option (BitVec 5)) : Ctx :=
  let t := x.cslot
  let c' := match link with
    | none => c
    | some rd => c.land true (.g rd.toNat) .s t 2 (BitVec.ofNat 64 (returnIndex c.s (t + 4) 4 (c.s.pc + 1) (t + 1)))
  (x.setCore { c' with s := c.s.transfer t target pops }).countIssue .s

/-- b (R305). -/
def execB (_g : BitVec 2) (ra rb : BitVec 5) (cond : Cond) (off : BitVec 12) (s : State) : Out :=
  s.issueRaw fun i _ x c =>
    if condVal cond (c.g ra) (c.g rb) then .ok (x.takeTransfer c (relTarget c.s off.toInt) true none)
    else .ok (x.advance i.j .s (x.cslot + 1))

/-- j (R306). -/
def execJ (_g : BitVec 2) (off : BitVec 20) (s : State) : Out :=
  s.issueRaw fun _ _ x c => .ok (x.takeTransfer c (relTarget c.s off.toInt) true none)

/-- jal (R306). -/
def execJal (_g : BitVec 2) (rd : BitVec 5) (off : BitVec 20) (s : State) : Out :=
  s.issueRaw fun _ _ x c => .ok (x.takeTransfer c (relTarget c.s off.toInt) false (some rd))

/-- jalr (R307). -/
def execJalr (_g : BitVec 2) (rd ra : BitVec 5) (imm : BitVec 12) (s : State) : Out :=
  s.issueRaw fun _ _ x c => .ok (x.takeTransfer c (c.g ra + imm.signExtend 64).toNat false (some rd))

/-! Loops, loop counts and gaps of the four streams (R289, R308-R312). -/

/-- A loop word (R308, R310): in a delay window it pushes nothing. -/
def loopOn (count : Core → Nat) (n : BitVec 12) : Issue → Meaning := fun i _ x c =>
  let q := c.stream i.st
  let l := q.pc
  let stop := l + n.toNat
  let inner : Bool := match q.loops with
    | [] => true
    | t :: _ => !(decide (t.start ≤ l) && decide (l ≤ t.stop)) || decide (stop ≤ t.stop)
  if q.xfer.isNone ∧ 4 ≤ q.loops.length ∧ count c ≠ 0 then .error (trouble 0x10)
  else if !inner then .error (trouble 0x10)
  else if 4095 < stop then .error (trouble 0x12)
  else if q.xfer.isSome then .ok (x.advance i.j i.st (x.cslot + 1))
  else
    let q' := if count c = 0 then { q with pc := stop + 1, ready := x.cslot + 1 }
      else { q with loops := { start := l + 1, stop, left := BitVec.ofNat 32 (count c - 1) } :: q.loops, pc := l + 1, ready := x.cslot + 1 }
    .ok ((x.setCore (c.setStream i.st q')).countIssue i.st)

/-- loop with an immediate count, coded less one (R308). -/
def execLoopImm (_g : BitVec 2) (count n : BitVec 12) (s : State) : Out := s.issueRaw (loopOn (fun _ => count.toNat + 1) n)
/-- loop with a count from an lc register (R308). -/
def execLoopLc (_g : BitVec 2) (lc : BitVec 2) (n : BitVec 12) (s : State) : Out := s.issueRaw (loopOn (fun c => (c.lc lc).toNat) n)
/-- vloop (R363). -/
def execVloopImm (_g : BitVec 2) (count n : BitVec 12) (s : State) : Out := s.issueRaw (loopOn (fun _ => count.toNat + 1) n)
/-- vloop (R363). -/
def execVloopLc (_g : BitVec 2) (lc : BitVec 2) (n : BitVec 12) (s : State) : Out := s.issueRaw (loopOn (fun c => (c.lc lc).toNat) n)
/-- mloop (R381). -/
def execMloopImm (_g : BitVec 2) (count n : BitVec 12) (s : State) : Out := s.issueRaw (loopOn (fun _ => count.toNat + 1) n)
/-- mloop (R381). -/
def execMloopLc (_g : BitVec 2) (lc : BitVec 2) (n : BitVec 12) (s : State) : Out := s.issueRaw (loopOn (fun c => (c.lc lc).toNat) n)
/-- xloop (R381). -/
def execXloopImm (_g : BitVec 2) (count n : BitVec 12) (s : State) : Out := s.issueRaw (loopOn (fun _ => count.toNat + 1) n)
/-- xloop (R381). -/
def execXloopLc (_g : BitVec 2) (lc : BitVec 2) (n : BitVec 12) (s : State) : Out := s.issueRaw (loopOn (fun c => (c.lc lc).toNat) n)

/-- lcset from a g register (R311). -/
def execLcsetReg (_g : BitVec 2) (r : BitVec 5) (lc : BitVec 2) (s : State) : Out :=
  s.issueCore fun _ x c => c.land true (.lc lc.toNat) .s x.cslot 8 ((c.g r).setWidth 32 |>.setWidth 64)

/-- lcset of an immediate (R311). -/
def execLcsetImm (_g : BitVec 2) (lc : BitVec 2) (imm : BitVec 12) (s : State) : Out :=
  s.issueCore fun _ x c => c.land true (.lc lc.toNat) .s x.cslot 8 (imm.setWidth 64)

/-- A gap form (R113): the stream issues nothing for f + 1 slots. -/
def gapOn (f : BitVec 25) : Issue → Meaning := fun i _ x _ => .ok (x.advance i.j i.st (x.cslot + f.toNat + 2))

/-- gapl (R312). -/
def execGapl (_g : BitVec 2) (f : BitVec 25) (s : State) : Out := s.issueRaw (gapOn f)
/-- vgap (R363). -/
def execVgap (_g : BitVec 2) (f : BitVec 25) (s : State) : Out := s.issueRaw (gapOn f)
/-- mgap (R381). -/
def execMgap (_g : BitVec 2) (f : BitVec 25) (s : State) : Out := s.issueRaw (gapOn f)
/-- xgap (R381). -/
def execXgap (_g : BitVec 2) (f : BitVec 25) (s : State) : Out := s.issueRaw (gapOn f)

end Sys2Proof.Machine
end

