-- ==== Sys2Proof/Machine/Access.lean ====
section
/-! DEFINITION. Warm scalar accesses, atomics and fences at their issue (R313-R321), and the issue of any warm access with the
order it must keep (R219-R232). -/

namespace Sys2Proof.Machine

/-- Source granules of a command, and the reads that it makes: a check word that is compared is one more (R164, R167). -/
def Cmd.sources (q : Cmd) : Nat := cdiv q.bytes 64
def Cmd.reads (q : Cmd) : Nat := q.sources + if q.flags.getLsbD 0 then 1 else 0

/-- In an order, the number of a copy command stands for all of it, and this for its reads (R232). -/
def readsOf (id : Nat) : Nat := 2 ^ 64 + id

/-- What a number of an order stands for has not been performed. -/
def Ctx.pendingId (x : Ctx) (id : Nat) : Bool :=
  x.reqs.any (fun r => r.id == id && !r.performed)
    || x.cmds.any fun q => !q.done && (q.id == id || (readsOf q.id == id && decide (q.taken < q.reads)))

/-- An access that has not landed, applied or been acknowledged. -/
def Ctx.aliveId (x : Ctx) (id : Nat) : Bool := x.reqs.any fun r => r.id == id

/-- Accesses and copy commands of core `j` that satisfy a test and have not been performed; an xpref makes no warm access. -/
def Ctx.earlier (x : Ctx) (j : Nat) (p : Req → Bool) (cmds : Bool) : List Nat :=
  (x.reqs.filter fun r => r.core == j && !r.performed && decide (r.issue ≤ x.cslot) && p r).map (·.id)
    ++ (if cmds then (x.cmds.filter fun q => q.core == j && q.kind != 2 && !q.done).map (·.id) else [])

/-- Granules that an access of `n` bytes counts for (R156). -/
def granules (n : Nat) : Nat := max 1 (cdiv n 64)

/-- Outstanding requests of core `j`: warm ones, and the granules of its mesh moves that have not landed (R156, R377). -/
def Ctx.outstanding (x : Ctx) (j : Nat) : Nat :=
  (x.reqs.filter fun r => r.core == j && decide (r.issue ≤ x.cslot)).foldl (fun n r =>
    n + match r.use with
      | .row .. | .sent .. => granules (cdiv (r.elems.length * r.width) 8)
      | _ => 1)
    ((x.xings.filter fun q => q.core == j && q.kind == 2).foldl (fun n q => n + (cdiv q.bytes 64 - q.done)) 0)

/-- The number of a warm write for causal sets (R228): its home module, this module, the context, the access. -/
def Ctx.writeNum (x : Ctx) (home id : Nat) : Nat := ((home * 32 + Config.self.toNat) * 256 + x.asid.toNat) * 2 ^ 40 + id

/-- The home module of a numbered write. -/
def homeOf (num : Nat) : Nat := num / 2 ^ 53

/-- The module of a sys: address, or this one (R27). -/
def moduleOf (sys : Bool) (a : Nat) : Nat := if sys then a / 2 ^ 48 % 32 else Config.self.toNat

/-- The home modules of a request. -/
def Req.homes (r : Req) : List Nat := (r.elems.map fun e => moduleOf r.sys (e.2 / 8)).eraseDups

/-- A context that shares memory with other modules; only such a context's causal sets are ever looked at. -/
def Ctx.shared (x : Ctx) : Bool := x.field 0x05C 4 != 0

/-- What issues: everything of a request but its number and its order. -/
structure Want where
  queue : Nat
  act : Act
  use : Use
  sys : Bool
  elems : List (Nat × Nat)
  width : Nat
  value : Nat
  expect : W64
  mask : Nat
  home : Nat
  dist : Nat
  release : Bool
  acquire : Bool
  word : W32
  /-- The check word's bit address, if it is read or written too (R167). -/
  check : Option Nat := none

def Act.isWrite : Act → Bool
  | .read => false
  | _ => true

/-- What a system access of core `c` must follow until it has landed (R231, R232): earlier system acquires, and what a fence names. -/
def Ctx.sysOrder (x : Ctx) (c : Core) (write : Bool) (id : Nat) : List Nat :=
  (c.orderS ++ (if write then c.orderT else [])
    ++ (x.reqs.filter fun q => q.core == c.idx && q.sys && q.acquire).map (·.id)).filter fun i => i != id && x.aliveId i

/-- The order that an access of core `c` must keep, from those issued before it and never from itself (R222-R224, R231, R232), and its
predecessors at its issue (R228); what it waits for until it has landed adds to these (`Ctx.observe`). -/
def Ctx.ordered (x : Ctx) (c : Core) (r : Req) : Req :=
  let acq := x.earlier c.idx (·.acquire) false
  let order := if r.act.isWrite then c.orderW else c.orderR
  let rel := if r.release then x.earlier c.idx (fun _ => true) true else []
  { r with after := (acq ++ order ++ rel).filter fun i => i != r.id && x.pendingId i
           gone := if r.sys then x.sysOrder c r.act.isWrite r.id else []
           acks := if r.sys then c.orderK else [], scs := if r.sys then c.orderA else [], seen := c.causal }

/-- A warm write or atomic enters its issuer's causal set (R228). -/
def Core.remember (c : Core) (x : Ctx) (r : Req) : Core :=
  if r.act.isWrite && x.shared then { c with causal := c.causal ++ r.homes.map fun h => x.writeNum h r.id } else c

/-- A request that is still without order. -/
def Ctx.bare (x : Ctx) (c : Core) (w : Want) (issue : Nat) : Req :=
  { id := x.nextReq, core := c.idx, queue := w.queue, act := w.act, use := w.use, sys := w.sys, elems := w.elems, width := w.width
    value := BitVec.ofNat 4096 w.value, expect := w.expect, mask := BitVec.ofNat 4096 w.mask, opIssue := issue, check := w.check, issue, home := w.home, dist := w.dist
    land := w.home + w.dist, after := [], gone := [], acks := [], scs := [], async := false, performed := false, done := 0, held := false, sent := false
    release := w.release, acquire := w.acquire, met := false, seen := [], got := [], word := w.word }

/-- A warm access of core `c` issues (R219). -/
def Ctx.request (x : Ctx) (c : Core) (w : Want) : Ctx :=
  let r := x.ordered c (x.bare c w x.cslot)
  { (x.setCore (c.remember x r)) with reqs := x.reqs ++ [r], nextReq := x.nextReq + 1 }

/-- What a landed read or atomic of core `j` has observed enters the core's causal set, and that of each system access and copy command that
it has held until now; what an sc fence lets follow it waits for those writes too (R228, R231, R232). -/
def Ctx.observe (x : Ctx) (j id : Nat) (got : List Nat) : Ctx :=
  if got = [] then x
  else
    let add (l : List Nat) : List Nat := (l ++ got).eraseDups
    let req (q : Req) : Req := if q.core == j && q.gone.contains id then
        { q with seen := add q.seen, acks := if q.scs.contains id then add q.acks else q.acks } else q
    let cmd (q : Cmd) : Cmd := if q.core == j && (q.goneR ++ q.goneW).contains id then
        { q with seen := add q.seen, acks := if q.scs.contains id then add q.acks else q.acks } else q
    { (x.onCore j fun c => { c with causal := add c.causal, orderK := if c.orderA.contains id then add c.orderK else c.orderK }) with
      reqs := x.reqs.map req, cmds := x.cmds.map cmd }

/-- A sys: address names the module itself or another of the launch (R27). -/
def Ctx.sysOk (x : Ctx) (a : Nat) : Bool :=
  decide (a < 2 ^ 53) && (a / 2 ^ 48 == Config.self.toNat || (x.field 0x05C 4).testBit (a / 2 ^ 48))

/-- Bits [63:48] of a warm address are zero (R61). -/
def warmOk (a : Nat) : Bool := decide (a < 2 ^ 48)

/-- The fault ring of an ASID (R86). -/
def ringOf (a : BitVec 8) : Nat := (a ^^^ (a >>> 4)).toNat % 16

/-- A hard fault of the access unit found at issue: the record, unless the source already has one (R87), and the stop in the next slot (R172,
R313). -/
def Ctx.rangeFault (x : Ctx) (M : Mach) (c : Core) (a : Nat) (write : Bool) (source src port : Nat) (word : W32) : Ctx :=
  let f : FaultRec :=
    { source := 16 * c.id + source, kind := 12, src, asid := x.asid, write, fetch := false, raised := false, unit := c.id, port, level := 0
      addr := a, cslot := x.cslot, mslot := M.mslot, position := 0, entry := 0, ctx := x.slot, req := 0 }
  let has := x.reqs.any fun r => r.core == c.idx && r.queue == source && r.held
  { x with
    stops := x.stops ++ [{ slot := x.cslot + 1, cause := { core := c.idx, lid := c.id, code := 0x1E, stream := 4, word, port
                                                           detail := BitVec.ofNat 64 a } }]
    reports := if has then x.reports else x.reports ++ [f] }

/-- A scalar access enters the scalar queue (R314). -/
def Ctx.scalarAccess (x : Ctx) (M : Mach) (c : Core) (sys : Bool) (a : Nat) (w : Want) : Except Stall Ctx :=
  if 2048 ≤ x.outstanding c.idx then .error (trouble 10)
  else if !(if sys then x.sysOk a else warmOk a) then .ok (x.rangeFault M c a w.act.isWrite 12 1 0 w.word)
  else
    let c := match w.use with
      | .mailbox m => c.setMb m { c.mb m with valid := false, last := x.nextReq }
      | _ => c
    .ok ((x.setCore c).request c { w with elems := [(0, 8 * a)] })

def isSys (sc : Scope) : Bool := sc == .sys

/-- wld (R317). -/
def execWld (_g : BitVec 2) (m : BitVec 3) (ra : BitVec 5) (wd : Width) (acq : Bool) (scope : Scope) (imm : BitVec 11) (s : State) :
    Out :=
  s.issue fun i M x c =>
    let n := widthBytes wd
    let a := scalarAddr (c.g ra) (imm.toInt * (n : Int)) n
    x.scalarAccess M c (isSys scope) a
      { queue := 12, act := .read, use := .mailbox m.toNat, sys := isSys scope, elems := [], width := 8 * n, value := 0, expect := 0
        mask := 0, home := if isSys scope then x.cslot else x.cslot + 4096, dist := 2048, release := false, acquire := acq, word := i.word }

/-- wst (R318): at either scope a store to this module's memory is matched at its issue (R205, R206). -/
def execWst (_g : BitVec 2) (p : BitVec 3) (rs ra : BitVec 5) (wd : Width) (rel : Bool) (scope : Scope) (imm : BitVec 6)
    (s : State) : Out :=
  s.issue fun i M x c =>
    if !c.p p then .ok x
    else
      let n := widthBytes wd
      let a := scalarAddr (c.g ra) (imm.toInt * (n : Int)) n
      (x.scalarAccess M c (isSys scope) a
        { queue := 12, act := .write, use := .store, sys := isSys scope, elems := [], width := 8 * n
          value := (c.g rs).toNat % 2 ^ (8 * n), expect := 0, mask := 2 ^ (8 * n) - 1
          home := if isSys scope then x.cslot else x.cslot + 3072, dist := 0, release := rel, acquire := false, word := i.word }).map fun y =>
        if if isSys scope then x.sysOk a && moduleOf true a == Config.self.toNat else warmOk a then
          y.watchStore i c 2 ((List.range n).map (a % 2 ^ 48 + ·)) else y

/-- mmv (R319): an invalid mailbox slips whatever the guard reads. -/
def execMmv (_g : BitVec 2) (rd : BitVec 5) (m p : BitVec 3) (s : State) : Out :=
  s.issue fun _ _ x c =>
    let b := c.mb m.toNat
    if !b.valid then .error (trouble 2) else .ok (x.setCore (c.land (c.p p) (.g rd.toNat) .s x.cslot 2 b.value))

/-- An atomic of any of the three kinds (R320). -/
def atomicOn (m : BitVec 3) (ra : BitVec 5) (op : Nat) (v e : Core → W64) (scope : Scope) (order : Order) (dbl : Bool) :
    Issue → Meaning := fun i M x c =>
  let n := if dbl then 8 else 4
  let a := alignDown (c.g ra).toNat n
  x.scalarAccess M c (isSys scope) a
    { queue := 12, act := .atomic op, use := .mailbox m.toNat, sys := isSys scope, elems := [], width := 8 * n
      value := (v c).toNat % 2 ^ (8 * n), expect := BitVec.ofNat 64 ((e c).toNat % 2 ^ (8 * n)), mask := 2 ^ (8 * n) - 1
      home := if isSys scope then x.cslot else x.cslot + 4096, dist := 4096
      release := order == .rel || order == .ar, acquire := order == .acq || order == .ar, word := i.word }

/-- amo (R320). -/
def execAmo (_g : BitVec 2) (m : BitVec 3) (ra rb : BitVec 5) (op : AmoFn) (scope : Scope) (order : Order) (dbl : Bool) (s : State) :
    Out := s.issue (atomicOn m ra op.code.toNat (fun c => c.g rb) (fun _ => 0) scope order dbl)

/-- amocas (R320): rb holds half the number of the even register. -/
def execAmocas (_g : BitVec 2) (m : BitVec 3) (ra : BitVec 5) (rb : BitVec 4) (scope : Scope) (order : Order) (dbl : Bool)
    (s : State) : Out :=
  s.issue (atomicOn m ra 16 (fun c => c.g (rb ++ 1#1)) (fun c => c.g (rb ++ 0#1)) scope order dbl)

/-- amof (R320). -/
def execAmof (_g : BitVec 2) (m : BitVec 3) (ra rb : BitVec 5) (op : AmofFn) (scope : Scope) (order : Order) (dbl : Bool)
    (s : State) : Out :=
  s.issue (atomicOn m ra (32 + op.code.toNat) (fun c => c.g rb) (fun _ => 0) scope order dbl)

/-- What a fence asks of the core's later accesses (R232). -/
def fenceOn (x : Ctx) (c : Core) (kind : FenceKind) (sys : Bool) : Core :=
  let all := x.earlier c.idx (fun _ => true) true
  let reads := x.earlier c.idx (fun r => r.act != .write) false
    ++ (x.cmds.filter fun q => q.core == c.idx && q.kind != 2 && !q.done).map fun q => readsOf q.id
  let c := match kind with
    | .acq => { c with orderR := c.orderR ++ reads, orderW := c.orderW ++ reads }
    | .rel => { c with orderW := c.orderW ++ all }
    | .sc => { c with orderR := c.orderR ++ all, orderW := c.orderW ++ all }
  if !sys then c
  else
    let own (p : Req → Bool) : List Nat := (x.reqs.filter fun r => r.core == c.idx && r.sys && p r).map (·.id)
    match kind with
    | .acq => { c with orderS := c.orderS ++ own fun r => r.act != .write }
    | .rel => { c with orderT := c.orderT ++ own fun r => r.act == .read }
    | .sc => { c with orderS := c.orderS ++ own fun _ => true, orderK := (c.orderK ++ c.causal).eraseDups
                      orderA := c.orderA ++ own fun r => r.act != .write }

/-- fence (R321): no effect at scopes 0 and 1. -/
def execFence (_g : BitVec 2) (kind : FenceKind) (scope : Scope) (s : State) : Out :=
  s.issueCore fun _ x c => if scope == .core || scope == .clu then c else fenceOn x c kind (isSys scope)

end Sys2Proof.Machine
end

