-- ==== Sys2Proof/Machine/System.lean ====
section
/-! DEFINITION. Waits, barriers, tokens, aligns, checkpoints, handles, patterns, state registers, traps and halt at their issue
(R322-R335), and the tokens of the other streams (R363, R381). -/

namespace Sys2Proof.Machine

/-! Quiescence (R123, R304, R331). -/

/-- The results of R123: registers, tiles, planes and cold lines, and a pattern entry in flight (R331). -/
def Dest.covered : Dest → Bool
  | .g _ | .p _ | .lc _ | .k .. | .v .. | .a .. | .shadow _ | .cold _ | .pool _ | .planes | .clear | .column _ | .pat _ => true
  | .h _ | .sreg _ | .dphase | .scale _ | .mesh | .send .. => false

/-- An instruction in flight whose results R123 covers: every V and M instruction but vput and mread. -/
def Op.covered (o : Op) : Bool :=
  match o.instr with
  | .vput .. | .mread .. => false
  | _ => true

/-- No row that is left has a result: a row whose mask row is zero writes nothing (R339). -/
def Op.spent (o : Op) : Bool :=
  decide (o.rows ≤ o.next) || (o.stream == .v && (o.mask.drop o.next).all (· == 0) && match o.instr with
    | .vsel .. | .vrot _ _ _ .col _ _ _ | .vbc _ _ _ .col _ _ _ | .vred _ _ _ .col _ _ => false
    | _ => true)

/-- An ldsw writes its rows in the slots in which it reads them: by slot `b` the last has landed (R367). -/
def Op.landedBy (o : Op) (b : Nat) : Bool := match o.instr with
  | .ldsw .. => decide (o.issue + o.period * (o.rows - 1) ≤ b)
  | _ => false

/-- Every result of every instruction that the core issued before slot `b` has landed at or before `b` (R123). -/
def Core.quiet (c : Core) (b : Nat) : Bool :=
  (c.pend.all fun p => !(p.dst.covered && decide (p.issue < b) && decide (b < p.land)))
    && c.ops.all fun o => !(o.covered && decide (o.issue < b) && !o.spent && !o.landedBy b)

/-! Waits (R126, R322-R324). -/

/-- The next S word to issue after the one at the program counter, no transfer being taken by it. -/
def StreamSt.successor (q : StreamSt) (t : Nat) : W32 :=
  let n := q.step (t + 1)
  match n.xfer with
  | some f => if f.last < n.ready + gapOf (n.word n.pc) then n.word f.target else n.word n.pc
  | none => n.word n.pc

/-- The successor is a bar, and no taken transfer lies between (R323). -/
def StreamSt.beforeBar (q : StreamSt) (t : Nat) : Bool :=
  let jumps : Bool := match (q.step (t + 1)).xfer with
    | some f => decide (f.last < t + 1 + gapOf ((q.step (t + 1)).word (q.step (t + 1)).pc))
    | none => false
  match decode .s (q.successor t) with
  | some (.bar _ _) => !jumps
  | _ => false

/-- wait (R322-R324). -/
def execWait (_g : BitVec 2) (r : BitVec 5) (kind : WaitKind) (tc : BitVec 3) (imm : BitVec 12) (s : State) : Out :=
  s.issue fun _ _ x c =>
    let target := c.g r + imm.setWidth 64
    let t := c.tc tc.toNat
    if t.err then .error (troubleAt 0x21 tc.toNat)
    else if target.ule t.value then .ok x
    else if kind == .dwl && c.s.beforeBar x.cslot then
      if x.field 0x054 4 ≤ x.waited then .error (troubleAt 9 tc.toNat) else .error .dwell
    else .error (troubleAt 8 tc.toNat)

/-! Barriers (R121, R325). -/

/-- The byte of BEACONS for a beacon (R94). -/
def Ctx.beacon (x : Ctx) (b : Nat) : Nat := x.field (0x068 + b) 1

/-- The extent of the level bound to a domain, if there is one (R96). -/
def recExtent (r : BitVec 4096) (dom : Nat) : Option Nat :=
  ((List.range (recField r 0x003 1)).find? fun i => recField r (0x0C4 + 8 * i) 1 == dom).map fun i => recField r (0x0C0 + 8 * i) 4

def Ctx.extent (x : Ctx) (dom : Nat) : Option Nat := recExtent x.record dom

/-- The die group of a context cluster (R96). -/
def Ctx.dieGroup (x : Ctx) (j : Nat) : Nat :=
  match x.extent 3 with
  | some _ => j / (x.extent 2).getD 1
  | none => j / 8

/-- The instance of a beacon that a cluster belongs to (R121). -/
def Ctx.instance' (x : Ctx) (b cluster : Nat) : Nat :=
  match x.beacon b with
  | 1 => cluster
  | 2 => x.dieGroup cluster
  | _ => 0

/-- bar (R325): the core arrives, and is held from the next slot. -/
def execBar (_g : BitVec 2) (beacon : BitVec 3) (s : State) : Out :=
  s.issue fun _ _ x c =>
    if x.beacon beacon.toNat = 0 then .error (trouble 0x10)
    else if !c.quiet x.cslot then .error (trouble 0x1B)
    else .ok (x.setCore { c with barred := some (beacon.toNat, x.cslot) })

/-! Tokens (R131, R326). -/

def tokenPost (cell : BitVec 3) : Issue → Ctx → Core → Core := fun _ x c => c.setTk cell.toNat (BitVec.ofNat 64 x.cslot)

def tokenExpect (cell : BitVec 3) (d : BitVec 12) : Issue → Meaning := fun _ _ x c =>
  if d.toNat ≤ x.cslot ∧ (c.tk cell.toNat).toNat = x.cslot - d.toNat then .ok x else .error (troubleAt 7 cell.toNat)

/-- tok.post (R326). -/
def execTokPost (_g : BitVec 2) (cell : BitVec 3) (s : State) : Out := s.issueCore (tokenPost cell)
/-- tok.expect (R326). -/
def execTokExpect (_g : BitVec 2) (cell : BitVec 3) (d : BitVec 12) (s : State) : Out := s.issue (tokenExpect cell d)
/-- vtk.post (R363). -/
def execVtkPost (_g : BitVec 2) (cell : BitVec 3) (s : State) : Out := s.issueCore (tokenPost cell)
/-- vtk.expect (R363). -/
def execVtkExpect (_g : BitVec 2) (cell : BitVec 3) (d : BitVec 12) (s : State) : Out := s.issue (tokenExpect cell d)
/-- mtk.post (R381). -/
def execMtkPost (_g : BitVec 2) (cell : BitVec 3) (s : State) : Out := s.issueCore (tokenPost cell)
/-- mtk.expect (R381). -/
def execMtkExpect (_g : BitVec 2) (cell : BitVec 3) (d : BitVec 12) (s : State) : Out := s.issue (tokenExpect cell d)
/-- xtk.post (R381). -/
def execXtkPost (_g : BitVec 2) (cell : BitVec 3) (s : State) : Out := s.issueCore (tokenPost cell)
/-- xtk.expect (R381). -/
def execXtkExpect (_g : BitVec 2) (cell : BitVec 3) (d : BitVec 12) (s : State) : Out := s.issue (tokenExpect cell d)

/-! Align (R132, R327). -/

/-- The first slot after `t` that is c modulo 2^k. -/
def alignSlot (t k c : Nat) : Nat := t + 1 + (c + 2 ^ k - (t + 1) % 2 ^ k) % 2 ^ k

/-- align (R327). -/
def execAlign (_g : BitVec 2) (k : BitVec 4) (c : BitVec 12) (s : State) : Out :=
  s.issueRaw fun i _ x _ => .ok (x.advance i.j i.st (alignSlot x.cslot k.toNat c.toNat))

/-! Checkpoints (R328, R329): what is checked at the issue; the rest is checked when every core has issued (Slot.lean). -/

def checkpointOn (ovl : Option Nat) (tab : BitVec 12) : Issue → Meaning := fun i _ x c =>
  if x.code.live.length ≤ tab.toNat then .error (trouble 0x10)
  else .ok (x.setCore { c with ckpt := some { ovl, tab := tab.toNat, word := i.word } })

/-- ckpt (R328). -/
def execCkpt (_g : BitVec 2) (tab : BitVec 12) (s : State) : Out := s.issue (checkpointOn none tab)
/-- ckpt.ovl (R328). -/
def execCkptOvl (_g : BitVec 2) (ovl : BitVec 4) (tab : BitVec 12) (s : State) : Out := s.issue (checkpointOn (some ovl.toNat) tab)

/-! Handles and patterns (R330, R331). -/

/-- seth.imm (R330). -/
def execSethImm (_g : BitVec 2) (h : BitVec 4) (tid : BitVec 16) (s : State) : Out :=
  s.issueCore fun _ x c => c.land true (.h h.toNat) .s x.cslot 1 (tid.setWidth 64)

/-- seth.reg (R330). -/
def execSethReg (_g : BitVec 2) (h : BitVec 4) (ra : BitVec 5) (s : State) : Out :=
  s.issueCore fun _ x c => c.land true (.h h.toNat) .s x.cslot 1 ((c.g ra).setWidth 16 |>.setWidth 64)

/-- spat (R331). -/
def execSpat (_g : BitVec 2) (pat : BitVec 6) (ra : BitVec 5) (imm : BitVec 12) (s : State) : Out :=
  s.issue fun _ _ x c =>
    let a := scalarAddr (c.g ra) (imm.toInt * 64) 64
    if !coldOk false true a 64 then .error (troubleAt 0x13 a)
    else
      let v := c.cold.read a 64
      let c' := c.landRow (.pat pat.toNat) .s x.cslot (x.cslot + 8) (BitVec.allOnes 64) v 0 .set
      .ok (x.setCore (c'.useBank (x.cslot + 2) false (a / 64) x.cslot 0 false))

/-! State registers (R136, R143, R204, R333). -/

/-- Set bits of SYSMASK below this module's own (R96). -/
def sysRank (mask n : Nat) : Nat := popc n (mask % 2 ^ n)

/-- COORDi of a core (R96). -/
def Ctx.coord (x : Ctx) (c : Core) (i : Nat) : Nat :=
  if x.field 0x003 1 ≤ i then 0
  else
    let j := c.cluster
    match x.field (0x0C4 + 8 * i) 1 with
    | 1 => c.idx % 8
    | 2 => match x.extent 3 with
      | some _ => j % (x.extent 2).getD 1
      | none => j
    | 3 => x.dieGroup j
    | 5 => sysRank (x.field 0x05C 4) Config.self.toNat
    | 6 => x.serial.getD ((List.range i).filter fun n => x.field (0x0C4 + 8 * n) 1 == 6).length 0
    | _ => 0

/-- g31 at start (R96). -/
def Ctx.coordWord (x : Ctx) (c : Core) : W64 := BitVec.ofNat 64 (pack 8 ((List.range 8).map (x.coord c)))

/-- TCERR (R143). -/
def Core.tcerr (c : Core) : Nat := (List.range 8).foldl (fun a i => if (c.tc i).err then a + 2 ^ i else a) 0

/-- LEADn (R143). -/
def Core.lead (c : Core) (i : Nat) : Nat := (c.inp i).entries.length % 2048 + 2 ^ 16 * ((c.inp i).res % 2048)

/-- How a program may use a state register. -/
inductive Access where
  | unassigned
  | privileged
  | readOnly
  | readWrite
  deriving DecidableEq, Repr

def sregAccess (n : Nat) : Access :=
  if n ≤ 0x003 ∨ (0x008 ≤ n ∧ n ≤ 0x010) ∨ (0x018 ≤ n ∧ n ≤ 0x01F) ∨ (0x030 ≤ n ∧ n ≤ 0x037) ∨ (0x040 ≤ n ∧ n ≤ 0x042)
      ∨ (0x050 ≤ n ∧ n ≤ 0x057) ∨ (0x180 ≤ n ∧ n ≤ 0x18B) then .readOnly
  else if n = 0x020 ∨ n = 0x021 ∨ n = 0x058 then .readWrite
  else if 0x100 ≤ n ∧ n ≤ 0x13F then .privileged
  else .unassigned

/-- The value of a state register that programs may read, at the issue slot (R136, R143). -/
def readSreg (M : Mach) (x : Ctx) (c : Core) (n : Nat) : W64 :=
  if n = 0x000 then BitVec.ofNat 64 x.cslot
  else if n = 0x001 then BitVec.ofNat 64 M.mslot
  else if n = 0x002 then BitVec.ofNat 64 c.id
  else if n = 0x003 then x.asid.setWidth 64
  else if n ≤ 0x00F then BitVec.ofNat 64 (x.coord c (n - 8))
  else if n = 0x010 then BitVec.ofNat 64 x.win.num
  else if n ≤ 0x01F then (c.inp (n - 0x018)).fill.setWidth 64
  else if n = 0x020 then c.regs.flags.setWidth 64
  else if n = 0x021 then c.regs.dphase.setWidth 64
  else if n ≤ 0x037 then BitVec.ofNat 64 (c.lead (n - 0x030))
  else if n = 0x040 then BitVec.ofInt 64 x.heat
  else if n = 0x041 then BitVec.ofNat 64 x.allow
  else if n = 0x042 then M.cold.wx ++ M.cold.wm ++ M.cold.wv ++ M.cold.wi
  else if n ≤ 0x057 then (c.tc (n - 0x050)).value
  else if n = 0x058 then BitVec.ofNat 64 c.tcerr
  else if n ≤ 0x187 then BitVec.ofNat 64 ((c.inp (n - 0x180)).min % 2048 + 2 ^ 16 * ((c.inp (n - 0x180)).cap % 2048))
  else BitVec.ofNat 64 ((c.outp (n - 0x188)).cap % 4096)

/-- A value fed by replay in place of a register that a stop could change (R200, R333). -/
def Ctx.fed (x : Ctx) (j code : Nat) : Option W64 :=
  match x.replay with
  | none => none
  | some r => (r.feed.find? fun e => e.kind == 3 && e.core == j && e.addr == code && e.cslot == x.cslot).map fun e =>
      e.payload.setWidth 64

/-- srd (R333): MSLOT and HEAT are logged as arrivals. -/
def execSrd (_g : BitVec 2) (r : BitVec 5) (num : BitVec 12) (s : State) : Out :=
  s.issue fun i M x c =>
    match sregAccess num.toNat with
    | .unassigned => .error (trouble 0x10)
    | .privileged => .error (trouble 0x11)
    | _ =>
      let code := if num = 0x001 then 0x701 else 0x740
      let moves := num = 0x001 ∨ num = 0x040
      let v := if moves then (x.fed i.j code).getD (readSreg M x c num.toNat) else readSreg M x c num.toNat
      let y := x.setCore (c.land true (.g r.toNat) .s x.cslot 2 v)
      .ok (if moves then y.arrival i.j code v.toNat else y)

/-- swr (R333): with effect from the next slot. -/
def execSwr (_g : BitVec 2) (r : BitVec 5) (num : BitVec 12) (s : State) : Out :=
  s.issue fun _ _ x c =>
    match sregAccess num.toNat with
    | .unassigned => .error (trouble 0x10)
    | .privileged | .readOnly => .error (trouble 0x11)
    | .readWrite => .ok (x.setCore (c.land true (.sreg num.toNat) .s x.cslot 1 (c.g r)))

/-! Traps and halt (R334, R335). -/

/-- trap (R334): the context freezes at the next slot with cause 0x33. -/
def execTrap (_g : BitVec 2) (n : BitVec 12) (s : State) : Out :=
  s.issue fun i _ x c =>
    .ok { x with stops := x.stops ++ [{ slot := x.cslot + 1, cause := { core := c.idx, lid := c.id, code := 0x33, stream := 0
                                                                        word := i.word, port := 0, detail := n.setWidth 64 } }] }

/-- halt (R335): no stream of the core issues after this slot; loops and a pending transfer are abandoned. -/
def execHalt (_g : BitVec 2) (s : State) : Out :=
  s.issue fun _ _ x c =>
    .ok (x.setCore { c with halt := some x.cslot
                            s := { c.s with loops := [], xfer := none }, v := { c.v with loops := [] }
                            m := { c.m with loops := [] }, x := { c.x with loops := [] } })

end Sys2Proof.Machine
end

