-- ==== Sys2Proof/Machine/Vector.lean ====
section
/-! DEFINITION. The V stream at issue (R336-R362): what each instruction checks and captures at its issue slot. Its rows are in
Rows.lean. -/

namespace Sys2Proof.Machine

/-- Element width and shape of a view (R142); an integer view has no shape. -/
def viewWidth : VFmt → Nat
  | .f32 | .int32 => 32
  | .f64 => 64
  | .f16x2 | .b16x2 | .int16x2 => 16
  | .int8x4 => 8

def viewShape : VFmt → Option Shape
  | .f32 => shape .f32
  | .f64 => shape .f64
  | .f16x2 => shape .f16
  | .b16x2 => shape .b16
  | _ => none

def isF64 (f : VFmt) : Bool := f == .f64

/-- The inbound port that a source code names (R281). -/
def srcPort (c : BitVec 4) : List Nat := if 8 ≤ c.toNat then [c.toNat - 8] else []

/-- The 16 rows of mask k at the issue slot. -/
def Core.maskRows (c : Core) (k : BitVec 3) : List (BitVec 64) := (List.range 16).map (c.k k)

/-- An operation in flight, nothing read yet. -/
def newOp (i : Instr) (st : Stream) (t rows period : Nat) (mask : List (BitVec 64)) : Op :=
  { instr := i, stream := st, issue := t, next := 0, rows, period, mask, desc := 0, coord := [], index := [], phase := 0 }

/-- A port with no pattern bound takes a pattern fault (R338, R360). -/
def Core.unbound (c : Core) (ports : List Nat) : Option Nat := ports.find? fun p => (c.inp p).walk.isNone

/-- Dither phase as read at issue: every RDI instruction of the slot before this one has advanced it (R249). -/
def Core.phase (c : Core) (t : Nat) : Nat :=
  (c.regs.dphase.toNat + 17 * (c.pend.filter fun p => p.dst == .dphase && p.issue == t).length) % 64

/-- The phase advance of an instruction that rounds in RDI. -/
def Core.advancePhase (c : Core) (rnd : Rnd) (st : Stream) (t : Nat) : Core := c.land (rnd == .rdi) .dphase st t 1 0

/-- A V instruction that occupies the vector datapath (R118, R337). -/
def vecIssue (i : Instr) (wide : Bool) (k : BitVec 3) (ports : List Nat) (rnd : Option Rnd) (index : Core → List Nat)
    (whole : Bool) : Issue → Meaning := fun _ _ x c =>
  match c.unbound ports with
  | some p => .error (.cause { code := 0x18, detail := 0, port := p })
  | none =>
    if x.cslot < c.units.vector then .error (trouble 6)
    else
      let o := newOp i .v x.cslot (if whole then 1 else 16) (if wide then 2 else 1) (c.maskRows k)
      let o := { o with index := index c, phase := c.phase x.cslot }
      let c := c.advancePhase (rnd.getD .rne) .v x.cslot
      .ok (x.setCore { c with ops := c.ops ++ [o], units := { c.units with vector := x.cslot + (if wide then 32 else 16) } })

def noIndex : Core → List Nat := fun _ => []

/-- varith (R340). -/
def execVarith (g : BitVec 2) (vd : BitVec 3) (sa sb sc : BitVec 4) (k : BitVec 3) (fmt : VFmt) (fn : VarithFn) (s : State) : Out :=
  let three := fn == .fma || fn == .fms
  let two := fn != .abs && fn != .neg
  s.issue (vecIssue (.varith g vd sa sb sc k fmt fn) (isF64 fmt) k
    (srcPort sa ++ (if two then srcPort sb else []) ++ (if three then srcPort sc else [])) none noIndex false)

/-- vlogic (R342). -/
def execVlogic (g : BitVec 2) (vd : BitVec 3) (sa sb : BitVec 4) (k : BitVec 3) (fmt : VFmt) (fn : VlogicFn) (s : State) : Out :=
  s.issue (vecIssue (.vlogic g vd sa sb k fmt fn) (isF64 fmt) k (srcPort sa ++ srcPort sb) none noIndex false)

/-- vcmp (R343). -/
def execVcmp (g : BitVec 2) (kd : BitVec 3) (sa sb : BitVec 4) (k : BitVec 3) (fmt : VFmt) (fn : VcmpFn) (s : State) : Out :=
  s.issue (vecIssue (.vcmp g kd sa sb k fmt fn) (isF64 fmt) k (srcPort sa ++ srcPort sb) none noIndex false)

/-- vsel (R344). -/
def execVsel (g : BitVec 2) (vd : BitVec 3) (sa sb : BitVec 4) (k : BitVec 3) (fmt : VFmt) (s : State) : Out :=
  s.issue (vecIssue (.vsel g vd sa sb k fmt) (isF64 fmt) k (srcPort sa ++ srcPort sb) none noIndex false)

/-- vcvt (R346): F64 timing when the destination is F64 (R337). -/
def execVcvt (g : BitVec 2) (vd : BitVec 3) (sa : BitVec 4) (src dst : Fmt) (rnd : Rnd) (sat : Bool) (k : BitVec 3)
    (pos : BitVec 3) (s : State) : Out :=
  s.issue (vecIssue (.vcvt g vd sa src dst rnd sat k pos) (dst == .f64) k (srcPort sa) (some rnd) noIndex false)

/-- vnarrow (R349). -/
def execVnarrow (g : BitVec 2) (vd : BitVec 3) (a : BitVec 2) (int : Bool) (dst : Fmt) (rnd : Rnd) (sat : Bool) (k : BitVec 3)
    (pos : BitVec 3) (s : State) : Out :=
  s.issue (vecIssue (.vnarrow g vd a int dst rnd sat k pos) (dst == .f64) k [] (some rnd) noIndex false)

/-- vsfu (R350). -/
def execVsfu (g : BitVec 2) (vd : BitVec 3) (sa : BitVec 4) (k : BitVec 3) (fmt : VFmt) (fn : SfuFn) (s : State) : Out :=
  s.issue (vecIssue (.vsfu g vd sa k fmt fn) false k (srcPort sa) none noIndex false)

/-- vrot (R351). -/
def execVrot (g : BitVec 2) (vd : BitVec 3) (sa : BitVec 4) (axis : Axis) (amount : BitVec 6) (k : BitVec 3) (fmt : VFmt)
    (s : State) : Out :=
  s.issue (vecIssue (.vrot g vd sa axis amount k fmt) (isF64 fmt) k (srcPort sa) none noIndex (axis == .col))

/-- vbc (R352). -/
def execVbc (g : BitVec 2) (vd : BitVec 3) (sa : BitVec 4) (axis : Axis) (amount : BitVec 6) (k : BitVec 3) (fmt : VFmt)
    (s : State) : Out :=
  s.issue (vecIssue (.vbc g vd sa axis amount k fmt) (isF64 fmt) k (srcPort sa) none noIndex (axis == .col))

/-- vred (R353). -/
def execVred (g : BitVec 2) (vd : BitVec 3) (sa : BitVec 4) (axis : Axis) (k : BitVec 3) (fmt : VFmt) (s : State) : Out :=
  s.issue (vecIssue (.vred g vd sa axis k fmt) (isF64 fmt) k (srcPort sa) none noIndex (axis == .col))

/-- vsplat (R345): the g register is read at issue. -/
def execVsplat (g : BitVec 2) (vd : BitVec 3) (r : BitVec 5) (k : BitVec 3) (dbl : Bool) (s : State) : Out :=
  s.issue (vecIssue (.vsplat g vd r k dbl) false k [] none (fun c => [(c.g r).toNat]) false)

/-- vpop (R360). -/
def execVpop (g : BitVec 2) (v : BitVec 3) (port k : BitVec 3) (s : State) : Out :=
  s.issue (vecIssue (.vpop g v port k) false k [port.toNat] none noIndex false)

/-- Rows that instructions in flight are still to send to an outbound port (R359, R371). -/
def Core.dueRows (c : Core) (port : BitVec 2) : Nat :=
  let left (test : Instr → Bool) := c.ops.filter fun o => test o.instr && decide (o.next < o.rows)
  (c.pend.filter fun p => p.dst == .send port.toNat (c.outp port.toNat).gen).length
    + (left fun i => match i with
        | .vput _ _ p _ => p == port
        | _ => false).foldl (fun n o => n + ((o.mask.drop o.next).filter (· != 0)).length) 0
    + (left fun i => match i with
        | .mread _ _ p .. => p == port
        | _ => false).foldl (fun n o => n + (o.rows - o.next)) 0

/-- vput (R359). -/
def execVput (g : BitVec 2) (v : BitVec 3) (port : BitVec 2) (k : BitVec 3) (s : State) : Out :=
  s.issue fun i M x c =>
    let q := c.outp port.toNat
    let rows := ((c.maskRows k).filter (· != 0)).length
    let fits := match q.walk with
      | none => false
      | some w => decide (q.sent + c.dueRows port + rows ≤ w.rows)
    if !fits then .error (.cause { code := 0x18, detail := 0, port := 8 + port.toNat })
    else vecIssue (.vput g v port k) false k [] none (fun c => [(c.outp port.toNat).gen]) false i M x c

/-! Tiles in cold storage (R354-R358). -/

/-- The rows that a tile access touches: the byte address of each row and its enabled bytes. -/
def tileRows (d : Line) (c0 : List Nat) (c1 : Nat → Nat) (mask : List (BitVec 64)) : List TRow :=
  let wide := dWidth d == 64
  (List.range 16).map fun r =>
    { row := r, addr := rowAddr d [c0.getD 0 0, c1 r, c0.getD 2 0, c0.getD 3 0]
      bytes := spread 4 (laneMask wide (mask.getD r 0)) }

/-- The greatest enabled element of a row (R354). -/
def lastElem (w : Nat) (m : BitVec 64) : Nat :=
  let top := Nat.log2 (laneMask (w == 64) m).toNat
  if w = 64 then top / 2 else (top + 1) * (32 / w) - 1

/-- Check 3 of R145 over the enabled elements of a tile, and check 4 over its rows, each by its element at c0, enabled or not (R354). -/
def tileCheck (d : Line) (c0 : List Nat) (c1 : Nat → Nat) (mask : List (BitVec 64)) : Except Stall Unit :=
  let w := dWidth d
  let on := (List.range 16).filter fun r => laneMask (w == 64) (mask.getD r 0) != 0
  match on.find? fun r => decide (dExt d 0 ≤ c0.getD 0 0 + lastElem w (mask.getD r 0)) || decide (dExt d 1 ≤ c1 r)
      || decide (dExt d 2 ≤ c0.getD 2 0) || decide (dExt d 3 ≤ c0.getD 3 0) with
  | some r => .error (troubleAt 0x16 (c1 r))
  | none =>
    match (List.range 16).find? fun r => w == 4 && elemPos d [c0.getD 0 0, c1 r, c0.getD 2 0, c0.getD 3 0] % 2 != 0 with
    | some r => .error (troubleAt 0x17 (c1 r))
    | none => .ok ()

/-- The tensor of a handle in the space that the word names, with the right (R145, R283, R354). -/
def Ctx.tileTensor (x : Ctx) (tid : Nat) (sp : CSpace) (right : Line → Bool) : Except Stall Line :=
  match x.tensor tid with
  | none => .error (troubleAt 0x14 tid)
  | some d =>
    if !right d || dSpace d != (if sp == .pool then 1 else 0) then .error (troubleAt 0x15 tid) else .ok d

/-- The last row that touches anything: a row with no enabled element has no access (R354). -/
def lastRow (rows : List TRow) : Nat := ((rows.filter fun r => r.bytes != 0).getLast?.map (·.row)).getD 0

/-- vld, vst and vgath at issue: checks, the plan of bank accesses, the hazard range, and the operation (R354-R358). -/
def tileIssue (i : Instr) (v : BitVec 3) (h : BitVec 4) (gy gx : BitVec 5) (k : BitVec 3) (sp : CSpace) (write gather : Bool) :
    Issue → Meaning := fun iss _ x c => do
  let t := x.cslot
  let pool := sp == .pool
  let d ← x.tileTensor (c.h h).toNat sp (if write then dWrite else dRead)
  let c0 := coords (c.g gx) (c.g gy)
  let mask := c.maskRows k
  let idx := (List.range 16).map fun r => if gather then (c.tile v.toNat r).toNat % 2 ^ 32 else c0.getD 1 0 + r
  let c1 := fun r => idx.getD r 0
  tileCheck d c0 c1 mask
  let rows := tileRows d c0 c1 mask
  let perm := dPerm d
  match rows.find? fun r => !r.ok pool write perm with
  | some r => .error (troubleAt 0x13 (ofInt 64 r.addr))
  | none =>
    let first := if write then 4 else if pool then 4 else 2
    let range := (spanOf perm rows).map fun q => { pool, lo := q.1, hi := q.2, write, upto := t + first + lastRow rows : Range }
    x.unitSlips c (decide (t < c.units.vector)) range
    if write then x.logRoom c pool (rows.flatMap fun r => r.lines.map fun q => q.1 ^^^ perm).eraseDups
    let c' := rows.foldl (fun c r => r.lines.foldl (fun c q => c.useBank (t + first + r.row) pool (q.1 ^^^ perm) t 1 write) c) c
    let c' := match range with
      | some r => c'.addRange r
      | none => c'
    let o := { newOp i .v t 16 1 mask with desc := d, coord := c0, index := idx }
    let y := x.setCore { c' with ops := c'.ops ++ [o], units := { c'.units with vector := t + 16 } }
    if write then
      let bytes := rows.flatMap fun r => r.lines.flatMap fun q =>
        ((List.range 64).filter fun b => q.2.testBit b).map fun b => 64 * (q.1 ^^^ perm) + b
      .ok (if x.watch.any (·.on t) then y.watchStore iss c (if pool then 1 else 0) bytes else y)
    else .ok y

/-- vld (R355). -/
def execVld (g : BitVec 2) (v : BitVec 3) (h : BitVec 4) (gy gx : BitVec 5) (k : BitVec 3) (sp : CSpace) (s : State) : Out :=
  s.issue (tileIssue (.vld g v h gy gx k sp) v h gy gx k sp false false)

/-- vst (R356). -/
def execVst (g : BitVec 2) (v : BitVec 3) (h : BitVec 4) (gy gx : BitVec 5) (k : BitVec 3) (sp : CSpace) (s : State) : Out :=
  s.issue (tileIssue (.vst g v h gy gx k sp) v h gy gx k sp true false)

/-- vgath (R357). -/
def execVgath (g : BitVec 2) (v : BitVec 3) (h : BitVec 4) (gy gx : BitVec 5) (k : BitVec 3) (sp : CSpace) (s : State) : Out :=
  s.issue (tileIssue (.vgath g v h gy gx k sp) v h gy gx k sp false true)

/-! Masks (R361, R362). -/

/-- Sixteen mask rows landing at t + 2; the mask unit is occupied for one slot. -/
def maskLand (kd : BitVec 3) (rows : Core → Nat → BitVec 64) : Issue → Meaning := fun _ _ x c =>
  if x.cslot < c.units.mask then .error (trouble 6)
  else
    let c' := (List.range 16).foldl (fun c' r => c'.land true (.k kd.toNat r) .v x.cslot 2 (rows c r)) c
    .ok (x.setCore { c' with units := { c'.units with mask := x.cslot + 1 } })

/-- kset.box (R361). -/
def execKsetBox (_g : BitVec 2) (kd : BitVec 3) (ncol : BitVec 7) (nrow : BitVec 5) (s : State) : Out :=
  s.issue (maskLand kd fun _ r => if r < nrow.toNat then BitVec.ofNat 64 (2 ^ ncol.toNat - 1) else 0)

/-- kset.reg (R361). -/
def execKsetReg (_g : BitVec 2) (kd : BitVec 3) (r : BitVec 5) (s : State) : Out := s.issue (maskLand kd fun c _ => c.g r)

/-- klog (R362). -/
def execKlog (_g : BitVec 2) (kd ka kb : BitVec 3) (op : LogOp) (s : State) : Out :=
  s.issue (maskLand kd fun c r => logVal op (c.k ka r) (c.k kb r))

end Sys2Proof.Machine
end

