-- ==== Sys2Proof/Machine/Matrix.lean ====
section
/-! DEFINITION. The M stream at issue (R364-R372). Its rows are in Rows.lean. -/

namespace Sys2Proof.Machine

/-- Elements of the M stream's 4-bit and 8-bit classes that pair (R365). -/
def pairs (f : Fmt) : Bool := f == .int4 || f == .uint4 || f == .e2m1

/-- A legal pairing of tcfg (R253, R366). -/
def pairingOk (fa fw : Fmt) : Bool := (intClass fa && intClass fw) || (floatClass false fa && floatClass true fw)

/-- Array slots per row: 1 in the 8-bit class, 4 in the 16-bit class, 16 in the F32 class (R253, R369). -/
def rateOf (fa fw : Fmt) : Nat :=
  let w := max fa.width fw.width
  if w ≤ 8 then 1 else if w = 16 then 4 else 16

/-- tcfg (R366). -/
def execTcfg (_g : BitVec 2) (m : BitVec 6) (n k : BitVec 2) (fa fw : BitVec 4) (s : State) : Out :=
  s.issue fun _ _ x c =>
    let t := x.cslot
    match Fmt.ofCode fa, Fmt.ofCode fw with
    | some a, some w =>
      let pair := pairs a && pairs w
      let kk := (if pair then 32 else 16) * (k.toNat + 1)
      if 0xB < fa.toNat ∨ 0xB < fw.toNat ∨ a = .nq4 ∨ !pairingOk a w ∨ (w = .nq4 ∧ kk ≠ 64) then .error (trouble 0x1A)
      else if t < c.units.array ∨ t < c.units.loader ∨ t < c.units.reader then .error (trouble 6)
      else
        let mat : Matrix := { c.mat with valid := true, m := m.toNat + 1, n := 16 * (n.toNat + 1), k := kk, fa := a, fw := w, pair
                                         scale := [], bound := false }
        let c := { c with mat, units := { c.units with array := t + 80, loader := t + 80, reader := t + 80 } }
        .ok (x.setCore (c.land true .clear .m t 80 0))
    | _, _ => .error (trouble 0x1A)

/-- The ports of a source field: 0-7 name i0-i7, 8-15 name h0-h7 (R365). -/
def matPort (src : BitVec 4) : Option Nat := if src.toNat < 8 then some src.toNat else none

/-- Rows of an operand by handle: `n` rows of `len` elements from the coordinates, row i at c1 + i (R365). -/
def matRows (d : Line) (c0 : List Nat) (n len : Nat) : List TRow :=
  (List.range n).map fun i =>
    { row := i, addr := rowAddr d [c0.getD 0 0, c0.getD 1 0 + i, c0.getD 2 0, c0.getD 3 0]
      bytes := 2 ^ cdiv (len * dWidth d) 8 - 1 }

/-- The checks of R365 on a handle source. -/
def matCheck (x : Ctx) (c : Core) (src : BitVec 4) (f : Fmt) (c0 : List Nat) (n len : Nat) : Except Stall (Line × List TRow) :=
  let tid := (c.h (src - 8)).toNat
  match x.tensor tid with
  | none => .error (troubleAt 0x14 tid)
  | some d =>
    if 2 ≤ dSpace d ∨ !dRead d then .error (troubleAt 0x15 tid)
    else if dFmt d != some f then .error (trouble 0x1A)
    else if dExt d 0 < c0.getD 0 0 + len ∨ dExt d 1 < c0.getD 1 0 + n ∨ dExt d 2 ≤ c0.getD 2 0 ∨ dExt d 3 ≤ c0.getD 3 0 then
      .error (troubleAt 0x16 (c0.getD 0 0))
    else
      match (List.range n).find? fun i => dWidth d == 4
          && elemPos d [c0.getD 0 0, c0.getD 1 0 + i, c0.getD 2 0, c0.getD 3 0] % 2 != 0 with
      | some i => .error (troubleAt 0x17 (c0.getD 1 0 + i))
      | none =>
        let rows := matRows d c0 n len
        match rows.find? fun r => !r.ok (dSpace d == 1) false (dPerm d) with
        | some r => .error (troubleAt 0x13 (ofInt 64 r.addr))
        | none => .ok (d, rows)

/-- An operand source of ldsw or mma, checked and planned: bank accesses and hazard range of a handle, the binding of a port. -/
def matSource (x : Ctx) (c : Core) (src : BitVec 4) (gy gx : BitVec 5) (f : Fmt) (n len period : Nat) (busy : Bool) :
    Except Stall (Core × Line × List Nat) :=
  match matPort src with
  | some p =>
    if (c.inp p).walk.isNone then .error (.cause { code := 0x18, detail := 0, port := p })
    else if busy then .error (trouble 6)
    else .ok (c, 0, [])
  | none => do
    let c0 := coords (c.g gx) (c.g gy)
    let (d, rows) ← matCheck x c src f c0 n len
    let pool := dSpace d == 1
    let perm := dPerm d
    let t := x.cslot
    let range := (spanOf perm rows).map fun q => { pool, lo := q.1, hi := q.2, write := false, upto := t + (n - 1) * period : Range }
    x.unitSlips c busy range
    let c' := rows.foldl (fun c q => q.lines.foldl (fun c l => c.useBank (t + q.row * period) pool (l.1 ^^^ perm) t 2 false) c) c
    .ok ((range.map c'.addRange).getD c', d, c0)

/-- ldsw (R367). -/
def execLdsw (g : BitVec 2) (src : BitVec 4) (gy gx : BitVec 5) (s : State) : Out :=
  s.issue fun _ _ x c =>
    if !c.mat.valid then .error (trouble 0x1A)
    else do
      let nq := c.mat.fw == .nq4
      let n := if nq then 64 else c.mat.k
      let (c', d, c0) ← matSource x c src gy gx c.mat.fw n (if nq then 64 else c.mat.n) 1 (decide (x.cslot < c.units.loader))
      let o := { newOp (.ldsw g src gy gx) .m x.cslot n 1 [] with desc := d, coord := c0 }
      .ok (x.setCore { c' with ops := c'.ops ++ [o], units := { c'.units with loader := x.cslot + n } })

/-- swap (R368). -/
def execSwap (_g : BitVec 2) (s : State) : Out :=
  s.issue fun _ _ x c =>
    let t := x.cslot
    let busy := c.ops.any fun o => match o.instr with
      | .ldsw .. => decide (t < o.issue + o.rows - 1)
      | _ => false
    if !c.mat.valid || busy then .error (trouble 0x1A)
    else if t < c.units.array then .error (trouble 6)
    else .ok (x.setCore ({ c with units := { c.units with array := t + 1 } }.land true .planes .m t 1 0))

/-- mma (R369). -/
def execMma (g : BitVec 2) (src : BitVec 4) (ad : BitVec 2) (acc : Bool) (gy gx : BitVec 5) (ovr : Bool) (m : BitVec 6) (s : State) :
    Out :=
  s.issue fun _ _ x c =>
    let n := if ovr then m.toNat + 1 else c.mat.m
    if 16 * (4 - ad.toNat) < n then .error (trouble 0x10)
    else if !c.mat.valid then .error (trouble 0x1A)
    else if c.mat.fw == .nq4 && !(c.mat.bound || c.pend.any fun p => match p.dst with
        | .scale _ => true
        | _ => false) then .error (trouble 0x1A)
    else do
      let d := rateOf c.mat.fa c.mat.fw
      let (c', desc, c0) ← matSource x c src gy gx c.mat.fa n c.mat.k d (decide (x.cslot < c.units.array))
      let o := { newOp (.mma g src ad acc gy gx ovr m) .m x.cslot n d [] with desc, coord := c0 }
      .ok (x.setCore { c' with ops := c'.ops ++ [o], units := { c'.units with array := x.cslot + d * n } })

/-- mzero (R370). -/
def execMzero (_g : BitVec 2) (ad : BitVec 2) (s : State) : Out :=
  s.issue fun _ _ x c =>
    let t := x.cslot
    if t < c.units.array then .error (trouble 6)
    else
      let c' := (List.range 16).foldl (fun c' j => c'.land true (.a ad.toNat j) .m t (1 + j) 0) c
      .ok (x.setCore { c' with units := { c'.units with array := t + 16 } })

/-- mread (R371). -/
def execMread (g : BitVec 2) (a port : BitVec 2) (dst : Fmt) (rnd : Rnd) (sat : Bool) (first rows : BitVec 4) (s : State) : Out :=
  s.issue fun _ _ x c =>
    let t := x.cslot
    let n := rows.toNat + 1
    let q := c.outp port.toNat
    let fits := match q.walk with
      | none => false
      | some w => dFmt w.desc == some dst && decide (q.sent + c.dueRows port + n ≤ w.rows)
    if !c.mat.valid then .error (trouble 0x1A)
    else if !fits then .error (.cause { code := 0x18, detail := 0, port := 8 + port.toNat })
    else if t < c.units.reader then .error (trouble 6)
    else
      let o := { newOp (.mread g a port dst rnd sat first rows) .m t n 1 [] with phase := c.phase t, index := [q.gen, if intClass c.mat.fa then 1 else 0] }
      let c := c.advancePhase rnd .m t
      .ok (x.setCore { c with ops := c.ops ++ [o], units := { c.units with reader := t + n } })

/-- Where the scale byte and the super-scale of block `b` lie (R245). -/
def scaleByte (b : Nat) : Nat := 260 * (b / 256) + 4 + b % 256
def superByte (b : Nat) : Nat := 260 * (b / 256)

/-- mscl (R151, R372): the bytes are read at issue, each line once. -/
def execMscl (_g : BitVec 2) (h : BitVec 3) (gy gx : BitVec 5) (s : State) : Out :=
  s.issue fun _ _ x c =>
    let t := x.cslot
    if !c.mat.valid || c.mat.fw != .nq4 then .error (trouble 0x1A)
    else
      let tid := (c.h (0#1 ++ h)).toNat
      match x.tensor tid with
      | none => .error (troubleAt 0x14 tid)
      | some d =>
        let pool := dSpace d == 1
        if 2 ≤ dSpace d ∨ !dRead d then .error (troubleAt 0x15 tid)
        else if dFmt d != some .uint8 || dDims d != 1 || dStr d 0 != 1 then .error (trouble 0x1A)
        else
          let c0 := coords (c.g gx) (c.g gy)
          let b0 := c0.getD 0 0
          let top := scaleByte (b0 + 63)
          if dExt d 0 ≤ max top (superByte (b0 + 63) + 3) ∨ dExt d 0 ≤ b0 ∨ dExt d 1 ≤ c0.getD 1 0 ∨ dExt d 2 ≤ c0.getD 2 0
              ∨ dExt d 3 ≤ c0.getD 3 0 then .error (troubleAt 0x16 b0)
          else
            let perm := dPerm d
            let at' := fun e => (dBase d + e) ^^^ (perm * 64)
            let bytes := (List.range 64).flatMap fun n =>
              scaleByte (b0 + n) :: (List.range 4).map (superByte (b0 + n) + ·)
            if bytes.any fun e => !coldOk pool false (at' e) 1 then .error (troubleAt 0x13 (at' top))
            else do
              let touched := bytes.map at'
              let range : Range := { pool, lo := touched.foldl min (touched.headD 0), hi := touched.foldl max 0, write := false, upto := t }
              x.unitSlips c (decide (t < c.units.array)) (some range)
              let mem := x.space c pool
              let lines := (touched.map (· / 64)).eraseDups
              let c' := (lines.foldl (fun c l => c.useBank t pool l t 2 false) c).addRange range
              let c' := (List.range 64).foldl (fun c n =>
                let sup := (List.range 4).foldl (fun a i => a + (mem.byte (at' (superByte (b0 + n) + i))).toNat * 256 ^ i) 0
                c.land true (.scale n) .m t 1 (BitVec.ofNat 64 ((mem.byte (at' (scaleByte (b0 + n)))).toNat + 256 * sup))) c'
              .ok (x.setCore { c' with units := { c'.units with array := t + 1 } })

end Sys2Proof.Machine
end

