-- ==== Sys2Proof/Machine/Translate.lean ====
section
/-! DEFINITION. Translation of warm addresses, the TLBs, the checks of an access, and the fault rings (R74-R89). -/

namespace Sys2Proof.Machine

/-! Page-table entries (R75): a leaf entry's fields. -/

def pteValid (w : BitVec 64) : Bool := w.getLsbD 0
def pteRd (w : BitVec 64) : Bool := w.getLsbD 2
def pteW (w : BitVec 64) : Bool := w.getLsbD 3
def pteX (w : BitVec 64) : Bool := w.getLsbD 4
def pteA (w : BitVec 64) : Bool := w.getLsbD 5
def pteD (w : BitVec 64) : Bool := w.getLsbD 6
def pteSh (w : BitVec 64) : Bool := w.getLsbD 7
def pteMoor (w : BitVec 64) : Nat := bits w.toNat 58 56
/-- The frame's physical address. -/
def pteAddr (w : BitVec 64) : Nat := bits w.toNat 40 8 * 256

/-- Bytes that a leaf of a level maps (R74). -/
def leafSize (level : Nat) : Nat := if level = 1 then 2 ^ 30 else if level = 2 then 2 ^ 21 else 2 ^ 16

/-- A leaf entry word: address, rights, mooring and the A, D and SH bits. -/
def pteWord (addr : Nat) (rd w x a d sh : Bool) (moor : Nat) : BitVec 64 :=
  BitVec.ofNat 64 (2 ^ 56 * moor + addr + (if sh then 128 else 0) + (if d then 64 else 0) + (if a then 32 else 0)
    + (if x then 16 else 0) + (if w then 8 else 0) + (if rd then 4 else 0) + 3)

def setBitTo (w : BitVec 64) (i : Nat) (b : Bool) : BitVec 64 :=
  if b then w ||| BitVec.ofNat 64 (2 ^ i) else w &&& ~~~(BitVec.ofNat 64 (2 ^ i))

def setMoor (w : BitVec 64) (m : Nat) : BitVec 64 :=
  (w &&& ~~~(BitVec.ofNat 64 (7 * 2 ^ 56))) ||| BitVec.ofNat 64 (m % 8 * 2 ^ 56)

def setAddr (w : BitVec 64) (a : Nat) : BitVec 64 :=
  (w &&& ~~~(BitVec.ofNat 64 ((2 ^ 41 - 256)))) ||| BitVec.ofNat 64 (a % 2 ^ 41 - a % 256)

/-- LEAF (R75). -/
def pteLeaf (w : BitVec 64) : Bool := w.getLsbD 1

/-- Bytes of the table that an entry of a level names (R74). -/
def tableSize (level : Nat) : Nat := if level = 1 then 4096 else 256

/-- An entry that is not well formed (R75): a leaf or a pointer, at its level. -/
def malformed (level : Nat) (w : BitVec 64) : Bool :=
  bits w.toNat 55 41 != 0 ||
    if pteLeaf w then pteAddr w % leafSize level != 0 || (pteSh w && pteW w) || decide (5 ≤ pteMoor w)
    else level == 3 || bits w.toNat 7 2 != 0 || pteMoor w != 0 || pteAddr w % tableSize level != 0

/-- The physical address of the keeper heap, KHEAP (R41). -/
def Mach.heap (M : Mach) : Nat := M.keepers.kheap.toNat * 2 ^ 30

/-! Address spaces: the keeper's own record of its tables, and the tables as bytes of its heap (R74, R76, R77). -/

def Warm.space (W : Warm) (a : BitVec 8) : Option Space := W.spaces.find? fun s => s.asid == a

def Warm.setSpace (W : Warm) (s : Space) : Warm :=
  if W.spaces.any fun t => t.asid == s.asid then
    { W with spaces := W.spaces.map fun t => if t.asid == s.asid then s else t }
  else { W with spaces := W.spaces ++ [s] }

def Pte.covers (p : Pte) (va : Nat) : Bool := decide (p.va ≤ va) && decide (va < p.va + leafSize p.level)

/-- The leaf of `va` that the keeper has written. -/
def Warm.leaf (W : Warm) (a : BitVec 8) (va : Nat) : Option Pte :=
  match W.space a with
  | none => none
  | some s => s.ptes.find? fun p => p.covers va

/-- The table of a level that serves `va`, and the address of its entry there (R74). -/
def Space.table (s : Space) (level va : Nat) : Option Nat :=
  if level = 1 then some s.root
  else (s.tabs.find? fun t => t.1 == level && t.2.1 == va / leafSize (level - 1) * leafSize (level - 1)).map (·.2.2)

def entryIndex (level va : Nat) : Nat := if level = 1 then va / 2 ^ 30 else if level = 2 then va / 2 ^ 21 % 512 else va / 2 ^ 16 % 32

def Space.entry (s : Space) (level va : Nat) : Option Nat := (s.table level va).map fun t => t + 8 * entryIndex level va

/-- One 8-byte store to an entry (R77). -/
def Warm.storeEntry (W : Warm) (s : Space) (level va : Nat) (w : BitVec 64) : Warm :=
  match s.entry level va with
  | none => W
  | some a => { W with mem := W.mem.write a 8 w.toNat }

/-- A pointer entry to a table (R75). -/
def pointerWord (a : Nat) : BitVec 64 := BitVec.ofNat 64 (a + 1)

/-- A table of level `level` for `va`, taken from the keeper heap, all its entries 0, and named by its pointer entry, if there is none (log 111). -/
def Warm.addTable (W : Warm) (heap : Nat) (s : Space) (level va : Nat) : Warm × Space :=
  if (s.table level va).isSome then (W, s)
  else
    let units := tableSize (level - 1) / 256
    let n := cdiv W.tables units * units
    let t := heap + 2 ^ 29 + 256 * n
    ({ W with tables := n + units, mem := W.mem.zero t (t + tableSize (level - 1)) }.storeEntry s (level - 1) va (pointerWord t)
      , { s with tabs := s.tabs ++ [(level, va / leafSize (level - 1) * leafSize (level - 1), t)] })

/-- The tables that a leaf of a level needs. -/
def Warm.addTables (W : Warm) (heap : Nat) (s : Space) (level va : Nat) : Warm × Space :=
  let (W, s) := if 2 ≤ level then W.addTable heap s 2 va else (W, s)
  if 3 ≤ level then W.addTable heap s 3 va else (W, s)

/-- The space of an ASID, with its level-1 table in the keeper heap (log 111). -/
def Warm.spaceOf (W : Warm) (heap : Nat) (a : BitVec 8) : Space :=
  (W.space a).getD { asid := a, root := heap + 2 ^ 21 * a.toNat, tabs := [], ptes := [] }

/-- The space of an ASID is made, if there is none: every entry of its level-1 table is 0. -/
def Warm.openSpace (W : Warm) (heap : Nat) (a : BitVec 8) : Warm :=
  if (W.space a).isSome then W
  else
    let s := W.spaceOf heap a
    { W with mem := W.mem.zero s.root (s.root + 2 ^ 21) }.setSpace s

/-- A leaf is written: in the keeper's record, and, after the tables it needs, in its table. -/
def Warm.putLeaf (W : Warm) (heap : Nat) (a : BitVec 8) (p : Pte) : Warm :=
  let W := W.openSpace heap a
  let s := W.spaceOf heap a
  let under (t : Nat × Nat × Nat) : Bool := decide (p.level < t.1) && decide (p.va ≤ t.2.1) && decide (t.2.1 < p.va + leafSize p.level)
  let (W, s) := W.addTables heap { s with tabs := s.tabs.filter fun t => !under t } p.level p.va
  (W.storeEntry s p.level p.va p.word).setSpace { s with ptes := s.ptes.filter (fun q => !(q.level == p.level && q.va == p.va)) ++ [p] }

/-- A leaf is removed. -/
def Warm.dropLeaf (W : Warm) (a : BitVec 8) (p : Pte) : Warm :=
  match W.space a with
  | none => W
  | some s => (W.storeEntry s p.level p.va 0).setSpace { s with ptes := s.ptes.filter fun q => !(q.level == p.level && q.va == p.va) }

/-- Leaves of every space changed by single 8-byte stores (R77). -/
def Warm.rewrite (W : Warm) (f : Space → Pte → BitVec 64) : Warm :=
  W.spaces.foldl (fun W s =>
    let new := s.ptes.map fun p => { p with word := f s p }
    let W := (s.ptes.zip new).foldl (fun W q => if q.1.word = q.2.word then W else W.storeEntry s q.2.level q.2.va q.2.word) W
    W.setSpace { s with ptes := new }) W

/-- The leaf of one address changed. -/
def Warm.setLeaf (W : Warm) (a : BitVec 8) (va : Nat) (f : BitVec 64 → BitVec 64) : Warm :=
  W.rewrite fun s p => if s.asid == a && p.covers va then f p.word else p.word

/-- The physical address that the tables give, whatever the entry permits. -/
def Warm.phys (W : Warm) (a : BitVec 8) (va : Nat) : Option Nat :=
  (W.leaf a va).map fun p => pteAddr p.word + (va - p.va)

/-- ROOT of CTXTR (R76) of the placed context of an ASID; of one that is not placed, the keeper's own record. -/
def Warm.rootOf (W : Warm) (a : BitVec 8) : Option Nat :=
  match W.ctxtrs.find? fun c => c.2.setWidth 8 == a with
  | some c => some (bits c.2.toNat 40 21 * 2 ^ 21)
  | none => (W.space a).map (·.root)

/-- CTXTR of a placed context (R76). -/
def ctxtrWord (root : Nat) (a : BitVec 8) : BitVec 64 := BitVec.ofNat 64 (root / 2 ^ 21 % 2 ^ 20 * 2 ^ 21 + a.toNat)

/-- The keeper writes CTXTR at placement, and the context's release clears it (R76). -/
def Warm.setCtxtr (W : Warm) (heap slot : Nat) (a : BitVec 8) : Warm :=
  { W.openSpace heap a with ctxtrs := W.ctxtrs.filter (fun c => c.1 != slot) ++ [(slot, ctxtrWord (W.spaceOf heap a).root a)] }

def Warm.clearCtxtr (W : Warm) (slot : Nat) : Warm := { W with ctxtrs := W.ctxtrs.filter fun c => c.1 != slot }

/-! Checks (R82). -/

/-- The first kind of R82 that applies to a leaf, or none. -/
def leafCheck (level : Nat) (w : BitVec 64) (write fetch : Bool) : Option Nat :=
  if !pteValid w then some 8
  else if malformed level w then some 10
  else if pteMoor w = 4 then some 11
  else if pteMoor w ≠ 0 then some 4
  else if fetch then (if !pteX w then some 9 else if !pteA w then some 1 else none)
  else if write then
    if !pteW w && !pteSh w then some 9
    else if pteSh w then some 3
    else if !pteD w then some 2
    else if !pteA w then some 1 else none
  else if !pteRd w then some 9
  else if !pteA w then some 1 else none

/-- A light kind: the source waits and a keeper serves it (R82). -/
def lightKind (k : Nat) : Bool := decide (1 ≤ k) && decide (k ≤ 4)

/-- Entries of a TLB (R78): 256 for a scalar source, 64 otherwise. -/
def tlbSize (source : Nat) : Nat := if source < 4096 ∧ source % 16 = 12 then 256 else 64

/-- Sources that have a TLB (R78): the ports and the scalar unit of an access unit, and the two sides of a copy engine. Every other source
walks each access. -/
def hasTlb (source : Nat) : Bool := (decide (source < 4096) && decide (source % 16 ≤ 12)) || (decide (4096 ≤ source % 8192) && decide (source % 8192 < 4112))

/-- What the walk of an address reaches (R74, R75): a leaf at a level, or the kind, level and entry of its failure. -/
inductive Walked where
  | leaf (level : Nat) (word : BitVec 64)
  | bad (kind level : Nat) (entry : BitVec 64)
  deriving DecidableEq, Repr

/-- The walk from the table at `t` of level 4 - `n`: each entry is one 8-byte read (R74, R77). -/
def walkFrom (m : Memory) (va : Nat) : Nat → Nat → Walked
  | 0, _ => .bad 10 3 0
  | n + 1, t =>
    let level := 3 - n
    let w := BitVec.ofNat 64 (m.read (t + 8 * entryIndex level va) 8)
    if !pteValid w then .bad 8 level w
    else if malformed level w then .bad 10 level w
    else if pteLeaf w then .leaf level w
    else walkFrom m va n (pteAddr w)

def Warm.walk (W : Warm) (a : BitVec 8) (va : Nat) : Walked :=
  match W.rootOf a with
  | none => .bad 8 1 0
  | some root => walkFrom W.mem va 3 root

/-- What a check found: the physical address, or the kind, level and entry. -/
inductive Found where
  | phys (a : Nat)
  | bad (kind level : Nat) (entry : BitVec 64)
  deriving DecidableEq, Repr

/-- A leaf that passed its check is cached, if its source has a TLB; the oldest entry makes room (R78, log 10). -/
def Warm.cache (W : Warm) (e : Tlb) : Warm :=
  if !hasTlb e.source then W
  else
    let mine := W.tlbs.filter fun t => t.source == e.source
    let rest := W.tlbs.filter fun t => !(t.source == e.source && t.asid == e.asid && t.va == e.va && t.level == e.level)
    let rest := if tlbSize e.source ≤ mine.length then match mine with
        | [] => rest
        | o :: _ => rest.erase o
      else rest
    { W with tlbs := rest ++ [e] }

/-- A source translates one address (R78-R82): its TLB; or a leaf that a marker behind it has not yet removed for it (R91); or the walk,
whose leaf is cached unless its check faults. A cached entry that fails its check is walked afresh (log 112). -/
def Warm.translate (W : Warm) (olds : List (BitVec 8 × Pte)) (source : Nat) (a : BitVec 8) (va : Nat) (write fetch : Bool) : Warm × Found :=
  if 2 ^ 48 ≤ va then (W, .bad 12 0 0)
  else
    let hit := W.tlbs.find? fun e => e.source == source && e.asid == a && decide (e.va ≤ va) && decide (va < e.va + leafSize e.level)
    match hit.filter fun e => (leafCheck e.level e.word write fetch).isNone with
    | some e => (W, .phys (pteAddr e.word + (va - e.va)))
    | none =>
      let found := match olds.find? fun o => o.1 == a && o.2.covers va with
        | some o => Walked.leaf o.2.level o.2.word
        | none => W.walk a va
      match found with
      | .bad k level w => (W, .bad k level w)
      | .leaf level w => match leafCheck level w write fetch with
        | some k => (W, .bad k level w)
        | none =>
          let base := va / leafSize level * leafSize level
          (W.cache { source, asid := a, level, va := base, word := w }, .phys (pteAddr w + (va - base)))

/-- Bytes of the page that holds an address, as (first, size): 64 KiB where no leaf is found. -/
def Warm.pageAt (W : Warm) (a : BitVec 8) (va : Nat) : Nat × Nat :=
  let size := match W.walk a va with
    | .leaf level _ => leafSize level
    | .bad .. => 2 ^ 16
  (va / size * size, size)

/-- Every element of a list, in order: physical bit addresses, or the first address that fails. -/
def Warm.translateAll (W : Warm) (olds : List (BitVec 8 × Pte)) (source : Nat) (a : BitVec 8) (write : Bool) :
    List (Nat × Nat) → List (Nat × Nat) → Warm × (List (Nat × Nat) ⊕ (Nat × Nat × Nat × BitVec 64))
  | [], acc => (W, .inl acc.reverse)
  | (p, b) :: r, acc =>
    match W.translate olds source a (b / 8) write false with
    | (W, .phys q) => W.translateAll olds source a write r ((p, 8 * q + b % 8) :: acc)
    | (W, .bad k l e) => (W, .inr (b / 8, k, l, e))

/-- The TLBs of a module cluster's access units, or of the cores `ids`, emptied (R78). -/
def Warm.emptyTlbs (W : Warm) (ids : List Nat) : Warm :=
  { W with tlbs := W.tlbs.filter fun e => !(decide (e.source < 4096) && ids.contains (e.source / 16)) }

/-! Warm memory by bits. -/

/-- `w` bits at a bit address. -/
def readBits (m : Memory) (b w : Nat) : Nat := m.read (b / 8) (cdiv (b % 8 + w) 8) / 2 ^ (b % 8) % 2 ^ w

/-- `w` bits written at a bit address where a mask has ones. -/
def writeBits (m : Memory) (b w v mask : Nat) : Memory :=
  m.writeMask (b / 8) (cdiv (b % 8 + w) 8) (v % 2 ^ w * 2 ^ (b % 8)) (mask % 2 ^ w * 2 ^ (b % 8))

/-- The packed value of physical elements. -/
def readElems (m : Memory) (w : Nat) (l : List (Nat × Nat)) : Nat :=
  l.foldl (fun v q => v + readBits m q.2 w * 2 ^ q.1) 0

def writeElems (m : Memory) (w value mask : Nat) (l : List (Nat × Nat)) : Memory :=
  l.foldl (fun m q => writeBits m q.2 w (value / 2 ^ q.1) (mask / 2 ^ q.1)) m

/-! Fault rings (R86-R89). -/

def ringSize (r : Ring) : Nat := 2 ^ r.log2n

def Ring.free (r : Ring) : Nat := ringSize r - (r.prod - r.cons).toNat

/-- A record reaches its ring, or is held by its source (R89). -/
def Ring.raise (r : Ring) (f : FaultRec) : Ring :=
  if r.free = 0 ∨ r.held ≠ [] then
    { r with held := r.held ++ [f], ovf := if r.ovf = BitVec.allOnes 32 then r.ovf else r.ovf + 1 }
  else { r with recs := r.recs ++ [f], prod := r.prod + 1 }

/-- The held record of the lowest source number. -/
def Ring.lowest (r : Ring) : Option FaultRec :=
  r.held.foldl (fun b f => match b with
    | none => some f
    | some g => if f.source < g.source then some f else some g) none

/-- Held records are written while an entry is free, in ascending source number, re-raised (R89). -/
def Ring.drain : Nat → Ring → Ring
  | 0, r => r
  | n + 1, r =>
    if r.free = 0 then r
    else match r.lowest with
      | none => r
      | some f => Ring.drain n { r with held := r.held.erase f, recs := r.recs ++ [{ f with raised := true }], prod := r.prod + 1 }

/-- The 64 bytes of a record (R85). -/
def FaultRec.bytes (f : FaultRec) : BitVec 512 :=
  let bit (b : Bool) (i : Nat) : Nat := if b then 2 ^ i else 0
  BitVec.ofNat 512 (f.kind % 256 + 2 ^ 8 * (f.src % 256) + 2 ^ 16 * f.asid.toNat + 2 ^ 24 * (bit f.write 0 + bit f.fetch 1 + bit f.raised 2)
    + 2 ^ 32 * (f.unit % 2 ^ 16) + 2 ^ 48 * (f.port % 256) + 2 ^ 56 * (f.level % 256) + 2 ^ 64 * (f.addr % 2 ^ 64)
    + 2 ^ 128 * (f.cslot % 2 ^ 64) + 2 ^ 192 * (f.mslot % 2 ^ 64) + 2 ^ 256 * (f.position % 2 ^ 64) + 2 ^ 320 * f.entry.toNat
    + 2 ^ 384 * (f.source % 2 ^ 32))

/-- A note named "OLUCA" at the end of a dump's PT_NOTE segment, whose size its program header gives (R185): type, size and contents. -/
def Dump.note (d : Dump) (type size desc : Nat) : Dump :=
  let a := d.noteAt + d.noteLen
  let file := ((((d.file.write a 4 6).write (a + 4) 4 size).write (a + 8) 4 type).write (a + 12) 8 0x4143554C4F).write (a + 20) size desc
  let noteLen := d.noteLen + 20 + cdiv size 4 * 4
  { d with noteLen, file := (file.write 96 8 noteLen).write 104 8 noteLen }

/-- A ring changed; the records that it has newly written stand in keeper SRAM at BASE, each in its entry (R88). -/
def Warm.onRing (W : Warm) (n : Nat) (f : Ring → Ring) : Warm :=
  match W.rings[n]? with
  | none => W
  | some r =>
    let r' := f r
    let new := (r'.prod - r.prod).toNat
    let at' (i : Nat) : Nat := 64 * r.base + 64 * ((r.prod.toNat + i) % ringSize r)
    let sram := ((r'.recs.drop (r'.recs.length - new)).zip (List.range new)).foldl (fun m e => m.write (at' e.2) 64 e.1.bytes.toNat) W.sram
    { W with rings := setAt W.rings n r', sram }

/-- The interrupt line of a ring (R86). -/
def Ring.line (r : Ring) : Bool := r.prod != r.cons || r.held != []

/-- The registers of a ring's header, as the keeper reads them (R88): FRBASE, FRPROD, FRCONS, FROVF, and BITMAP from 0x040. -/
def Ring.register (r : Ring) (off : Nat) : W64 :=
  if off = 0x000 then BitVec.ofNat 64 (2 ^ 25 * r.log2n + 2 ^ 6 * r.base)
  else if off = 0x008 then r.prod.setWidth 64
  else if off = 0x010 then r.cons.setWidth 64
  else if off = 0x018 then r.ovf ++ BitVec.ofNat 32 (r.held.length % 2 ^ 13)
  else if 0x040 ≤ off ∧ off < 0x260 ∧ off % 8 = 0 then
    BitVec.ofNat 64 (pack 1 ((List.range 64).map fun i => if r.held.any fun f => f.source == 8 * (off - 0x40) + i then 1 else 0))
  else 0

end Sys2Proof.Machine
end

