-- ==== Sys2Proof/Machine/Crossing.lean ====
section
/-! DEFINITION. The X stream at issue (R373-R380). What follows an issue is in Rows.lean, Home.lean and Engine.lean. -/

namespace Sys2Proof.Machine

/-- The pattern entry that an X instruction uses (R331): not in slots t to t + 7 of a spat into it. -/
def Core.entry (c : Core) (p : BitVec 6) : Option Line :=
  if c.pend.any fun q => q.dst == .pat p.toNat then none else some (c.pat p.toNat)

/-- A pattern fault. -/
def patternFault : Stall := trouble 0x18

/-- The kinds of tensor that an X instruction walks: crossings and copies warm and sys, mesh moves cold and pool (R373). -/
inductive Kind where
  | warm
  | cold
  deriving DecidableEq, Repr

/-- Check 3 of R373: tensor id, kind, right, bounds, and the start of a 4-bit row. -/
def walkCheck (x : Ctx) (p : Line) (kind : Kind) (right : Line → Bool) : Except Stall Walk :=
  match x.tensor (pTid p) with
  | none => .error (troubleAt 0x14 (pTid p))
  | some d =>
    let w : Walk := { pat := p, desc := d }
    let isWarm := decide (2 ≤ dSpace d)
    if isWarm != (kind == .warm) then .error patternFault
    else if !right d then .error (troubleAt 0x15 (pTid p))
    else match w.outside with
      | some i => .error (troubleAt 0x16 i)
      | none => if w.odd then .error (trouble 0x17) else .ok w

/-- Lanes held at a slot in one direction by the cores of a cluster (R157). -/
def Ctx.lanesHeld (x : Ctx) (cluster : Nat) (out : Bool) : Nat :=
  (x.lanes.filter fun h => h.cluster == cluster && h.out == out && match h.upto with
    | none => true
    | some u => decide (x.cslot ≤ u)).foldl (fun n h => n + h.lanes) 0

def Ctx.laneShare (x : Ctx) (out : Bool) : Nat := x.field (if out then 0x061 else 0x060) 1

/-- The lanes of a new crossing fit the cluster's share (R157). -/
def Ctx.lanesOk (x : Ctx) (cluster : Nat) (out : Bool) (n : Nat) : Bool :=
  decide (x.lanesHeld cluster out + n ≤ x.laneShare out)

/-- The wheel, counted by the context's wheel points, that an MSLOT lies in (R134). -/
def Ctx.wheelAt (x : Ctx) (M : Mach) : Nat := (M.mslot + 4096 - x.phase) / 4096

/-- The granules of a crossing fit the ticks that the context owns on every channel in the present wheel (R158). -/
def Ctx.ticksOk (x : Ctx) (M : Mach) (pages : List Nat) : Bool :=
  let all := (x.ticks.filter fun t => t.1 == x.wheelAt M).map (·.2) ++ pages
  decide (all.length ≤ x.field 0x062 2)
    || pages.all fun p => decide ((all.filter fun q => Config.channel q == Config.channel p).length ≤ x.field 0x062 2)

def Ctx.addTicks (x : Ctx) (M : Mach) (pages : List Nat) : Ctx :=
  { x with ticks := (x.ticks.filter fun t => t.1 == x.wheelAt M) ++ pages.map fun p => (x.wheelAt M, p) }

/-- The physical page of an address that the tables map; an address of the sys: range takes no tick of this module's channels for the
context (R158). -/
def pageOf (M : Mach) (x : Ctx) (sys : Bool) (va : Nat) : Option Nat := if sys then none else (M.warm.phys x.asid va).map (· / 4096)

/-- Pages of the granules of a walk's packed stream. -/
def Walk.pages (w : Walk) (M : Mach) (x : Ctx) : List Nat :=
  (List.range (cdiv w.bytes 64)).filterMap fun g =>
    ((w.spanElems (64 * g) (min (64 * g + 64) w.bytes)).head?).bind fun e => pageOf M x (dSpace w.desc == 3) (e.2 / 8)

/-- The check word of a tensor (R167). -/
def checkWordAt (d : Line) : Nat :=
  dBase d + 4 * cdiv (cdiv (dExt d 0 * dExt d 1 * dExt d 2 * dExt d 3 * dWidth d) 8) 4

/-- The cold range of a crossing against R60 (check 4 of R373). -/
def crossColdOk (pool write : Bool) (off bytes : Nat) : Bool := bytes == 0 || coldOk pool write off bytes

/-! xbind, xfree, xmode (R374-R376). -/

/-- xbind (R374). -/
def execXbind (_g : BitVec 2) (port : BitVec 3) (pat : BitVec 6) (tc : BitVec 3) (len : Bool) (gx gy : BitVec 5) (out : Bool)
    (s : State) : Out :=
  s.issue fun _ _ x c => do
    let t := x.cslot
    let bad := Except.error (α := Ctx) (.cause { code := 0x18, detail := 0, port := (if out then 8 else 0) + port.toNat })
    match c.entry pat with
    | none => bad
    | some e =>
      let p := pBind e (c.g gx) (c.g gy)
      let bound := if out then (c.outp port.toNat).walk.isSome else (c.inp port.toNat).walk.isSome
      let wide := decide (32 < pRow p) && ((x.tensor (pTid p)).map fun d => dWidth d == 64).getD false
      if !pShape p || pTc p != tc.toNat || bound || decide (x.laneShare out < pLanes p) || wide then bad
      else
        let w ← walkCheck x p .warm (if out then dOut else dIn)
        if !x.lanesOk c.cluster out (pLanes p) then .error (trouble 10)
        else
          let hold : LaneHold := { cluster := c.cluster, out, lanes := pLanes p, upto := none, port := some (c.idx, (if out then 8 else 0) + port.toNat) }
          let c' := if out then
              let q := c.outp port.toNat
              c.setOutp port.toNat { q with walk := some w, tc := tc.toNat, gen := q.gen + 1, sent := 0, lastY := 0, applied := 0, crc := [] }
            else
              let q := c.inp port.toNat
              c.setInp port.toNat { q with walk := some w, tc := tc.toNat, lenient := len || pLenient p, gen := q.gen + 1, planNext := 0
                                           planX := t + 1, next := 0, catchX := 0, halted := none, entries := [], popped := 0, crc := [], rewalk := 0 }
          .ok { (x.setCore c') with lanes := x.lanes ++ [hold] }

/-- The lanes of a port are released after slot `u`. -/
def Ctx.freeLanes (x : Ctx) (j port u : Nat) : Ctx :=
  { x with lanes := x.lanes.map fun h => if h.port == some (j, port) then { h with upto := some u, port := none } else h }

/-- Serialisation interval of a bound port (R154). -/
def Walk.interval (w : Walk) : Nat := cdiv (8 * w.rowBytes) (max 1 (pLanes w.pat))

/-- xfree (R375). -/
def execXfree (_g : BitVec 2) (port : BitVec 3) (out : Bool) (s : State) : Out :=
  s.issue fun _ _ x c =>
    let t := x.cslot
    if out then
      let q := c.outp port.toNat
      match q.walk with
      | none => .ok x
      | some w =>
        let upto := if q.sent = 0 then t else max t (q.lastY + w.interval - 1)
        .ok ((x.setCore (c.setOutp port.toNat { q with walk := none })).freeLanes c.idx (8 + port.toNat) upto)
    else
      let q := c.inp port.toNat
      match q.walk with
      | none => .ok x
      | some w =>
        let upto := if q.next = 0 then t else q.planX - 1
        let c' := c.setInp port.toNat { q.release q.entries.length with walk := none, halted := none, entries := [] }
        .ok ((x.setCore c').freeLanes c.idx port.toNat (if w.rows ≤ q.next then t else upto))

/-- xmode.mesh (R376). -/
def execXmode (_g : BitVec 2) (idx : BitVec 8) (s : State) : Out :=
  s.issue fun _ _ x c =>
    if 8 * x.clusters ≤ idx.toNat then .error (trouble 0x10)
    else .ok (x.setCore (c.land true .mesh .x x.cslot 1 (idx.setWidth 64)))

/-! xin, xout, xcmv (R377). -/

/-- The slot at which the cold side of granule `g` is written or read, and the last slot (R159, R160). -/
def landSlot (kind h lanes bytes issue g : Nat) : Nat :=
  let n := max 1 (cdiv bytes 64)
  let b := max 1 bytes
  match kind with
  | 0 => issue + 6144 + (if g + 1 < n then cdiv (512 * g) lanes else cdiv (8 * b) lanes)
  | 1 => issue + 3072 + cdiv (8 * b) lanes
  | _ => issue + 24 + 4 * h + (if g + 1 < n then 2 * (g + 1) else cdiv b 32)

/-- Lines of a contiguous cold range. -/
def linesOf (off bytes : Nat) : List Nat := (List.range (cdiv (off + bytes) 64 - off / 64)).map (off / 64 + ·)

/-- A crossing of the unbound queue issues its accesses, one a granule (R156, R159, R377). -/
def Ctx.crossRequests (x : Ctx) (j : Nat) (q : Xing) (lanes : Nat) : Ctx :=
  (List.range (cdiv q.bytes 64)).foldl (fun x g =>
    match x.core? j with
    | none => x
    | some c =>
      let hi := min (64 * g + 64) q.bytes
      let land := landSlot q.kind 0 lanes q.bytes q.issue g
      let last := decide (q.bytes ≤ 64 * g + 64)
      x.request c
        { queue := 13, act := if q.kind = 0 then .read else .write, use := .granule q.id g, sys := dSpace q.walk.desc == 3
          elems := q.walk.spanElems (64 * g) hi, width := q.walk.width, value := 0, expect := 0, mask := 2 ^ (8 * (hi - 64 * g)) - 1
          home := if q.kind = 0 then land - 2048 else land, dist := if q.kind = 0 then 2048 else 0, release := false
          acquire := false, word := q.word, check := if q.checksum && last then some (8 * checkWordAt q.walk.desc) else none }) x

/-- The charge of a crossing's granules (R133, R161). -/
def Ctx.chargeGranules (x : Ctx) (M : Mach) (n : Nat) : Ctx := { x with charge := x.charge + n * 512 * M.cold.wx.toNat }

/-- The cold side of a crossing planned: bank accesses and hazard range in the owning core (R119, R151, R377). -/
def Core.planCross (c : Core) (q : Xing) (lanes : Nat) (write : Bool) : Core :=
  let n := cdiv q.bytes 64
  let c := (List.range n).foldl (fun c g =>
    let slot := if write then landSlot q.kind q.hops lanes q.bytes q.issue g else q.issue + g
    c.useBank slot q.pool (q.off / 64 + g) q.issue 3 write) c
  c.addRange { pool := q.pool, lo := q.off, hi := q.off + q.bytes - 1, write
               upto := if write then landSlot q.kind q.hops lanes q.bytes q.issue (n - 1) else q.issue + (n - 1) }

/-- xin and xout at issue. -/
def crossIssue (out : Bool) (pat : BitVec 6) (tc : BitVec 3) (sp : CSpace) (off : BitVec 15) : Issue → Meaning :=
  fun i M x c => do
    let t := x.cslot
    let pool := sp == .pool
    match c.entry pat with
    | none => .error patternFault
    | some p =>
      if !pShape p || pTc p != tc.toNat || decide (x.laneShare out < pLanes p) then .error patternFault
      else
        let w ← walkCheck x p .warm (if out then dOut else dIn)
        let o := 64 * off.toNat
        if !crossColdOk pool (!out) o w.bytes then .error (troubleAt 0x13 o)
        else
          let n := cdiv w.bytes 64
          let pages := w.pages M x
          let booked := decide (0 < n) && (!x.lanesOk c.cluster out (pLanes p) || decide (2048 < x.outstanding c.idx + n) || !x.ticksOk M pages)
          let r : Range := { pool, lo := o, hi := o + w.bytes - 1, write := !out, upto := 0 }
          do
            slips (slipIf (decide (0 < n) && x.hazard c r) 5 o) (slipIf booked 10 0)
            let q : Xing :=
              { id := x.nextReq, core := c.idx, kind := if out then 1 else 0, walk := w, tc := tc.toNat, pool, off := o, bytes := w.bytes
                issue := t, target := c.idx, hops := 0, data := [], next := 0, done := 0, checksum := pCheck p, crc := [], check := none, posted := false
                err := false, word := i.word }
            if n = 0 then .ok { x with xings := x.xings ++ [q], nextReq := x.nextReq + 1 }
            else
              if !out then x.logRoom c pool (linesOf o w.bytes)
              let hold : LaneHold := { cluster := c.cluster, out, lanes := pLanes p, upto := some (t + cdiv (8 * w.bytes) (pLanes p) - 1), port := none }
              let y := { (x.setCore (c.planCross q (pLanes p) (!out))) with xings := x.xings ++ [q], nextReq := x.nextReq + 1, lanes := x.lanes ++ [hold] }
              .ok (((y.crossRequests c.idx q (pLanes p)).chargeGranules M n).addTicks M pages)

/-- xin (R377). -/
def execXin (_g : BitVec 2) (pat : BitVec 6) (tc : BitVec 3) (sp : CSpace) (off : BitVec 15) (s : State) : Out :=
  s.issue (crossIssue false pat tc sp off)

/-- xout (R377). -/
def execXout (_g : BitVec 2) (pat : BitVec 6) (tc : BitVec 3) (sp : CSpace) (off : BitVec 15) (s : State) : Out :=
  s.issue (crossIssue true pat tc sp off)

/-- A granule of a cold walk: byte addresses after permutation, with their position in the packed stream (R373). -/
def Walk.coldBytes (w : Walk) (lo hi : Nat) : List (Nat × Nat) :=
  let perm := dPerm w.desc
  ((w.spanElems lo hi).flatMap fun e =>
    if w.width = 4 then [(e.1 / 8, e.2 / 8)]
    else (List.range (w.width / 8)).map fun b => (e.1 / 8 + b, e.2 / 8 + b)).eraseDups.map fun q => (q.1, q.2 ^^^ (64 * perm))

/-- xcmv (R160, R377). -/
def execXcmv (_g : BitVec 2) (pat : BitVec 6) (tc : BitVec 3) (sp : CSpace) (off : BitVec 15) (s : State) : Out :=
  s.issue fun i _ x c => do
    let t := x.cslot
    let pool := sp == .pool
    match c.entry pat with
    | none => .error patternFault
    | some p =>
      if !pShape p || pTc p != tc.toNat then .error patternFault
      else
        let w ← walkCheck x p .cold dRead
        let o := 64 * off.toNat
        let src := w.coldBytes 0 w.bytes
        let spool := dSpace w.desc == 1
        if src.any fun q => !coldOk spool false q.2 1 then .error (troubleAt 0x13 ((src.head?.map (·.2)).getD 0))
        else if !crossColdOk pool true o w.bytes then .error (troubleAt 0x13 o)
        else match x.core? c.regs.mesh with
          | none => .error (trouble 0x10)
          | some d =>
            let q : Xing :=
              { id := x.nextReq, core := c.idx, kind := 2, walk := w, tc := tc.toNat, pool, off := o, bytes := w.bytes, issue := t
                target := d.idx, hops := hops c.id d.id, data := [], next := 0, done := 0, checksum := false, crc := [], check := none, posted := false
                err := false, word := i.word }
            if w.bytes = 0 then .ok { x with xings := x.xings ++ [q], nextReq := x.nextReq + 1 }
            else
              let n := cdiv w.bytes 64
              let lo := src.foldl (fun a e => min a e.2) (src.headD (0, 0)).2
              let hi := src.foldl (fun a e => max a e.2) 0
              let rs : Range := { pool := spool, lo, hi, write := false, upto := t + 2 * (n - 1) }
              let rd : Range := { pool, lo := o, hi := o + w.bytes - 1, write := true, upto := 0 }
              do
                slips (slipIf (x.hazard c rs || x.hazard d rd) 5 lo) (slipIf (decide (2048 < x.outstanding c.idx + n)) 10 0)
                x.logRoom d pool (linesOf o w.bytes)
                let c' := (List.range n).foldl (fun c g =>
                  ((w.coldBytes (64 * g) (min (64 * g + 64) w.bytes)).map fun e => e.2 / 64).eraseDups.foldl (fun c l =>
                    c.useBank (t + 2 * g) spool l t 3 false) c) (c.addRange rs)
                let y := x.setCore c'
                match y.core? d.idx with
                | none => .ok y
                | some d' => .ok { (y.setCore (d'.planCross q 1 true)) with xings := x.xings ++ [q], nextReq := x.nextReq + 1 }

/-! Copy-engine commands (R162-R165, R378, R379). -/

/-- S0 and W of a built-in routine (R165). -/
def builtInBound (n : Nat) : Option (Nat × Nat) :=
  match n with
  | 0 | 4 => some (4, 1)
  | 1 => some (8, 2)
  | 2 => some (8, 4)
  | 3 => some (16, 4)
  | n => if 8 ≤ n ∧ n ≤ 15 then some (16, 3) else none

/-- The routine that a number names, if it is loaded and permitted for the instruction: 0 xcopy, 1 xded, 2 xpref (R165, R288). -/
def routineOk (M : Mach) (kind n : Nat) : Bool :=
  (M.keepers.routines.any fun r => r.num == n) && match kind with
    | 0 => n = 0 || n = 1 || n = 2 || n = 4 || (decide (8 ≤ n) && decide (n ≤ 15))
    | 1 => n = 3
    | _ => n = 5

/-- The bytes that a routine writes (R378); the source's tokens and channels for the KV-cache routines (R166). -/
def destBytes (n : Nat) (src : Walk) : Option Nat :=
  match n with
  | 0 | 1 | 3 => some src.bytes
  | 2 => some (4 * src.bytes)
  | 4 => none
  | _ =>
    let c := dExt src.desc 0
    let t := dExt src.desc 1
    let w := 16 * 2 ^ (n - 8)
    let q := t - w
    some (4 * c + q * c + 2 * (t - q) * c)

/-- The engine and the queue of a cluster (R162): a command of the module cluster `q` goes to CE(q >> 1). -/
def engineOf (c : Core) : Nat := c.id / 8 / 2

def Ctx.engineOf (x : Ctx) (q : Cmd) : Nat := ((x.core? q.core).map Machine.engineOf).getD 0

/-- The cluster's commands that have not posted (R162); an xpref holds its place for 6,144 slots (R379). -/
def Ctx.queued (x : Ctx) (cluster : Nat) : List Cmd :=
  x.cmds.filter fun q => q.cluster == cluster && if q.kind = 2 then decide (x.cslot ≤ q.issue + 6144) else !q.posted

/-- The slot at which the previous command of the cluster posts (R164). -/
def Ctx.lastPost (x : Ctx) (cluster : Nat) : Nat :=
  (x.cmds.filter fun q => q.cluster == cluster && q.kind != 2).foldl (fun m q => max m q.post) 0

/-- The padded bound of a command of a routine, from its S0 and W: the table's for a built-in one, the image's for an installed one
(R163-R165). -/
def routineBound (M : Mach) (n granules : Nat) : Nat :=
  match (builtInBound n).or ((M.keepers.routines.find? fun r => r.num == n).map fun r => (r.s0, r.w)) with
  | none => 0
  | some (s0, w) => 16 * (s0 + w * granules)

/-- Elements of `w` bits, in ascending order, that fill whole 64 KiB pages, with the bit at which the next must stand, or a page's first. -/
def tilesPages (w : Nat) : Nat → List Nat → Bool
  | n, [] => n % (8 * 65536) == 0
  | n, b :: r => (b == n || (n % (8 * 65536) == 0 && b % (8 * 65536) == 0 && decide (n ≤ b))) && tilesPages w (b + w) r

/-- The walk writes whole 64 KiB pages, each byte of them once (R170). -/
def Walk.wholePages (w : Walk) : Bool := tilesPages w.width 0 (sortBy (fun (n : Nat) => n) ((w.spanElems 0 w.bytes).map (·.2)))

/-- xcopy, xded and xpref at issue. -/
def commandIssue (kind : Nat) (src dst : BitVec 6) (tc : BitVec 3) (routine : BitVec 6) (flags : BitVec 4) : Issue → Meaning :=
  fun i M x c => do
    let t := x.cslot
    let n := routine.toNat
    if !routineOk M kind n then .error (trouble 0x19)
    else match c.entry src, (if kind = 2 then some 0 else c.entry dst) with
      | some ps, some pd =>
        if !pForm ps || (kind != 2 && !pForm pd) then .error patternFault
        else
          let ws ← walkCheck x ps .warm dRead
          let wd ← if kind = 2 then Except.ok ws else walkCheck x pd .warm dWrite
          let sizeOk := kind == 2 || (match destBytes n ws with
            | none => true
            | some b => wd.bytes == b)
          let pagesOk := kind != 1 || wd.wholePages
          let nqOk := n != 2 || (dFmt ws.desc == some .nq4 && dFmt wd.desc == some .b16)
          let trOk := n != 1 || (ws.width == 8 || ws.width == 16 || ws.width == 32)
          let kvOk := kind != 0 || n < 8 || dFmt ws.desc == some .f32
          if !sizeOk || !pagesOk || !nqOk || !trOk || !kvOk then .error patternFault
          else if 16 ≤ (x.queued c.cluster).length then .error (trouble 10)
          else
            let start := if kind = 2 then t else max (t + 6144) (x.lastPost c.cluster)
            let g := cdiv ws.bytes 64
            let rel := if flags.getLsbD 2 then x.earlier c.idx (fun _ => true) true else []
            let acq := x.earlier c.idx (·.acquire) false
            let behind := x.cmds.any fun p => p.cluster == c.cluster && p.kind != 2 && !p.posted && (p.held || p.late)
            let q : Cmd :=
              { id := x.nextReq, core := c.idx, cluster := c.cluster, kind, src := ws, dst := wd, tc := tc.toNat, routine := n, flags
                bytes := ws.bytes, issue := t, start, post := if kind = 2 then t else start + routineBound M n g
                afterR := (acq ++ c.orderR).filter x.pendingId, afterW := (acq ++ rel ++ c.orderW).filter x.pendingId
                goneR := x.sysOrder c false x.nextReq, goneW := x.sysOrder c true x.nextReq, acks := c.orderK, scs := c.orderA
                started := false, read := 0, taken := 0, written := 0, data := 0, scales := 0, crc := [], dcrc := [], check := none
                done := false, err := false, held := false, late := behind, posted := false, faulted := none, pages := if kind = 1 then sortBy (fun (n : Nat) => n) ((wd.spanElems 0 wd.bytes).map fun e => e.2 / 8 / 65536).eraseDups else []
                second := false, seen := c.causal, word := i.word }
            .ok { x with cmds := x.cmds ++ [q], nextReq := x.nextReq + 1 }
      | _, _ => .error patternFault

/-- xcopy (R378). -/
def execXcopy (_g : BitVec 2) (src dst : BitVec 6) (tc : BitVec 3) (routine : BitVec 6) (flags : BitVec 3) (s : State) : Out :=
  s.issue (commandIssue 0 src dst tc routine (0#1 ++ flags))

/-- xded (R170, R171, R378). -/
def execXded (_g : BitVec 2) (src dst : BitVec 6) (tc : BitVec 3) (routine : BitVec 6) (flags : BitVec 3) (s : State) : Out :=
  s.issue (commandIssue 1 src dst tc routine (0#1 ++ flags))

/-- xpref (R379). -/
def execXpref (_g : BitVec 2) (src : BitVec 6) (tc : BitVec 3) (routine : BitVec 6) (down : Bool) (s : State) : Out :=
  s.issue (commandIssue 2 src 0 tc routine (0#3 ++ BitVec.ofBool down))

/-- xpost (R380): it joins what has not posted, and takes over the error bits of what has. -/
def execXpost (_g : BitVec 2) (tc : BitVec 3) (s : State) : Out :=
  s.issue fun _ _ x c =>
    let xings := x.xings.filter fun q => q.core == c.idx
    let cmds := x.cmds.filter fun q => q.core == c.idx && q.kind != 2
    .ok { x with joins := x.joins ++ [{ core := c.idx, tc := tc.toNat, issue := x.cslot
                                        xings := (xings.filter fun q => !q.posted).map (·.id), cmds := (cmds.filter fun q => !q.posted).map (·.id)
                                        err := xings.any (fun q => q.posted && q.err) || cmds.any fun q => q.posted && q.err }] }

end Sys2Proof.Machine
end

