-- ==== Sys2Proof/Machine/Rows.lean ====
section
/-! DEFINITION. The rows of instructions in flight: operand reads row by row, results, sends to outbound ports, and the cold reads
of crossings (R129, R155, R336-R360, R365-R371). -/

namespace Sys2Proof.Machine

/-! Reading sources (R129, R338, R365). -/

/-- One more filler row delivered, saturating (R129). -/
def fillUp (n : BitVec 32) : BitVec 32 := if n = BitVec.allOnes 32 then n else n + 1

/-- One pop of inbound port `p`: the next entry, or filler from an empty lenient port; an empty strict port slips with cause 1. -/
def Core.pop (c : Core) (p : Nat) : Except Trouble (Core × Option Row) :=
  let q := c.inp p
  match q.entries with
  | e :: r => .ok (c.setInp p { q.release 1 with entries := r, popped := q.popped + 1 }, some e.value)
  | [] =>
    if q.lenient then .ok (c.setInp p { q with fill := fillUp q.fill }, none)
    else .error { code := 1, detail := 0, port := p }

/-- Row `r` of each source field; fields that name one port share its one pop of the row. -/
def Core.fetch (c : Core) (r : Nat) : List (BitVec 4) → List (Nat × Option Row) → Except Trouble (Core × List (Option Row))
  | [], _ => .ok (c, [])
  | s :: rest, got => do
    if s.toNat < 8 then
      let (d, l) ← c.fetch r rest got
      .ok (d, some (c.tile s.toNat r) :: l)
    else
      let p := s.toNat - 8
      match got.find? fun g => g.1 == p with
      | some g =>
        let (d, l) ← c.fetch r rest got
        .ok (d, g.2 :: l)
      | none =>
        let (d, v) ← c.pop p
        let (e, l) ← d.fetch r rest ((p, v) :: got)
        .ok (e, v :: l)

/-! Results of vector rows. -/

/-- A row's value, its flags, and its bit mask where lanes are written in part. -/
structure RowOut where
  value : Nat
  flags : Flags
  fine : Option Nat

def RowOut.plain (v : Nat) : RowOut := { value := v, flags := 0, fine := none }

/-- Elements `i` of width `w`, each computed if its lane is enabled; a masked-out element raises nothing (R252, R339). -/
def elementwise (w : Nat) (m : BitVec 64) (f : Nat → Nat × Flags) : RowOut :=
  let l := (List.range (2048 / w)).map fun i => if m.getLsbD (i * w / 32) then f i else (0, 0)
  { value := pack w (l.map (·.1)), flags := l.foldl (fun a e => a ||| e.2) 0, fine := none }

/-- varith (R340, R341). -/
def arithRow (fn : VarithFn) (fmt : VFmt) (m : BitVec 64) (a b c : Nat) : RowOut :=
  let w := viewWidth fmt
  elementwise w m fun i => match viewShape fmt with
    | some s => floatArith fn s (elem w i a) (elem w i b) (elem w i c)
    | none => (intArith fn w (elem w i a) (elem w i b) (elem w i c), 0)

/-- One element of vlogic (R342). -/
def logicElem (fn : VlogicFn) (w a b : Nat) : Nat :=
  let s := b % w
  match fn with
  | .and => a &&& b
  | .or => a ||| b
  | .xor => a ^^^ b
  | .shl => a * 2 ^ s % 2 ^ w
  | .shr => a / 2 ^ s
  | .sra => ofInt w (toSigned w a / (2 ^ s : Nat))

def logicRow (fn : VlogicFn) (fmt : VFmt) (m : BitVec 64) (a b : Nat) : RowOut :=
  let w := viewWidth fmt
  elementwise w m fun i => (logicElem fn w (elem w i a) (elem w i b), 0)

/-- vcmp: a bit for each lane; in F64 both bits of an element (R343). -/
def cmpRow (fn : VcmpFn) (fmt : VFmt) (m : BitVec 64) (a b : Nat) : RowOut :=
  let w := viewWidth fmt
  let one (i : Nat) : Bool × Flags := match viewShape fmt with
    | some s => floatCmp fn s (elem w i a) (elem w i b)
    | none => (intCmp fn w (elem w i a) (elem w i b), 0)
  let lanes := (List.range 64).map fun c =>
    if m.getLsbD c then
      if w = 64 then [one (c / 2)] else (List.range (32 / w)).map fun j => one (32 / w * c + j)
    else []
  { value := pack 1 (lanes.map fun l => if l.all (·.1) then 1 else 0)
    flags := lanes.foldl (fun f l => l.foldl (fun f e => f ||| e.2) f) 0, fine := none }

/-- vsfu (R350). -/
def sfuRow (fn : SfuFn) (fmt : VFmt) (m : BitVec 64) (a : Nat) : RowOut :=
  let w := viewWidth fmt
  match viewShape fmt with
  | some s => elementwise w m fun i => sfu fn s (elem w i a)
  | none => .plain 0

/-- Elements of a row in a conversion (R284). -/
def rowCount (w : Nat) : Nat := if w = 64 then 32 else 2048 / w

/-- vcvt and vnarrow: the pairing of R347 and the conversion of R348. `ns` and `ws` are the source's count and width. -/
def convertRow (src dst : Fmt) (ns ws : Nat) (rnd : Rnd) (phase pos : Nat) (sat : Bool) (m : BitVec 64) (a : Nat) : RowOut :=
  let wd := dst.width
  let nd := rowCount wd
  let source (d : Nat) : Option Nat :=
    if nd ≤ ns then some (ns / nd * d + (if ns = nd then 0 else pos))
    else if d % (nd / ns) = pos then some (d / (nd / ns)) else none
  let l := (List.range nd).map fun d =>
    let lane := d * wd / 32
    match source d with
    | some i => if m.getLsbD lane then
        let (v, f) := convert src dst ⟨rnd, bitrev6 ((lane + phase) % 64)⟩ sat (elem ws i a)
        (v, f, 2 ^ wd - 1)
      else (0, 0, 0)
    | none => (0, 0, 0)
  { value := pack wd (l.map (·.1)), flags := l.foldl (fun f e => f ||| e.2.1) 0, fine := some (pack wd (l.map (·.2.2))) }

/-- Lanes rotated toward higher numbers by `n` (R351). -/
def rotLanes (n a : Nat) : Nat :=
  let k := 32 * (n % 64)
  a * 2 ^ k % 2 ^ 2048 + a / 2 ^ (2048 - k)

/-- One lane, or in F64 one element, in every place (R352). -/
def broadcast (w n a : Nat) : Nat := pack w (List.replicate (2048 / w) (elem w (n * 32 / w) a))

/-- One addition of vred (R255). -/
def addElem (fmt : VFmt) (a b : Nat) : Nat × Flags :=
  match viewShape fmt with
  | some s => addNum s rne (s.decode a) (s.decode b)
  | none => ((a + b) % 2 ^ viewWidth fmt, 0)

/-- What a masked-out element enters as: -0, or 0 in an integer view (R255). -/
def redZero (fmt : VFmt) : Nat := match viewShape fmt with
  | some s => s.signBit true
  | none => 0

/-- One level of the tree of R255. -/
def pairUp (fmt : VFmt) : List Nat → List Nat × Flags
  | a :: b :: r =>
    let (v, f) := addElem fmt a b
    let (l, g) := pairUp fmt r
    (v :: l, f ||| g)
  | l => (l, 0)

/-- `n` levels of the tree. -/
def treeSum (fmt : VFmt) : Nat → List Nat → Flags → Nat × Flags
  | 0, l, f => (l.headD 0, f)
  | n + 1, l, f =>
    let (l', g) := pairUp fmt l
    treeSum fmt n l' (f ||| g)

/-- vred with axis row: the sum, in lane 0 or element 0 (R353). -/
def redRow (fmt : VFmt) (m : BitVec 64) (a : Nat) : RowOut :=
  let w := viewWidth fmt
  let leaves := (List.range (2048 / w)).map fun i => if m.getLsbD (i * w / 32) then elem w i a else redZero fmt
  let (v, f) := treeSum fmt (if w = 64 then 5 else 6) leaves 0
  { value := v, flags := f, fine := none }

/-- vred with axis col: a sum for each column, rows in order (R255, R353). -/
def redCols (fmt : VFmt) (masks : List (BitVec 64)) (rows : List Nat) : RowOut :=
  let w := viewWidth fmt
  let l := (List.range (2048 / w)).map fun i =>
    if masks.any fun m => m.getLsbD (i * w / 32) then
      match (masks.zip rows).map fun q => if q.1.getLsbD (i * w / 32) then elem w i q.2 else redZero fmt with
      | [] => (0, 0)
      | a :: r => r.foldl (fun (s : Nat × Flags) e => let (v, f) := addElem fmt s.1 e; (v, s.2 ||| f)) (a, 0)
    else (0, 0)
  { value := pack w (l.map (·.1)), flags := l.foldl (fun f e => f ||| e.2) 0, fine := none }

/-! One row of a V instruction. -/

/-- A row result pending (R339). -/
def Core.landOut (c : Core) (o : Op) (dst : Dest) (at' : Nat) (mask : BitVec 64) (v : RowOut) : Core :=
  { c with pend := c.pend ++ [{ dst, land := at', issue := o.issue, stream := o.stream, mask, fine := v.fine.map (BitVec.ofNat 2048)
                                value := BitVec.ofNat 4096 v.value, flags := v.flags, acc := .set }] }

/-- Row `r` of a row-wise instruction (R338, R339): a row whose mask row is zero is neither read nor written, unless `always`; a row
that depends on filler is not written. -/
def rowWise (o : Op) (r : Nat) (c : Core) (srcs : List (BitVec 4)) (wide always : Bool) (dst : Nat → Dest) (lat : Nat)
    (f : BitVec 64 → List Nat → RowOut) : Except Trouble Core :=
  let raw := o.mask.getD r 0
  if raw = 0 && !always then .ok c
  else do
    let (c, l) ← c.fetch r srcs []
    if l.any Option.isNone then .ok c
    else
      let m := laneMask wide raw
      .ok (c.landOut o (dst r) (o.issue + (if wide then 10 else lat) + o.period * r) (if always then BitVec.allOnes 64 else m)
        (f m (l.map fun q => (q.getD 0).toNat)))

/-- All rows of a column-axis source, read at the issue slot; a port pops sixteen entries (R336, R338). -/
def Core.fetchAll (c : Core) (s : BitVec 4) : Nat → Except Trouble (Core × List (Option Row))
  | 0 => .ok (c, [])
  | n + 1 => do
    let (d, l) ← c.fetchAll s n
    let (e, v) ← d.fetch n [s] []
    .ok (e, l ++ v)

/-- vrot and vbc with axis col: row `r` takes source row `f r` (R351, R352). -/
def colMove (o : Op) (c : Core) (s : BitVec 4) (wide : Bool) (vd lat : Nat) (f : Nat → Nat) : Except Trouble Core := do
  let (c, rows) ← c.fetchAll s 16
  .ok ((List.range 16).foldl (fun c r =>
    let raw := o.mask.getD r 0
    match rows.getD (f r) none with
    | none => c
    | some v => if raw = 0 then c
      else c.landOut o (.v vd r) (o.issue + (if wide then 10 + 2 * r else lat + r)) (laneMask wide raw) (.plain v.toNat)) c)

/-- Element or lane 0 of a mask. -/
def lowLane (wide : Bool) : BitVec 64 := if wide then 3 else 1

/-- The row of a tile access (R354). -/
def tileRow (o : Op) (r : Nat) : TRow :=
  (tileRows o.desc o.coord (fun i => o.index.getD i 0) o.mask).getD r { row := r, addr := 0, bytes := 0 }

/-- vld and vgath: row `r` is read at its read point and lands later (R217, R355, R357). -/
def loadRow (x : Ctx) (c : Core) (o : Op) (r v lat : Nat) (pool : Bool) : Core :=
  let t := tileRow o r
  if t.bytes = 0 then c
  else c.landOut o (.v v r) (o.issue + lat + r) (laneMask (dWidth o.desc == 64) (o.mask.getD r 0))
    (.plain (readTRow (x.space c pool) (dPerm o.desc) t))

/-- vst: row `r` of the tile is read at t + r and written at t + 4 + r (R356). -/
def storeRow (c : Core) (o : Op) (r v : Nat) (pool : Bool) : Core :=
  let t := tileRow o r
  let value := (c.tile v r).toNat
  t.lines.foldl (fun c q =>
    let line := q.1 ^^^ dPerm o.desc
    c.landOut o (if pool then .pool line else .cold line) (o.issue + 4 + r) (BitVec.ofNat 64 q.2) (.plain (t.part q.1 value))) c

/-- Row `r` of the V instruction `o`. -/
def vRow (x : Ctx) (c : Core) (o : Op) (r : Nat) : Except Trouble Core :=
  let m := o.mask.getD r 0
  match o.instr with
  | .varith _ vd sa sb sc _ fmt fn =>
    let srcs := match fn with
      | .abs | .neg => [sa]
      | .fma | .fms => [sa, sb, sc]
      | _ => [sa, sb]
    rowWise o r c srcs (isF64 fmt) false (.v vd.toNat) (if fn == .fma || fn == .fms then 8 else 6) fun m l =>
      arithRow fn fmt m (l.getD 0 0) (l.getD 1 0) (l.getD 2 0)
  | .vlogic _ vd sa sb _ fmt fn =>
    rowWise o r c [sa, sb] (isF64 fmt) false (.v vd.toNat) 6 fun m l => logicRow fn fmt m (l.getD 0 0) (l.getD 1 0)
  | .vcmp _ kd sa sb _ fmt fn =>
    rowWise o r c [sa, sb] (isF64 fmt) false (.k kd.toNat) 6 fun m l => cmpRow fn fmt m (l.getD 0 0) (l.getD 1 0)
  | .vsel _ vd sa sb _ fmt =>
    rowWise o r c [sa, sb] (isF64 fmt) true (.v vd.toNat) 6 fun m l => .plain (mergeUnits 32 m (l.getD 1 0) (l.getD 0 0))
  | .vcvt _ vd sa src dst rnd sat _ pos =>
    rowWise o r c [sa] (dst == .f64) false (.v vd.toNat) 6 fun m l =>
      convertRow src dst (rowCount src.width) src.width rnd o.phase pos.toNat sat m (l.getD 0 0)
  | .vnarrow _ vd a int dst rnd sat _ pos =>
    rowWise o r c [] (dst == .f64) false (.v vd.toNat) 8 fun m _ =>
      convertRow (if int then .int64 else .f64) dst 64 64 rnd o.phase pos.toNat sat m (c.acc a.toNat r).toNat
  | .vsfu _ vd sa _ fmt fn => rowWise o r c [sa] false false (.v vd.toNat) 12 fun m l => sfuRow fn fmt m (l.getD 0 0)
  | .vrot _ vd sa .row amount _ fmt =>
    rowWise o r c [sa] (isF64 fmt) false (.v vd.toNat) 8 fun _ l => .plain (rotLanes amount.toNat (l.getD 0 0))
  | .vrot _ vd sa .col amount _ fmt => colMove o c sa (isF64 fmt) vd.toNat 20 fun r => (r + 16 - amount.toNat % 16) % 16
  | .vbc _ vd sa .row amount _ fmt =>
    rowWise o r c [sa] (isF64 fmt) false (.v vd.toNat) 6 fun _ l =>
      .plain (broadcast (if isF64 fmt then 64 else 32) amount.toNat (l.getD 0 0))
  | .vbc _ vd sa .col amount _ fmt => colMove o c sa (isF64 fmt) vd.toNat 6 fun _ => amount.toNat
  | .vred _ vd sa .row _ fmt =>
    if m = 0 then .ok c
    else do
      let (c, l) ← c.fetch r [sa] []
      match l with
      | [some v] => .ok (c.landOut o (.v vd.toNat r) (o.issue + (if isF64 fmt then 10 else 12) + o.period * r) (lowLane (isF64 fmt))
          (redRow fmt (laneMask (isF64 fmt) m) v.toNat))
      | _ => .ok c
  | .vred _ vd sa .col _ fmt => do
    let (c, rows) ← c.fetchAll sa 16
    let masks := o.mask.map (laneMask (isF64 fmt))
    if rows.any Option.isNone || masks.all (· == 0) then .ok c
    else
      .ok (c.landOut o (.v vd.toNat 0) (o.issue + (if isF64 fmt then 10 else 24)) (masks.foldl (· ||| ·) 0)
        (redCols fmt masks (rows.map fun q => (q.getD 0).toNat)))
  | .vsplat _ vd _ _ dbl =>
    let v := o.index.headD 0
    if m = 0 then .ok c
    else .ok (c.landOut o (.v vd.toNat r) (o.issue + 6 + r) (laneMask dbl m) (.plain (broadcast (if dbl then 64 else 32) 0 v)))
  | .vpop _ v port _ =>
    if m = 0 then .ok c
    else do
      let (c, e) ← c.pop port.toNat
      match e with
      | none => .ok c
      | some w => .ok (c.landOut o (.v v.toNat r) (o.issue + 2 + r) m (.plain w.toNat))
  | .vput _ v port _ =>
    if m = 0 then .ok c
    else .ok (c.landOut o (.send port.toNat (o.index.headD 0)) (o.issue + 2 + r) m (.plain (c.tile v.toNat r).toNat))
  | .vld _ v _ _ _ _ sp => .ok (loadRow x c o r v.toNat (if sp == .pool then 14 else 10) (sp == .pool))
  | .vgath _ v _ _ _ _ sp => .ok (loadRow x c o r v.toNat 12 (sp == .pool))
  | .vst _ v _ _ _ _ sp => .ok (storeRow c o r v.toNat (sp == .pool))
  | _ => .ok c

/-! One row of an M instruction. -/

/-- A row of an operand by handle, as the packed bits of its elements (R365). -/
def handleRow (x : Ctx) (c : Core) (o : Op) (r n len : Nat) : Nat :=
  match (matRows o.desc o.coord n len)[r]? with
  | none => 0
  | some t => readTRow (x.space c (dSpace o.desc == 1)) (dPerm o.desc) t

/-- The source row of an ldsw or mma: `n` rows of `len` elements of width `w`; more than 64 elements take two entries of a port,
and an entry taken with a filler is used up (R365). -/
def matFetch (x : Ctx) (c : Core) (o : Op) (src : BitVec 4) (r n len w : Nat) : Except Trouble (Core × Option Nat) :=
  match matPort src with
  | none => .ok (c, some (handleRow x c o r n len))
  | some p => do
    let (c, a) ← c.pop p
    if len ≤ 64 then .ok (c, a.map (·.toNat))
    else
      let (c, b) ← c.pop p
      .ok (c, match a, b with
        | some a, some b => some (a.toNat % 2 ^ (64 * w) + 2 ^ (64 * w) * (b.toNat % 2 ^ (64 * w)))
        | _, _ => none)

/-- ldsw: shadow row, or with NQ4 shadow column, `r` is read and written in the same slot (R367). -/
def ldswRow (x : Ctx) (c : Core) (o : Op) (src : BitVec 4) (r : Nat) : Except Trouble Core := do
  let w := c.mat.fw.width
  let nq := c.mat.fw == .nq4
  let len := if nq then 64 else c.mat.n
  let (c, v) ← matFetch x c o src r o.rows len w
  match v with
  | none => .ok c
  | some v => .ok (c.onMat fun q =>
      if nq then { q with shadow := setColumn q.shadow r v }
      else { q with shadow := SMap.set 0 q.shadow r (BitVec.ofNat 2048 (v % 2 ^ (w * len))) })

/-- Weight column `n` of the active plane: K elements. -/
def Matrix.column (q : Matrix) (n : Nat) : List Nat :=
  (List.range q.k).map fun k => elem q.fw.width n (SMap.get 0 q.active k).toNat

/-- The scale binding of column `n`: code and super-scale (R372). -/
def Matrix.scaleOf (q : Matrix) (n : Nat) : Nat × Nat :=
  let v := (SMap.get 0 q.scale n).toNat
  (v % 256, v / 256)

/-- mma: row `j` is read and its products are summed; the result lands 80 slots after the row's last array slot (R369, R254). -/
def mmaRow (x : Ctx) (c : Core) (o : Op) (src : BitVec 4) (ad : BitVec 2) (acc : Bool) (j : Nat) : Except Trouble Core := do
  let q := c.mat
  let (c, v) ← matFetch x c o src j o.rows q.k q.fa.width
  match v with
  | none => .ok c
  | some v =>
    let a := (List.range q.k).map fun k => elem q.fa.width k v
    let wide := q.fa == .f32 || q.fw == .f32
    let scales := if q.fw == .nq4 then some ((List.range 64).map q.scaleOf) else none
    let sums := (List.range q.n).map fun n =>
      if intClass q.fa then ofInt 64 (intSlice q.fa q.fw a (q.column n)) else (floatSlice q.fa q.fw a (q.column n)).1
    let mode : AccMode := if intClass q.fa then .int else .float wide scales
    let value := if acc then sums else (List.range q.n).map fun n => accColumn mode 0 (sums.getD n 0) n
    .ok { c with pend := c.pend ++ [{ dst := .a (ad.toNat + j / 16) (j % 16), land := o.issue + o.period * j + 80 + o.period - 1
                                      issue := o.issue, stream := .m, mask := BitVec.ofNat 64 (2 ^ q.n - 1), fine := none
                                      value := BitVec.ofNat 4096 (pack 64 value), flags := 0, acc := if acc then mode else .set }] }

/-- mread: accumulator row `first + j` is read, its first ROWLEN columns are converted from the class that the engine had at
issue, and it leaves at t + 6 + j (R371). -/
def mreadRow (c : Core) (o : Op) (a port : BitVec 2) (dst : Fmt) (rnd : Rnd) (sat : Bool) (first j : Nat) : Core :=
  let q := c.outp port.toNat
  match q.walk with
  | none => c
  | some w =>
    if q.gen ≠ o.index.headD 0 then c
    else
      let v := (c.acc a.toNat (first + j)).toNat
      let l := (List.range (pRow w.pat)).map fun n =>
        convert (if o.index.getD 1 0 = 1 then .int64 else .f64) dst ⟨rnd, bitrev6 ((n + o.phase) % 64)⟩ sat (elem 64 n v)
      c.landOut o (.send port.toNat q.gen) (o.issue + 6 + j) (BitVec.allOnes 64)
        { value := pack dst.width (l.map (·.1)), flags := l.foldl (fun f e => f ||| e.2) 0, fine := none }

/-- Row `r` of the M instruction `o`. -/
def mRow (x : Ctx) (c : Core) (o : Op) (r : Nat) : Except Trouble Core :=
  match o.instr with
  | .ldsw _ src _ _ => ldswRow x c o src r
  | .mma _ src ad acc _ _ _ _ => mmaRow x c o src ad acc r
  | .mread _ a port dst rnd sat first _ => .ok (mreadRow c o a port dst rnd sat first.toNat r)
  | _ => .ok c

/-! The rows of one core in one slot. -/

/-- In one slot V pops before ldsw, and ldsw before mma (R365). -/
def Op.order (o : Op) : Nat := match o.instr with
  | .ldsw .. => 1
  | .mma .. => 2
  | .mread .. => 3
  | _ => 0

/-- The row that an operation reaches at slot `t`, if one is due. -/
def Op.due (o : Op) (t : Nat) : Bool := decide (o.next < o.rows) && o.issue + o.period * o.next == t

/-- A cause found at a row (R127, R175). -/
def rowCause (c : Core) (word : W32) (st : Nat) (t : Trouble) : Cause :=
  { core := c.idx, lid := c.id, code := t.code, stream := st, word, port := t.port, detail := t.detail }

/-- The word of an instruction in flight. -/
def Op.word (o : Op) : W32 := (encode o.instr).getD 0

/-- The rows due of the operations of one kind. -/
def Ctx.runOps (x : Ctx) (j kind : Nat) : Ctx × List Cause :=
  match x.core? j with
  | none => (x, [])
  | some c0 =>
    let ids := (c0.ops.filter fun o => o.order == kind && o.due x.cslot).map fun o => (o.issue, o.stream)
    ids.foldl (fun (r : Ctx × List Cause) id =>
      match r.1.core? j with
      | none => r
      | some c => match c.ops.find? fun o => (o.issue, o.stream) == id with
        | none => r
        | some o => match if kind = 0 then vRow r.1 c o o.next else mRow r.1 c o o.next with
          | .error t => (r.1, r.2 ++ [rowCause c o.word (rank o.stream) t])
          | .ok d => (r.1.setCore { d with ops := d.ops.map fun q =>
              if (q.issue, q.stream) == id then { q with next := q.next + 1 } else q }, r.2)) (x, [])

/-- A row leaves for its outbound port (R148, R155, R359, R371): it joins the queue, and its crossing slot is fixed. -/
def Ctx.sendRow (x : Ctx) (j : Nat) (p : Pend) (o gen : Nat) : Ctx × List Cause :=
  match x.core? j with
  | none => (x, [])
  | some c0 =>
    let c := c0.raiseFlags p.flags
    let q := c.outp o
    let word := ((c.ops.find? fun q => q.issue == p.issue && q.stream == p.stream).map Op.word).getD 0
    match q.walk with
    | none => (x.setCore c, [])
    | some w =>
      if q.gen ≠ gen then (x.setCore c, [])
      else if q.cap < q.queued + 1 then (x, [rowCause c word (rank p.stream) { code := 3, detail := 0, port := 8 + o }])
      else
        let y := if q.sent = 0 then x.cslot else max x.cslot (q.lastY + w.interval)
        let c := c.setOutp o { q with sent := q.sent + 1, lastY := y, queued := q.queued + 1 }
        let r := x.bare c
          { queue := 8 + o, act := .write, use := .sent o gen q.sent (if q.sent + 1 = w.rows then some q.tc else none), sys := dSpace w.desc == 3
            elems := w.rowElems q.sent, width := w.width, value := p.value.toNat % 2 ^ (8 * w.rowBytes), expect := 0
            mask := spread 32 p.mask % 2 ^ (8 * w.rowBytes), home := y + 3072 + w.interval, dist := 0, release := false, acquire := false, word
            check := if pCheck w.pat && q.sent + 1 == w.rows then some (8 * checkWordAt w.desc) else none } y
        let done := q.sent + 1 == w.rows
        let x := { (x.setCore c) with reqs := x.reqs ++ [{ r with opIssue := p.issue }], nextReq := x.nextReq + 1 }
        (if done then x.freeLanes j (8 + o) (y + w.interval - 1) else x, [])

/-- Every row of core `j` that leaves at the present slot. -/
def Ctx.sendDue (x : Ctx) (j : Nat) : Ctx × List Cause :=
  match x.core? j with
  | none => (x, [])
  | some c =>
    let due := (c.pend.filter fun p => p.sends && decide (p.land ≤ x.cslot)).foldr insertPend []
    let x := x.setCore { c with pend := c.pend.filter fun p => !(p.sends && decide (p.land ≤ x.cslot)) }
    due.foldl (fun (r : Ctx × List Cause) p => match p.dst with
      | .send o gen => let (y, l) := r.1.sendRow j p o gen; (y, r.2 ++ l)
      | _ => r) (x, [])

/-- The pages of a row's granules (R158). -/
def rowPages (M : Mach) (x : Ctx) (r : Req) : List Nat :=
  (List.range (granules (cdiv (r.elems.length * r.width) 8))).filterMap fun g =>
    (r.elems.find? fun e => decide (512 * g ≤ e.1)).bind fun e => pageOf M x r.sys (e.2 / 8)

/-- A sent row issues its crossing at y_k (R155, R156, R133): it takes its place among the core's accesses, and is charged. -/
def Ctx.crossRow (x : Ctx) (M : Mach) (j id : Nat) : Ctx × List Cause :=
  match x.core? j, x.reqs.find? fun r => r.id == id with
  | some c, some r =>
    let n := granules (cdiv (r.elems.length * r.width) 8)
    let pages := rowPages M x r
    if 2048 < x.outstanding j || !x.ticksOk M pages then (x, [rowCause c 0 4 { code := 10, detail := 0, port := r.queue }])
    else
      let r' := x.ordered c r
      let y := (x.setCore (c.remember x r)).addTicks M pages
      let z : Ctx := { y with reqs := y.reqs.map fun q => if q.id == id then r' else q }
      (z.chargeGranules M n, [])
  | _, _ => (x, [])

def Ctx.crossDue (x : Ctx) (M : Mach) (j : Nat) : Ctx × List Cause :=
  let ids := (x.reqs.filter fun r => r.core == j && r.issue == x.cslot && match r.use with
    | .sent .. => true
    | _ => false).map (·.id)
  ids.foldl (fun (r : Ctx × List Cause) id => let (y, l) := r.1.crossRow M j id; (y, r.2 ++ l)) (x, [])

/-- The cold side of one granule is read: xout granule g at +g, xcmv granule g at +2g (R159, R160, R217). -/
def Ctx.readGranule (x : Ctx) (q : Xing) : Ctx :=
  match x.core? q.core with
  | none => x
  | some c =>
    let g := q.next
    let lo := 64 * g
    let hi := min (64 * g + 64) q.bytes
    let data : SMap Byte := if q.kind = 1 then
        (List.range (hi - lo)).foldl (fun d i => SMap.set 0 d (lo + i) ((x.space c q.pool).byte (q.off + lo + i))) q.data
      else (q.walk.coldBytes lo hi).foldl (fun d e =>
        SMap.set 0 d (lo + e.1) ((x.space c (dSpace q.walk.desc == 1)).byte e.2)) q.data
    let x := { x with xings := x.xings.map fun y => if y.id == q.id then { q with next := g + 1, data } else y }
    if q.kind = 1 then
      let v := (List.range (hi - lo)).foldl (fun v i => v + (SMap.get 0 data (lo + i)).toNat * 256 ^ i) 0
      { x with reqs := x.reqs.map fun r => if r.use == .granule q.id g then { r with value := BitVec.ofNat 4096 v } else r }
    else x

def Xing.readDue (q : Xing) (t : Nat) : Bool :=
  decide (q.kind ≠ 0) && decide (64 * q.next < q.bytes) && q.issue + (if q.kind = 1 then 1 else 2) * q.next == t

def Ctx.readDue (x : Ctx) (j : Nat) : Ctx :=
  (x.xings.filter fun q => q.core == j && q.readDue x.cslot).foldl Ctx.readGranule x

/-- Charges of a core in the present slot: a matrix row-slot, a vector row-slot, or an idle core-slot (R133). -/
def coreCharge (M : Mach) (x : Ctx) (c : Core) : Nat :=
  let t := x.cslot
  let mat := !c.idle && c.ops.any fun o => o.order == 2 && decide (t < o.issue + o.period * o.rows)
  let vec := !c.idle && decide (t < c.units.vector)
  (if mat then M.cold.wm.toNat else 0) + (if vec then M.cold.wv.toNat else 0) + (if mat || vec then 0 else M.cold.wi.toNat)

/-- Slots in which the rows of an operation are read, or, of a column-axis instruction, which reads all at its issue, come out (R336). -/
def Op.span (o : Op) : Nat := match o.instr with
  | .vrot _ _ _ .col _ _ _ | .vbc _ _ _ .col _ _ _ | .vred _ _ _ .col _ _ => 16 * o.period
  | _ => o.rows * o.period

/-- Operations that have ended, planned accesses and ranges that have passed are dropped. -/
def Core.tidy (c : Core) (t : Nat) : Core :=
  { c with ops := c.ops.filter fun o => decide (t < o.issue + o.span + 8)
           banks := c.banks.filter fun b => decide (t < b.slot)
           ranges := c.ranges.filter fun r => decide (t < r.upto) }

/-- All that core `j` does with its rows in the present slot. -/
def Ctx.coreRows (x : Ctx) (M : Mach) (j : Nat) : Ctx × List Cause :=
  let (x, a) := x.sendDue j
  let (x, b) := x.crossDue M j
  let (x, v) := x.runOps j 0
  let (x, l) := x.runOps j 1
  let (x, m) := x.runOps j 2
  let (x, r) := x.runOps j 3
  let x := x.readDue j
  match x.core? j with
  | none => (x, [])
  | some c => ({ x with charge := x.charge + coreCharge M x c }, a ++ b ++ v ++ l ++ m ++ r)

/-- The rows of every core of the context in slot `k`. -/
def State.rows (s : State) (k : Nat) : State :=
  match s.now.ctx? k with
  | none => s
  | some x =>
    let (y, l) := (List.range x.cores.length).foldl (fun (r : Ctx × List Cause) j =>
      let (y, l) := r.1.coreRows s.now j
      (y, r.2 ++ l)) (x, [])
    { s with now := s.now.setCtx y, causes := s.causes ++ l }

end Sys2Proof.Machine
end

