-- ==== Sys2Proof/Machine/Home.lean ====
section
/-! DEFINITION. Warm accesses at their homes and their landings (R82-R89, R153-R161, R191-R194, R205-R208, R219-R231, R404, R405). -/

namespace Sys2Proof.Machine

/-! Where an access reaches. -/

/-- A fault of an access: virtual address, kind, level, entry. -/
structure Miss where
  addr : Nat
  kind : Nat
  level : Nat
  entry : BitVec 64
  deriving DecidableEq, Repr

/-- Each element of a module-scope access is translated by its source, in order, up to the first that fails (R82, R84). -/
def resolve (olds : List (BitVec 8 × Pte)) (asid : BitVec 8) (source : Nat) (write : Bool) (W : Warm) (elems : List (Nat × Nat)) :
    Warm × (List (Nat × Nat) ⊕ Miss) :=
  match W.translateAll olds source asid write elems [] with
  | (W, .inl l) => (W, .inl l)
  | (W, .inr (addr, kind, level, entry)) => (W, .inr { addr, kind, level, entry })

/-- The first element of a sys: access whose address names no module of the launch (R27, R82). -/
def Ctx.sysMiss (x : Ctx) (elems : List (Nat × Nat)) : Option Miss :=
  (elems.find? fun e => !x.sysOk (e.2 / 8)).map fun e => { addr := e.2 / 8, kind := 12, level := 0, entry := 0 }

/-- The byte addresses of an element. -/
def elemBytes (w b : Nat) : List Nat := (List.range (cdiv (b % 8 + w) 8)).map (b / 8 + ·)

/-- The bytes of an element that a mask writes. -/
def maskedBytes (w mask : Nat) (pos b : Nat) : List Nat :=
  if w < 8 then if mask / 2 ^ pos % 2 ^ w = 0 then [] else [b / 8]
  else ((List.range (w / 8)).filter fun i => mask / 2 ^ (pos + 8 * i) % 256 != 0).map (b / 8 + ·)

/-- Bytes by address, added to a map of bytes. -/
def addBytes (m : SMap Byte) (l : List (Nat × Byte)) : SMap Byte := l.foldl (fun m c => SMap.put m c.1 c.2) m

/-- The bytes in memory of elements: virtual bit address with physical bit address. -/
def storedBytes (m : Memory) (w : Nat) (l : List (Nat × Nat)) : List (Nat × Byte) :=
  l.flatMap fun e => (elemBytes w e.1).zip ((elemBytes w e.2).map m.byte)

/-- What elements send, byte by byte: sys: address, value, and the bits written. -/
def sentCells (w value mask : Nat) (l : List (Nat × Nat)) : List (Nat × Byte × Byte) :=
  l.flatMap fun e =>
    let v := value / 2 ^ e.1 % 2 ^ w * 2 ^ (e.2 % 8)
    let k := mask / 2 ^ e.1 % 2 ^ w * 2 ^ (e.2 % 8)
    ((List.range (cdiv (e.2 % 8 + w) 8)).map fun i => (e.2 / 8 + i, BitVec.ofNat 8 (v / 256 ^ i), BitVec.ofNat 8 (k / 256 ^ i))).filter fun c =>
      c.2.2 != 0

/-- The bytes of cells, those of one address joined. -/
def cellBytes (l : List (Nat × Byte × Byte)) : List (Nat × Byte) :=
  l.foldl (fun acc c => match acc.getLast? with
    | some d => if d.1 = c.1 then acc.dropLast ++ [(d.1, (d.2 &&& ~~~c.2.2) ||| (c.2.1 &&& c.2.2))] else acc ++ [(c.1, c.2.1 &&& c.2.2)]
    | none => [(c.1, c.2.1 &&& c.2.2)]) []

/-! Undo logging and watching of warm writes. -/

/-- The first write of the window to a warm line takes an OLD entry (R191). -/
def Ctx.logWarm (x : Ctx) (W : Warm) (line source core : Nat) (foreign atomic : Bool) : Ctx :=
  if x.warmSeen.contains line then x
  else
    let old := match W.phys x.asid (64 * line) with
      | some p => W.mem.read p 64
      | none => 0
    let y := x.append [{ kind := 1, space := 2, foreign, atomic, spilled := false, source, core, cslot := x.cslot, addr := 64 * line
                         win := x.win.num, payload := BitVec.ofNat 512 old }]
    { y with warmSeen := line :: y.warmSeen }

/-- A carried write at a home takes a CARRIED entry with the new line (R193). -/
def Ctx.logCarried (x : Ctx) (W : Warm) (line source core issue : Nat) : Ctx :=
  let new := match W.phys x.asid (64 * line) with
    | some p => W.mem.read p 64
    | none => 0
  x.append [{ kind := 2, space := 2, foreign := false, atomic := false, spilled := false, source, core, cslot := x.cslot
              addr := 64 * line, win := x.win.num, payload := BitVec.ofNat 512 new, issue := some issue }]

/-- An engine write, foreign write or atomic is matched at its home on the physical address; the freeze comes within 8,192 running
slots, or, if the context is frozen, at its thaw (R207, R208, R400). `kind` is 2 for a write and 3 for an atomic. -/
def Ctx.watchHome (x : Ctx) (W : Warm) (kind core src : Nat) (word : W32) (phys : List Nat) : Ctx :=
  if x.reversing then x
  else
    let upto : Nat := match x.run with
      | .frozen .. => 0
      | _ => x.cslot + 8192
    let hit (w : Watch) : Option Nat :=
      if w.on x.cslot && w.space == 2 && w.ctl.getLsbD kind then
        match W.phys x.asid w.base with
        | none => none
        | some p => w.match (phys.filterMap fun a => if p ≤ a then some (a - p + w.base) else none)
      else none
    match x.watch.filterMap hit with
    | [] => x
    | a :: r =>
      { x with
        watch := x.watch.map fun w => if (hit w).isSome then w.record false kind src x.cslot else w
        stops := x.stops ++ [{ slot := upto
                               cause := { core, lid := ((x.core? core).map (·.id)).getD 0, code := 0x23, stream := 4, word, port := 0
                                          detail := BitVec.ofNat 64 (r.foldl min a) } }] }

/-- An access's writer, for its log entries and its watch report. -/
structure Writer where
  source : Nat
  core : Nat
  word : W32
  issue : Nat
  /-- Number in causal sets, and predecessors (R228). -/
  num : Nat
  deps : List Nat
  /-- 2 a write matched at its home, 3 an atomic, 0 a core store, which was matched at its issue. -/
  kind : Nat
  /-- Foreign, or from another module's replica (R192, R195). -/
  foreign : Bool
  /-- The start slot of the command, for a copy-engine write (R202). -/
  start : Option Nat := none
  deriving DecidableEq, Repr

/-- A numbered write is noted at each of its bytes (R228). -/
def Warm.note (W : Warm) (w : Writer) (phys : List Nat) : Warm :=
  { W with writers := phys.foldl (fun m a => SMap.set 0 m a w.num) W.writers, deps := W.deps ++ [(w.num, w.deps)] }

/-- The first entry that replay has still to feed and that a test picks (R200). -/
def Ctx.fedEntry (x : Ctx) (p : Undo → Bool) : Option Undo := x.replay.bind fun r => r.feed.find? p

/-- An entry has been fed. -/
def Ctx.eat (x : Ctx) (e : Undo) : Ctx := { x with replay := x.replay.map fun r => { r with feed := r.feed.erase e } }

/-- A carried write that replay has made itself: the log gives its line no second time (R193, R200). -/
def Ctx.eatCarried (x : Ctx) (source core issue line : Nat) : Ctx :=
  ((x.fedEntry fun e => e.kind == 2 && e.space == 2 && e.source == source && e.core == core && e.issue == some issue && e.addr == 64 * line).map
    x.eat).getD x

/-- An entry that comes at its slot, before or after the issues of it (R200). -/
def Ctx.nowDue (x : Ctx) (e : Undo) : Bool := decide (e.cslot < x.cslot) || (e.cslot == x.cslot && (!e.late || x.done))

/-- A write of translated elements (position, virtual bit, physical bit) where the mask has ones (R191, R193, R205, R219). -/
def Mach.writeHere (M : Mach) (k : Nat) (u : Writer) (w value mask : Nat) (l : List (Nat × Nat × Nat)) : Mach :=
  match M.ctx? k with
  | none => M
  | some x =>
    let lines := (l.flatMap fun q => (maskedBytes w mask q.1 q.2.1).map fun a => a / 64).eraseDups
    let x := lines.foldl (fun x n => x.logWarm M.warm n u.source u.core u.foreign (u.kind == 3)) x
    let mem := l.foldl (fun m q => writeBits m q.2.2 w (value / 2 ^ q.1) (mask / 2 ^ q.1)) M.warm.mem
    let phys := l.flatMap fun q => maskedBytes w mask q.1 q.2.2
    let W := { M.warm with mem }
    let W := if x.shared then W.note u phys else W
    let x := if x.carried u.issue then lines.foldl (fun x n => x.logCarried W n u.source u.core u.issue) x else x
    let x := lines.foldl (fun x n => x.eatCarried u.source u.core u.issue n) x
    let x := x.sawWrite (u.start.getD x.cslot) fun q => q.2.1 == 2 && l.any fun e => (maskedBytes w mask e.1 e.2.1).any fun a => a == q.1
    let x := if u.kind = 0 then x else x.watchHome W u.kind u.core u.source u.word phys
    let L := { M.links with applied := if x.shared then M.links.applied ++ [u.num] else M.links.applied }
    { M with warm := W, links := L }.setCtx x

/-! Faults of a source (R82-R89). -/

/-- A fault record goes to its ASID's ring (R86), and to the context's dump while it is open (R186). -/
def Mach.raiseFault (M : Mach) (f : FaultRec) : Mach :=
  let one (d : Dump) : Dump := if d.isOpen && d.asid == f.asid then d.note 0x5A04 64 f.bytes.toNat else d
  let page (p : Pte) : SMap Byte :=
    (SMap.slice M.warm.mem (pteAddr p.word) (pteAddr p.word + leafSize p.level)).map fun c => (c.1 - pteAddr p.word, c.2)
  let snap := if f.kind = 3 then ((M.warm.leaf f.asid (f.addr % 2 ^ 48)).map page).getD [] else []
  { M with warm := M.warm.onRing (ringOf f.asid) (fun r => r.raise { f with snap }), keepers := { M.keepers with dumps := M.keepers.dumps.map one } }

/-- The slot of a stop found now: the next, or, in a stopped context, the slot at which it stands (R172, R173). -/
def Ctx.nextStop (x : Ctx) : Nat := match x.run with
  | .running => x.cslot + 1
  | _ => 0

/-- A hard fault freezes the context (R82, R172, R175); `word` is that of the instruction whose access it is, or 0. -/
def Ctx.hardStop (x : Ctx) (core kind port : Nat) (addr : Nat) (word : W32) : Ctx :=
  { x with stops := x.stops ++ [{ slot := x.nextStop
                                  cause := { core, lid := ((x.core? core).map (·.id)).getD 0, code := if kind = 11 then 0x1F else 0x1E
                                             stream := 4, word, port, detail := BitVec.ofNat 64 addr } }] }

/-- The SRC code of a queue (R85). -/
def srcOf (queue : Nat) : Nat := if queue < 8 then 0 else if queue < 12 then 2 else if queue = 12 then 1 else 6

/-- The position field of a request's record (R85). -/
def Req.position (c : Core) (r : Req) : Nat := match r.use with
  | .row i _ k => ((c.inp i).walk.map fun w => w.position k).getD 0
  | .sent o _ k _ => ((c.outp o).walk.map fun w => w.position k).getD 0
  | .granule _ g => g
  | _ => 0

/-- A source halts at its faulting access, and reports it (R84). -/
def Mach.haltReq (M : Mach) (k : Nat) (r : Req) (m : Miss) : Mach :=
  match M.ctx? k with
  | none => M
  | some x => match x.core? r.core with
    | none => M
    | some c =>
      let port := if r.queue < 12 then r.queue else 0
      let x := { x with reqs := x.reqs.map fun q => if q.id == r.id then { q with held := true } else q }
      let x := if lightKind m.kind then x else x.hardStop r.core m.kind port m.addr r.word
      (M.setCtx x).raiseFault
        { source := 16 * c.id + r.queue, kind := m.kind, src := srcOf r.queue, asid := x.asid, write := r.act.isWrite, fetch := false
          raised := false, unit := c.id, port, level := m.level, addr := m.addr, cslot := x.cslot, mslot := M.mslot
          position := r.position c, entry := m.entry, ctx := k, req := r.id }

/-! Invalidation (R90, R91). -/

/-- A TLB entry lies in the range of a marker's word (R90). -/
def inRange (w : BitVec 64) (e : Tlb) : Bool :=
  let va := bits w.toNat 63 32 * 2 ^ 16
  let size := leafSize (3 - bits w.toNat 21 20)
  match bits w.toNat 23 22 with
  | 0 => e.asid == w.extractLsb' 24 8 && decide (e.va < va / size * size + size) && decide (va / size * size < e.va + leafSize e.level)
  | 1 => e.asid == w.extractLsb' 24 8
  | _ => true

/-- The number of the row at which an inbound port has halted: binding, row, core and port. -/
def haltedRow (gen k j i : Nat) : Nat := ((gen * 2 ^ 32 + k) * 64 + j) * 8 + i

/-- A row at which a port had halted has not crossed yet, or has not landed. -/
def Ctx.rowStays (x : Ctx) (n : Nat) : Bool :=
  let (j, i, k, gen) := (n / 8 % 64, n % 8, n / 512 % 2 ^ 32, n / 2 ^ 41)
  (x.core? j).any fun c => (c.inp i).walk.isSome && (c.inp i).gen == gen && decide ((c.inp i).next ≤ k)

def Ctx.rowLeft (x : Ctx) (n : Nat) : Bool :=
  x.rowStays n || x.reqs.any fun r => r.core == n / 8 % 64 && r.use == .row (n % 8) (n / 2 ^ 41) (n / 512 % 2 ^ 32)

/-- An access ahead of a marker has still to be translated; a row of a port is translated when it crosses: an access of context k, of 16 + k a
command, of 32 + k the row of a halted port, of 48 a remote operation. -/
def Mach.waits (M : Mach) (q : Nat × Nat) : Bool :=
  let of (k : Nat) (p : Ctx → Bool) : Bool := ((M.ctx? k).map p).getD false
  if q.1 < 16 then of q.1 fun x => x.reqs.any fun r => r.id == q.2 && !r.performed && !r.sent && match r.use with
    | .row .. => false
    | _ => true
  else if q.1 < 32 then of (q.1 - 16) fun x => x.cmds.any fun c => c.id == q.2 && !c.done
  else if q.1 < 48 then of (q.1 - 32) fun x => x.rowStays q.2
  else M.links.remote.any fun r => r.id == q.2

/-- An access ahead of a marker is halted by a fault (R84): until its source is restarted it reaches no page. -/
def Mach.stands (M : Mach) (q : Nat × Nat) : Bool :=
  let of (k : Nat) (p : Ctx → Bool) : Bool := ((M.ctx? k).map p).getD false
  if q.1 < 16 then of q.1 fun x => x.reqs.any fun r => r.id == q.2 && r.held
  else if q.1 < 32 then of (q.1 - 16) fun x => x.cmds.any fun c => c.id == q.2 && c.held
  else if q.1 < 48 then of (q.1 - 32) fun x => x.cores.any fun c => (List.range 8).any fun i =>
    (c.inp i).halted.any fun k => haltedRow (c.inp i).gen k c.idx i == q.2
  else M.links.remote.any fun r => r.id == q.2 && r.halted

/-- It reaches no page now: it stands at a fault, or waits in its queue behind an access that does (R84). -/
def Mach.blocked (M : Mach) (q : Nat × Nat) : Bool :=
  let of (k : Nat) (p : Ctx → Bool) : Bool := ((M.ctx? k).map p).getD false
  M.stands q ||
    if q.1 < 16 then of q.1 fun x => x.reqs.any fun r => r.id == q.2 && !r.performed && !r.sent && (match r.use with
      | .row .. => false
      | _ => true) && x.reqs.any fun p => p.held && p.core == r.core && p.queue == r.queue && decide (p.id < r.id)
    else if q.1 < 32 then of (q.1 - 16) fun x => x.cmds.any fun c => c.id == q.2 && x.cmds.any fun p => p.held && p.cluster == c.cluster && decide (p.id < c.id)
    else if q.1 < 48 then false
    else M.links.remote.any fun r => r.id == q.2 && (M.links.remote.takeWhile fun p => p.id != q.2).any fun p => p.port == r.port && p.halted

/-- A marker that has reached the head of translation in a queue drops that queue's TLB entries in its range (R91). The TLBs of a copy engine serve
its two queues: an access ahead takes the leaves that the marker has removed from `olds`. -/
def Mach.sweep (M : Mach) : Mach :=
  match M.warm.markers with
  | [] => M
  | l => { M with warm := { M.warm with tlbs := M.warm.tlbs.filter fun e =>
      !(l.any fun m => inRange m.word e && (decide (4096 ≤ e.source)
        || !((m.queues.find? fun q => q.1 == e.source).map fun q => q.2.any M.waits).getD false)) } }

/-- The leaves that an access ahead of markers in its queue still uses: those that the oldest of these markers removes first (R91). -/
def Mach.olds (M : Mach) (source : Nat) (q : Nat × Nat) : List (BitVec 8 × Pte) :=
  (M.warm.markers.filter fun m => !m.fresh.contains q && m.queues.any fun s => s.1 == source && s.2.contains q).flatMap (·.old)

/-! Performing (R219-R224, R233-R235). -/

/-- The clock of an access's home point (R180, R405). -/
def Req.clock (M : Mach) (x : Ctx) (r : Req) : Nat := if r.async then M.mslot else x.cslot

/-- A context's timetabled effects take place only while it runs (R111). -/
def Ctx.moves (x : Ctx) : Bool := x.run == .running

/-- The logged result that replay feeds in place of an access's landing (R192, R193, R200): a mailbox value, a row of a port, a cold line. -/
def Ctx.fedLanding (x : Ctx) (r : Req) : Option Undo :=
  match r.use with
  | .mailbox m => x.fedEntry fun e => e.kind == 3 && e.op.isNone && e.core == r.core && e.addr == 0x100 + m
      && e.issue == if r.sys then none else some r.opIssue
  | .row i gen k => x.fedEntry fun e => e.core == r.core && e.addr == 0x600 + i && e.row == some (gen, k)
  | .granule n g => match x.xings.find? fun q => q.id == n with
    | none => none
    | some q => x.fedEntry fun e => e.kind == 2 && decide (e.space < 2) && e.core == q.core && e.addr == 64 * (q.off / 64 + g)
      && e.issue == some r.opIssue
  | _ => none

/-- An atomic at a home of this module. -/
def Req.atomicHere (r : Req) : Bool := !r.sys && match r.act with
  | .atomic _ => true
  | _ => false

/-- An entry that an atomic has taken at its home (R192): returned value, new value, CSLOT of the apply. -/
def Undo.atHome (e : Undo) : Bool := e.kind == 3 && e.addr / 0x100 == 1 && e.op.isSome

/-- The logged outcome of a module-scope atomic that replay feeds (R200). -/
def Ctx.fedAtomic (x : Ctx) (r : Req) : Option Undo :=
  match r.use with
  | .mailbox m => if r.atomicHere then x.fedEntry fun e => e.atHome && e.core == r.core && e.addr == 0x100 + m && e.issue == some r.opIssue else none
  | _ => none

/-- In a replay an atomic is performed at the CSLOT that the log gives it, in logged order (R200, R240); one that the original run had not
performed when the log ends waits. -/
def Ctx.atomicTurn (x : Ctx) (r : Req) : Bool :=
  x.replay.isNone || !r.atomicHere || (x.fedAtomic r).any fun e => x.nowDue e && x.fedEntry Undo.atHome == some e

/-- The logged lines that replay feeds in place of a carried write: the write is performed at their slot (R193, R200). -/
def Ctx.fedApply (x : Ctx) (r : Req) : Option Undo :=
  if r.act != .write || r.sys then none
  else x.fedEntry fun e => e.kind == 2 && e.space == 2 && e.core == r.core && decide (e.source < 0x100) && e.issue == some r.opIssue
    && r.elems.any fun q => q.2 / 512 == e.addr / 64

/-- A read or atomic held past its planned landing: nothing that is planned waits for the context to run (R111, R220). -/
def Req.late (r : Req) (x : Ctx) : Bool := r.act != .write && decide (r.land ≤ x.cslot)

/-- Every predecessor whose home is this module has been applied (R230). -/
def Links.applies (L : Links) (deps : List Nat) : Bool :=
  (deps.filter fun d => homeOf d == Config.self.toNat).all L.applied.contains

/-- Writes of a causal set have applied at their homes, as far as this module can know: none of its own waits for its acknowledgement, and those
whose home it is are applied (R229, R232). -/
def Links.settled (L : Links) (l : List Nat) : Bool := L.applies l && l.all fun n => !L.send.any fun q => q.id == n

/-- Whether nothing stands against an access now: its home point has come, nothing ahead of it in its queue or order is left, and no fault
holds it (R222-R224, R231, R232). -/
def Ctx.free (M : Mach) (x : Ctx) (r : Req) : Bool :=
  !r.performed && !r.held && !r.sent && (r.async || x.moves || r.late x) && decide (r.issue ≤ x.cslot) && decide (r.home ≤ r.clock M x)
    && x.atomicTurn r && ((x.fedApply r).map fun e => decide (e.cslot ≤ x.cslot)).getD true
    && r.after.all (fun i => !x.pendingId i) && r.gone.all (fun i => !x.aliveId i)
    && M.links.settled r.acks
    && !(x.reqs.takeWhile fun q => q.id != r.id).any fun q => q.core == r.core && q.queue == r.queue && !q.performed && !q.sent

/-- The machine chooses to hold an access (R220): a choice that is made afresh in each slot, and that replay makes as the original run did
(R200). -/
def Ctx.holds (M : Mach) (x : Ctx) (r : Req) : Bool :=
  Config.hold x.asid.toNat (if x.moves then x.cslot else M.mslot) r.core r.queue r.issue

/-- The machine performs an access that is free, and that it does not choose to hold (R220); what replay feeds is not held (R200). -/
def Ctx.ready (M : Mach) (x : Ctx) (r : Req) : Bool :=
  x.free M r && ((x.fedAtomic r).isSome || (x.fedApply r).isSome || !x.holds M r)

def Ctx.setReq (x : Ctx) (r : Req) : Ctx := { x with reqs := x.reqs.map fun q => if q.id == r.id then r else q }
def Ctx.dropReq (x : Ctx) (id : Nat) : Ctx := { x with reqs := x.reqs.filter fun q => q.id != id }

/-- The writes that a read observes, with their predecessors (R228). -/
def Warm.observed (W : Warm) (phys : List Nat) : List Nat :=
  let nums := ((phys.map fun a => SMap.get 0 W.writers a).filter (· != 0)).eraseDups
  (nums ++ nums.flatMap fun n => (W.deps.filter fun d => d.1 == n).flatMap (·.2)).eraseDups

/-- The value that an atomic of width `w` leaves (R233, R234). -/
def atomicNew (op w old v expect : Nat) : Nat :=
  if op = 16 then if old = expect then v else old
  else if op < 16 then match AmoFn.all[op]? with
    | some fn => amoVal fn w old v
    | none => old
  else match AmofFn.all[op - 32]? with
    | some fn => amofVal fn (if w = 64 then f64Shape else f32Shape) old v
    | none => old

/-- A read or atomic has taken its value; one performed after its home point lands its planned distance later, and not before its
planned slot (R220). -/
def Ctx.performedRead (x : Ctx) (M : Mach) (r : Req) (value : Nat) (got : List Nat) : Ctx :=
  let held := r.async || decide (r.home < x.cslot)
  x.setReq { r with performed := true, value := BitVec.ofNat 4096 value, async := held, home := M.mslot + r.dist, done := x.cslot, got }

/-- The translated elements of an access, and its check word: a row of a port was translated when it crossed (R91, R154). -/
def Req.spots (r : Req) (M : Mach) (x : Ctx) (source : Nat) : Warm × ((List (Nat × Nat) × Option Nat) ⊕ Miss) :=
  match r.use with
  | .row .. => (M.warm, .inl (r.elems, r.check))
  | _ =>
    let olds := M.olds source (x.slot, r.id)
    match resolve olds x.asid source r.act.isWrite M.warm r.elems with
    | (W, .inr m) => (W, .inr m)
    | (W, .inl l) => match r.check with
      | none => (W, .inl (l, none))
      | some b => match resolve olds x.asid source r.act.isWrite W [(0, b)] with
        | (W, .inr m) => (W, .inr m)
        | (W, .inl c) => (W, .inl (l, c.head?.map (·.2)))

/-- Bytes of a checked pattern join its checksum's store (R167). -/
def Ctx.addCrc (x : Ctx) (r : Req) (l : List (Nat × Byte)) : Ctx :=
  match r.use with
  | .row i gen _ => x.onCore r.core fun c =>
    let q := c.inp i
    if q.gen == gen && (q.walk.map fun w => pCheck w.pat).getD false then c.setInp i { q with crc := addBytes q.crc l } else c
  | .sent o gen .. => x.onCore r.core fun c =>
    let q := c.outp o
    if q.gen == gen && (q.walk.map fun w => pCheck w.pat).getD false then c.setOutp o { q with crc := addBytes q.crc l } else c
  | .granule n _ => { x with xings := x.xings.map fun q => if q.id == n && q.checksum then { q with crc := addBytes q.crc l } else q }
  | _ => x

/-- The checksum of the bytes by ascending virtual address that a pattern has moved (R167). -/
def crcOf (m : SMap Byte) : BitVec 32 := crc32c (m.map (·.2))

def Ctx.crcOf (x : Ctx) (r : Req) : BitVec 32 :=
  match r.use with
  | .sent o .. => ((x.core? r.core).map fun c => Machine.crcOf (c.outp o).crc).getD 0
  | .granule n _ => ((x.xings.find? fun q => q.id == n).map fun q => Machine.crcOf q.crc).getD 0
  | _ => 0

/-- The virtual bit address of each element of an access: a row of a port keeps only where it was translated to. -/
def Ctx.virtualElems (x : Ctx) (r : Req) : List (Nat × Nat) :=
  match r.use with
  | .row i gen k => (((x.core? r.core).map fun c => c.inp i).bind fun q => if q.gen == gen then q.walk.map fun w => w.rowElems k else none).getD r.elems
  | _ => r.elems

/-- The writer that a request is. -/
def Req.writer (r : Req) (x : Ctx) (c : Core) (home : Nat) : Writer :=
  { source := c.id, core := r.core, word := r.word, issue := r.opIssue, num := x.writeNum home r.id, deps := r.seen, kind := 2, foreign := false }

/-- The row that begins or ends outside a page. -/
def outsidePage (page : Nat × Nat) (b : Nat) : Bool := decide (b / 8 < page.1) || decide (page.1 + page.2 ≤ b / 8)

/-- The first element of a walk outside a page, in what is left of row `k` or beyond it. -/
def Walk.beyond (w : Walk) (page : Nat × Nat) (rest : List Nat) (k : Nat) : Option Nat :=
  (rest.find? (outsidePage page)).or ((List.range (w.rows - (k + 1))).findSome? fun n => ((w.rowElems (k + 1 + n)).map (·.2)).find? (outsidePage page))

/-- Whenever an element of row `k` enters a page, the page that holds the walk's next element beyond it is walked, without a fault (R79);
`prev` is the element before. -/
def Walk.enters (w : Walk) (a : BitVec 8) (source : Nat) (write : Bool) (k : Nat) : Option Nat → List Nat → Warm → Warm
  | _, [], W => W
  | prev, b :: r, W =>
    let page := W.pageAt a (b / 8)
    let W := if prev.any fun p => !outsidePage page p then W
      else match w.beyond page r k with
        | none => W
        | some e => (W.translate [] source a (e / 8) write false).1
    Walk.enters w a source write k (some b) r W

def Walk.prefetch (w : Walk) (W : Warm) (a : BitVec 8) (source : Nat) (write : Bool) (k : Nat) : Warm :=
  if dSpace w.desc == 3 then W
  else w.enters a source write k ((List.range k).reverse.findSome? fun n => (w.rowElems n).getLast?.map (·.2)) ((w.rowElems k).map (·.2)) W

/-- A copy command of the context is writing a line that a row reads now: between its start and its post (R192). -/
def Ctx.copyWrites (x : Ctx) (r : Req) : Bool :=
  let lines := ((x.virtualElems r).map fun e => e.2 / 512).eraseDups
  (match r.use with
    | .row .. => true
    | _ => false) && x.cmds.any fun q => q.kind != 2 && q.started && (!q.posted || (!q.late && q.post == x.cslot))
      && (q.dst.spanElems 0 q.dst.bytes).any fun e => lines.contains (e.2 / 512)

/-- A module-scope atomic is logged at its home: what it returns, what it leaves, its CSLOT and its warm address (R192, R235). -/
def Ctx.logAtomic (x : Ctx) (r : Req) (old new : Nat) : Ctx :=
  match r.use with
  | .mailbox m =>
    x.append [{ kind := 3, space := 0, foreign := false, atomic := false, spilled := false, source := x.lid r.core, core := r.core, cslot := x.cslot
                addr := 0x100 + m, win := x.win.num, issue := some r.opIssue, op := some r.opIssue, late := x.done
                payload := BitVec.ofNat 512 (old % 2 ^ 64 + 2 ^ 64 * (new % 2 ^ 64) + 2 ^ 128 * (x.cslot % 2 ^ 64)
                  + 2 ^ 192 * ((r.elems.headD (0, 0)).2 / 8)) }]
  | _ => x

/-- A module-scope access is performed at its home; a write leaves the queue. Its use is completed by `Mach.applied` or by the
landing (R219). -/
def Mach.perform (M : Mach) (k : Nat) (r : Req) : Mach × Bool :=
  match M.ctx? k with
  | none => (M, false)
  | some x => match x.core? r.core with
    | none => (M, false)
    | some c =>
      let source := 16 * c.id + r.queue
      match r.spots M x source with
      | (W, .inr m) => ({ M with warm := W }.haltReq k r m, false)
      | (W, .inl (spots, check)) =>
        let W := match r.use with
          | .sent o gen n _ => if (c.outp o).gen == gen then ((c.outp o).walk.map fun w => w.prefetch W x.asid source true n).getD W else W
          | _ => W
        let M := { M with warm := W }
        let u := r.writer x c Config.self.toNat
        let virt := x.virtualElems r
        let both := (r.elems.zip spots).map fun q => (q.1.1, q.1.2, q.2.2)
        let phys := spots.flatMap fun e => elemBytes r.width e.2
        let stored (M : Mach) : List (Nat × Byte) := storedBytes M.warm.mem r.width ((virt.zip spots).map fun q => (q.1.2, q.2.2))
        let got := if x.shared then W.observed phys else []
        match r.act with
        | .read =>
          let word := (check.map fun b => M.warm.mem.read (b / 8) 4 * 2 ^ 3072).getD 0
          ((M.setCtx ((x.addCrc r (stored M)).performedRead M { r with met := x.copyWrites r } (readElems W.mem r.width spots + word) got)), true)
        | .write =>
          let u := if r.queue = 12 then { u with kind := 0 } else u
          let M := M.writeHere k u r.width r.value.toNat r.mask.toNat both
          let M := M.onCtx k fun x => x.addCrc r ((stored M).filter fun c =>
            both.any fun q => (maskedBytes r.width r.mask.toNat q.1 q.2.1).contains c.1)
          match r.check, check, M.ctx? k with
          | some v, some b, some x => (M.writeHere k u 32 (x.crcOf r).toNat (2 ^ 32 - 1) [(0, v, b)], true)
          | _, _, _ => (M, true)
        | .atomic op =>
          let live := readElems W.mem r.width spots
          let fed := x.fedAtomic r
          let (old, new) := (fed.map fun e => (e.payload.toNat % 2 ^ 64, e.payload.toNat / 2 ^ 64 % 2 ^ 64)).getD
            (live, atomicNew op r.width live r.value.toNat r.expect.toNat)
          let M := M.writeHere k { u with kind := 3 } r.width new (2 ^ r.width - 1) both
          match M.ctx? k with
          | none => (M, false)
          | some x =>
            let x := ((fed.map x.eat).getD x).logAtomic r old new
            (M.setCtx (x.performedRead M r old got), true)

/-- An event posts a counter late or for an earlier window: then it is logged (R192, R193, R405). -/
def Ctx.postFor (x : Ctx) (r : Req) (j tc : Nat) (err : Bool) : Ctx :=
  x.postOp j tc err r.opIssue r.async

/-- The counter that a row of binding `gen` of outbound port `o` posts, if it is the last of its walk. -/
def Req.sentPost (r : Req) (j o gen : Nat) : Option (Option Nat) := match r.use with
  | .sent o' gen' _ post => if r.core == j && o' == o && gen' == gen then some post else none
  | _ => none

/-- An outbound row has applied: it leaves its queue. The counter posts once every row of the walk has applied, in whatever order those of the
sys: range are acknowledged (R155, R227). -/
def Ctx.rowApplied (x : Ctx) (r : Req) (o gen : Nat) (post : Option Nat) : Ctx :=
  match x.core? r.core with
  | none => x
  | some c =>
    let q := c.outp o
    let x := x.setCore (c.setOutp o { q with queued := q.queued - 1, applied := if q.gen == gen then q.applied + 1 else q.applied })
    let others := x.reqs.filter fun p => p.id != r.id && (p.sentPost r.core o gen).isSome
    match post, others with
    | some tc, [] => (x.dropReq r.id).postFor r r.core tc false
    | some _, _ => x.setReq { r with performed := true, sent := false }
    | none, [p] =>
      let x := x.dropReq r.id
      match (p.sentPost r.core o gen).join with
      | some tc => if p.performed then (x.dropReq p.id).postFor p r.core tc false else x
      | none => x
    | none, _ => x.dropReq r.id

/-- A granule of a crossing has applied or landed; the last one posts, with the error bit if a checksum fails (R159, R168). -/
def Ctx.granuleDone (x : Ctx) (r : Req) (xid : Nat) : Ctx :=
  match x.xings.find? fun q => q.id == xid with
  | none => x.dropReq r.id
  | some q =>
    let check := if r.act == .read && r.check.isSome then some (r.value.toNat / 2 ^ 3072 % 2 ^ 32) else q.check
    let last := decide (cdiv q.bytes 64 ≤ q.done + 1)
    let bad := q.kind == 0 && check.any fun v => (Machine.crcOf q.crc).toNat != v
    let q := { q with done := q.done + 1, check, posted := last, err := last && bad }
    let x := { (x.dropReq r.id) with xings := x.xings.map fun y => if y.id == xid then q else y }
    if last then x.postFor r q.core q.tc bad else x

/-- What a performed write completes (R107, R155, R159, R377). -/
def Ctx.applied (x : Ctx) (r : Req) : Ctx :=
  match r.use with
  | .sent o gen _ post => x.rowApplied r o gen post
  | .granule xid _ => x.granuleDone r xid
  | _ => x.dropReq r.id

def Mach.applied (M : Mach) (k : Nat) (r : Req) : Mach := M.onCtx k fun x => x.applied r

/-! System scope (R27, R228-R231). -/

/-- The newest write in the send queue that meets a read of sys: bytes, with those bytes, if it gives every one of them (R229). -/
def Links.forward (L : Links) (addrs : List Nat) : Option (SysSend × List Byte) :=
  match (L.send.filter fun q => q.cells.any fun c => addrs.contains c.1).getLast? with
  | none => none
  | some q => (addrs.mapM fun a => (q.cells.find? fun c => c.1 == a && c.2.2 == BitVec.allOnes 8).map (·.2.1)).map fun l => (q, l)

/-- The message of what a request asks of one home. -/
def SysSend.msg (q : SysSend) (asid : BitVec 8) (r : Option Req) : Msg :=
  let self := Config.self.toNat
  let low (a : Nat) : BitVec 48 := BitVec.ofNat 48 a
  let plain : Msg := if q.cells = [] then .read self q.id q.deps asid (q.reads.map low)
    else .write self q.id q.deps asid (q.cells.map fun c => (low c.1, c.2))
  match r with
  | none => plain
  | some r => match r.act with
    | .atomic op => .atomic self q.id q.deps asid (low q.addr) op (r.width / 8) (r.value.setWidth 64) r.expect
    | _ => plain

/-- The class of a message: reads and writes in class 1, atomics and barrier messages in class 0, keeper traffic in class 2 (R26). Results,
acknowledgements and hard-fault answers, which R26 does not name, follow log 106. -/
def Msg.cls : Msg → Nat
  | .atomic .. | .ack _ | .result .. | .barrier .. => 0
  | .write .. | .read .. | .hardFault .. => 1
  | .complete .. | .keeper _ => 2

/-- Flits that wait are sent while the replay buffer of 64 has room, unless the port retrains (R24, R25). -/
def Port.refill (q : Port) : Port :=
  if q.retraining then q
  else
    let n := 64 - q.replay.length
    { q with replay := q.replay ++ q.heldOut.take n, wire := q.wire ++ q.heldOut.take n, heldOut := q.heldOut.drop n }

/-- Flits that the other side has received leave the replay buffer; `acks` is a count for each class (R24, log 106). -/
def Port.acked (q : Port) (acks : List Nat) : Port :=
  { q with replay := q.replay.filter fun f => decide (acks.getD f.cls 0 ≤ f.seq) }.refill

/-- Flit `i` of the `n` of a message: the port's next sequence number of its class, what has been received so far, and a CRC over all of it; the
last one completes the message (R24). -/
def Port.flit (q : Port) (m : Msg) (n i : Nat) : Flit :=
  let c := Msg.cls m
  let seq := SMap.get 0 q.next c + i
  let acks := (List.range 3).map fun i => SMap.get 0 q.expect i
  let payload := Config.flitBytes seq c acks m i
  { seq, cls := c, acks, payload, crc := crc32c (toBytes 252 payload.toNat), msg := if i + 1 = n then some m else none }

/-- A message leaves by a port: its flits are sent, and stay in the replay buffer until they are acknowledged (R24, R25). -/
def Port.send (q : Port) (m : Msg) : Port :=
  let n := Config.moreFlits m + 1
  { q with next := SMap.set 0 q.next (Msg.cls m) (SMap.get 0 q.next (Msg.cls m) + n)
           heldOut := q.heldOut ++ (List.range n).map fun i => q.flit m n i }.refill

/-- A message leaves for another module. -/
def Links.emit (L : Links) (home : Nat) (m : Msg) : Links :=
  let p := (Config.route home).val
  { L with ports := setAt L.ports p ((L.ports.getD p Port.reset).send m) }

/-- An operation that has been answered leaves the send queue (R229). -/
def Links.answered (L : Links) (id : Nat) : Links := { L with send := L.send.filter fun p => p.id != id }

/-- A system access goes into the send queue, and its message to its home: over its link, or to this module's own remote apply queue
(R27, R229). -/
def Links.dispatch (L : Links) (asid : BitVec 8) (q : SysSend) (r : Option Req) : Links :=
  let m := q.msg asid r
  let L := { L with send := L.send ++ [q] }
  if q.home = Config.self.toNat then { L with remote := L.remote ++ [{ id := q.id, port := 0, msg := m, halted := false }] }
  else L.emit q.home m

/-- The module of a sys: address. -/
def homeAt (a : Nat) : Nat := a / 2 ^ 48 % 32

/-- What a request asks of each module that is home to some byte of it. -/
def Req.sends (r : Req) (x : Ctx) (crc : BitVec 32) : List SysSend :=
  let bytes := r.elems.flatMap (fun e => elemBytes r.width e.2) ++ (r.check.map fun b => elemBytes 32 b).getD []
  let cells := if r.act == .write then sentCells r.width r.value.toNat r.mask.toNat r.elems
      ++ (r.check.map fun b => sentCells 32 crc.toNat (2 ^ 32 - 1) [(0, b)]).getD [] else []
  (bytes.map homeAt).eraseDups.map fun h =>
    { id := x.writeNum h r.id, ctx := x.asid.toNat, req := r.id, home := h, gran := 0, addr := (bytes.find? fun a => homeAt a == h).getD 0
      reads := if r.act == .read then (bytes.filter fun a => homeAt a == h).eraseDups else [], cells := cells.filter fun c => homeAt c.1 == h
      deps := r.seen, acked := false }

/-- What leaves for another module is logged as irrevocable (R194): the destination and the first bytes sent. -/
def Ctx.irrevSend (x : Ctx) (source core : Nat) (q : SysSend) (value : Nat) : Ctx :=
  x.irrev source core q.addr (if q.cells = [] then value else ofBytes ((cellBytes q.cells).map (·.2)))

/-- Two accesses of one operation: one that replay has issued again, and the one that the original run sent and that is still out. -/
def Req.again (q r : Req) : Bool :=
  q.id != r.id && q.core == r.core && q.queue == r.queue && q.opIssue == r.opIssue && match q.use, r.use with
    | .mailbox m, .mailbox n => m == n
    | .sent o _ k _, .sent p _ l _ => o == p && k == l
    | .granule _ g, .granule _ h => g == h
    | .store, .store => true
    | _, _ => false

/-- Replay sends no system write again, nor any scalar access (R200): what the original run has sent answers it, if it is still out or its
result has come since; otherwise a write has applied, and a result stands in the log. -/
def Mach.resend (M : Mach) (k : Nat) (x : Ctx) (r : Req) : Mach :=
  let out (id : Nat) : Bool := M.links.send.any fun q => q.ctx == x.asid.toNat && q.req == id
  let name (id : Nat) : Ctx := x.onCore r.core fun c => match r.use with
    | .mailbox m => if (c.mb m).last = r.id then c.setMb m { c.mb m with last := id } else c
    | _ => c
  let put (y : Ctx) (q : Req) : Mach := M.setCtx { y with reqs := y.reqs.map fun p => if p.id == r.id then q else p }
  if out r.id then put x { r with sent := true }
  else match ((x.replay.map (·.ghosts)).getD []).find? fun g => g.again r && (out g.id || g.performed) with
    | some g =>
      if g.performed then put (name g.id) { r with id := g.id, performed := true, async := true, home := M.mslot, done := x.cslot, value := g.value, got := g.got }
      else put (name g.id) { r with id := g.id, sent := true }
    | none => if r.act == .write then M.applied k { r with async := true } else put x { r with sent := true }

/-- The bytes of a result, by address. -/
def byAddress (addrs : List Nat) (bytes : List Byte) : Memory := (addrs.zip bytes).foldl (fun m c => m.setByte c.1 c.2) []

/-- A part of a row's or granule's value has come from one of its homes; with the last part it may land (R220, R230). -/
def Ctx.readArrives (x : Ctx) (mslot : Nat) (rest : List SysSend) (q : SysSend) (r : Req) (bytes : List Byte) (got : List Nat) : Ctx :=
  let m := byAddress q.reads bytes
  let mine := r.elems.filter fun e => homeAt (e.2 / 8) == q.home
  let word := (r.check.map fun b => if homeAt (b / 8) == q.home then m.read (b / 8) 4 * 2 ^ 3072 else 0).getD 0
  let r := { r with value := BitVec.ofNat 4096 (r.value.toNat + readElems m r.width mine + word), got := (r.got ++ got).eraseDups }
  let x := x.addCrc r ((q.reads.zip bytes).filter fun c => mine.any fun e => (elemBytes r.width e.2).contains c.1)
  if rest.any fun p => p.req == r.id then x.setReq r
  else x.setReq { r with performed := true, sent := false, async := true, home := mslot, done := x.cslot }

/-- A part of a read of sys: bytes that the send queue gives comes at once (R229). -/
def Mach.forwarded (M : Mach) (k : Nat) (rest : List SysSend) (q : SysSend) : Mach :=
  match M.links.forward q.reads, M.ctx? k with
  | some (w, l), some x => match x.reqs.find? fun r => r.id == q.req with
    | none => M
    | some r => M.setCtx (x.readArrives M.mslot rest q r l (w.id :: w.deps))
  | _, _ => M

/-- The parts of a read, in order, each with those that are still to come after it. -/
def Mach.forwardAll (M : Mach) (k : Nat) (out : List SysSend) : List SysSend → Mach
  | [] => M
  | q :: r => Mach.forwardAll (M.forwarded k (r ++ out) q) k out r

/-- A system access leaves its core (R229): what a read finds in the send queue is forwarded; the rest goes to its homes. -/
def Mach.sendSys (M : Mach) (k : Nat) (r : Req) : Mach :=
  match M.ctx? k with
  | none => M
  | some x =>
    let a := (r.elems.headD (0, 0)).2 / 8
    match x.sysMiss (r.elems ++ (r.check.map fun b => [(0, b)]).getD []) with
    | some m => M.haltReq k r m
    | none =>
      let x := if r.act == .write then x.addCrc r (cellBytes (sentCells r.width r.value.toNat r.mask.toNat r.elems)) else x
      let sends := r.sends x (x.crcOf r)
      let x := (sends.filter fun q => r.act.isWrite && q.home != Config.self.toNat).foldl (fun x q => x.irrevSend (x.lid r.core) r.core q r.value.toNat) x
      if x.replay.isSome && (r.queue == 12 || r.act.isWrite) then (M.setCtx x).resend k x r
      else match r.act, r.use, M.links.forward ((List.range (r.width / 8)).map (a + ·)) with
      | .read, .mailbox _, some (q, l) =>
        M.setCtx (x.setReq { r with performed := true, value := BitVec.ofNat 4096 (ofBytes l), land := 0, home := x.cslot, done := x.cslot, got := q.id :: q.deps })
      | _, _, _ =>
        let near (q : SysSend) : Bool := q.reads != [] && r.queue != 12 && (M.links.forward q.reads).isSome
        let far := sends.filter fun q => !near q
        let M' : Mach := { M with links := far.foldl (fun L q => L.dispatch x.asid q (some r)) M.links }.setCtx
          (x.setReq { r with sent := true, async := r.async || r.queue != 12 })
        M'.forwardAll k far (sends.filter near)

/-- warmAccessPerform: access `id` of the context in slot `k`, if the machine may perform it now (R219). -/
def Mach.warmAccess (M : Mach) (k id : Nat) : Mach :=
  match M.ctx? k with
  | none => M
  | some x => match x.reqs.find? fun r => r.id == id with
    | none => M
    | some r =>
      if !x.ready M r then M
      else if r.sys then M.sendSys k r
      else match M.sweep.perform k r with
        | (M, true) => if r.act == .write then M.applied k r else M
        | (M, false) => M

/-- WARM_ACCESS_PERFORM (R219). -/
def execWarmAccessPerform (k id : Nat) (s : State) : Out := s.onMach fun M => M.warmAccess k id

/-- OUTBOUND_ROW_APPLY (R155, R404, R405). -/
def execOutboundRowApply (k id : Nat) (s : State) : Out := s.onMach fun M => M.warmAccess k id

/-- XOUT_APPLY (R159, R404): one granule; all of a crossing are due in one slot, in ascending order. -/
def execXoutApply (k id : Nat) (s : State) : Out := s.onMach fun M => M.warmAccess k id

/-! Landings. -/

/-- A performed access whose landing slot has come, or one whose logged landing replay feeds now (R200). -/
def Ctx.lands (M : Mach) (x : Ctx) (r : Req) : Bool :=
  match x.fedLanding r with
  | some e => x.moves && decide (r.issue ≤ x.cslot) && x.nowDue e && (r.performed || r.sys || r.act == .read)
  | none => r.performed && (r.async || r.sys || x.moves) && decide (r.land ≤ x.cslot) && (!r.async || decide (r.home ≤ M.mslot))

/-- A result reaches mailbox `m` (R149); only that of the last access issued makes it valid. -/
def Core.fillMailbox (c : Core) (m id : Nat) (v : W64) : Core :=
  let b := c.mb m
  if id < b.landed then c else c.setMb m { b with value := v, landed := id, valid := b.last == id }

/-- A mailbox result lands (R149, R193, R228); one of a system access is logged, and posts the counter of the mailbox's number (R192, R315). -/
def Ctx.mailboxLand (x : Ctx) (r : Req) (m : Nat) : Ctx :=
  let fed := x.fedLanding r
  let v := (fed.map fun e => e.payload.toNat).getD r.value.toNat % 2 ^ 64
  let x := (fed.map x.eat).getD x
  let x := ((x.dropReq r.id).onCore r.core fun c => c.fillMailbox m r.id (BitVec.ofNat 64 v)).observe r.core r.id r.got
  if r.sys then (x.arrival r.core (0x100 + m) v).postOp r.core m false r.opIssue true
  else if x.carried r.opIssue then x.arrivalOf (some r.opIssue) r.core (0x100 + m) v else x

/-- MAILBOX_LANDING (R149, R219). -/
def execMailboxLanding (k id : Nat) (s : State) : Out :=
  s.onMach fun M => M.onCtx k fun x => match x.reqs.find? fun r => r.id == id with
    | some r => match r.use with
      | .mailbox m => if x.lands M r then x.mailboxLand r m else x
      | _ => x
    | none => x

/-- The granule of an xin lands in cold storage (R159, R161, R193, R217, R228). -/
def Mach.granuleLand (M : Mach) (x : Ctx) (r : Req) (xid g : Nat) : Mach :=
  match x.xings.find? fun q => q.id == xid with
  | none => M.setCtx (x.dropReq r.id)
  | some q =>
    let n := min 64 (q.bytes - 64 * g)
    let x := x.observe q.core r.id r.got
    let y := match x.fedLanding r with
      | some e => (x.eat e).writeLine q.core q.pool (q.off / 64 + g) q.issue e.payload.toNat (2 ^ (8 * n) - 1)
      | none => x.writeLine q.core q.pool (q.off / 64 + g) q.issue r.value.toNat (2 ^ (8 * n) - 1)
    M.setCtx (y.granuleDone r xid)

/-- XIN_GRANULE_LANDING (R159). -/
def execXinGranuleLanding (k id : Nat) (s : State) : Out :=
  s.onMach fun M => match M.ctx? k with
    | none => M
    | some x => match x.reqs.find? fun r => r.id == id with
      | some r => match r.use with
        | .granule xid g => if r.act == .read && x.lands M r then M.granuleLand x r xid g else M
        | _ => M
      | none => M

/-- The next granule of a mesh move that is due at the target's core (R160). -/
def Xing.meshDue (q : Xing) (t : Nat) : Bool :=
  decide (q.kind = 2) && decide (64 * q.done < q.bytes) && decide (landSlot 2 q.hops 1 q.bytes q.issue q.done ≤ t)

/-- MESH_LANDING: one granule of a mesh move (R160, R193). -/
def execMeshLanding (k id : Nat) (s : State) : Out :=
  s.onMach fun M => M.onCtx k fun x => match x.xings.find? fun q => q.id == id with
    | none => x
    | some q =>
      if !(x.moves && q.meshDue x.cslot) then x
      else
        let g := q.done
        let n := min 64 (q.bytes - 64 * g)
        let v := (List.range n).foldl (fun v i => v + (SMap.get 0 q.data (64 * g + i)).toNat * 256 ^ i) 0
        let y := x.writeLine q.target q.pool (q.off / 64 + g) q.issue v (2 ^ (8 * n) - 1)
        let last := decide (q.bytes ≤ 64 * (g + 1))
        let y := { y with xings := y.xings.map fun z => if z.id == id then { q with done := g + 1, posted := last } else z }
        if last then y.postOp q.core q.tc false q.issue false else y

/-- A crossing of no bytes posts where a transfer of one byte would (R161). -/
def Xing.emptyPost (q : Xing) : Nat := landSlot q.kind q.hops (max 1 (pLanes q.walk.pat)) 1 q.issue 0

def Ctx.emptyPosts (x : Ctx) : Ctx :=
  (x.xings.filter fun q => q.bytes == 0 && !q.posted && decide (q.emptyPost ≤ x.cslot)).foldl (fun x q =>
    { x.postOp q.core q.tc false q.issue false with
      xings := x.xings.map fun y => if y.id == q.id then { q with posted := true } else y }) x

/-! Inbound ports (R147, R154, R180, R181). -/

/-- Entries that the cores of a cluster hold of the shared remainder, and the remainder itself (R147). -/
def Ctx.sharedHeld (x : Ctx) (cluster : Nat) : Nat :=
  (x.cores.filter fun c => c.cluster == cluster).foldl (fun n c =>
    (List.range 8).foldl (fun n i => n + (c.inp i).shared) n) 0

def Core.remainder (c : Core) : Nat := 1024 - 8 * (List.range 8).foldl (fun n i => n + (c.inp i).min) 0

/-- The next row of the plan is due: its slot has come and the cap leaves room (R154). -/
def InPort.planDue (q : InPort) (t : Nat) : Bool :=
  match q.walk with
  | none => false
  | some w => decide (q.planNext < w.rows) && decide (q.planX ≤ t) && decide (max q.res (q.planNext - q.popped) < q.cap)

/-- A row that the plan has issued and the unit has not: it issues back to back after a restart (R180, R181). -/
def InPort.lateDue (q : InPort) (mslot : Nat) : Bool :=
  q.walk.isSome && q.halted.isNone && decide (q.next < q.planNext) && decide (q.catchX ≤ mslot)

/-- Rows of a stopped context cross only in a freeze: those of a strict port that the plan had issued (R180), and those that a restore walks
again (R183). -/
def Ctx.crossesStopped (x : Ctx) (q : InPort) : Bool := match x.run with
  | .frozen .. => !q.lenient || x.header.cause == 0x32
  | _ => false

/-- Replay halts a lenient port at the row at which the original run did (R181, R200). -/
def Ctx.fedHalt (x : Ctx) (j i k : Nat) : Bool :=
  match x.replay with
  | none => false
  | some p => p.feed.any fun e => e.kind == 3 && e.core == j && e.addr == 0x400 + i && e.issue == some k && decide (x.cslot ≤ e.cslot)

/-- The addresses of row `k` as its crossing finds them: physical ones, with the check word's for the last row of a checked pattern; those
of the sys: range stay (R27, R91, R154, R167). -/
def Walk.resolveRow (w : Walk) (M : Mach) (x : Ctx) (source k : Nat) : Warm × ((List (Nat × Nat) × Option Nat) ⊕ Miss) :=
  let elems := w.rowElems k
  let check := if pCheck w.pat && k + 1 == w.rows then some (8 * checkWordAt w.desc) else none
  let word : List (Nat × Nat) := check.toList.map fun b => (0, b)
  if dSpace w.desc == 3 then match x.sysMiss (elems ++ word) with
    | some m => (M.warm, .inr m)
    | none => (M.warm, .inl (elems, check))
  else match resolve [] x.asid source false M.warm elems with
    | (W, .inr m) => (W, .inr m)
    | (W, .inl l) => match resolve [] x.asid source false W word with
      | (W, .inr m) => (W, .inr m)
      | (W, .inl c) => (W, .inl (l, c.head?.map (·.2)))

/-- Row `k` issues its crossing (R154): translated at its crossing slot, it is read at its home 2,048 slots before it lands. A row that
cannot cross slips, or, in a stopped context, waits (R130, R156, R158). -/
def Mach.rowCross (M : Mach) (ctx j i k : Nat) (async : Bool) : Mach × List Cause :=
  let M := M.sweep
  match M.ctx? ctx with
  | none => (M, [])
  | some x => match x.core? j with
    | none => (M, [])
    | some c => match (c.inp i).walk with
      | none => (M, [])
      | some w =>
        let q := c.inp i
        let n := granules w.rowBytes
        let source := 16 * c.id + i
        let t := if async then M.mslot else x.cslot
        let stop (code : Nat) : Mach × List Cause := (M, if async then [] else [rowCause c 0 4 { code, detail := 0, port := i }])
        let bare := x.bare c
          { queue := i, act := .read, use := .row i q.gen k, sys := dSpace w.desc == 3, elems := w.rowElems k, width := w.width, value := 0
            expect := 0, mask := 0, home := t + 4096 + w.interval, dist := 2048, release := false, acquire := false, word := 0 } x.cslot
        let pages := rowPages M x bare
        if x.fedHalt j i k then (M.setCtx (x.setCore (c.setInp i { q with halted := some k })), [])
        else if q.cap < q.res + 1 || (q.shared + q.min ≤ q.res && decide (c.remainder ≤ x.sharedHeld c.cluster)) then stop 3
        else if 2048 < x.outstanding j + n || !x.ticksOk M pages then stop 10
        else match w.resolveRow M x source k with
          | (W, .inr m) =>
            let x := x.setCore (c.setInp i { q with halted := some k })
            let x := if lightKind m.kind then x else x.hardStop j m.kind i m.addr 0
            (({ M with warm := W }.setCtx x).raiseFault
              { source, kind := m.kind, src := 0, asid := x.asid, write := false, fetch := false, raised := false, unit := c.id, port := i
                level := m.level, addr := m.addr, cslot := x.cslot, mslot := M.mslot, position := w.position k, entry := m.entry
                ctx, req := 0 }, [])
          | (W, .inl (elems, check)) =>
            let W := w.prefetch W x.asid source false k
            let tardy := async || !(q.planNext == k + 1 && q.planX == x.cslot + w.interval)
            let r := { x.ordered c bare with async, tardy, land := if async then 0 else bare.land, elems, check }
            let c := c.setInp i { q.reserve with next := k + 1, catchX := M.mslot + w.interval }
            let x : Ctx := ({ (x.setCore c) with reqs := x.reqs ++ [r], nextReq := x.nextReq + 1 }).addTicks M pages
            let hu := n * 512 * M.cold.wx.toNat
            if !async then ({ M with warm := W }.setCtx (x.chargeGranules M n), [])
            else if x.header.cause = 0x32 then
              ({ M with warm := W, cold := { M.cold with charge := M.cold.charge + hu } }.setCtx { x with heat := x.heat + (hu : Nat) }, [])
            else ({ M with warm := W }.setCtx x, [])

/-- The plan of a port passes its next row; the lanes are free an interval after the last (R154, R157). -/
def Ctx.planRow (x : Ctx) (j i : Nat) : Ctx :=
  match x.core? j with
  | none => x
  | some c =>
    let q := c.inp i
    match q.walk with
    | none => x
    | some w =>
      let x := x.setCore (c.setInp i { q with planNext := q.planNext + 1, planX := x.cslot + w.interval })
      if q.planNext + 1 = w.rows then x.freeLanes j i (x.cslot + w.interval - 1) else x

/-- The rows of a port that issue now: the planned row, and one row behind the plan (R154, R180, R181). -/
def Mach.portIssue (M : Mach) (ctx j i : Nat) : Mach × List Cause :=
  match M.ctx? ctx with
  | none => (M, [])
  | some x => match x.core? j with
    | none => (M, [])
    | some c =>
      let stopped := !x.moves
      let late := (c.inp i).lateDue M.mslot && (x.moves || x.crossesStopped (c.inp i))
      let M := if x.moves && (c.inp i).planDue x.cslot then M.setCtx (x.planRow j i) else M
      let q' := (((M.ctx? ctx).bind fun x => x.core? j).map fun c => c.inp i).getD InPort.start
      if late || (x.moves && q'.halted.isNone && decide (q'.next + 1 = q'.planNext) && decide (q'.catchX ≤ M.mslot)) then
        M.rowCross ctx j i q'.next stopped
      else (M, [])

/-- INBOUND_ROW_ISSUE (R154). -/
def execInboundRowIssue (k j : Nat) (port : BitVec 3) (s : State) : Out :=
  let (M, l) := s.now.portIssue k j port.toNat
  .next { s with now := M, causes := s.causes ++ l }

/-- A row as log entries of 64 bytes each, which stand consecutively (R191-R193). -/
def Ctx.logRow (x : Ctx) (j i gen k n kind issue : Nat) (value : Nat) : Ctx :=
  let source := x.lid j
  x.append ((List.range (granules n)).map fun g =>
    { kind, space := 0, foreign := false, atomic := false, spilled := false, source, core := j, cslot := x.cslot, addr := 0x600 + i
      win := x.win.num, payload := BitVec.ofNat 512 (value / 2 ^ (512 * g)), issue := some issue, row := some (gen, k) })

/-- The entries of a row that replay feeds, as one value (R192, R200). -/
def Ctx.fedRow (x : Ctx) (e : Undo) : Nat × List Undo :=
  let es := ((x.replay.map (·.feed)).getD []).filter fun f => f.row.isSome && f.row == e.row && f.core == e.core && f.addr == e.addr
  (pack 512 (es.map fun f => f.payload.toNat), es)

/-- A row becomes READY in its entry; the last row of the walk posts, with the error bit if the checksum fails (R147, R154, R168).
A row of an old binding, or one that lands after the core's halt line has risen, is discarded, and its entry is free (R107, R375). `fed` is the kind of the entries that replay has fed in its place. -/
def Mach.rowReady (M : Mach) (ctx : Nat) (r : Req) (i gen k : Nat) (fed : Option Nat) : Mach :=
  M.onCtx ctx fun x => match x.core? r.core with
    | none => x
    | some c =>
      let q := c.inp i
      let x := x.dropReq r.id
      match q.walk.filter fun _ => q.gen == gen && c.line.isNone with
      | none => x.setCore (c.setInp i (q.release 1))
      | some w =>
        let x := (x.setCore (c.setInp i { q with entries := q.entries ++ [{ row := k, value := r.value.setWidth 2048 }] })).observe c.idx r.id r.got
        let kind := if x.carried r.issue then some 2 else if fed.isSome then fed else if r.met then some 3 else none
        let x := (kind.map fun d => x.logRow r.core i gen k w.rowBytes d r.issue r.value.toNat).getD x
        if k + 1 < w.rows then x
        else
          let bad := r.check.isSome && (crcOf q.crc).toNat != r.value.toNat / 2 ^ 3072 % 2 ^ 32
          if k < q.rewalk then x else x.postFor r r.core q.tc bad

/-- The next row of a port that lands now: rows become READY in their order (R24, R181). -/
def Ctx.landingRow (M : Mach) (x : Ctx) (j i : Nat) : Option Req :=
  (x.reqs.find? fun r => r.core == j && r.queue == i && match r.use with
    | .row .. => true
    | _ => false).filter fun r => x.lands M r

/-- INBOUND_ROW_READY (R154). -/
def execInboundRowReady (k j : Nat) (port : BitVec 3) (s : State) : Out :=
  s.onMach fun M => match (M.ctx? k).bind fun x => x.landingRow M j port.toNat with
    | none => M
    | some r => match r.use with
      | .row i gen n => match (M.ctx? k).bind fun x => (x.fedLanding r).map fun e => (x.fedRow e, e.kind) with
        | some ((v, es), kind) =>
          (M.onCtx k fun x => es.foldl Ctx.eat x).rowReady k { r with value := BitVec.ofNat 4096 (v % 2 ^ 3072 + r.value.toNat / 2 ^ 3072 * 2 ^ 3072) } i
            gen n (some kind)
        | none => M.rowReady k r i gen n none
      | _ => M

/-! The remote side (R27, R84, R192, R230). -/

/-- Every context changed: placed, saved by a pre-emption, or set aside by a reverse step. -/
def Mach.everyCtx (M : Mach) (f : Ctx → Ctx) : Mach :=
  let wait (w : Waiting) : Waiting := { w with saved := w.saved.map f }
  { M with ctxs := M.ctxs.map f, launch := M.launch.map fun q => q.map wait, aside := M.aside.map fun a => (f a.1, a.2) }

/-- Bytes that another agent has written stand in the lines that a failed reverse step would put back, too (R201). -/
def Mach.keepWritten (M : Mach) (phys : List Nat) : Mach :=
  let line (a : BitVec 8) (l : Nat × BitVec 512) : Nat × BitVec 512 := match M.warm.phys a l.1 with
    | none => l
    | some p => (l.1, BitVec.ofNat 512 ((phys.filter fun b => decide (p ≤ b) && decide (b < p + 64)).foldl (fun v b =>
        merge v ((M.warm.mem.byte b).toNat * 256 ^ (b - p)) (255 * 256 ^ (b - p))) l.2.toNat))
  { M with aside := M.aside.map fun e => (e.1, e.2.map (line e.1.asid)) }

/-- The context of an ASID changed, placed or saved (R183). -/
def Mach.onAsid (M : Mach) (a : Nat) (f : Ctx → Ctx) : Mach := M.everyCtx fun x => if x.asid.toNat == a then f x else x

/-! Granules of a copy command (R164-R167). -/

/-- The elements of source granule `g`. -/
def Cmd.sourceElems (q : Cmd) (g : Nat) : List (Nat × Nat) := q.src.spanElems (64 * g) (min (64 * g + 64) q.bytes)

def Cmd.sysSource (q : Cmd) : Bool := dSpace q.src.desc == 3
def Cmd.sysDest (q : Cmd) : Bool := dSpace q.dst.desc == 3

/-- The element position of element `i` of row `k` of a walk. -/
def Walk.elemAt (w : Walk) (k i : Nat) : Nat := (w.elemBit k i - 8 * dBase w.desc) / max 1 w.width

/-- The numbers of the NQ4 elements of source granule `g`, each with the block that it lies in (R245). -/
def Cmd.blocks (q : Cmd) (g : Nat) : List (Nat × Nat) :=
  (List.range q.src.rows).flatMap fun k => (List.range (pRow q.src.pat)).filterMap fun i =>
    if (8 * q.src.rowBytes * k + 4 * i) / 512 = g then some (k * pRow q.src.pat + i, q.src.elemAt k i / 64) else none

/-- The tensor of the block scales that NQ4 expand needs (R245). -/
def Ctx.scaleDesc (x : Ctx) (q : Cmd) : Option Line := if q.routine = 2 then x.tensor (dScale q.src.desc) else none

/-- The scale byte and the super-scale of each element of source granule `g`, as bytes of the scale tensor (R245). -/
def Cmd.scaleElems (q : Cmd) (d : Line) (g : Nat) : List (Nat × Nat) :=
  (q.blocks g).flatMap fun e =>
    (40 * e.1, 8 * (dBase d + scaleByte e.2)) :: (List.range 4).map fun j => (40 * e.1 + 8 + 8 * j, 8 * (dBase d + superByte e.2 + j))

/-- A scale byte or super-scale beyond EXT0 (R245). -/
def Cmd.scaleOut (q : Cmd) (d : Line) (g : Nat) : Bool :=
  (q.blocks g).any fun e => decide (dExt d 0 ≤ max (scaleByte e.2) (superByte e.2 + 3))

def Ctx.setCmd (x : Ctx) (q : Cmd) : Ctx := { x with cmds := x.cmds.map fun p => if p.id == q.id then q else p }

/-- Source bytes of granule `g`, by bit position in it, join the command's data (R164). -/
def Cmd.addData (q : Cmd) (g v : Nat) : Cmd :=
  if g < q.sources then { q with data := q.data + v * 2 ^ (512 * g) } else { q with check := some (q.check.getD 0 + v) }

/-- A part of source granule `q.gran` has come from the sys: range (R164): source bytes, the check word, scales of NQ4. -/
def Ctx.granuleArrives (x : Ctx) (q : SysSend) (c : Cmd) (bytes : List Byte) (got : List Nat) : Ctx :=
  let m := byAddress q.reads bytes
  let here (l : List (Nat × Nat)) : List (Nat × Nat) := l.filter fun e => q.reads.contains (e.2 / 8)
  let c := { c with seen := (c.seen ++ got).eraseDups }
  let c := match x.scaleDesc c with
    | some d => if dSpace d == 3 then { c with scales := c.scales + readElems m 8 (here (c.scaleElems d q.gran)) } else c
    | none => c
  let c := if !c.sysSource || x.replay.isSome then c
    else if q.gran < c.sources then
      let mine := here (c.sourceElems q.gran)
      { c.addData q.gran (readElems m c.src.width mine) with
        crc := addBytes c.crc (mine.flatMap fun e => (elemBytes c.src.width e.2).map fun a => (a, m.byte a)) }
    else c.addData q.gran (readElems m 32 (here [(0, 8 * checkWordAt c.src.desc)]))
  { x.setCmd c with engineK := SMap.set [] x.engineK (x.engineOf c) ((SMap.get [] x.engineK (x.engineOf c) ++ got).eraseDups) }

/-- Granules of a copy command whose bytes have come are taken in walk order; one of the sys: range is logged as an arrival (R192). -/
def Ctx.takeGranules (x : Ctx) (open' : List Nat) (id : Nat) : Nat → Ctx
  | 0 => x
  | n + 1 => match x.cmds.find? fun c => c.id == id with
    | none => x
    | some c =>
      if c.read ≤ c.taken || open'.contains c.taken || (c.sysSource && x.replay.isSome) then x
      else
        let v := if c.taken < c.sources then c.data / 2 ^ (512 * c.taken) % 2 ^ 512 else c.check.getD 0
        let e := x.engineOf c
        let x := if c.sysSource then x.arrivalFrom (0x100 + e) none c.core (0x500 + e) v else x
        Ctx.takeGranules (x.setCmd { c with taken := c.taken + 1 }) open' id n

/-- The effect of a result that comes back (R230): a mailbox is filled and logged, a row or granule may land, a copy command goes on. -/
def Mach.sysResult (M : Mach) (id : Nat) (bytes : List Byte) (got : List Nat) : Mach :=
  match M.links.send.find? fun q => q.id == id with
  | none => M
  | some q =>
    let M := { M with links := M.links.answered id }
    let rest := M.links.send.filter fun p => p.ctx == q.ctx
    M.onAsid q.ctx fun x => match x.reqs.find? fun r => r.id == q.req with
      | some r => match r.use with
        | .mailbox m =>
          let value := ofBytes bytes
          let x := ((x.dropReq r.id).onCore r.core fun c => c.fillMailbox m r.id (BitVec.ofNat 64 value)).observe r.core r.id got
          (x.arrival r.core (0x100 + m) (value % 2 ^ 64)).postOp r.core m false r.opIssue true
        | .row .. | .granule .. => x.readArrives M.mslot rest q r bytes got
        | _ => x.dropReq r.id
      | none => match x.cmds.find? fun c => c.id == q.req with
        | none =>
          let come (g : Req) : Req := if g.id == q.req then { g with performed := true, sent := false, value := BitVec.ofNat 4096 (ofBytes bytes), got } else g
          { x with replay := x.replay.map fun p => { p with ghosts := p.ghosts.map come } }
        | some c => (x.granuleArrives q c bytes got).takeGranules ((rest.filter fun p => p.req == c.id && p.cells == []).map (·.gran)) c.id (c.read + 1)

/-- SYSTEM_RESULT_ARRIVAL (R111, R230): at the MSLOT at which it comes. -/
def execSystemResultArrival (id : Nat) (bytes : List Byte) (seen : List Nat) (s : State) : Out :=
  s.onMach fun M => M.sysResult id bytes seen

/-- A system write is acknowledged and leaves the send queue; what it was a part of has applied once no part is left (R229, R230). An
acknowledged atomic still has its result to come. -/
def Mach.sysAck (M : Mach) (id : Nat) : Mach :=
  match M.links.send.find? fun q => q.id == id with
  | none => M
  | some q =>
    if q.cells = [] then
      let one (p : SysSend) : SysSend := if p.id == id then { p with acked := true } else p
      { M with links := { M.links with send := M.links.send.map one } }
    else
      let M := { M with links := M.links.answered id }
      if M.links.send.any fun p => p.ctx == q.ctx && p.req == q.req then M
      else M.onAsid q.ctx fun x => match x.reqs.find? fun r => r.id == q.req with
        | none => x
        | some r => x.applied r

/-- SYSTEM_ACKNOWLEDGE (R230). -/
def execSystemAcknowledge (id : Nat) (s : State) : Out := s.onMach fun M => M.sysAck id

/-- A hard fault at the home module freezes the issuing context (R316). -/
def Mach.sysFault (M : Mach) (id : Nat) (poisoned : Bool) : Mach :=
  match M.links.send.find? fun q => q.id == id with
  | none => M
  | some q =>
    let M := { M with links := M.links.answered id }
    M.onAsid q.ctx fun x =>
      let who : Nat × W32 := match x.reqs.find? fun r => r.id == q.req with
        | some r => (r.core, r.word)
        | none => ((x.cmds.find? fun c => c.id == q.req).map fun c => (c.core, c.word)).getD (0, 0)
      x.hardStop who.1 (if poisoned then 11 else 8) 0 q.addr who.2

/-- What a message asks of a home: source module, predecessors, context, addresses, whether it writes. -/
def msgRequest : Msg → Option (Nat × List Nat × BitVec 8 × List Nat × Bool)
  | .write src _ deps asid cells => some (src, deps, asid, cells.map fun c => c.1.toNat, true)
  | .atomic src _ deps asid a _ n _ _ => some (src, deps, asid, (List.range n).map (a.toNat + ·), true)
  | .read src _ deps asid addrs => some (src, deps, asid, addrs.map (·.toNat), false)
  | _ => none

/-- Who made a system-scope access that is performed here: another module's replica, known by its Dretex port, whose writes match no watchpoint
(log 139), or a core or copy engine of this module, whose wst was matched at its issue (R191, R205, R206, R400). -/
def Mach.remoteWriter (M : Mach) (src port id : Nat) (deps : List Nat) (x : Ctx) (kind : Nat) : Writer :=
  let far : Writer := { source := 0x200 + port, core := (x.cores.findIdx? fun c => !c.idle).getD 0, word := 0, issue := x.cslot, num := id, deps, kind
                        foreign := false }
  if src ≠ Config.self.toNat then { far with kind := if kind = 2 then 0 else kind }
  else match M.links.send.find? fun q => q.id == id with
    | none => far
    | some q => match x.reqs.find? fun r => r.id == q.req, x.cmds.find? fun c => c.id == q.req with
      | some r, _ => { far with source := x.lid r.core, core := r.core, word := r.word
                                kind := if kind = 2 && r.queue == 12 then 0 else kind }
      | none, some c => { far with source := 0x100 + x.engineOf c, core := c.core, word := c.word, start := some c.start }
      | none, none => far

/-- The context of an ASID, placed or saved by a pre-emption (R182). -/
def Mach.holder (M : Mach) (a : BitVec 8) : Option Ctx :=
  (M.byAsid a).or ((M.launch.flatMap fun q => q.filterMap (·.saved)).find? fun x => x.asid == a)

/-- The effect of a system-scope write or atomic on context memory, logged line by line as what comes from outside the timetable (R192);
`cells` are virtual address, physical address, value, bits. -/
def Mach.remoteWrite (M : Mach) (asid : BitVec 8) (src port id : Nat) (deps : List Nat) (atomic : Bool) (cells : List (Nat × Nat × Byte × Byte)) : Mach :=
  let mem := cells.foldl (fun m c => m.writeMask c.2.1 1 c.2.2.1.toNat c.2.2.2.toNat) M.warm.mem
  let W := { M.warm with mem }
  let L := { M.links with applied := M.links.applied ++ [id] }
  match M.holder asid with
  | none => { M with warm := W, links := L }
  | some x =>
    let u := M.remoteWriter src port id deps x (if atomic then 3 else 2)
    let phys := cells.map (·.2.1)
    let lines := (cells.map fun c => c.1 / 64).eraseDups
    let W := W.note u phys
    let one (x : Ctx) : Ctx :=
      let x := lines.foldl (fun x n => x.logWarm M.warm n u.source u.core false atomic) x
      let x := lines.foldl (fun x n => x.append
        [{ kind := 2, space := 3, foreign := false, atomic, spilled := false, source := u.source, core := u.core, cslot := x.cslot, addr := 64 * n
           win := x.win.num, payload := BitVec.ofNat 512 (match W.phys asid (64 * n) with
             | some p => W.mem.read p 64
             | none => 0) }]) x
      let x := x.sawWrite (u.start.getD x.cslot) fun q => q.2.1 == 2 && cells.any fun c => c.1 == q.1
      if u.kind = 0 then x else x.watchHome W u.kind u.core u.source u.word phys
    ({ M with warm := W, links := L }.keepWritten phys).onAsid asid.toNat one

/-- An answer goes back to the module that asked: to this one at once, to another over its link (R26, R230). -/
def Mach.reply (M : Mach) (src : Nat) (m : Msg) : Mach :=
  if src ≠ Config.self.toNat then { M with links := M.links.emit src m }
  else match m with
    | .ack id => M.sysAck id
    | .result id bytes got => M.sysResult id bytes got
    | .hardFault id poisoned => M.sysFault id poisoned
    | _ => M

/-- The bytes of a remote operation translated in order by its port's queue (R27, R84). -/
def Mach.remoteBytes (M : Mach) (port id : Nat) (asid : BitVec 8) (write : Bool) (addrs : List Nat) : Warm × (List Nat ⊕ Miss) :=
  match resolve (M.olds (4112 + port) (48, id)) asid (4112 + port) write M.warm (addrs.map fun a => (0, 8 * a)) with
  | (W, .inr m) => (W, .inr m)
  | (W, .inl l) => (W, .inl (l.map fun e => e.2 / 8))

/-- Operation `id` of the remote apply queue is performed (R230), or halts there at a fault, with what its port has behind it, unless the port
still holds an earlier record (R84, R87); one that a hard fault has halted leaves with its context. -/
def Mach.remote (M : Mach) (id : Nat) : Mach :=
  match M.links.remote.find? fun q => q.id == id with
  | none => M
  | some q => match msgRequest q.msg with
    | none => M
    | some (src, deps, asid, addrs, write) =>
      let ahead := (M.links.remote.takeWhile fun p => p.id != id).any fun p => p.port == q.port && p.halted
      if q.halted || ahead || !M.links.applies deps then M
      else
        let M := M.sweep
        let rest := M.links.remote.filter fun p => p.id != id
        let recorded := M.warm.rings.any fun r => r.held.any fun f => f.source == 4112 + q.port
        match M.remoteBytes q.port id asid write addrs with
        | (W, .inr m) =>
          let stay := M.links.remote.map fun p => if p.id == id then { p with halted := true } else p
          if recorded then { M with warm := W }
          else
          let M := { M with warm := W, links := { M.links with remote := if (M.holder asid).isSome then stay else rest } }
          let M := M.raiseFault { source := 4112 + q.port, kind := m.kind, src := 4, asid, write, fetch := false, raised := false, unit := q.port
                                  port := 0, level := m.level, addr := m.addr, cslot := ((M.byAsid asid).map (·.cslot)).getD 0, mslot := M.mslot
                                  position := 0, entry := m.entry, ctx := 8, req := id }
          if lightKind m.kind then M else M.reply src (.hardFault id (m.kind == 11))
        | (W, .inl phys) =>
          let M := { M with warm := W, links := { M.links with remote := rest } }
          let old := phys.map M.warm.mem.byte
          let got := M.warm.observed phys
          match q.msg with
          | .write _ _ _ _ cells =>
            (M.remoteWrite asid src q.port id deps false ((cells.zip phys).map fun c => (c.1.1.toNat, c.2, c.1.2))).reply src (.ack id)
          | .atomic _ _ _ _ _ op n v e =>
            let new := toBytes n (atomicNew op (8 * n) (ofBytes old) v.toNat e.toNat)
            let cells := ((addrs.zip phys).zip new).map fun c => (c.1.1, c.1.2, c.2, BitVec.allOnes 8)
            ((M.remoteWrite asid src q.port id deps true cells).reply src (.ack id)).reply src (.result id old got)
          | .read .. => M.reply src (.result id old got)
          | _ => M

/-- REMOTE_APPLY (R230). -/
def execRemoteApply (id : Nat) (s : State) : Out := s.onMach fun M => M.remote id

end Sys2Proof.Machine
end

