-- ==== Sys2Proof/Machine/Engine.lean ====
section
/-! DEFINITION. Frames, moves of pages, fault rings and their service, invalidation, and the copy engines with their routines
(R62-R72, R83-R92, R162-R171, R403, R406). -/

namespace Sys2Proof.Machine

/-! Frames (R41, R62, R69, R411). -/

def hbmFrame (f : Nat) : Bool := decide (f < 0x600000)
def deepFrame (f : Nat) : Bool := decide (0x800000 ≤ f) && decide (f < 0x2000000)

/-- Two ranges of frames (first, count) meet. -/
def framesMeet (a b : Nat × Nat) : Bool := decide (a.1 < b.1 + b.2) && decide (b.1 < a.1 + a.2)

def Mach.heapFrames (M : Mach) : Nat × Nat := (M.keepers.kheap.toNat * 2 ^ 14, if M.keepers.kheap = 0 then 0 else 2 ^ 16)

/-- `n` frames from `f`, aligned, of one tier, outside the staging region and the keeper heap. -/
def Mach.plainFrames (M : Mach) (f n : Nat) (deep : Bool) : Bool :=
  decide (0 < n) && f % n == 0 && (if deep then deepFrame f && deepFrame (f + n - 1) else hbmFrame (f + n - 1) && decide (0x4000 ≤ f))
    && !framesMeet (f, n) M.heapFrames

/-- Such frames that are neither in use nor retired. -/
def Mach.freeFrames (M : Mach) (f n : Nat) (deep : Bool) : Bool :=
  M.plainFrames f n deep && !(M.warm.used ++ M.warm.retired).any (framesMeet (f, n))

def Warm.take (W : Warm) (f n : Nat) : Warm := { W with used := W.used ++ [(f, n)] }

/-- Frames leave the set in use. -/
def Warm.release (W : Warm) (f n : Nat) : Warm :=
  { W with used := W.used.flatMap fun q =>
      if framesMeet q (f, n) then
        (if q.1 < f then [(q.1, f - q.1)] else []) ++ (if f + n < q.1 + q.2 then [(f + n, q.1 + q.2 - f - n)] else [])
      else [q] }

/-- Frames of a tier that are free (R69). -/
def Mach.freeCount (M : Mach) (deep : Bool) : Nat :=
  let total := if deep then 0x1800000 else 0x600000 - 0x4000 - M.heapFrames.2
  total - ((M.warm.used ++ M.warm.retired).filter fun q => deepFrame q.1 == deep).foldl (fun n q => n + q.2) 0

/-! Invalidation (R90-R92). -/

/-- The queues with accesses ahead of a marker written now: every access of every placed context that has not landed, every command
that has not ended, every remote operation (R91); an xpref's pages are moved by a keeper, and it makes no access of its own. -/
def Mach.queuesNow (M : Mach) : List (Nat × List (Nat × Nat)) :=
  let all := M.ctxs.flatMap fun x =>
    (x.reqs.map fun r => (16 * ((x.core? r.core).map (·.id)).getD 0 + r.queue, (x.slot, r.id)))
      ++ ((x.cmds.filter fun q => q.kind != 2 && !q.done).map fun q => (4096 + x.engineOf q, (16 + x.slot, q.id)))
      ++ x.cores.flatMap fun c => (List.range 8).filterMap fun i => (c.inp i).halted.map fun k =>
        (16 * c.id + i, (32 + x.slot, haltedRow (c.inp i).gen k c.idx i))
  let all := all ++ M.links.remote.map fun r => (4112 + r.port, (48, r.id))
  (all.map (·.1)).eraseDups.map fun s => (s, (all.filter fun a => a.1 == s).map (·.2))

/-- An access ahead of a marker has not landed, applied or completed. -/
def Mach.live (M : Mach) (q : Nat × Nat) : Bool :=
  if q.1 < 16 then ((M.ctx? q.1).map fun x => x.reqs.any fun r => r.id == q.2).getD false
  else if 32 ≤ q.1 ∧ q.1 < 48 then ((M.ctx? (q.1 - 32)).map fun x => x.rowLeft q.2).getD false
  else M.waits q

/-- A write of TLBINV (R90): a reserved code or a nonzero reserved field is ignored. `old` are the leaves that it removes, which accesses
ahead of the marker still use, but for those that a fault holds (R81, R91). -/
def Mach.tlbinv (M : Mach) (old : List (BitVec 8 × Pte)) (v : BitVec 64) : Mach :=
  if bits v.toNat 23 22 = 3 ∨ bits v.toNat 21 20 = 3 ∨ bits v.toNat 19 0 ≠ 0 then M
  else
    let n := M.warm.invseq + 1
    let queues := M.queuesNow
    let m : Marker := { num := n, word := v, mslot := M.mslot, queues, old, fresh := (queues.flatMap (·.2)).filter M.stands }
    let M' : Mach := { M with warm := { M.warm with invseq := n, markers := M.warm.markers ++ [m] } }
    M'.sweep

/-- TLBINV_WRITE (R90, R91). -/
def execTlbinvWrite (v : BitVec 64) (s : State) : Out := s.onMach fun M => M.tlbinv [] v

/-- The keeper invalidates one page of a level, whose leaf was `old`, and learns the marker's number. -/
def Mach.invalidate (M : Mach) (old : List (BitVec 8 × Pte)) (asid : BitVec 8) (va level : Nat) : Mach × Nat :=
  let M := M.tlbinv old (BitVec.ofNat 64 (va / 2 ^ 16 * 2 ^ 32 + asid.toNat * 2 ^ 24 + (3 - level) * 2 ^ 20))
  (M, M.warm.invseq)

/-- The same for every page that maps a frame. -/
def Mach.invalidateAll (M : Mach) (l : List (BitVec 8 × Pte)) (old : Bool) : Mach :=
  l.foldl (fun M q => (M.invalidate (if old then [q] else []) q.1 q.2.va q.2.level).1) M

/-- A frame that waited for a marker is free, but for one that a dedup has counted again since (R92, R170). -/
def Warm.freed (W : Warm) (f : Nat × Nat × Nat) : Warm := if SMap.get (0 : BitVec 32) W.refs f.2.1 = 0 then W.release f.2.1 f.2.2 else W

/-- INVDONE passes the markers that have retired everywhere, in order, none in the slot of its write (R91); frames that waited for
them are free (R92). -/
def Mach.invAdvance (M : Mach) : Nat → Mach
  | 0 => M
  | n + 1 => match M.warm.markers with
    | m :: r =>
      if m.queues.isEmpty && decide (m.mslot < M.mslot) then
        let done := M.warm.freeing.filter fun f => f.1 == m.num
        let W := done.foldl Warm.freed M.warm
        let M' : Mach := { M with warm := { W with markers := r, invdone := m.num, freeing := W.freeing.filter fun f => f.1 != m.num } }
        M'.invAdvance n
      else M
    | [] => M

/-- MARKER_RETIRE (R91): markers retire from the queue of a source once every access ahead has landed, applied or completed. -/
def execMarkerRetire (source : Nat) (s : State) : Out :=
  s.onMach fun M =>
    let M := M.sweep
    let markers : List Marker := M.warm.markers.map fun m =>
      let left := m.queues.filter fun q => !(q.1 == source && !q.2.any M.live)
      if m.mslot < M.mslot then { m with queues := left } else m
    let M' : Mach := { M with warm := { M.warm with markers } }
    M'.invAdvance markers.length

/-- Frames are free once an invalidation has passed (R92). -/
def Mach.freeAfter (M : Mach) (mark f n : Nat) : Mach :=
  { M with warm := if mark ≤ M.warm.invdone then M.warm.freed (mark, f, n) else { M.warm with freeing := M.warm.freeing ++ [(mark, f, n)] } }

/-! Moves (R63-R71). -/

/-- The bytes of a frame, with what is known of their writers, copied to another (R63, R228). -/
def Warm.copyPage (W : Warm) (old new size : Nat) : Warm := { W with mem := W.mem.copy old new size, writers := SMap.copy 0 W.writers old new size }

/-- Every leaf that maps the frame of a leaf changes with it (R63). -/
def Warm.onFrame (W : Warm) (addr level : Nat) (f : BitVec 64 → BitVec 64) : Warm :=
  W.rewrite fun _ p => if p.level == level && pteAddr p.word == addr then f p.word else p.word

/-- The leaves that map a frame. -/
def Warm.mappers (W : Warm) (addr level : Nat) : List (BitVec 8 × Pte) :=
  W.spaces.flatMap fun s => (s.ptes.filter fun p => p.level == level && pteAddr p.word == addr).map fun p => (s.asid, p)

/-- How a request on a page is decided (R68). -/
inductive Decided where
  | done
  | start
  | join
  | busy
  | lost
  deriving DecidableEq, Repr

def decideMove (moor : Nat) (up : Bool) : Decided :=
  if moor = 0 then (if up then .done else .start)
  else if moor = 1 then (if up then .start else .done)
  else if moor = 2 then (if up then .join else .busy)
  else if moor = 3 then (if up then .busy else .join)
  else .lost

/-- A move starts (R65): the mooring changes, and a page of HBM is invalidated; no TLB holds a deep page (R81). -/
def Mach.startMove (M : Mach) (asid : BitVec 8) (p : Pte) (up : Bool) (frame : Nat) (who : List (Nat × Nat)) (fault : Option FaultRec := none) :
    Mach :=
  let n := leafSize p.level / 2 ^ 16
  let old := pteAddr p.word
  let maps := M.warm.mappers old p.level
  let W := (M.warm.onFrame old p.level fun w => setMoor w (if up then 2 else 3)).take frame n
  let M := { M with warm := W }.invalidateAll (if up then [] else maps) true
  let m : Move := { asid, vpn := p.va, old, size := leafSize p.level, up, frame, who, fault, mark := if up then 0 else M.warm.invseq }
  { M with warm := { M.warm with moves := M.warm.moves ++ [m] } }

/-- The lowest free frames for a page; 0 if no aligned run of them is free (R69, log 11). -/
def Mach.pickFrame (M : Mach) (n : Nat) (deep : Bool) : Nat :=
  let from' := if deep then 0x800000 else 0x4000
  let ends := (M.heapFrames.1 + M.heapFrames.2) :: from' :: (M.warm.used ++ M.warm.retired).map fun q => q.1 + q.2
  (ends.map fun e => cdiv e n * n).foldl (fun b e => if M.freeFrames e n deep && (decide (b = 0) || decide (e < b)) then e else b) 0

/-- HBM is short for a page of `n` frames: none of it is free as that page needs it (R69). -/
def Mach.short (M : Mach) (n : Nat) : Bool := M.pickFrame n false == 0

/-- A victim of R69: a MOORED-WARM page, in no move, that no MAP which named a base maps. -/
def Warm.mayGo (W : Warm) (p : Pte) : Bool :=
  let addr := pteAddr p.word
  hbmFrame (addr / 65536) && pteValid p.word && (W.mappers addr p.level).all fun q => pteMoor q.2.word == 0 && !q.2.pinned

def Warm.victims (W : Warm) : List (BitVec 8 × Pte) :=
  (W.spaces.flatMap fun s => s.ptes.map fun p => (s.asid, p)).filter fun q => W.mayGo q.2

/-- The victim that maps frame `f`. -/
def Warm.victim (W : Warm) (f : Nat) : Option (BitVec 8 × Pte) := W.victims.find? fun q => pteAddr q.2.word == 65536 * f

/-- No page may be moved to free a frame (R69). -/
def Mach.stuck (M : Mach) : Bool := M.warm.victims.all fun q => M.pickFrame (leafSize q.2.level / 65536) true == 0

/-- A move already frees frames of HBM. -/
def Mach.freeing (M : Mach) : Bool := M.warm.moves.any (fun m => !m.up) || !M.warm.freeing.isEmpty

/-- The keeper frees a frame by a down-move: `frames` names a victim's frame and a deep frame (R69). -/
def Mach.evict (M : Mach) (frames : List Nat) : Mach :=
  match frames with
  | v :: d :: _ => match M.warm.victim v with
    | some (a, p) => if M.freeFrames d (leafSize p.level / 2 ^ 16) true then M.startMove a p false d [] else M
    | none => M
  | _ => M

/-- The same with the keeper's own choice of victim and deep frame, while no earlier one is on its way (R69, log 11). -/
def Mach.evictAny (M : Mach) : Mach :=
  if M.freeing then M
  else match M.warm.victims.find? fun q => M.pickFrame (leafSize q.2.level / 65536) true != 0 with
    | none => M
    | some (a, p) => M.startMove a p false (M.pickFrame (leafSize p.level / 65536) true) []

/-- The move that the page of an address is in: that of its frame (R63). -/
def Mach.moveOf (M : Mach) (asid : BitVec 8) (va : Nat) : Option Move :=
  (M.warm.leaf asid va).bind fun p => M.warm.moves.find? fun m => m.old == pteAddr p.word

/-- A request to move one page (R68): `frame` is the keeper's choice. Answers how it was decided, or none if it still waits for a
frame. -/
def Mach.requestMove (M : Mach) (asid : BitVec 8) (va : Nat) (up : Bool) (frame : Nat) (who : Nat × Nat) (fault : Option FaultRec := none) :
    Mach × Option Decided :=
  match M.warm.leaf asid va with
  | none => (M, some .lost)
  | some p => match decideMove (pteMoor p.word) up with
    | .start =>
      if M.freeFrames frame (leafSize p.level / 2 ^ 16) (!up) then (M.startMove asid p up frame [who] fault, some .start) else (M, none)
    | .join =>
      let joined (m : Move) : Move := if m.old = pteAddr p.word then { m with who := m.who ++ [who] } else m
      ({ M with warm := { M.warm with moves := M.warm.moves.map joined } }, some .join)
    | d => (M, some d)

/-- How a page of a request has ended, told to those who asked for it (R70). -/
structure PageEnd where
  moved : Bool
  lost : Bool
  deriving DecidableEq, Repr

def Mach.tell (M : Mach) (e : PageEnd) (who : List (Nat × Nat)) : Mach :=
  who.foldl (fun M w =>
    if w.1 = 256 then
      { M with cmds := M.cmds.map fun c => if c.seq == w.2 then
          { c with moved := if e.moved then c.moved + 1 else c.moved, failed := c.failed || e.lost } else c }
    else M.onAsid w.1 fun x => { x with cmds := x.cmds.map fun q => if q.id == w.2 then { q with err := q.err || !e.moved } else q }) M

def Mach.dropMove (M : Mach) (m : Move) : Mach :=
  { M with warm := { M.warm with moves := M.warm.moves.filter fun q => q.old != m.old } }

/-- The old mapping of a move has left every queue, but for accesses that a fault keeps from every page (R63, R84, R91). -/
def Mach.moveReady (M : Mach) (mark : Nat) : Bool :=
  M.warm.markers.all fun m => decide (mark < m.num) || (decide (m.mslot < M.mslot) && m.queues.all fun q => q.2.all fun a => !M.live a || M.blocked a)

/-- No TLB holds a page any more. -/
def Warm.forget (W : Warm) (asid : BitVec 8) (va size : Nat) : Warm :=
  { W with tlbs := W.tlbs.filter fun e => !(e.asid == asid && decide (e.va < va + size) && decide (va < e.va + leafSize e.level)) }

/-- MOVE_COMPLETE (R63, R65): once the old mapping is out of the queues, the page is copied whole, its entries name the new frame, a
source that stands at a fault will walk afresh, and the old frame is free after the invalidation of the change. -/
def execMoveComplete (asid : BitVec 8) (vpn : Nat) (s : State) : Out :=
  s.onMach fun M => match M.moveOf asid vpn, M.warm.leaf asid vpn with
    | some m, some p =>
      if !M.moveReady m.mark then M
      else
        let old := m.old
        let maps := M.warm.mappers old p.level
        let W := M.warm.copyPage old (65536 * m.frame) m.size
        let W := maps.foldl (fun W q => W.forget q.1 q.2.va m.size) W
        let gone (k : Marker) : Marker := { k with old := k.old.filter fun o => !maps.any fun q => q.1 == o.1 && q.2.va == o.2.va }
        let W := ({ W with markers := W.markers.map gone }).onFrame old p.level fun w => setMoor (setAddr w (65536 * m.frame)) (if m.up then 0 else 1)
        let refs := SMap.get (0 : BitVec 32) W.refs (old / 65536)
        let W := { W with refs := SMap.set (0 : BitVec 32) (SMap.set 0 W.refs m.frame refs) (old / 65536) 0 }
        let M := ({ M with warm := W }.dropMove m).invalidateAll maps false
        (M.freeAfter M.warm.invseq (old / 65536) (m.size / 65536)).tell { moved := true, lost := false } m.who
    | _, _ => M

/-- Every entry of a frame takes a mooring. -/
def Mach.moorFrame (M : Mach) (addr level moor : Nat) : Mach :=
  let maps := M.warm.mappers addr level
  { M with warm := M.warm.onFrame addr level fun w => setMoor w moor }.invalidateAll maps false

/-- The level of the pages of a size. -/
def levelOf (size : Nat) : Nat := if size = 2 ^ 30 then 1 else if size = 2 ^ 21 then 2 else 3

/-- A move fails: its page takes a mooring, its new frame is free or retired, and its requests end with their errors (R65, R71). -/
def Mach.failMove (M : Mach) (m : Move) (moor : Nat) (retire : Bool) : Mach :=
  let n := m.size / 65536
  let M := (M.dropMove m).moorFrame m.old (levelOf m.size) moor
  let W := M.warm.release m.frame n
  { M with warm := if retire then { W with retired := W.retired ++ [(m.frame, n)] } else W }.tell { moved := false, lost := true } m.who

/-- A source goes on at its faulting access, which it walks afresh (R81, R84, R180, R181, R405). -/
def Mach.restart (M : Mach) (f : FaultRec) : Mach :=
  let afresh (M : Mach) (q : Nat × Nat) : Mach :=
    { M with warm := { M.warm with markers := M.warm.markers.map fun m => { m with fresh := q :: m.fresh } } }
  if f.src = 4 then
    afresh { M with links := { M.links with remote := M.links.remote.map fun q => if q.id == f.req then { q with halted := false } else q } } (48, f.req)
  else
    let M := if f.src = 0 then M else afresh M (if f.src = 3 then 16 + f.ctx else f.ctx, f.req)
    M.onCtx f.ctx fun x =>
      if x.asid ≠ f.asid then x
      else if f.src = 0 then
        match x.cores.find? fun c => c.id == f.unit with
        | none => x
        | some c =>
          let q := c.inp f.port
          match q.halted with
          | none => x
          | some k =>
            let x := x.setCore (c.setInp f.port { q with halted := none, catchX := M.mslot })
            if q.lenient then x.arrivalOf (some k) c.idx (0x400 + f.port) x.cslot else x
      else if f.src = 3 then { x with cmds := x.cmds.map fun q => if q.id == f.req then { q with held := false, faulted := none } else q }
      else match x.reqs.find? fun r => r.id == f.req with
        | none => x
        | some r =>
          let late (q : Req) : Bool := q.core == r.core && q.queue == r.queue && q.act == .write && r.queue != 12
            && (decide (q.home < x.cslot) || q.id == r.id)
          { x with reqs := x.reqs.map fun q =>
              let q := if q.id == r.id then { q with held := false } else q
              if late q then { q with async := true, home := M.mslot } else q }

/-- A move that failed, for the light faults on its page (R71): the fault that issued it is over, and a copy command ends with the error bit, or
another source goes on and finds the page as it now stands; the other faults on the page wait for a move of their own, or, if its data are
lost, go on and find it so. -/
def Mach.endService (M : Mach) (m : Move) (lost : Bool) : Mach :=
  let here (f : FaultRec) : Bool :=
    f.kind == 4 && ((M.warm.leaf f.asid (f.addr % 2 ^ 48)).map fun p => p.level == levelOf m.size && pteAddr p.word == m.old).getD false
  let stops (f : FaultRec) : Bool := here f && (lost || m.fault == some f)
  let fs := (M.warm.rings.flatMap (·.taken)).filter stops
  let W := { M.warm with rings := M.warm.rings.map fun r => { r with taken := r.taken.filter fun f => !stops f } }
  fs.foldl (fun M f =>
    if f.src = 3 && !lost then M.onCtx f.ctx fun x =>
      { x with cmds := x.cmds.map fun q => if q.id == f.req then { q with held := false, faulted := none, late := true, done := true, err := true } else q }
    else M.restart f) { M with warm := W }

/-- MOVE_ERROR (R65, R71): the request that issued the move ends with its error; nothing is retried. -/
def execMoveError (asid : BitVec 8) (vpn : Nat) (err : MoveErr) (s : State) : Out :=
  s.onMach fun M => match M.moveOf asid vpn with
    | none => M
    | some m =>
      match err, m.up with
      | .deepReadIntact, true => (M.failMove m 1 false).endService m false
      | .deepReadLost, true => (M.failMove m 4 false).endService m true
      | .deepWrite, false => M.failMove m 0 false
      | .hbmRead, false => (M.failMove m 4 false).endService m true
      | .hbmWrite, true => (M.failMove m 1 true).endService m false
      | _, _ => M

/-- ECC_UNCORRECTABLE (R65): the page whose home is the frame is lost, with the move that it is in; a frame that a move is filling fails
that move. -/
def execEccUncorrectable (frame : Nat) (s : State) : Out :=
  s.onMach fun M =>
    let pages := (M.warm.spaces.flatMap fun s => s.ptes.filter fun p =>
      decide (pteAddr p.word ≤ 65536 * frame) && decide (65536 * frame < pteAddr p.word + leafSize p.level) && decide (pteMoor p.word < 4)).map
        fun p => (pteAddr p.word, p.level)
    match pages.eraseDups with
    | [] => match M.warm.moves.find? fun m => m.up && decide (m.frame ≤ frame) && decide (frame < m.frame + m.size / 65536) with
      | none => M
      | some m => (M.failMove m 1 true).endService m false
    | l => l.foldl (fun M p => match M.warm.moves.find? fun m => m.old == p.1 with
      | some m => (M.failMove m 4 false).endService m true
      | none => M.moorFrame p.1 p.2 4) M

/-! Fault rings (R86-R89) and the service of light faults (R66, R83). -/

/-- FRCONS_WRITE (R88, R89): a write past PROD, or backwards, is ignored; consumed records are the keeper's, and held records are
written while there is room. A write of FROVF sets OVFCNT. -/
def execFrconsWrite (ring : BitVec 4) (w : RingWrite) (s : State) : Out :=
  s.onMach fun M =>
    let W := M.warm.onRing ring.toNat fun r => match w with
      | .ovfcnt v => { r with ovf := v.extractLsb' 32 32 }
      | .cons v =>
        let c : BitVec 32 := v.setWidth 32
        let n := (c - r.cons).toNat
        if (r.prod - r.cons).toNat < n then r
        else Ring.drain r.held.length { r with cons := c, taken := r.taken ++ r.recs.take n, recs := r.recs.drop n }
    { M with warm := W }

/-- FRBASE_WRITE (R88). -/
def execFrbaseWrite (ring : BitVec 4) (v : BitVec 64) (s : State) : Out :=
  s.onMach fun M =>
    let W := M.warm.onRing ring.toNat fun r =>
      if r.prod ≠ r.cons ∨ r.held ≠ [] then r
      else
        let n := bits v.toNat 28 25
        let log2n := if 6 ≤ n ∧ n ≤ 12 then n else r.log2n
        { r with log2n, base := bits v.toNat 24 6 }
    { M with warm := W }

/-- A shared page gets a copy of its own in frame `new`: of the page as it stands, or as it stood at a fault (R83, R406). -/
def Mach.unshare (M : Mach) (a : BitVec 8) (va : Nat) (p : Pte) (new : Nat) (snap : Option (SMap Byte) := none) : Mach :=
  let n := leafSize p.level / 65536
  let old := pteAddr p.word
  let W := (M.warm.take new n).copyPage old (65536 * new) (leafSize p.level)
  let W := match snap with
    | none => W
    | some m => { W with mem := m.foldl (fun (m : Memory) (c : Nat × Byte) => m.setByte (65536 * new + c.1) c.2) (W.mem.zero (65536 * new) (65536 * new + leafSize p.level)) }
  let W := W.setLeaf a va fun w => setBitTo (setBitTo (setBitTo (setBitTo (setAddr w (65536 * new)) 3 true) 5 true) 6 true) 7 false
  let left := (SMap.get (0 : BitVec 32) W.refs (old / 65536)) - 1
  let W := { W with refs := SMap.set (0 : BitVec 32) (SMap.set 0 W.refs new 1) (old / 65536) left }
  let (M, mark) := { M with warm := W }.invalidate [(a, p)] a p.va p.level
  if left = 0 then M.freeAfter mark (old / 65536) n else M

/-- A light fault that cannot get a frame ends its context with NOMEM (R69): it freezes, as for a hard fault; one that is being loaded
ends when the loader goes on. -/
def Mach.noFrame (M : Mach) (f : FaultRec) : Mach :=
  M.onAsid f.asid.toNat fun x =>
    let unit : Nat × W32 := if f.src = 4 then ((x.cores.findIdx? fun c => !c.idle).getD 0, 0)
      else if f.src = 3 then ((x.cmds.find? fun q => q.id == f.req).map fun q => (q.core, q.word)).getD (0, 0)
      else (((x.cores.find? fun c => c.id == f.unit).map (·.idx)).getD 0, ((x.reqs.find? fun r => r.id == f.req).map (·.word)).getD 0)
    { (if f.src = 5 then x else x.hardStop unit.1 8 f.port f.addr unit.2) with header := { x.header with nomem := true } }

/-- LIGHT_FAULT_SERVICE (R66, R69, R83, R406): the oldest record that the keeper has taken is served by its kind, on the page as it stands
now; a page in a move waits. `frames` is the frame that a copy or a move needs, or a victim and a deep frame when HBM is short. -/
def execLightFaultService (ring : BitVec 4) (frames : List Nat) (s : State) : Out :=
  s.onMach fun M => match (M.warm.rings.getD ring.toNat Ring.reset).taken with
    | [] => M
    | f :: rest =>
      let va := f.addr % 2 ^ 48
      let closes (M : Mach) : Mach := { M with warm := M.warm.onRing ring.toNat fun r => { r with taken := rest } }
      if !lightKind f.kind then closes M
      else match M.warm.leaf f.asid va with
        | none => closes (M.restart f)
        | some p =>
          let n := leafSize p.level / 65536
          let waits (M : Mach) : Mach := if !M.short n then M else if !M.freeing && M.stuck then closes (M.noFrame f) else M.evict frames
          if f.kind = 1 then closes ({ M with warm := M.warm.setLeaf f.asid va fun w => setBitTo w 5 true }.restart f)
          else if f.kind = 2 then
            closes ({ M with warm := M.warm.setLeaf f.asid va fun w => setBitTo (setBitTo w 5 true) 6 true }.restart f)
          else if pteMoor p.word = 2 ∨ pteMoor p.word = 3 then M
          else if f.kind = 3 then
            if !pteSh p.word || pteMoor p.word != 0 then closes (M.restart f)
            else
              let new := frames.headD 0
              if M.freeFrames new n false then closes ((M.unshare f.asid va p new (some f.snap)).restart f) else waits M
          else if pteMoor p.word ≠ 1 then closes (M.restart f)
          else match M.requestMove f.asid va true (frames.headD 0) (257, 0) (some f) with
            | (M, some _) => M
            | (M, none) => waits M

/-! Routines (R165-R170, R378). -/

/-- The nearest integer to a quotient, ties to even. -/
def divNear (a b : Nat) : Nat :=
  let q := a / b
  let r := a % b
  if b < 2 * r ∨ (b = 2 * r ∧ q % 2 = 1) then q + 1 else q

/-- RNE_F32 of |x| / 127 (R166). -/
def scale127 (d : Dy) : Nat :=
  let n := d.m * 2 ^ 64 / 127
  let sticky := if d.m * 2 ^ 64 % 127 = 0 then 0 else 1
  (f32Shape.round rne false ⟨false, 2 * n + sticky, d.e - 65⟩).1

/-- The largest magnitude among F32 elements, NaN ignored (R166). -/
def maxAbs (l : List Nat) : Num :=
  l.foldl (fun m x => match f32Shape.decode x, m with
    | .inf _, _ => .inf false
    | .fin d, .fin e => if e.lt { d with neg := false } then .fin { d with neg := false } else m
    | _, _ => m) (.fin ⟨false, 0, 0⟩)

/-- scale_c of a channel (R166). -/
def kvScale (l : List Nat) : Nat := match maxAbs l with
  | .inf _ => f32Shape.infBits false
  | .fin d => if d.m = 0 then 0 else scale127 d
  | _ => 0

/-- q of one element (R166). -/
def kvQuant (x scale : Nat) : Nat :=
  match f32Shape.decode x, f32Shape.decode scale with
  | .fin a, .fin s =>
    if s.m = 0 then 0
    else
      let k := a.e - s.e
      let n := if 0 ≤ k then divNear (a.m * 2 ^ k.toNat) s.m else divNear a.m (s.m * 2 ^ (-k).toNat)
      ofInt 8 (if a.neg then -((min n 127 : Nat) : Int) else (min n 127 : Nat))
  | .inf n, .fin s => if s.m = 0 then 0 else ofInt 8 (if n then -127 else 127)
  | _, _ => 0

/-- The destination bytes of a KV-cache quantise, from the value at (token, channel) (R166). -/
def kvBytes (n c t : Nat) (at' : Nat → Nat → Nat) : Nat :=
  let q := t - 16 * 2 ^ (n - 8)
  let scales := (List.range c).map fun ch => kvScale ((List.range q).map fun tk => at' tk ch)
  let quant := (List.range q).flatMap fun tk => (List.range c).map fun ch => kvQuant (at' tk ch) (scales.getD ch 0)
  let wide := (List.range (t - q)).flatMap fun tk => (List.range c).map fun ch => (convert .f32 .b16 rne false (at' (q + tk) ch)).1
  pack 32 scales + 2 ^ (32 * c) * (pack 8 quant + 2 ^ (8 * q * c) * pack 16 wide)

/-- What a routine writes, as the packed stream of its destination, from its source's packed stream (R165, R378); `scales` holds
the scale codes and super-scales of routine 2. -/
def routineValue (q : Cmd) (src scales : Nat) : Nat :=
  let w := q.src.width
  let r := q.src.rows
  let len := pRow q.src.pat
  if q.routine = 1 then
    pack w ((List.range len).flatMap fun j => (List.range r).map fun i => elem w (i * len + j) src)
  else if q.routine = 2 then
    match shape .b16 with
    | none => 0
    | some s => pack 16 ((List.range (r * len)).map fun n =>
        (nq4Decode s (src / 2 ^ (8 * q.src.rowBytes * (n / len) + 4 * (n % len)) % 16) (elem 40 n scales % 256) (elem 40 n scales / 256)).1)
  else if 8 ≤ q.routine then
    let c := dExt q.src.desc 0
    let cells := (List.range r).flatMap fun k => (List.range len).map fun i =>
      let p := q.src.coord k
      (((p.getD 1 0).toNat, (p.getD 0 0).toNat + i), src / 2 ^ (8 * q.src.rowBytes * k + 32 * i) % 2 ^ 32)
    kvBytes q.routine c (dExt q.src.desc 1) fun tk ch => ((cells.find? fun e => e.1 == (tk, ch)).map (·.2)).getD 0
  else src

/-- Bytes that a command writes by its destination walk, and the granules that it writes: a check word is one more (R164, R167). -/
def Cmd.destSize (q : Cmd) : Nat := (destBytes q.routine q.src).getD 0
def Cmd.dests (q : Cmd) : Nat := cdiv q.destSize 64
def Cmd.writes (q : Cmd) : Nat := q.dests + if q.flags.getLsbD 1 then 1 else 0

/-- The elements of destination granule `d`, and their width: of its walk, or of the contiguous bytes of a KV-cache quantise (R166). -/
def Cmd.destElems (q : Cmd) (d : Nat) : List (Nat × Nat) × Nat :=
  if 8 ≤ q.routine then
    let a := q.dst.elemBit 0 0 / 8 + 64 * d
    ((List.range (min 64 (q.destSize - 64 * d))).map fun i => (8 * i, 8 * (a + i)), 8)
  else (q.dst.spanElems (64 * d) (min (64 * d + 64) q.dst.bytes), q.dst.width)

/-- Reads that destination granule `d` derives from: a copy writes behind its reads granule by granule, another routine once it has read all
(R164). -/
def Cmd.needs (q : Cmd) (d : Nat) : Nat := if (q.routine = 0 ∨ q.routine = 3) ∧ d < q.dests then min (d + 1) q.sources else q.sources

/-! Dedup (R169, R170, R403). -/

/-- The fingerprint of a page of 16,384 words (R169). -/
def fingerprint (page : Nat) : BitVec 64 :=
  let words := (List.range 16384).map fun i => BitVec.ofNat 32 (page / 2 ^ (32 * i))
  let l := words.foldl (· + ·) 0
  let h := (words.zip (List.range 16384)).foldl (fun (h : BitVec 32) q => h ^^^ q.1.rotateLeft (q.2 % 32)) 0
  h ++ l

/-- The bucket of a fingerprint (R403). -/
def bucketOf (f : BitVec 64) : Nat := (f ^^^ (f >>> 14) ^^^ (f >>> 32)).toNat % 4096

/-- Two frames hold the same bytes. -/
def sameFrame (m : Memory) (a b : Nat) : Bool :=
  (SMap.slice m (65536 * a) (65536 * a + 65536)).map (fun c => (c.1 - 65536 * a, c.2))
    == (SMap.slice m (65536 * b) (65536 * b + 65536)).map fun c => (c.1 - 65536 * b, c.2)

/-- The count of a frame: one that a page maps and that no dedup has counted is private, with count 1 (R170). -/
def Warm.count (W : Warm) (frame : Nat) : BitVec 32 :=
  let n := SMap.get (0 : BitVec 32) W.refs frame
  if n = 0 ∧ W.spaces.any (fun s => s.ptes.any fun p => decide (pteAddr p.word ≤ 65536 * frame) && decide (65536 * frame < pteAddr p.word + leafSize p.level))
  then 1 else n

/-- The keeper whose dedup ring takes the requests of an ASID (R170). -/
def dedupRing (a : BitVec 8) : Nat := (a ^^^ (a >>> 4)).toNat % 16

/-- One page of an xded, after its content is in place (R170). -/
def Mach.dedupPage (M : Mach) (k : Nat) (id va : Nat) : Mach :=
  match M.ctx? k with
  | none => M
  | some x => match M.warm.phys x.asid va with
    | none => M
    | some p =>
      let frame := p / 65536
      let f := fingerprint (M.warm.mem.read (65536 * frame) 65536)
      let W := { M.warm with refs := SMap.set 0 M.warm.refs frame (M.warm.count frame) }
      match x.index.find? fun e => bucketOf e.1 == bucketOf f with
      | none =>
        { M with warm := W }.setCtx { x with index := x.index ++ [(f, frame)] }
      | some e =>
        if e.1 == f && e.2 != frame && sameFrame M.warm.mem e.2 frame then
          let W := { W with refs := SMap.set 0 W.refs e.2 (W.count e.2 + 1) }
          let r : Remap := { ring := dedupRing x.asid, asid := x.asid, page := va, own := frame, shared := e.2, cmd := some id, mark := 0 }
          { M with warm := W, keepers := { M.keepers with dedup := M.keepers.dedup ++ [r] } }
        else { M with warm := W }

/-- The pages of an xded whose last byte has been written are looked up, in ascending order, each before a later one (R170). -/
def Mach.lookPages (M : Mach) (k id : Nat) : Nat → Mach
  | 0 => M
  | n + 1 => match (M.ctx? k).bind fun x => x.cmds.find? fun q => q.id == id && q.kind == 1 with
    | none => M
    | some q => match q.pages with
      | [] => M
      | p :: r =>
        if (q.dst.spanElems (64 * q.written) q.dst.bytes).any fun e => e.2 / 8 / 65536 == p then M
        else Mach.lookPages ((M.onCtx k fun x => { x with cmds := x.cmds.map fun c => if c.id == id then { c with pages := r } else c }).dedupPage k id (65536 * p)) k id n

/-! Running a command, granule by granule (R164-R168, R219). -/

/-- The commands of the cluster that a command follows and that have not posted (R162, R164). -/
def Ctx.ahead (x : Ctx) (q : Cmd) : List Cmd :=
  (x.cmds.takeWhile fun p => p.id != q.id).filter fun p => p.cluster == q.cluster && p.kind != 2 && !p.posted

/-- Another command of the same engine stands at a fault: the engine has one record (R87). -/
def Mach.engineHeld (M : Mach) (x : Ctx) (q : Cmd) : Bool :=
  M.ctxs.any fun y => y.cmds.any fun p => p.held && !(y.slot == x.slot && p.id == q.id) && y.engineOf p == x.engineOf q

/-- A command halts at its faulting granule, and its source is reported (R84, R87, R164); the commands behind it in its queue are held. -/
def Mach.haltCmd (M : Mach) (k : Nat) (q : Cmd) (m : Miss) (granule : Nat) (write : Bool) : Mach :=
  match M.ctx? k with
  | none => M
  | some x =>
    let behind (p : Cmd) : Bool := p.cluster == q.cluster && p.kind != 2 && !p.posted && decide (q.id ≤ p.id)
    let x := { x with cmds := x.cmds.map fun p => if behind p then { p with late := true } else p }
    if M.engineHeld x q then M.setCtx x
    else
      let x := { x with cmds := x.cmds.map fun p => if p.id == q.id then { p with held := true, faulted := some granule } else p }
      let x := if lightKind m.kind then x else x.hardStop q.core m.kind 0 m.addr q.word
      (M.setCtx x).raiseFault
        { source := 4096 + x.engineOf q, kind := m.kind, src := 3, asid := x.asid, write, fetch := false, raised := false
          unit := x.engineOf q, port := 0, level := m.level, addr := m.addr, cslot := x.cslot, mslot := M.mslot, position := granule
          entry := m.entry, ctx := k, req := q.id }

/-- What a command asks of one home of the sys: range. -/
def Ctx.cmdSend (x : Ctx) (q : Cmd) (id home gran : Nat) (reads : List Nat) (cells : List (Nat × Byte × Byte)) : SysSend :=
  { id := x.writeNum home id, ctx := x.asid.toNat, req := q.id, home, gran, addr := reads.headD ((cells.headD (0, 0, 0)).1), reads, cells
    deps := (SMap.get [] x.engineK (x.engineOf q) ++ q.seen).eraseDups, acked := false }

/-- A part of a granule that the send queue gives comes at once (R229). -/
def Mach.cmdForward (M : Mach) (k id : Nat) (open' : List Nat) (q : SysSend) : Mach :=
  match M.links.forward q.reads with
  | none => M
  | some (w, l) => M.onCtx k fun x => match x.cmds.find? fun c => c.id == id with
    | none => x
    | some c => (x.granuleArrives q c l (w.id :: w.deps)).takeGranules open' id (c.read + 1)

/-- Its sends leave for the modules that are home to some byte of them; what a read finds in the send queue is forwarded (R229). -/
def Mach.cmdSends (M : Mach) (k : Nat) (q : Cmd) (gran : Nat) (reads : List Nat) (cells : List (Nat × Byte × Byte)) : Mach :=
  match M.ctx? k with
  | none => M
  | some x =>
    let homes := ((reads ++ cells.map (·.1)).map homeAt).eraseDups
    let sends := homes.map fun h => x.cmdSend q x.nextReq h gran (reads.filter fun a => homeAt a == h) (cells.filter fun c => homeAt c.1 == h)
    let near (s : SysSend) : Bool := s.reads != [] && (M.links.forward s.reads).isSome
    let far := sends.filter fun s => !near s
    let M : Mach := { M with links := far.foldl (fun L s => L.dispatch x.asid s none) M.links }.setCtx { x with nextReq := x.nextReq + 1 }
    let open' := (M.links.send.filter fun s => s.ctx == x.asid.toNat && s.req == q.id && s.cells == []).map (·.gran)
    let parts := sends.filter near
    (parts.zip (List.range parts.length)).foldl (fun M s => M.cmdForward k q.id (if s.2 + 1 < parts.length then gran :: open' else open') s.1) M

/-- The bytes of source granule `g`, or of the check word beyond the last, as bit addresses, and their width (R164, R167). -/
def Cmd.readElems (q : Cmd) (g : Nat) : List (Nat × Nat) × Nat :=
  if g < q.sources then (q.sourceElems g, q.src.width) else ([(0, 8 * checkWordAt q.src.desc)], 32)

/-- A command's tensor-bounds fault at the scales of a granule (R245). -/
def Mach.scaleFault (M : Mach) (k : Nat) (q : Cmd) (g : Nat) : Mach := M.onCtx k fun x =>
  { (x.setCmd { q with held := true, late := true, faulted := some g }) with
    stops := x.stops ++ [{ slot := x.nextStop, cause := { core := q.core, lid := x.lid q.core, code := 0x16, stream := 4, word := q.word
                                                          port := 0, detail := 0 } }] }

/-- A command has read and written everything, and no part of it is out: it is done (R164, R168). -/
def Mach.finishCmd (M : Mach) (k id : Nat) : Mach :=
  match (M.ctx? k).bind fun x => (x.cmds.find? fun q => q.id == id).map fun q => (x, q) with
  | none => M
  | some (x, q) =>
    if q.done || decide (q.taken < q.reads) || decide (q.written < q.writes) || M.links.send.any (fun s => s.ctx == x.asid.toNat && s.req == id) then M
    else
      let bad := q.flags.getLsbD 0 && (crcOf q.crc).toNat != q.check.getD 0
      M.setCtx (x.setCmd { q with done := true, err := q.err || bad })

/-- The next source granule of a command is read, or asked of its homes (R164, R219, R228, R230). In replay a granule of the sys: range comes
from the log (R200). -/
def Mach.readGranule (M : Mach) (k : Nat) (q : Cmd) : Mach :=
  match M.ctx? k with
  | none => M
  | some x =>
    let g := q.read
    let source := 4096 + x.engineOf q
    let olds := M.olds source (16 + k, q.id)
    let (elems, w) := q.readElems g
    let scaleDesc := if g < q.sources then x.scaleDesc q else none
    let scales := (scaleDesc.map fun d => q.scaleElems d g).getD []
    let sysScales := (scaleDesc.map fun d => dSpace d == 3).getD false
    let far (sys : Bool) (l : List (Nat × Nat)) : Option Miss := if sys then x.sysMiss l else none
    let near (sys : Bool) (W : Warm) (l : List (Nat × Nat)) : Warm × (List (Nat × Nat) ⊕ Miss) :=
      if sys then (W, .inl []) else resolve olds x.asid source false W l
    if (scaleDesc.map fun d => q.scaleOut d g).getD false then M.scaleFault k q g
    else match far q.sysSource elems, far sysScales scales with
    | some m, _ | _, some m => M.haltCmd k q m g false
    | none, none => match near q.sysSource M.warm elems with
      | (W, .inr m) => { M with warm := W }.haltCmd k q m g false
      | (W, .inl sp) => match near sysScales W scales with
        | (W, .inr m) => { M with warm := W }.haltCmd k q m g false
        | (W, .inl cs) =>
          let got := if x.shared then W.observed ((sp.flatMap fun e => elemBytes w e.2) ++ cs.flatMap fun e => elemBytes 8 e.2) else []
          let e := x.engineOf q
          let p := (if q.sysSource then q else q.addData g (Machine.readElems W.mem w sp))
          let bytes := storedBytes W.mem w ((elems.zip sp).map fun s => (s.1.2, s.2.2))
          let p := { p with read := g + 1, scales := p.scales + Machine.readElems W.mem 8 cs, seen := (p.seen ++ got).eraseDups
                            crc := if g < q.sources && !q.sysSource then addBytes p.crc bytes else p.crc }
          let x := { (x.setCmd p) with engineK := SMap.set [] x.engineK e ((SMap.get [] x.engineK e ++ got).eraseDups) }
          let out := (if q.sysSource && x.replay.isNone then elems.flatMap fun e => elemBytes w e.2 else [])
            ++ if sysScales then scales.map fun e => e.2 / 8 else []
          let M := { M with warm := W }.setCtx x
          if out = [] then M.onCtx k fun x => x.takeGranules [] q.id 1 else M.cmdSends k p g out.eraseDups []

/-- The next destination granule of a command is written, or sent to its homes (R164, R167, R191-R194, R228). Replay sends none again (R200). -/
def Mach.writeGranule (M : Mach) (k : Nat) (q : Cmd) : Mach :=
  match M.ctx? k with
  | none => M
  | some x =>
    let d := q.written
    let e := x.engineOf q
    let (elems, w) := if d < q.dests then q.destElems d else ([(0, 8 * checkWordAt q.dst.desc)], 32)
    let value := if d < q.dests then routineValue q q.data q.scales / 2 ^ (512 * d) % 2 ^ 512
      else (crcOf (if q.routine = 4 then q.crc else q.dcrc)).toNat
    let mask := 2 ^ 512 - 1
    let sums (p : Cmd) (l : List (Nat × Byte)) : Cmd := { p with written := d + 1, dcrc := if d < q.dests then addBytes p.dcrc l else p.dcrc }
    if q.sysDest then match x.sysMiss elems with
      | some m => M.haltCmd k q m d true
      | none =>
        let cells := sentCells w value mask elems
        let p := sums q (cellBytes cells)
        let id := x.nextReq
        let away := (cells.map fun c => homeAt c.1).eraseDups
        let x := away.foldl (fun x h => x.irrevSend (0x100 + e) q.core (x.cmdSend q id h d [] (cells.filter fun c => homeAt c.1 == h)) 0) (x.setCmd p)
        if x.replay.isSome then M.setCtx x
        else
          let M := (M.setCtx x).cmdSends k q d [] cells
          M.onCtx k fun x =>
            let mine := M.links.send.filter fun s => s.ctx == x.asid.toNat && s.req == q.id && s.gran == d && s.cells != []
            { x with engineK := SMap.set [] x.engineK e (SMap.get [] x.engineK e ++ if x.shared then mine.map fun s => x.writeNum s.home id else []) }
    else match resolve (M.olds (4096 + e) (16 + k, q.id)) x.asid (4096 + e + 8192) true M.warm elems with
      | (W, .inr m) => { M with warm := W }.haltCmd k q m d true
      | (W, .inl dp) =>
        let both := (elems.zip dp).map fun s => (s.1.1, s.1.2, s.2.2)
        let u : Writer := { source := 0x100 + e, core := q.core, word := q.word, issue := q.issue, num := x.writeNum Config.self.toNat x.nextReq
                            deps := (SMap.get [] x.engineK e ++ q.seen).eraseDups, kind := 2, foreign := false, start := some q.start }
        let M := ({ M with warm := W }.setCtx { x with nextReq := x.nextReq + 1 }).writeHere k u w value mask both
        let l := storedBytes M.warm.mem w (both.map fun s => (s.2.1, s.2.2))
        M.onCtx k fun x =>
          let p := sums q l
          let num := if x.shared then [u.num] else []
          { (x.setCmd { p with seen := p.seen ++ num }) with engineK := SMap.set [] x.engineK e (SMap.get [] x.engineK e ++ num) }

/-- The logged line that replay feeds for the next destination granule of a carried command: it is written at that slot (R193, R200). -/
def Ctx.fedWrite (x : Ctx) (q : Cmd) : Option Undo :=
  x.fedEntry fun e => e.kind == 2 && e.space == 2 && e.source == 0x100 + x.engineOf q && e.core == q.core && e.issue == some q.issue
    && (if q.written < q.dests then (q.destElems q.written).1 else [(0, 8 * checkWordAt q.dst.desc)]).any fun s => s.2 / 512 == e.addr / 64

/-- What the reads, or the writes, of a command follow is over: accesses performed, and for the sys: range also landed, and writes applied
(R223, R224, R231, R232). -/
def Ctx.clearFor (x : Ctx) (L : Links) (q : Cmd) (write : Bool) : Bool :=
  ((if write then q.afterW else q.afterR).all fun i => !x.pendingId i)
    && (!(if write then q.sysDest else q.sysSource)
      || ((if write then q.goneW else q.goneR).all (fun i => !x.aliveId i) && L.settled q.acks))

/-- The command may read its next granule, or write it, now: started, no fault holds it, its order is met (R164, R223, R224, R232). -/
def Ctx.works (x : Ctx) (q : Cmd) : Bool := q.kind != 2 && q.started && !q.done && !q.held && x.moves
def Ctx.mayRead (x : Ctx) (L : Links) (q : Cmd) : Bool := x.works q && decide (q.read < q.reads) && x.clearFor L q false
def Ctx.mayWrite (x : Ctx) (L : Links) (q : Cmd) : Bool :=
  x.works q && decide (q.written < q.writes) && decide (q.needs q.written ≤ q.taken) && x.clearFor L q true
    && ((x.fedWrite q).map fun e => decide (e.cslot ≤ x.cslot)).getD true

/-- Up to `n` granules of a command are read, or written, now. -/
def Mach.readMore (M : Mach) (k id : Nat) : Nat → Mach
  | 0 => M.finishCmd k id
  | n + 1 => match (M.ctx? k).bind fun x => (x.cmds.find? fun q => q.id == id).filter fun q => x.mayRead M.links q with
    | none => M.finishCmd k id
    | some q => Mach.readMore (M.readGranule k q) k id n

def Mach.writeMore (M : Mach) (k id : Nat) : Nat → Mach
  | 0 => M.finishCmd k id
  | n + 1 => match (M.ctx? k).bind fun x => (x.cmds.find? fun q => q.id == id).filter fun q => x.mayWrite M.links q with
    | none => M.finishCmd k id
    | some q => Mach.writeMore ((M.writeGranule k q).lookPages k id q.pages.length) k id n

/-- Granules that the machine reads, or writes, in the present slot: any number that it chooses, in the window; all that are left once no later
slot is open to them (R164, R219, log 42). -/
def Ctx.readPace (x : Ctx) (q : Cmd) : Nat :=
  if !q.late && decide (q.post ≤ x.cslot + 1) then q.reads else Config.copyReads x.asid.toNat q.issue x.cslot

def Ctx.writePace (x : Ctx) (q : Cmd) : Nat :=
  if (!q.late && decide (q.post ≤ x.cslot)) || (x.fedWrite q).isSome then q.writes else Config.copyWrites x.asid.toNat q.issue x.cslot

/-- The copy commands of a context read, or write, what they read or write in this slot. -/
def Mach.copyReads (M : Mach) (k : Nat) : Mach :=
  match M.ctx? k with
  | none => M
  | some x => (x.cmds.filter fun q => x.mayRead M.links q).foldl (fun M q => M.sweep.readMore k q.id (x.readPace q)) M

def Mach.copyWrites (M : Mach) (k : Nat) : Mach :=
  match M.ctx? k with
  | none => M
  | some x =>
    let M := (x.cmds.filter fun q => q.started && !q.done).foldl (fun M q => M.finishCmd k q.id) M
    (x.cmds.filter fun q => x.mayWrite M.links q).foldl (fun M q => M.sweep.writeMore k q.id (x.writePace q)) M

/-- The command's start is due: its slot has come and no command ahead of it in its cluster is left (R164). -/
def Ctx.startDue (x : Ctx) (q : Cmd) : Bool :=
  q.kind != 2 && !q.started && decide (q.start ≤ x.cslot) && (x.ahead q).isEmpty

/-- COPY_COMMAND_START (R164): a command that was held behind another starts late, and its window moves with it. -/
def execCopyCommandStart (k id : Nat) (s : State) : Out :=
  s.onCtx k fun x => { x with cmds := x.cmds.map fun q =>
    if q.id == id && x.moves && x.startDue q then { q with started := true, start := x.cslot, post := x.cslot + (q.post - q.start) } else q }

/-- A command posts (R150, R164, R168, R193): one that was held, or that writes to the sys: range, at no fixed slot, which is logged (R192); an
xcopy is then over, an xded when its remaps are. -/
def Mach.postCmd (M : Mach) (k : Nat) (q : Cmd) (err : Bool) : Mach :=
  M.onCtx k fun x =>
    let free := q.late || q.sysDest
    let x := x.postOp q.core q.tc err q.issue free
    let x := x.onCore q.core fun c => { c with causal := (c.causal ++ (if x.shared then q.seen ++ SMap.get [] x.engineK (x.engineOf q) else [])).eraseDups }
    { x with cmds := x.cmds.map fun p => if p.id == q.id then { p with posted := true, done := true, err } else p }

/-- A command's post is due. -/
def Ctx.postDue (x : Ctx) (q : Cmd) : Bool := q.kind != 2 && q.started && !q.posted && !q.late && decide (q.post ≤ x.cslot)

/-- COPY_COMMAND_POST (R164): a command whose routine has completed posts; one whose routine has not is stopped for overrun, and posts its
error. A command that has been held is none of these. -/
def execCopyCommandPost (k id : Nat) (s : State) : Out :=
  s.onMach fun M => match M.ctx? k with
    | none => M
    | some x => match x.cmds.find? fun q => q.id == id with
      | none => M
      | some q => if x.moves && x.postDue q then M.postCmd k q (!q.done || q.err) else M

/-- ROUTINE_COMPLETE (R164, R216, R322): the routine of a command does all that is left for it; the counter of a command that has been held
posts in a slot that finds it complete, before the waits of that slot. -/
def execRoutineComplete (k id : Nat) (s : State) : Out :=
  s.onMach fun M =>
    match (M.ctx? k).bind fun x => (x.cmds.find? fun q => q.id == id).map fun q => (x, q) with
    | none => M
    | some (x, q) =>
      if !q.done then (M.sweep.readMore k id q.reads).writeMore k id q.writes
      else if x.moves && q.kind != 2 && q.late && !q.posted && (x.ahead q).isEmpty then M.postCmd k q q.err
      else M

/-- A large leaf gives way to leaves of 64 KiB that map the same frames with the same fields (R171). -/
def Mach.splitPage (M : Mach) (asid : BitVec 8) (va : Nat) : Mach :=
  match M.warm.leaf asid va with
  | none => M
  | some p =>
    if p.level = 3 then M
    else
      let parts := (List.range (leafSize p.level / 65536)).map fun i =>
        { p with level := 3, va := p.va + 65536 * i, word := setAddr p.word (pteAddr p.word + 65536 * i) }
      let W := parts.foldl (fun W q => W.putLeaf M.heap asid q) (M.warm.dropLeaf asid p)
      ({ M with warm := W }.invalidate [] asid p.va p.level).1

/-- The pages that map any part of a frame. -/
def Warm.mapping (W : Warm) (frame : Nat) : List (BitVec 8 × Nat) :=
  W.spaces.flatMap fun s => (s.ptes.filter fun p => decide (pteAddr p.word ≤ 65536 * frame)
    && decide (65536 * frame < pteAddr p.word + leafSize p.level)).map fun p => (s.asid, p.va + (65536 * frame - pteAddr p.word))

/-- One remap request (R171). First its candidate frame is made shared and invalidated; once that is done everywhere the frames are
compared again, and the page is remapped, to the home that the shared frame is in, or left private. A request on a page in a move waits. -/
def Mach.serveRemap (M : Mach) (q : Remap) : Mach :=
  let others := M.keepers.dedup.erase q
  let put (M : Mach) (l : List Remap) : Mach := { M with keepers := { M.keepers with dedup := l } }
  let leaves := (M.warm.leaf q.asid q.page).toList ++ (M.warm.mapping q.shared).filterMap fun p => M.warm.leaf p.1 p.2
  if leaves.any fun p => pteMoor p.word == 2 || pteMoor p.word == 3 then M
  else if q.mark = 0 then
    let M := (M.warm.mapping q.shared).foldl (fun M p => M.splitPage p.1 p.2) (M.splitPage q.asid q.page)
    let old := M.warm.mappers (65536 * q.shared) 3
    let M := { M with warm := M.warm.onFrame (65536 * q.shared) 3 fun w => setBitTo (setBitTo w 7 true) 3 false }.invalidateAll old true
    put M (M.keepers.dedup.map fun r => if r == q then { r with mark := M.warm.invseq } else r)
  else if M.warm.invdone < q.mark then M
  else
    let home := ((M.warm.mappers (65536 * q.shared) 3).head?.map fun p => pteMoor p.2.word).getD (if deepFrame q.shared then 1 else 0)
    if sameFrame M.warm.mem q.own q.shared && M.warm.phys q.asid q.page == some (65536 * q.own) && leaves.all (fun p => pteMoor p.word != 4) then
      let W := M.warm.setLeaf q.asid q.page fun w =>
        setBitTo (setBitTo (setBitTo (setBitTo (setMoor (setAddr w (65536 * q.shared)) home) 7 true) 3 false) 5 true) 6 true
      let old := ((M.warm.leaf q.asid q.page).map fun p => (q.asid, p)).toList
      let W := if M.freeFrames q.shared 1 (deepFrame q.shared) then W.take q.shared 1 else W
      let (M, n) := { M with warm := { W with refs := SMap.set 0 W.refs q.own 0 } }.invalidate old q.asid q.page 3
      put (M.freeAfter n q.own 1) others
    else
      let c := SMap.get 0 M.warm.refs q.shared - 1
      let M := put { M with warm := { M.warm with refs := SMap.set 0 M.warm.refs q.shared c } } others
      if c = 0 then M.freeAfter q.mark q.shared 1 else M

/-- DEDUP_REMAP_SERVICE (R171): the keeper serves the command's next request, or, with none left, makes the second post. A command that is no
more names the oldest request of a context that has been released. -/
def execDedupRemapService (k id : Nat) (s : State) : Out :=
  s.onMach fun M => match (M.ctx? k).bind fun x => (x.cmds.find? fun q => q.id == id).map fun q => (x.asid, q) with
    | none => match M.keepers.dedup.find? fun r => r.cmd.isNone with
      | some r => M.serveRemap r
      | none => M
    | some (a, q) =>
      if q.kind ≠ 1 || !q.posted || q.second then M
      else match M.keepers.dedup.find? fun r => r.asid == a && r.cmd == some id with
        | some r => M.serveRemap r
        | none => M.onCtx k fun x =>
          let x := x.postOp q.core q.tc false (q.issue + 2 ^ 64) true
          { x with cmds := x.cmds.map fun p => if p.id == id then { p with second := true } else p }

/-! xpref (R70, R379). -/

/-- The pages that hold a byte of a walk, in ascending order. -/
def Walk.warmPages (w : Walk) (W : Warm) (asid : BitVec 8) : List Nat :=
  let addrs := sortBy (fun (n : Nat) => n) ((w.spanElems 0 w.bytes).map fun e => e.2 / 8 / 65536).eraseDups
  (addrs.map fun p => ((W.leaf asid (65536 * p)).map (·.va)).getD (65536 * p)).eraseDups

/-- The pages of an xpref that the keeper decides now, in ascending order, up to one that must wait for a frame (R68, R69): the keeper frees
frames for it, or fails it when nothing can. Answers what is left, and whether a page has failed. -/
def Mach.decidePages (M : Mach) (asid : BitVec 8) (id : Nat) (up : Bool) : List Nat → Bool → Mach × List Nat × Bool
  | [], err => (M, [], err)
  | va :: r, err =>
    let n := ((M.warm.leaf asid va).map fun p => leafSize p.level / 65536).getD 1
    match M.requestMove asid va up (M.pickFrame n (!up)) (asid.toNat, id) with
    | (M, some .busy) | (M, some .lost) => M.decidePages asid id up r true
    | (M, some _) => M.decidePages asid id up r err
    | (M, none) =>
      if !up || (!M.freeing && M.stuck) then M.decidePages asid id up r true else (M.evictAny, va :: r, err)

/-- XPREF_POST (R69, R70, R379): the keeper decides the pages of the request, in ascending order (R68); when every move that it started or
joined has ended, the counter posts at this MSLOT, with the error bit if a page did not reach the tier. -/
def execXprefPost (k id : Nat) (s : State) : Out :=
  s.onMach fun M => match M.ctx? k with
    | none => M
    | some x => match x.cmds.find? fun q => q.id == id && q.kind == 2 && !q.posted with
      | none => M
      | some q =>
        let todo := if q.started then q.pages else q.src.warmPages M.warm x.asid
        if !q.started || todo != [] then
          let (M, pages, err) := M.decidePages x.asid id (!q.flags.getLsbD 0) todo q.err
          M.onCtx k fun x => { x with cmds := x.cmds.map fun p => if p.id == id then { p with started := true, pages, err } else p }
        else if M.warm.moves.any fun m => m.who.contains (x.asid.toNat, id) then M
        else M.onCtx k fun x =>
          let x := x.postOp q.core q.tc q.err q.issue true
          { x with cmds := x.cmds.map fun p => if p.id == id then { p with posted := true, done := true } else p }

/-! xpost (R380). -/

/-- Every operation that an xpost joins has posted; then it posts, with the error bit if one of them did. -/
def Ctx.joinPosts (x : Ctx) : Ctx :=
  let open' (j : Join) : Bool := (x.xings.any fun q => j.xings.contains q.id && !q.posted) || x.cmds.any fun q => j.cmds.contains q.id && !q.posted
  let due := x.joins.filter fun j => decide (j.issue + 1 ≤ x.cslot) && !open' j
  let bad (j : Join) : Bool := j.err || (x.xings.any fun q => j.xings.contains q.id && q.err) || x.cmds.any fun q => j.cmds.contains q.id && q.err
  let free (j : Join) : Bool := x.cmds.any fun q => j.cmds.contains q.id && (q.late || q.sysDest)
  let y := due.foldl (fun y j => y.postOp j.core j.tc (bad j) j.issue (free j)) x
  { y with joins := x.joins.filter fun j => !(decide (j.issue + 1 ≤ x.cslot) && !open' j) }

/-- Crossings and commands that have ended are dropped, but for those that an xpost waits for, and those whose error bit a later one takes over. -/
def Ctx.tidy (x : Ctx) : Ctx :=
  { x with xings := x.xings.filter fun q => !q.posted || q.err || x.joins.any fun j => j.xings.contains q.id
           cmds := x.cmds.filter fun q => !(q.posted && (q.kind != 1 || q.second)) || (q.err && q.kind != 2) || x.joins.any fun j => j.cmds.contains q.id
           lanes := x.lanes.filter fun h => match h.upto with
             | some u => decide (x.cslot ≤ u)
             | none => true }

end Sys2Proof.Machine
end

