-- ==== Sys2Proof/Machine/Journal.lean ====
section
/-! DEFINITION. The keepers' records: trace rings, the journal, and the ends of commands (R19, R50, R53-R58, R210). -/

namespace Sys2Proof.Machine

/-! Trace (R210). -/

/-- A trace record of 32 bytes. -/
def traceRecord (cslot mslot clock event asid core data : Nat) : Nat :=
  cslot % 2 ^ 64 + 2 ^ 64 * (mslot % 2 ^ 64) + 2 ^ 128 * (clock % 2 ^ 64) + 2 ^ 192 * (event % 256) + 2 ^ 200 * (asid % 256)
    + 2 ^ 208 * (core % 2 ^ 16) + 2 ^ 224 * (data % 2 ^ 32)

/-- The offset after a write at the write offset. -/
def Trace.after (t : Trace) : Nat := if t.woff + 64 ≤ t.size then t.woff + 32 else 32

/-- Full: an advance would reach the read offset, which the host writes. -/
def Trace.full (t : Trace) (m : Memory) : Bool := t.after == m.read t.base 8

/-- One record written, or dropped and counted. -/
def Trace.write (t : Trace) (m : Memory) (v : Nat) : Trace × Memory :=
  if t.full m then ({ t with dropped := t.dropped + 1 }, m)
  else ({ t with woff := t.after }, (m.write (t.base + t.woff) 32 v).write (t.base + 8) 8 t.after)

/-- An event; records dropped before it are told first (event 9). -/
def Trace.put (t : Trace) (m : Memory) (rec : Nat → Nat → Nat) (event data : Nat) : Trace × Memory :=
  if t.dropped = 0 ∨ t.full m then t.write m (rec event data)
  else
    let (t, m) := { t with dropped := 0 }.write m (rec 9 t.dropped)
    t.write m (rec event data)

/-- An event of a context, or of every ring: each active ring whose mask enables it takes a record. -/
def Mach.traceTo (M : Mach) (who : Trace → Bool) (event cslot asid core data : Nat) : Mach :=
  let rec' (e d : Nat) : Nat := traceRecord cslot M.mslot M.links.clock e asid core d
  let (ts, m) := M.traces.foldl (fun (r : List Trace × Memory) t =>
    if who t && t.mask.getLsbD event then
      let (t, m) := t.put r.2 rec' event data
      (r.1 ++ [t], m)
    else (r.1 ++ [t], r.2)) ([], M.warm.mem)
  if M.traces = [] then M else { M with traces := ts, warm := { M.warm with mem := m } }

def Mach.trace (M : Mach) (x : Ctx) (event core data : Nat) : Mach :=
  M.traceTo (fun t => t.slot == x.slot) event x.cslot x.asid.toNat core data

/-! The journal (R53-R56). -/

/-- A journal entry without its CRC. -/
def journalBody (seq clock kind queue asid status ref index detail rec : Nat) : Nat :=
  seq % 2 ^ 64 + 2 ^ 64 * (clock % 2 ^ 64) + 2 ^ 128 * kind + 2 ^ 136 * queue + 2 ^ 144 * asid + 2 ^ 160 * status + 2 ^ 192 * (ref % 2 ^ 64)
    + 2 ^ 256 * (index % 2 ^ 64) + 2 ^ 320 * (detail % 2 ^ 64) + 2 ^ 512 * rec

/-- The CRC of R53 covers bytes 0x00-0x37 and 0x40-0x7F. -/
def journalCrc (v : Nat) : BitVec 32 := crc32c (toBytes 56 v ++ toBytes 64 (v / 2 ^ 512))

def journalEntry (seq clock kind queue asid status ref index detail rec : Nat) : BitVec 1024 :=
  let v := journalBody seq clock kind queue asid status ref index detail rec
  BitVec.ofNat 1024 (v + 2 ^ 448 * (journalCrc v).toNat)

/-- The journal goes to both drives (R56). -/
def Journal.persist (j : Journal) : Journal := { j with persisted := j.next, saved := j.ring }

/-- Boot has ended well, and keepers take commands (R36). -/
def Mach.accepting (M : Mach) : Bool := M.keepers.bootPhase == 4 || M.keepers.bootPhase == 0xE

/-- The safe state of a module that has lost its last keeper (R184). -/
def Mach.safe (M : Mach) : Bool := M.keepers.bootPhase == 0xF && M.keepers.fstage == 0

/-- The firmware persists the journal once boot has restored it, to the drives that are left; with both lost nothing can be persisted
(R56, R58). -/
def Mach.persist (M : Mach) : Mach :=
  if M.keepers.lost.all id || !M.accepting then M else { M with journal := M.journal.persist }

/-- An entry appended; after 4,096 new ones the journal is persisted (R53, R56). -/
def Mach.entry (M : Mach) (kind queue asid status : Nat) (ref : Option Nat) (index detail rec : Nat) : Mach :=
  let j := M.journal
  let e := journalEntry j.next M.links.clock kind queue asid status (ref.getD j.next) index detail rec
  let j := { j with next := j.next + 1, ring := SMap.set 0 j.ring (j.next % 2 ^ 20) e }
  let M := { M with journal := j }
  if 4096 ≤ j.next - j.persisted then M.persist else M

/-! Commands and their ends (R46, R49, R50). -/

def HostCmd.field (c : HostCmd) (off n : Nat) : Nat := c.words.toNat / 2 ^ (8 * off) % 2 ^ (8 * n)
def HostCmd.kind (c : HostCmd) : Nat := c.field 0 1
def HostCmd.asid (c : HostCmd) : BitVec 8 := BitVec.ofNat 8 (c.field 2 1)
def HostCmd.waitPrev (c : HostCmd) : Bool := c.field 1 1 % 2 == 1

/-- Where its completion signal goes; 0 for none (R47). -/
def HostCmd.signalAt (c : HostCmd) : Nat := if c.kind = 1 then recField c.record 0x048 8 else c.field 0x10 8

def Mach.cmd? (M : Mach) (seq : Nat) : Option HostCmd := M.cmds.find? fun c => c.seq == seq
def Mach.setCmd (M : Mach) (c : HostCmd) : Mach := { M with cmds := M.cmds.map fun d => if d.seq == c.seq then c else d }

/-- A launch of the ASID waits in the launch unit, or has been accepted and has not entered it (R398). -/
def Mach.queued (M : Mach) (a : BitVec 8) : Bool :=
  M.launch.any (fun q => q.any fun w => w.asid == a) || M.cmds.any fun c => c.kind == 1 && c.asid == a && c.state == .accepted

/-- The watchpoints kept for an ASID go with the last of its launches (R398). -/
def Mach.forget (M : Mach) (a : BitVec 8) : Mach := if M.queued a then M else { M with kept := M.kept.filter fun e => e.1 != a }

def Mach.raiseVector (M : Mach) (v : Nat) : Mach := { M with host := { M.host with msix := M.host.msix ++ [v] } }

/-- A signal or a COPYOUT byte reaches host memory. -/
def Mach.hostWrite (M : Mach) (a n v : Nat) : Mach := { M with host := { M.host with memory := M.host.memory.write a n v } }

/-- START (R49). -/
def Mach.startEntry (M : Mach) (c : HostCmd) : Mach :=
  (M.setCmd { c with state := .started }).entry 3 c.queue c.asid.toNat 0 (some c.seq) c.index 0 0

/-- A command's end: the entry, the signal, the vector, in this order (R50); the command is then gone. -/
def Mach.endCmd (M : Mach) (c : HostCmd) (status detail : Nat) : Mach :=
  let fail := status != 0
  let seq := M.journal.next
  let M := M.entry (if fail then 5 else 4) c.queue c.asid.toNat status (some c.seq) c.index detail 0
  let M := if c.signalAt = 0 ∨ c.kind = 7 then M else M.hostWrite c.signalAt 8 (seq + if fail then 2 ^ 63 else 0)
  { M.raiseVector c.queue with cmds := M.cmds.filter fun d => d.seq != c.seq }

/-- The end of a command that is known by its number. -/
def Mach.endSeq (M : Mach) (seq status detail : Nat) : Mach :=
  match M.cmd? seq with
  | none => M
  | some c => M.endCmd c status detail

end Sys2Proof.Machine
end

