-- ==== Sys2Proof/Machine/Record.lean ====
section
/-! DEFINITION. What a keeper sees of a frozen context: freeze records, pending tables, the freeze window, and the core file of a dump (R85,
R121, R139, R175-R178, R185). -/

namespace Sys2Proof.Machine

/-- Bytes to write: address, size, value. -/
abbrev Chunk := Nat × Nat × Nat

/-- A memory with chunks written at their offsets from `base`. -/
def putChunks (m : Memory) (base : Nat) (l : List Chunk) : Memory := l.foldl (fun m q => m.write (base + q.1) q.2.1 q.2.2) m

/-- The bytes of [0, n) of `src` put at `base`. -/
def putImage (m : Memory) (base n : Nat) (src : Memory) : Memory :=
  (SMap.slice src 0 n).foldl (fun m c => m.setByte (base + c.1) c.2) m

/-- Consecutive values of `n` bytes each. -/
def chunksOf (off n : Nat) (l : List Nat) : List Chunk := ((List.range l.length).zip l).map fun q => (off + n * q.1, n, q.2)

/-! Parts of a core that a record or a window header names. -/

/-- A loop stack as four words, outermost first (R175). -/
def loopWords (l : List Loop) : Nat :=
  pack 64 (l.reverse.map fun e => e.start % 4096 + 2 ^ 12 * (e.stop % 4096) + 2 ^ 24 * e.left.toNat)

def Core.allStreams (c : Core) : List StreamSt := [c.s, c.v, c.m, c.x]

/-- The pattern position of the first unpopped row, and of the next row to apply (R85, R188). -/
def Core.inPosition (c : Core) (i : Nat) : Nat := ((c.inp i).walk.map fun w => w.position (c.inp i).popped).getD 0
def Core.outPosition (c : Core) (i : Nat) : Nat := ((c.outp i).walk.map fun w => w.position (c.outp i).applied).getD 0

/-! Barriers (R121). -/

/-- The slot at which a core arrived at beacon `b` (R108, R121). -/
def Core.arrived (c : Core) (b : Nat) : Option Nat :=
  if c.idle then some 0
  else match c.barred with
    | some (b', t) => if b' = b then some t else none
    | none => c.line

def barrierLatency (scope : Nat) : Nat := if scope = 1 then 12 else if scope = 2 then 32 else 96

/-- The release slot of an instance, once every core of it has arrived, one of them by a bar (R121). -/
def Ctx.releaseSlot (x : Ctx) (b inst : Nat) : Option Nat :=
  let cores := x.cores.filter fun c => x.instance' b c.cluster == inst
  let slots := cores.map fun c => c.arrived b
  if slots.all Option.isSome && cores.any (fun c => match c.barred with
      | some (b', _) => b' == b
      | none => false) then
    some (slots.foldl (fun m q => max m (q.getD 0)) 0 + barrierLatency (x.beacon b))
  else none

/-! The freeze record (R139, R175). -/

/-- The hold of a core: the slot of its bar or checkpoint, and its end as R175 has it, the release slot or the checkpoint's last held slot. -/
def Ctx.holdOf (x : Ctx) (c : Core) : Option (Nat × Option Nat) :=
  match c.barred, c.hold with
  | some (b, t), _ => some (t, x.releaseSlot b (x.instance' b c.cluster))
  | none, some (t, u) => some (t, some u)
  | none, none => none

/-- The next unheld slot of a core: its streams stand at it (R114, R304). -/
def Ctx.unheld (x : Ctx) (c : Core) : Nat := ((x.holdOf c).map fun q => q.1 + 1).getD x.cslot

/-- The slot, not counting a hold, at which a stream issues next: its next word, or the target of a transfer whose window ends before that. -/
def StreamSt.nextSlot (q : StreamSt) (now : Nat) : Nat :=
  let q := q.redirect now
  let gap (i : Nat) : Nat := if i < 4096 then gapOf (q.word i) else 0
  match q.xfer with
  | some f => if f.last < q.ready + gap q.pc then f.last + 1 + gap f.target else q.ready + gap q.pc
  | none => q.ready + gap q.pc

/-- The slots from the context's slot to a stream's next issue, through the hold; of a core whose release is not known, from that; all ones for
a halted core, which has none (R175, log 113). -/
def Ctx.nextIssue (x : Ctx) (c : Core) (q : StreamSt) : Nat :=
  let due := q.nextSlot (x.unheld c)
  if c.halt.isSome then 2 ^ 32 - 1
  else match x.holdOf c with
    | none => due - x.cslot
    | some (t, some u) => due + (if c.barred.isSome then u - 1 else u) - t - x.cslot
    | some (t, none) => due - (t + 1)

/-- The MICRO word of an S stream: a pending transfer, its target, and the slots left of its window (R304). -/
def StreamSt.pendingWord (q : StreamSt) (now : Nat) : Nat :=
  match (q.redirect now).xfer with
  | some f => 2 ^ 63 + 2 ^ 32 * (f.target % 4096) + (f.last + 1 - now) % 8
  | none => 0

/-- The value that goes with the greatest key; 0 for none. -/
def newest (l : List (Nat × Nat)) : Nat :=
  (l.foldl (fun (b : Option (Nat × Nat)) q => match b with
    | none => some q
    | some p => if p.1 ≤ q.1 then some q else some p) none).elim 0 (·.2)

/-- The micro-counter of a stream (R139): the row or granule that its multi-slot instruction reaches next, the newest one if several are in
progress (log 113); of S its pending transfer (R304). -/
def Ctx.micro (x : Ctx) (c : Core) (st : Stream) : Nat :=
  let t := x.cslot
  let live := c.ops.filter fun o => o.stream == st && decide (o.issue < t)
  match st with
  | .s => c.s.pendingWord (x.unheld c)
  | .v => newest ((live.filter fun o => decide (t < o.issue + o.span)).map fun o => (o.issue, t - o.issue))
  | .m => newest ((live.filter fun o => decide (o.next < o.rows)).map (fun o => (o.issue, o.next))
      ++ (c.pend.filter fun p => p.stream == .m && decide (p.land ≤ p.issue + 16) && match p.dst with
        | .a .. => true
        | _ => false).map fun p => (p.issue, t - p.issue))
  | .x => newest ((((x.xings.filter fun q => q.core == c.idx).map fun q => (q.issue, if q.kind = 0 then q.done else q.next, cdiv q.bytes 64))
      ++ (x.cmds.filter fun q => q.core == c.idx && q.kind != 2 && q.started && !q.done).map fun q => (q.issue, q.read, q.sources)).filterMap
        fun q => if q.2.1 < q.2.2 then some (q.1, q.2.1) else none)

/-- A pending-result entry of 544 bytes (R176): kind, register, row, stream, slots left, issue, line address, mask, value. -/
structure PendEntry where
  kind : Nat
  reg : Nat
  row : Nat
  stream : Nat
  left : Nat
  issue : Nat
  addr : Nat
  mask : BitVec 64
  value : Nat
  deriving DecidableEq, Repr

/-- The entries of one result: the zeroing of the accumulators and planes by a tcfg has one for each row (R366). -/
def Core.pendEntries (c : Core) (t : Nat) (p : Pend) : List PendEntry :=
  let e (kind reg row addr : Nat) : PendEntry :=
    { kind, reg, row, stream := rank p.stream, left := p.land - t, issue := p.issue, addr, mask := p.mask, value := p.value.toNat }
  match p.dst with
  | .g r => [e 1 r 0 0]
  | .p r => [e 2 r 0 0]
  | .lc r => [e 3 r 0 0]
  | .k r row => [e 4 r row 0]
  | .v r row => [e 5 r row 0]
  | .a r row => [{ e 6 r row 0 with value := accRow p (c.acc r row) }]
  | .shadow row => [e 7 0 row 0]
  | .column col => [e 7 0 col 0]
  | .cold line => [e 9 0 0 (64 * line)]
  | .pool line => [e 10 0 0 (64 * line)]
  | .clear => (List.range 64).map (fun i => { e 6 (i / 16) (i % 16) 0 with value := 0 })
      ++ (List.range 128).flatMap fun i => [{ e 7 0 i 0 with value := 0 }, { e 8 0 i 0 with value := 0 }]
  | .h _ | .pat _ | .sreg _ | .dphase | .planes | .scale _ | .mesh | .send .. => []

/-- The pending-result table of a core, in ascending landing slot (R176). -/
def Ctx.pendTable (x : Ctx) (c : Core) : List PendEntry :=
  sortBy (·.left) ((c.pend.filter fun p => decide (x.cslot < p.land)).flatMap (c.pendEntries x.cslot))

def PendEntry.chunks (e : PendEntry) : List Chunk :=
  [(0x00, 1, e.kind), (0x01, 1, e.reg), (0x02, 1, e.row), (0x03, 1, e.stream), (0x04, 4, e.left), (0x08, 8, e.issue), (0x10, 8, e.addr)
  , (0x18, 8, e.mask.toNat), (0x20, 512, e.value)]

def putEntries (m : Memory) (base : Nat) (l : List PendEntry) : Memory :=
  ((List.range l.length).zip l).foldl (fun m q => putChunks m (base + 544 * q.1) q.2.chunks) m

/-- Where a core's entries beyond 64 go in the keeper heap (R175, R176, log 113). -/
def Mach.spillAt (M : Mach) (x : Ctx) (c : Core) : Nat := M.heap + 0xC0000000 + 2 ^ 19 * (256 * x.slot + c.idx)

/-- LEADRES: the entries that the plan holds reserved at slot `t`, the row whose slot it is among them, if its entry is free (R175). -/
def InPort.leadRes (q : InPort) (t : Nat) : Nat := q.planNext + (if q.planDue t then 1 else 0) - q.popped

/-- The freeze record of a core (R175). -/
def Ctx.recordChunks (x : Ctx) (M : Mach) (c : Core) : List Chunk :=
  let r := c.record
  let bit (b : Bool) (i : Nat) : Nat := if b then 2 ^ i else 0
  let n := (x.pendTable c).length
  let holdEnd := ((x.holdOf c).bind (·.2)).getD 0
  [(0x000, 2, 1), (0x002, 1, r.cause), (0x003, 1, bit r.reported 0 + bit (decide (64 < n)) 1 + bit c.barred.isSome 2 + bit c.hold.isSome 3)
  , (0x004, 2, c.id), (0x006, 2, n), (0x008, 8, x.header.cslot), (0x010, 8, x.header.mslot), (0x018, 4, r.word.toNat), (0x01C, 1, r.stream)
  , (0x01D, 1, r.port), (0x020, 8, r.detail.toNat), (0x028, 8, r.causes.toNat)]
    ++ chunksOf 0x030 4 (c.allStreams.map fun q => (q.redirect (x.unheld c)).pc % 4096)
    ++ chunksOf 0x040 4 (c.allStreams.map (x.nextIssue c))
    ++ chunksOf 0x050 8 ([Stream.s, .v, .m, .x].map (x.micro c))
    ++ [(0x070, 8, holdEnd)]
    ++ chunksOf 0x080 32 (c.allStreams.map fun q => loopWords q.loops)
    ++ (List.range 8).flatMap (fun i =>
      let q := c.inp i
      let at' (k : Nat) : Nat := (q.walk.map fun w => w.position k).getD 0
      [(0x100 + 32 * i, 2, q.popped % max 1 q.cap), (0x102 + 32 * i, 2, (q.popped + q.entries.length) % max 1 q.cap)
      , (0x104 + 32 * i, 2, q.entries.length), (0x106 + 32 * i, 2, q.res)
      , (0x108 + 32 * i, 2, q.leadRes x.cslot)
      , (0x110 + 32 * i, 8, at' q.next), (0x118 + 32 * i, 8, (q.halted.map at').getD (2 ^ 64 - 1))])
    ++ (List.range 4).flatMap (fun i => [(0x200 + 16 * i, 2, (c.outp i).queued), (0x208 + 16 * i, 8, c.outPosition i)])
    ++ [(0x240, 8, if 64 < n then M.spillAt x c else 0)]

/-! The freeze window (R178). -/

/-- The context as its record shows it: what lands at its slot has landed (R115, R176). -/
def Ctx.landed (x : Ctx) : Ctx := (List.range x.cores.length).foldl (fun x j => x.landDue j) x

/-- The context header (R178, log 113): eight bytes for each field, in the order of R178, then the flags word, of which bit 0 says that a dump
was cut short (R186) and bit 1 that its handler was lost (R184). -/
def Ctx.headerFields (x : Ctx) (short : Bool) : List Chunk :=
  let h := x.header
  let pending := (x.stops.map fun q => q.cause.code % 64).foldl (fun m c => if m.testBit c then m else m + 2 ^ c) 0
  let thaw : Nat := match x.run with
    | .frozen _ (some _) => 1
    | _ => 0
  chunksOf 0 8 [x.asid.toNat, h.cause, h.core, h.cslot, h.mslot, x.phase, x.win.num, h.freezes, pending, if h.ack then 1 else 0, thaw
               , (if short then 1 else 0) + if h.handlerLost then 2 else 0]

/-- The state registers that the window shows, in this order (R143, R178, R204). -/
def windowRegs : List Nat :=
  [0x000, 0x001, 0x002, 0x003] ++ (List.range 9).map (0x008 + ·) ++ (List.range 8).map (0x018 + ·) ++ [0x020, 0x021] ++ (List.range 8).map (0x030 + ·)
    ++ [0x040, 0x041, 0x042] ++ (List.range 9).map (0x050 + ·) ++ (List.range 12).map (0x180 + ·)
    ++ (List.range 16).map (0x100 + ·)

/-- A register of the watchpoints: WPADDR, WPMASK, WPCTL, WPHIT of each, the same in every core (R204). -/
def Ctx.watchReg (x : Ctx) (i : Nat) : W64 :=
  match x.watch[i / 4]? with
  | none => 0
  | some w => match i % 4 with
    | 0 => w.addr &&& BitVec.ofNat 64 (2 ^ 48 - 1)
    | 1 => w.mask
    | 2 => w.ctl &&& 0xFFFF
    | _ => w.hit

/-- A state register as a keeper reads it. -/
def Ctx.keeperRead (x : Ctx) (M : Mach) (c : Core) (n : Nat) : W64 :=
  if 0x100 ≤ n ∧ n < 0x110 then x.watchReg (n - 0x100) else readSreg M x c n

/-- The register image of a core, from +0x0_9000 (R178, log 113). -/
def Ctx.registerChunks (x : Ctx) (M : Mach) (c : Core) : List Chunk :=
  chunksOf 0x000 8 ((List.range 32).map fun r => (c.g (BitVec.ofNat 5 r)).toNat)
    ++ [(0x100, 1, pack 1 ((List.range 8).map fun i => if c.p (BitVec.ofNat 3 i) then 1 else 0))]
    ++ chunksOf 0x108 4 ((List.range 4).map fun r => (c.lc (BitVec.ofNat 2 r)).toNat)
    ++ chunksOf 0x120 8 ((List.range 8).map fun i => (c.mb i).value.toNat)
    ++ [(0x160, 1, pack 1 ((List.range 8).map fun i => if (c.mb i).valid then 1 else 0))]
    ++ chunksOf 0x168 2 ((List.range 16).map fun r => (c.h (BitVec.ofNat 4 r)).toNat)
    ++ chunksOf 0x188 8 ((List.range 8).map fun i => (c.tc i).value.toNat)
    ++ [(0x1C8, 1, c.tcerr)]
    ++ chunksOf 0x1D0 8 ((List.range 8).map fun i => (c.tk i).toNat)
    ++ (List.range 8).flatMap (fun r => chunksOf (0x210 + 128 * r) 8 ((List.range 16).map fun i => (c.k (BitVec.ofNat 3 r) i).toNat))
    ++ chunksOf 0x610 8 (windowRegs.map fun n => (x.keeperRead M c n).toNat)

/-- The matrix configuration and planes, from +0x2_0000 (R178, R364, log 113). -/
def Core.matrixChunks (c : Core) : List Chunk :=
  let q := c.mat
  let bit (b : Bool) : Nat := if b then 1 else 0
  chunksOf 0x0000 8 [bit q.valid, q.m, q.n, q.k, q.fa.code.toNat, q.fw.code.toNat, bit q.pair, bit q.bound]
    ++ chunksOf 0x0800 5 ((List.range 64).map fun n => (SMap.get 0 q.scale n).toNat)
    ++ chunksOf 0x1000 (8 * q.fw.width) ((List.range 128).map fun r => (SMap.get 0 q.active r).toNat)
    ++ chunksOf 0x5000 (8 * q.fw.width) ((List.range 128).map fun r => (SMap.get 0 q.shadow r).toNat)

/-- The window of context core `c`, 512 KiB (R178). -/
def Ctx.coreImage (x : Ctx) (M : Mach) (c : Core) : Memory :=
  let m := putChunks [] 0 (if c.idle then [] else x.recordChunks M c)
  let m := putEntries m 0x400 ((x.pendTable c).take 64)
  let m := putChunks m 0x9000 (x.registerChunks M c)
  let m := putChunks m 0x10000 ((List.range 8).flatMap fun v => chunksOf (4096 * v) 256 ((List.range 16).map fun r => (c.tile v r).toNat))
  let m := putChunks m 0x18000 ((List.range 4).flatMap fun a => chunksOf (8192 * a) 512 ((List.range 16).map fun r => (c.acc a r).toNat))
  let m := putChunks m 0x20000 c.matrixChunks
  let m := putChunks m 0x30000 (chunksOf 0 64 ((List.range 64).map fun i => (c.pat i).toNat))
  putImage m 0x40000 0x20000 c.cold

/-- The freeze window of a context (R178): header, pools, cores. -/
def Mach.freezeWindow (M : Mach) (x : Ctx) : Memory :=
  let x := x.landed
  let m := putChunks [] 0 (x.headerFields false)
  let m := ((List.range x.pools.length).zip x.pools).foldl (fun m q => putImage m (0x1000000 + 0x100000 * q.1) 0x100000 q.2) m
  x.cores.foldl (fun m c => putImage m (0x8000000 + 0x80000 * c.idx) 0x80000 (x.coreImage M c)) m

/-- A keeper's read of the freeze windows at a physical address (R178). -/
def Mach.windowRead (M : Mach) (a n : Nat) : Nat :=
  match M.ctx? ((a - Config.fwbase) / 0x10000000) with
  | none => 0
  | some x => if a < Config.fwbase then 0 else (M.freezeWindow x).read ((a - Config.fwbase) % 0x10000000) n

/-- The keeper that a context's freeze interrupt and fault ring reach (R12, R86, R178, R184). -/
def Keepers.serving (K : Keepers) (n : Nat) : Option Nat :=
  ((List.range 16).map fun i => (n + i) % 16).find? fun i => K.present.getD i false

/-- sip bit 24 of a keeper (R178): the ACK of a freeze of a context that it serves has not been written, whatever has become of the freeze; and the
interrupt that it takes. -/
def Keepers.freezePending (K : Keepers) (n : Nat) : Bool := K.unacked.any fun q => K.serving (ringOf q.2) == some n

def Keepers.freezeInterrupt (K : Keepers) (n : Nat) : Bool := K.freezePending n && K.sie.getLsbD n

/-- A freeze is signalled: its ACK is to be written (R178). -/
def Mach.signalFreeze (M : Mach) (x : Ctx) : Mach :=
  { M with keepers := { M.keepers with unacked := (M.keepers.unacked.filter fun q => q.1 != x.slot) ++ [(x.slot, x.asid)] } }

/-- Entries beyond 64 go to the keeper heap when the context freezes (R176). -/
def Mach.spill (M : Mach) (k : Nat) : Mach :=
  match M.ctx? k with
  | none => M
  | some x =>
    let y := x.landed
    let mem := (y.cores.filter fun c => !c.idle).foldl (fun m c => putEntries m (M.spillAt y c) ((y.pendTable c).drop 64)) M.warm.mem
    { M with warm := { M.warm with mem } }

/-! The core file of a dump (R185, R186). -/

/-- Bytes of the PT_LOAD segments of a dump: its pools and cold banks. -/
def Ctx.dumpBytes (x : Ctx) : Nat := x.pools.length * 2 ^ 20 + x.cores.length * 2 ^ 17

/-- The segments of a dump: address in the freeze window, size, contents. -/
def Ctx.segments (x : Ctx) : List (Nat × Nat × Memory) :=
  ((List.range x.pools.length).zip x.pools).map (fun q => (0x1000000 + 0x100000 * q.1, 0x100000, q.2))
    ++ x.cores.map fun c => (0x8040000 + 0x80000 * c.idx, 0x20000, c.cold)

/-- A program header of an ELF64 file: type, flags, offset, address, size. -/
def programHeader (off type flags at' va size : Nat) : List Chunk :=
  [(off, 4, type), (off + 0x04, 4, flags), (off + 0x08, 8, at'), (off + 0x10, 8, va), (off + 0x20, 8, size), (off + 0x28, 8, size), (off + 0x30, 8, 4)]

/-- A dump as it opens: the ELF header of a core file, a PT_NOTE segment that stands last so that it can grow, the PT_LOAD segments unless it
is short, and the notes of the context header and of each core (R185, R186, log 113). -/
def Ctx.dump (x : Ctx) (M : Mach) (short : Bool) : Dump :=
  let x := x.landed
  let segs := if short then [] else x.segments
  let data := cdiv (64 + 56 * (segs.length + 1)) 4096 * 4096
  let placed := segs.foldl (fun (l : List (Nat × Nat × Nat × Memory)) s => l ++ [((l.foldl (fun n q => n + q.2.2.1) data), s)]) []
  let noteAt := segs.foldl (fun n s => n + s.2.1) data
  let head : List Chunk :=
    [(0x00, 8, 0x010102464C457F), (0x10, 2, 4), (0x12, 2, 0x5A17), (0x14, 4, 1), (0x20, 8, 64), (0x34, 2, 64), (0x36, 2, 56), (0x38, 2, segs.length + 1)]
      ++ programHeader 64 4 4 noteAt 0 0
      ++ ((List.range placed.length).zip placed).flatMap fun q => programHeader (120 + 56 * q.1) 1 6 q.2.1 q.2.2.1 q.2.2.2.1
  let file := placed.foldl (fun m q => putImage m q.1 q.2.2.1 q.2.2.2) (putChunks [] 0 head)
  let d : Dump := { slot := x.slot, asid := x.asid, file, noteAt, noteLen := 0, isOpen := true, short }
  let d := d.note 0x5A01 4096 ((putChunks [] 0 (x.headerFields short)).read 0 4096)
  let cores := x.cores.filter fun c => !c.idle
  let d := cores.foldl (fun d c =>
    let m := x.coreImage M c
    d.note 0x5A02 (1024 + 0x17000) (m.read 0 1024 + 2 ^ 8192 * m.read 0x9000 0x17000)) d
  if short then d
  else cores.foldl (fun d c =>
    let l := x.pendTable c
    if l = [] then d else d.note 0x5A03 (544 * l.length) ((putEntries [] 0 l).read 0 (544 * l.length))) d

end Sys2Proof.Machine
end

