-- ==== Sys2Proof/Machine/Freeze.lean ====
section
/-! DEFINITION. Windows, freezes and what follows them: snapshots, thaws, services, rollback and replay, dumps (R87, R125-R128,
R172-R186, R187-R203, R401, R402). -/

namespace Sys2Proof.Machine

/-! Windows (R187, R188, R191). -/

/-- The window header of one core (R188). -/
def headerChunks (x : Ctx) (c : Core) (mslot : Nat) : List Chunk :=
  let b := 0x1C000
  let eights (off : Nat) (f : Nat → Nat) : List Chunk := (List.range 8).map fun i => (b + off + 8 * i, 8, f i)
  [(b, 8, x.win.num), (b + 0x008, 8, x.win.start), (b + 0x010, 8, mslot), (b + 0x018, 8, ofInt 64 x.heat)]
    ++ ((List.range 4).zip c.allStreams).map (fun q => (b + 0x020 + 4 * q.1, 4, q.2.pc % 4096))
    ++ [(b + 0x030, 4, x.flagsWord), (b + 0x034, 4, c.entries), (b + 0x038, 8, 0)]
    ++ eights 0x040 (fun i => (c.tc i).value.toNat)
    ++ eights 0x080 (fun i => (c.tk i).toNat)
    ++ [(b + 0x0C0, 8, c.tcerr + 2 ^ 8 * pack 1 ((List.range 8).map fun i => if (c.mb i).valid then 1 else 0)
          + 2 ^ 16 * c.regs.dphase.toNat + 2 ^ 24 * c.regs.flags.toNat), (b + 0x0C8, 56, 0)]
    ++ ((List.range 4).zip c.allStreams).map (fun q => (b + 0x100 + 32 * q.1, 32, loopWords q.2.loops))
    ++ (List.range 8).map (fun i => (b + 0x180 + 16 * i, 16, c.inPosition i + 2 ^ 64 * ((c.inp i).res % 2 ^ 16)))
    ++ (List.range 4).map (fun i => (b + 0x200 + 16 * i, 16, c.outPosition i))
    ++ (List.range 8).map (fun i => (b + 0x240 + 4 * i, 4, (c.inp i).fill.toNat))
    ++ [(b + 0x260, 416, 0)]

/-- The lowest non-idle core of a core's cluster writes the cluster's pool ranges (R390). -/
def Ctx.leads (x : Ctx) (c : Core) : Bool :=
  ((x.cores.find? fun d => d.cluster == c.cluster && !d.idle).map (·.idx)).getD c.idx == c.idx

/-- Size and value of one item's image (R390): kind, first, last, length, base. -/
def itemImage (x : Ctx) (c : Core) : List Nat → Nat × Nat
  | [kind, first, last, len, base] =>
    let regs := (List.range (last + 1 - first)).map (first + ·)
    let each (w : Nat) (f : Nat → Nat) : Nat × Nat := (w / 8 * regs.length, pack w (regs.map f))
    match kind with
    | 1 => each 64 fun r => (c.g (BitVec.ofNat 5 r)).toNat
    | 2 => (1, pack 1 ((List.range 8).map fun i => if c.p (BitVec.ofNat 3 i) then 1 else 0))
    | 3 => each 32768 fun r => pack 2048 ((List.range 16).map fun i => (c.tile r i).toNat)
    | 4 => each 65536 fun r => pack 4096 ((List.range 16).map fun i => (c.acc r i).toNat)
    | 5 => each 1024 fun r => pack 64 ((List.range 16).map fun i => (c.k (BitVec.ofNat 3 r) i).toNat)
    | 6 => each 16 fun r => (c.h (BitVec.ofNat 4 r)).toNat
    | 7 => each 32 fun r => (c.lc (BitVec.ofNat 2 r)).toNat
    | 8 => each 64 fun r => (c.mb r).value.toNat
    | 9 => (len, c.cold.read base len)
    | 10 => if x.leads c then (len, (x.pools.getD c.cluster []).read base len) else (0, 0)
    | _ => (0, 0)
  | _ => (0, 0)

/-- The items of a table with the place of each image (R390). -/
def placeItems (x : Ctx) (c : Core) : List (List Nat) → Nat → List (List Nat × Nat)
  | [], _ => []
  | i :: r, a => (i, a) :: placeItems x c r (cdiv (a + (itemImage x c i).1) 8 * 8)

def snapshotChunks (x : Ctx) (c : Core) (table : List (List Nat)) : List Chunk :=
  (placeItems x c table 0x1C400).map fun q => (q.2, (itemImage x c q.1).1, (itemImage x c q.1).2)

/-- The header and the snapshot of one core are written, each line logged in the warm ring, but not in window 0 (R188). -/
def Ctx.writeWindow (x : Ctx) (mslot : Nat) (table : List (List Nat)) (j : Nat) : Ctx :=
  match x.core? j with
  | none => x
  | some c =>
    if c.idle then x
    else
      let chunks := headerChunks x c mslot ++ snapshotChunks x c table
      let hi := chunks.foldl (fun h q => max h (q.1 + q.2.1)) 0x1C400
      let lines := (List.range (cdiv hi 64 - 0x1C000 / 64)).map (0x1C000 / 64 + ·)
      let x := if x.win.num = 0 then x else lines.foldl (fun x n =>
        x.append [{ kind := 1, space := 0, foreign := false, atomic := false, spilled := false, source := c.id, core := j, cslot := x.cslot
                    addr := 64 * n, win := x.win.num, payload := BitVec.ofNat 512 (c.cold.read (64 * n) 64) }]) x
      x.setCore { c with cold := chunks.foldl (fun m q => m.write q.1 q.2.1 q.2.2) c.cold }

/-- A window opens at the present slot (R187, R188, R191); `first` is window 0. -/
def Ctx.openWindow (x : Ctx) (mslot : Nat) (table : List (List Nat)) (first : Bool) : Ctx :=
  let num := if first then 0 else x.win.num + 1
  let win : Window := { num, start := x.cslot, mslot, heat := x.heat, tainted := false, irrevocable := false, unrecoverable := false
                        spilled := false, dropping := false, table, cores := [], serial := x.serial, reqs := x.reqs, xings := x.xings
                        cmds := x.cmds, joins := x.joins, posts := x.posts, lanes := x.lanes, lastCkpt := x.lastCkpt }
  let clear (c : Core) : Core := { c with logged := [], entries := 0 }
  let x : Ctx := { x with
    windows := if first then x.windows else x.windows ++ [x.win]
    win, warmSeen := [], poolSeen := []
    cores := x.cores.map clear }
  let x := x.append [{ kind := 5, space := 0, foreign := false, atomic := false, spilled := false, source := 0, core := 0, cslot := x.cslot
                       addr := 0, win := num
                       payload := BitVec.ofNat 512 (num + 2 ^ 64 * x.cslot + 2 ^ 128 * mslot + 2 ^ 192 * ofInt 64 x.heat) }]
  let x := (List.range x.cores.length).foldl (fun x j => x.writeWindow mslot table j) x
  { x with win := { x.win with cores := x.cores } }

/-! Freezing (R127, R128, R172-R174, R330, R331). -/

/-- Register results that land at s have landed, by R115 (R331 says so of handles); a pattern entry in flight is complete (R331). -/
def Ctx.settle (x : Ctx) (j : Nat) : Ctx :=
  match x.core? j with
  | none => x
  | some c =>
    let memory (p : Pend) : Bool := match p.dst with
      | .cold _ | .pool _ => true
      | _ => false
    let now (p : Pend) : Bool := decide (p.land ≤ x.cslot) && !p.sends && !memory p
    let y := x.setCore { c with pend := c.pend.filter fun p => !now p }
    let y := ((c.pend.filter now).foldr insertPend []).foldl (fun y p => y.landOne j c p) y
    y.onCore j fun d => (c.pend.filter fun p => decide (p.issue < x.cslot)).foldl (fun d p => match p.dst with
      | .pat i => d.setPat i (p.value.setWidth 512)
      | _ => d) d

/-- A port is behind its plan: rows are still to issue, or have crossed late and not landed (R180). -/
def Ctx.behind (x : Ctx) (j i : Nat) : Bool :=
  (x.core? j).any fun c => decide ((c.inp i).next < (c.inp i).planNext) || x.reqs.any fun r => r.tardy && r.core == j && match r.use with
    | .row n gen _ => n == i && gen == (c.inp i).gen
    | _ => false

/-- A slipped port that is behind its plan is to issue every row with x_k ≤ s while the context is frozen (R175, R180). Rows that have
issued on time land at their own slots, after the thaw (R111). -/
def Ctx.openLead (x : Ctx) (j i : Nat) : Ctx :=
  match x.core? j with
  | none => x
  | some c => if (c.inp i).planDue x.cslot && x.behind j i then x.planRow j i else x

/-- Rows of strict ports that have crossed late land as they cross, in the freeze too (R180). -/
def Ctx.freeRows (x : Ctx) (mslot : Nat) : Ctx :=
  { x with reqs := x.reqs.map fun r => match r.use with
      | .row i .. =>
        if r.tardy && !r.async && ((x.core? r.core).map fun c => !(c.inp i).lenient).getD false then
          { r with async := true, land := 0, home := (if r.performed then r.land else r.home) + mslot - x.cslot }
        else r
      | _ => r }

/-- The context freezes with the causes of its slot. -/
def Ctx.stop (x : Ctx) (mslot : Nat) (causes : List Cause) : Ctx :=
  let x := (x.freeze mslot causes).freeRows mslot
  let x := (List.range x.cores.length).foldl (fun x j => x.settle j) x
  let x := (causes.filter fun q => q.code == 1).foldl (fun x q => x.openLead q.core q.port) x
  { x with header := { x.header with fatal := fatalCode x.header.cause && !x.header.debugged } }

/-- In WARMING every freeze but that of an abort is fatal (R17). -/
def Mach.stopped (M : Mach) (x : Ctx) (causes : List Cause) : Ctx :=
  let x := x.stop M.mslot causes
  if M.cold.state = 6 ∧ x.header.cause ≠ 0x31 then { x with replay := none, header := { x.header with fatal := true } } else x

/-! Ends of contexts (R51, R109, R172, R185, R186). -/

/-- The next dump opens if none is open: the context that has been fatal longest; once the area has run out every later dump is short
(R186). -/
def Mach.openDump (M : Mach) : Mach :=
  if M.keepers.dumps.any (·.isOpen) then M
  else
    let cands := M.ctxs.filter fun x => x.header.fatal && match x.run with
      | .frozen .. => true
      | _ => false
    match cands.foldl (fun (b : Option Ctx) x => match b with
      | none => some x
      | some y => if x.header.mslot < y.header.mslot then some x else some y) none with
    | none => M
    | some x =>
      let short := decide (Config.dumpArea < M.keepers.dumpSpace + x.dumpBytes)
      { M with keepers := { M.keepers with dumps := M.keepers.dumps ++ [x.dump M short]
                                           dumpSpace := if short then Config.dumpArea else M.keepers.dumpSpace + x.dumpBytes } }

/-- A started ABORT of an ended command ends too, with the detail of R51. -/
def Mach.settleAborts (M : Mach) (seq detail : Nat) : Mach :=
  (M.cmds.filter fun c => c.kind == 8 && c.state == .started && c.field 0x18 8 == seq).foldl (fun M c => M.endCmd c 0 detail) M

/-- Moves that an xpref of the context has asked for, or joined. -/
def Mach.movesOf (M : Mach) (x : Ctx) : List Move := M.warm.moves.filter fun m => m.who.any fun w => w.1 == x.asid.toNat

/-- Its undo ring, clusters, lanes and ticks are free, once no move that it asked for is left; its remap requests stay in their dedup ring
(R76, R109, R170). -/
def Mach.freeCtx (M : Mach) (x : Ctx) : Mach :=
  let W := (M.warm.release x.ringAt.1 x.ringAt.2).clearCtxtr x.slot
  let K := { M.keepers with dedup := M.keepers.dedup.map fun r => if r.asid == x.asid then { r with cmd := none } else r }
  let L := { M.links with arrived := M.links.arrived.filter fun a => a.asid != x.asid }
  let L := { L with remote := L.remote.filter fun q => !(q.halted && (msgRequest q.msg).any fun r => r.2.2.1 == x.asid) }
  { M with links := L, keepers := K, ctxs := M.ctxs.filter fun y => y.slot != x.slot, warm := W, traces := M.traces.filter fun t => t.slot != x.slot }

/-- A context that has ended is released, or stands until the keeper has finished its moves (R109). -/
def Mach.releaseCtx (M : Mach) (x : Ctx) : Mach := if M.movesOf x = [] then M.freeCtx x else M.setCtx { x with run := .gone }

/-- Contexts that wait for their moves are released when these are over. -/
def Mach.reap (M : Mach) : Mach :=
  (M.ctxs.filter fun x => x.run == .gone && (M.movesOf x).isEmpty).foldl Mach.freeCtx M

/-- A context ends: the launch's entry, an ABORT that waits for it, and its resources (R50, R51, R109). -/
def Mach.endCtx (M : Mach) (x : Ctx) (status : Nat) : Mach :=
  let M := M.endSeq x.cmd status (if x.header.fatal then x.header.cslot else x.cslot)
  (M.settleAborts x.cmd (if status = 5 then 0 else 1)).releaseCtx x

/-- A copy command of an aborted context goes on to its end, unless a fault holds it or its source is still to come. -/
def Mach.drainCmd (M : Mach) (k id : Nat) : Nat → Mach
  | 0 => M.finishCmd k id
  | n + 1 => match (M.ctx? k).bind fun x => x.cmds.find? fun q => q.id == id && !q.held && !q.done && (x.ahead q).all (·.done) with
    | none => M
    | some q =>
      if q.read < q.reads then (M.readGranule k q).drainCmd k id n
      else if q.written < q.writes && decide (q.needs q.written ≤ q.taken) then (M.writeGranule k q).drainCmd k id n
      else M.finishCmd k id

/-- A light fault that holds access `id`, or copy command `id`, of a context is still to be served. -/
def Mach.serves (M : Mach) (k id : Nat) (engine : Bool) : Bool :=
  M.warm.rings.any fun r => (r.recs ++ r.held ++ r.taken).any fun f => lightKind f.kind && f.ctx == k && f.req == id && (f.src == 3) == engine

/-- Writes, or copy commands, of the context that are still to be performed or acknowledged; what a hard fault holds never is, nor what it keeps
behind it. -/
def Ctx.undrained (x : Ctx) (M : Mach) : Bool :=
  let dead := x.reqs.filter fun r => r.held && !M.serves x.slot r.id false
  let stuck := x.cmds.filter fun p => p.held && !M.serves x.slot p.id true
  let halts (core : Nat) (waits : List Nat) : Bool := waits != [] && (dead.any (fun d => d.core == core) || stuck.any fun d => d.core == core)
  let keeps (r : Req) : Bool := (dead.any fun d => d.core == r.core && d.queue == r.queue) || halts r.core (r.after ++ r.gone)
  let holds (q : Cmd) : Bool := (stuck.any fun d => d.cluster == q.cluster) || halts q.core (q.afterR ++ q.afterW ++ q.goneR ++ q.goneW)
  (x.reqs.any fun r => r.act != .read && (!r.performed || r.sent) && !keeps r) || x.cmds.any fun q => q.kind != 2 && !q.done && !holds q

/-- The queues of an aborted context drain: what it has issued is performed in the order of its queues, whether the context runs or not; once
nothing is left of its writes, its launch ends (R51). -/
def Mach.drain (M : Mach) (k : Nat) : Mach :=
  match M.ctx? k with
  | none => M
  | some x =>
    let free (r : Req) : Req := if r.performed || r.async || x.cslot < r.issue then r else { r with async := true, home := M.mslot }
    let M := M.setCtx { x with reqs := x.reqs.map free }
    let M := (x.cmds.filter fun q => q.kind != 2).foldl (fun M q => M.sweep.drainCmd k q.id (q.reads + q.writes + 1)) M
    match M.ctx? k with
    | none => M
    | some x => if x.undrained M then M else M.endCtx x 5

/-- Aborted contexts whose queues are still draining; one that has been made fatal meanwhile ends by its dump (R17, R51). -/
def Mach.drainAll (M : Mach) : Mach :=
  (M.ctxs.filter fun x => x.header.cause == 0x31 && !x.header.fatal && match x.run with
    | .frozen .. => true
    | _ => false).foldl (fun M x => M.drain x.slot) M

/-! Rollback and replay (R199-R203). -/

/-- Window `k` of a context, if it is retained. -/
def Ctx.window? (x : Ctx) (k : Nat) : Option Window := (x.windows ++ [x.win]).find? fun w => w.num == k

/-- The oldest window whose start is restorable, with every window from it on (R198). -/
def Ctx.horizon (x : Ctx) : Option Nat :=
  let good := (x.windows ++ [x.win]).reverse.takeWhile fun w => !w.unrecoverable
  good.getLast?.map (·.num)

/-- An entry that a window's own header and snapshot writes took (R188, R199). -/
def Undo.own (e : Undo) : Bool := e.kind == 1 && e.space == 0 && !e.spilled && decide (0x1C000 ≤ e.addr)

/-- Every OLD entry of windows `k` and later, newest first; the header lines of window `k` itself stay (R199). -/
def Ctx.undoList (x : Ctx) (k : Nat) : List Undo :=
  let all := (x.coldLog.flatMap id ++ x.warmLog).filter fun e => e.kind == 1 && decide (k ≤ e.win) && !(e.own && e.win == k)
  (List.range (x.win.num + 1 - k)).flatMap fun n => (all.filter fun e => e.win == x.win.num - n).reverse

/-- One OLD entry is undone. -/
def Mach.undo (M : Mach) (k : Nat) (e : Undo) : Mach :=
  match M.ctx? k with
  | none => M
  | some x =>
    if e.space = 2 then match M.warm.phys x.asid e.addr with
      | none => M
      | some p => { M with warm := { M.warm with mem := M.warm.mem.write p 64 e.payload.toNat } }
    else if e.space = 1 then
      let cl := e.core / 8
      M.setCtx { x with pools := setAt x.pools cl ((x.pools.getD cl []).write e.addr 64 e.payload.toNat) }
    else M.setCtx (x.onCore e.core fun c => { c with cold := c.cold.write e.addr 64 e.payload.toNat })

/-- Registers from the image of one item (R199, R390). -/
def Core.loadItem (c : Core) (a : Nat) : List Nat → Core
  | [kind, first, last, _, _] =>
    let regs := (List.range (last + 1 - first)).map fun i => (i, first + i)
    let m := c.cold
    match kind with
    | 1 => regs.foldl (fun c r => c.setG r.2 (BitVec.ofNat 64 (m.read (a + 8 * r.1) 8))) c
    | 2 => (List.range 8).foldl (fun c i => c.setP i ((m.read a 1).testBit i)) c
    | 3 => regs.foldl (fun c r => (List.range 16).foldl (fun c i =>
        c.setV r.2 i (BitVec.ofNat 2048 (m.read (a + 4096 * r.1 + 256 * i) 256))) c) c
    | 4 => regs.foldl (fun c r => (List.range 16).foldl (fun c i =>
        c.setA r.2 i (BitVec.ofNat 4096 (m.read (a + 8192 * r.1 + 512 * i) 512))) c) c
    | 5 => regs.foldl (fun c r => (List.range 16).foldl (fun c i =>
        c.setK r.2 i (BitVec.ofNat 64 (m.read (a + 128 * r.1 + 8 * i) 8))) c) c
    | 6 => regs.foldl (fun c r => c.setH r.2 (BitVec.ofNat 16 (m.read (a + 2 * r.1) 2))) c
    | 7 => regs.foldl (fun c r => c.setLc r.2 (BitVec.ofNat 32 (m.read (a + 4 * r.1) 4))) c
    | 8 => regs.foldl (fun c r => c.setMb r.2 { c.mb r.2 with value := BitVec.ofNat 64 (m.read (a + 8 * r.1) 8) }) c
    | _ => c
  | _ => c

/-- The fixed state from the header of a core's cold bank (R188, R199). -/
def Core.loadHeader (c : Core) : Core :=
  let m := c.cold
  let b := 0x1C000
  let w := m.read (b + 0x0C0) 8
  let c := (List.range 8).foldl (fun c i =>
    let c := c.setTc i { value := BitVec.ofNat 64 (m.read (b + 0x040 + 8 * i) 8), err := w.testBit i, errAt := 0 }
    let c := c.setTk i (BitVec.ofNat 64 (m.read (b + 0x080 + 8 * i) 8))
    let c := c.setMb i { c.mb i with valid := w.testBit (8 + i) }
    c.setInp i { c.inp i with fill := BitVec.ofNat 32 (m.read (b + 0x240 + 4 * i) 4) }) c
  c.onRegs fun q => { q with dphase := BitVec.ofNat 6 (w / 2 ^ 16), flags := BitVec.ofNat 6 (w / 2 ^ 24) }

def Matrix.start : Matrix :=
  { valid := false, m := 0, n := 0, k := 0, fa := .int8, fw := .int8, pair := false, active := [], shadow := [], scale := [], bound := false }

/-- The core at the start of a window: `c0` as the model kept it for its ports, units and holds, the rows that are still to leave for ports, and
its pattern table (R331), and cold storage as it has been put back; every register that the snapshot does not name is zero, but at CSLOT 0 or an
iteration start, as `fresh`, where the start state holds (R98, R104, R199). A strict port or a queue that stood at a fault then goes on if the
fault has been served since. -/
def restoreCore (x : Ctx) (fresh : Bool) (table : List (List Nat)) (c0 c : Core) : Core :=
  if c.idle then c
  else
    let regs : Regs := { g := if fresh then c0.regs.g else [], p := [], lc := [], m := c0.regs.m.map fun q => (q.1, { q.2 with value := 0 })
                         h := [], tc := [], v := [], k := [], a := [], pat := c0.regs.pat, tk := [], flags := 0, dphase := 0, mesh := c.idx }
    let port (e : Nat × InPort) : Nat × InPort :=
      let now := c.inp e.1
      (e.1, if e.2.halted.isSome && !e.2.lenient && !(now.gen == e.2.gen && now.halted == e.2.halted) then { e.2 with halted := none } else e.2)
    let d : Core := { c0 with cold := (c.cold.write 0x1C030 4 0).write 0x1C034 4 0, regs, mat := Matrix.start, inb := c0.inb.map port, ckpt := none
                              record := c.record, logged := [], entries := 0 }
    let d := (placeItems x c0 table 0x1C400).foldl (fun d q => d.loadItem q.2 q.1) d
    d.loadHeader

/-- A window that opens at CSLOT 0 or at an iteration start: no core stands in the hold of a checkpoint (R187). -/
def Window.fresh (w : Window) : Bool := w.cores.all fun c => c.hold.isNone

/-- The accesses at the start of a window: one that was out then, or has been sent since, is as it now stands if it is still out; one whose
answer has come waits for the log to give it, or is made again (R199, R200). -/
def Ctx.reqsAt (x : Ctx) (L : Links) (w : Window) : List Req :=
  let out (id : Nat) : Bool := L.send.any fun q => q.ctx == x.asid.toNat && q.req == id
  w.reqs.map fun r => match x.reqs.find? fun q => q.id == r.id && out q.id with
    | some q => q
    | none => { r with held := r.held && (x.reqs.any fun q => q.id == r.id && q.held), sent := r.sent && match r.use with
        | .mailbox _ => true
        | _ => false }

/-- System accesses sent since the start of a window and still out: replay does not send them again (R200). -/
def Ctx.ghostsAt (x : Ctx) (L : Links) (w : Window) : List Req :=
  (x.reqs ++ (x.replay.map (·.ghosts)).getD []).filter fun r => r.sent && decide (w.start ≤ r.issue)
    && L.send.any fun q => q.ctx == x.asid.toNat && q.req == r.id

/-- The commands at the start of a window, but for what the keeper has done for an xpref since. -/
def Ctx.cmdsAt (x : Ctx) (w : Window) : List Cmd :=
  w.cmds.map fun q => match x.cmds.find? fun p => p.id == q.id && p.kind == 2 with
    | some p => { q with err := p.err, pages := p.pages, started := p.started }
    | none => { q with held := q.held && x.cmds.any fun p => p.id == q.id && p.held }

/-- The context is put back to the start of window `w`: its cores, and its queues as they stood there; what it has since issued is forgotten,
and remaps that it has asked for since are cancelled (R109, R199, R200). -/
def Mach.restoreTo (M : Mach) (k : Nat) (w : Window) : Mach :=
  match M.ctx? k with
  | none => M
  | some x0 =>
    let M := (x0.undoList w.num).foldl (fun M e => M.undo k e) (M.writeLog k)
    match M.ctx? k with
    | none => M
    | some x =>
      let keep (e : Undo) : Bool := decide (e.win < w.num) || (e.win == w.num && (e.kind == 5 || e.own))
      let warm := x.warmLog.filter keep
      let gone := x.warmLog.length - warm.length
      let cores := (w.cores.zip x.cores).map fun q => restoreCore x w.fresh w.table q.1 q.2
      let back (cl : Nat) : Nat :=
        let n := ((x.coldLog.getD cl []).filter fun e => !keep e).length
        (x.coldNext.getD cl 0 + 4096 - n % 4096) % 4096
      let since (r : Remap) : Bool := r.asid == x.asid && r.cmd.any fun id => !w.cmds.any fun p => p.id == id
      let refs := (M.keepers.dedup.filter since).foldl (fun m r => SMap.set (0 : BitVec 32) m r.shared (SMap.get 0 m r.shared - 1)) M.warm.refs
      { M with warm := { M.warm with refs }, keepers := { M.keepers with dedup := M.keepers.dedup.filter fun r => !since r } }.setCtx { x with
        cslot := w.start, cores, serial := w.serial, heat := w.heat, done := false
        win := { w with tainted := false, irrevocable := false, unrecoverable := false, spilled := false, dropping := false }
        windows := x.windows.filter fun v => decide (v.num < w.num)
        coldLog := x.coldLog.map fun (l : List Undo) => l.filter keep
        coldNext := (List.range x.coldNext.length).map back
        warmLog := warm, ringPos := if x.ring = 0 then 0 else (x.ringPos + x.ring - gone % x.ring) % x.ring, unwritten := []
        warmSeen := [], poolSeen := [], lastCkpt := w.lastCkpt, opening := none, next := none, dwelt := none, waited := 0
        reqs := x.reqsAt M.links w, xings := w.xings, cmds := x.cmdsAt w, joins := w.joins, posts := w.posts, lanes := w.lanes
        stops := x.stops.filter fun q => (decide (0x30 ≤ q.cause.code) && q.cause.code != 0x33) || (q.cause.code == 0x23 && q.cause.stream == 4)
        header := { x.header with spill := false } }

/-- What replay from window `w` feeds: arrivals and carried effects, in the order of the log (R200). -/
def Ctx.feedFrom (x : Ctx) (w : Window) : List Undo :=
  x.warmLog.filter fun e => decide (w.num ≤ e.win) && (e.kind == 2 || e.kind == 3)

/-- The last MSLOT, not after `t`, at which the context's clock has the phase of CSLOT `c`. -/
def phaseBefore (t phase c : Nat) : Nat := t - (t + 4096 - (phase + c) % 4096) % 4096

/-- What a replay is for: its target, the byte that RSTEP.WRITE seeks, whether it goes on live, the command that waits for it, whether a foreign
write lies on its way, and entries of a replay that it takes over. -/
structure Aim where
  target : Nat
  seek : Option (Nat × Nat × Nat)
  live : Bool
  cmd : Option Nat
  tainted : Bool := false
  rest : List Undo := []
  deriving DecidableEq, Repr

/-- A replay starts from the start of window `w` (R200); the freeze that it begins with counts as lost time until now, and one that follows
another replay begins now (R211). -/
def Mach.replayFrom (M : Mach) (k : Nat) (w : Window) (aim : Aim) : Mach :=
  match M.ctx? k with
  | none => M
  | some x =>
    let feed := x.feedFrom w ++ aim.rest
    let tainted := aim.tainted || x.warmLog.any fun e => e.foreign && decide (w.num ≤ e.win) && decide (e.cslot < aim.target)
    let ghosts := x.ghostsAt M.links w
    let moves := x.moves
    (M.restoreTo k w).onCtx k fun x => { x with
      replay := some { target := aim.target, feed, seek := aim.seek, found := none, ghosts, owed := [], win := w.num, tainted, live := aim.live, cmd := aim.cmd }
      posted := [], stops := if aim.live then x.stops else x.stops.filter fun q => q.cause.code != 0x23
      header := if moves then { x.header with mslot := M.mslot } else x.header
      run := .frozen (phaseBefore M.mslot x.phase x.cslot) (some M.mslot) }

/-- The context stands where a reverse step has brought it, held by the debugger, with its watchpoints armed from there on (R201, R205,
R402). -/
def Ctx.standing (x : Ctx) (mslot : Nat) : Ctx :=
  { x with run := .frozen mslot none
           watch := x.watch.map fun w => { w with first := min w.first x.cslot }
           header := { x.header with cause := 0x34, cslot := x.cslot, mslot, held := true, debugged := true, resume := false, fatal := false } }

/-- The context in slot `k` as it stands, with every warm line that a restore of it may undo (R201). -/
def Mach.setAside (M : Mach) (k : Nat) : Mach :=
  match M.ctx? k with
  | none => M
  | some x =>
    let lines := ((x.warmLog.filter fun e => e.kind == 1 && e.space == 2).map (·.addr)).eraseDups
    let kept := lines.map fun a => (a, BitVec.ofNat 512 (match M.warm.phys x.asid a with
      | some p => M.warm.mem.read p 64
      | none => 0))
    { M with aside := M.aside.filter (fun a => a.1.slot != k) ++ [(x, kept)] }

/-- System accesses whose answers have come before the slot at which replay ends: a write has applied; a result that stands in the log is
delivered now, since it will not come again (log 114). -/
def Mach.settleSent (M : Mach) (k : Nat) : Mach :=
  match M.ctx? k with
  | none => M
  | some x =>
    let out (id : Nat) : Bool := M.links.send.any fun q => q.ctx == x.asid.toNat && q.req == id
    (x.reqs.filter fun r => r.sent && !r.performed && !out r.id).foldl (fun M r => match M.ctx? k with
      | none => M
      | some x =>
        if r.act == .write then M.applied k { r with async := true }
        else
          let fed := x.fedLanding r
          let x := (fed.map x.eat).getD x
          M.setCtx (x.setReq { r with performed := true, sent := false, async := true, home := M.mslot, done := x.cslot
                                      value := (fed.map fun e => BitVec.ofNat 4096 e.payload.toNat).getD r.value })) M

/-- A reverse step fails, and the context is as it was before it, held by the debugger (R201). -/
def Mach.rstepFail (M : Mach) (k : Nat) (cmd : Option Nat) : Mach :=
  let M := match M.aside.find? fun a => a.1.slot == k with
    | none => M.onCtx k fun x => { x with replay := none }.standing M.mslot
    | some (y, lines) =>
      let mem := lines.foldl (fun m a => match M.warm.phys y.asid a.1 with
        | some p => m.write p 64 a.2.toNat
        | none => m) M.warm.mem
      ({ M with warm := { M.warm with mem }, aside := M.aside.filter fun a => a.1.slot != k }.setCtx y).settleSent k
  match cmd with
  | none => M
  | some seq => M.endSeq seq 2 0

/-- A rollback, of a data error once in a window and of a soft error as often as it comes: the start of the open window is restored, and replayed
if nothing in it stands against that, else the context is fatal (R172, R203). One that comes within a replay takes that replay over. -/
def Mach.rollback (M : Mach) (k : Nat) : Mach :=
  match M.ctx? k with
  | none => M
  | some x =>
    let w := x.win
    let again := x.header.cause == 0x21 && x.retried == some w.num
    let cmd := x.replay.bind (·.cmd)
    if w.cores.isEmpty then M.setCtx { x with header := { x.header with fatal := true } }
    else if w.tainted || w.irrevocable || w.unrecoverable || again then
      let M := (M.restoreTo k w).onCtx k fun x => { x with replay := none, header := { x.header with fatal := true } }
      match cmd with
      | none => M
      | some seq => { M with aside := M.aside.filter fun a => a.1.slot != k }.endSeq seq 2 0
    else
      let M := M.setCtx { x with retried := if x.header.cause = 0x21 then some w.num else x.retried }
      let aim : Aim := match x.replay with
        | none => { target := x.cslot, seek := none, live := true, cmd := none }
        | some p => { target := max p.target x.cslot, seek := p.seek, live := p.live, cmd := p.cmd, tainted := p.tainted, rest := p.feed }
      M.replayFrom k w aim

/-! What replay feeds (R192, R200). -/

/-- The slot of a fed write: its own, or, of a copy engine, the start of its command (R202). -/
def Ctx.startOf (x : Ctx) (e : Undo) : Nat :=
  ((x.cmds.reverse.find? fun q => 0x100 + x.engineOf q == e.source && q.core == e.core && dSpace q.dst.desc == 3 && q.kind != 2 && q.started).map
    (·.start)).getD x.cslot

/-- A line of another agent is written again at its slot, with its log entries (R192, R200, R202). -/
def Mach.feedLine (M : Mach) (k : Nat) (e : Undo) : Mach :=
  match M.ctx? k with
  | none => M
  | some x => match M.warm.phys x.asid e.addr with
    | none => M
    | some p =>
      let old := M.warm.mem.read p 64
      let x := x.logWarm M.warm (e.addr / 64) e.source e.core false e.atomic
      let W := { M.warm with mem := M.warm.mem.write p 64 e.payload.toNat }
      let x := x.append [{ e with cslot := x.cslot, win := x.win.num }]
      let x := x.sawWrite (x.startOf e) fun q => q.2.1 == 2 && q.1 / 64 == e.addr / 64 && (old ^^^ e.payload.toNat) / 2 ^ (8 * (q.1 % 64)) % 256 != 0
      { M with warm := W }.setCtx x

/-- A source granule of the sys: range comes from the log to the command that waits for it (R192, R200). -/
def Ctx.feedGranule (x : Ctx) (e : Undo) : Ctx :=
  match x.cmds.find? fun q => q.core == e.core && 0x500 + x.engineOf q == e.addr && q.sysSource && decide (q.taken < q.reads) && !q.done with
  | none => x
  | some q =>
    let g := q.taken
    let v := e.payload.toNat
    let bytes := if g < q.sources then (q.sourceElems g).flatMap fun s =>
        ((elemBytes q.src.width s.2).zip (List.range (cdiv q.src.width 8))).map fun a => (a.1, BitVec.ofNat 8 (v / 2 ^ s.1 / 256 ^ a.2))
      else []
    let q := { q.addData g v with taken := g + 1, crc := addBytes q.crc bytes }
    (x.setCmd q).arrivalFrom e.source none e.core e.addr v

/-- A lenient port goes on at the slot at which it was restarted (R181, R200). -/
def Ctx.feedRestart (x : Ctx) (mslot : Nat) (e : Undo) : Ctx :=
  let i := e.addr - 0x400
  match (x.core? e.core).map fun c => (c, c.inp i) with
  | none => x
  | some (c, q) =>
    if q.halted ≠ e.issue then x
    else (x.setCore (c.setInp i { q with halted := none, catchX := mslot })).arrivalOf e.issue e.core e.addr x.cslot

/-- A post that came from outside the timetable (R192, R200). -/
def Ctx.feedPost (x : Ctx) (e : Undo) : Ctx :=
  let i := e.addr - 0x200
  let v := e.payload.toNat
  let bad := (v / 2 ^ 64).testBit 0
  let y := x.onCore e.core fun c => c.setTc i { value := BitVec.ofNat 64 v, err := bad, errAt := if bad then x.cslot else (c.tc i).errAt }
  let y := y.append [{ e with cslot := x.cslot, win := x.win.num }]
  let key := (e.core, i, e.op.getD 0)
  if y.replay.any fun p => p.owed.any fun o => (o.1, o.2.1, o.2.2.1) == key then
    { y with replay := y.replay.map fun p => { p with owed := p.owed.filter fun o => (o.1, o.2.1, o.2.2.1) != key } }
  else { y with posted := key :: y.posted }

/-- An entry that replay feeds by itself, and not as the result of an access that it makes again. -/
def Undo.feeds (e : Undo) : Bool :=
  !e.svc && ((e.kind == 2 && e.space == 3) || (e.kind == 3 && e.row.isNone && (
    (e.addr / 0x100 == 2 && e.issue.isNone) || (e.addr / 8 == 0x400 / 8 && e.issue.isSome) || (e.addr / 0x100 == 5 && e.issue.isNone))))

/-- One entry that replay feeds takes effect (R192, R200). -/
def Mach.feedOne (M : Mach) (k : Nat) (e : Undo) : Mach :=
  let M := M.onCtx k fun x => x.eat e
  if e.kind = 2 then M.feedLine k e
  else M.onCtx k fun x => if e.addr / 0x100 = 2 then x.feedPost e else if e.addr / 0x100 = 4 then x.feedRestart M.mslot e else x.feedGranule e

/-- Everything that replay feeds by itself now (R200). -/
def Mach.feedDue (M : Mach) (k : Nat) : Mach :=
  match M.ctx? k with
  | none => M
  | some x => match x.replay with
    | none => M
    | some p => (p.feed.filter fun e => e.feeds && x.nowDue e).foldl (fun M e => M.feedOne k e) M

/-! Services (R179, R192, R194, R200). -/

/-- What service `n` leaves in g5-g7: the registers that it writes. -/
def Mach.serviceRegs (M : Mach) (c : Core) (n : Nat) : List (Nat × W64) :=
  let ones : W64 := BitVec.allOnes 64
  let len := (c.g 7).toNat
  if n = 0 then [(5, 0)]
  else if n = 1 then [(5, 0), (6, BitVec.ofNat 64 M.links.clock)]
  else if n = 0x800 && decide (len ≤ 4096) && decide ((c.g 6).toNat + len ≤ 0x20000) then [(5, c.g 7)]
  else [(5, ones)]

/-- The bytes that a service sends to the host. -/
def Core.serviceBytes (c : Core) (n : Nat) : List Byte :=
  let len := (c.g 7).toNat
  if n = 0x800 && decide (len ≤ 4096) && decide ((c.g 6).toNat + len ≤ 0x20000) then c.cold.readList (c.g 6).toNat len else []

/-- One core's service: g5-g7 after it, from the log in a replay that has it; its ARRIVAL entry, and the IRREV entry of one with bit 11, whose
effect replay does not repeat (R179, R192, R194, R200, R334). -/
def Mach.serve (M : Mach) (k : Nat) (c : Core) (n : Nat) : Mach :=
  let bytes := c.serviceBytes n
  let M := M.onCtx k fun x =>
    let fed := x.fedEntry fun e => e.svc && e.core == c.idx && e.addr == 0x300 + n && x.nowDue e
    let v := (fed.map fun e => e.payload.toNat).getD 0
    let regs := if fed.isSome then (List.range 3).map fun i => (5 + i, BitVec.ofNat 64 (v / 2 ^ (64 * i))) else M.serviceRegs c n
    let d := regs.foldl (fun d r => d.setG r.1 r.2) c
    let x := (fed.map x.eat).getD x
    let x := if n.testBit 11 then x.irrev c.id c.idx (0x300 + n) (ofBytes (bytes.take 48)) else x
    let x := x.onCore c.idx fun c => regs.foldl (fun c r => c.setG r.1 r.2) c
    x.append [{ kind := 3, space := 0, foreign := false, atomic := false, spilled := false, source := c.id, core := c.idx, cslot := x.cslot
                addr := 0x300 + n, win := x.win.num, svc := true
                payload := BitVec.ofNat 512 ((d.g 5).toNat + 2 ^ 64 * (d.g 6).toNat + 2 ^ 128 * (d.g 7).toNat) }]
  if ((M.ctx? k).map fun x => x.replay.isSome).getD true then M else { M with keepers := { M.keepers with console := M.keepers.console ++ bytes } }

/-- In replay a trap stops nothing: its service stands in the log, or is done again, and what it cost is counted again (R179, R200, R211). -/
def Mach.replayServices (M : Mach) (k : Nat) : Mach :=
  match M.ctx? k with
  | none => M
  | some x =>
    if x.replay.isNone then M
    else
      let trap (q : Stop) : Bool := q.cause.code == 0x33 && decide (q.slot ≤ x.cslot)
      let lost := if x.stops.any trap then (x.services.find? fun q => q.1 == x.cslot).elim 0 (·.2) else 0
      let M := M.setCtx { x with
        stops := x.stops.filter (fun q => !trap q)
        account := { x.account with service := x.account.service + lost } }
      (x.stops.filter trap).foldl (fun M q => match (M.ctx? k).bind fun x => x.core? q.cause.core with
        | some c => M.serve k c q.cause.detail.toNat
        | none => M) M

/-! The end of a replay (R200-R203). -/

/-- The newest window before `n` whose log holds an OLD entry for the line of a byte (R202). -/
def Ctx.writtenBefore (x : Ctx) (n : Nat) (q : Nat × Nat × Nat) : Option Window :=
  let (a, space, core) := q
  let has (w : Window) : Bool := (x.coldLog.flatMap id ++ x.warmLog).any fun e => e.kind == 1 && e.win == w.num && e.space == space
    && e.addr == a / 64 * 64 && (space == 2 || (if space = 1 then e.core / 8 == core / 8 else e.core == core))
  (x.windows ++ [x.win]).reverse.find? fun w => decide (w.num < n) && decide ((x.horizon.getD (n + 1)) ≤ w.num) && has w

/-- Replay has reached its target: the context goes on live, or goes back to the write that was sought, or stands there (R200-R203). -/
def Mach.replayDone (M : Mach) (k : Nat) : Mach :=
  match M.ctx? k with
  | none => M
  | some x => match x.replay with
    | none => M
    | some p =>
      let ends (M : Mach) : Mach := (M.settleSent k).onCtx k fun x =>
        { p.owed.foldl (fun x o => x.postNow o.1 o.2.1 o.2.2.2 o.2.2.1 true) x with replay := none }
      if p.live then ends M
      else match p.seek with
        | none =>
          let M := (ends M).onCtx k fun x => x.standing M.mslot
          let M := { M with aside := M.aside.filter fun a => a.1.slot != k }
          match p.cmd with
          | none => M
          | some seq => M.endSeq seq 0 (x.cslot + if p.tainted then 2 ^ 63 else 0)
        | some q => match p.found with
          | some w => match (x.windows ++ [x.win]).reverse.find? fun v => decide (v.start ≤ w) && decide (x.horizon.getD (x.win.num + 1) ≤ v.num) with
            | some v => M.replayFrom k v { target := w, seek := none, live := false, cmd := p.cmd, tainted := p.tainted, rest := p.feed }
            | none => M.rstepFail k p.cmd
          | none => match x.writtenBefore p.win q with
            | some v => M.replayFrom k v { target := p.target, seek := some q, live := false, cmd := p.cmd, tainted := p.tainted, rest := p.feed }
            | none => M.rstepFail k p.cmd

/-! The freeze of a context, and what the keeper does at once (R172, R173, R178, R401). -/

/-- A stopped context freezes: traced, and followed by rollback, by its end, or by its dump. -/
def Mach.freezeCtx (M : Mach) (k : Nat) (causes : List Cause) : Mach :=
  match M.ctx? k with
  | none => M
  | some x =>
    let x := M.stopped x causes
    let code := x.header.cause
    let M := (((M.setCtx x).signalFreeze x).spill k).trace x 1 (if x.header.core < x.cores.length then x.header.core else 0xFFFF) code
    if code = 0x31 then M.drain k
    else if M.cold.state = 6 then M.openDump
    else if code = 0x21 ∨ code = 0x22 then (M.rollback k).openDump
    else if x.reversing && fatalCode code then M.rstepFail k (x.replay.bind (·.cmd))
    else if x.header.fatal then M.openDump
    else M

/-- The counter of lost time that a freeze counts in (R211). -/
def Account.addFreeze (a : Account) (code n : Nat) : Account :=
  if isSlip code then { a with slip := a.slip + n }
  else if isFault code then { a with fault := a.fault + n }
  else if code = 0x32 then { a with preempt := a.preempt + n }
  else if code = 0x33 then { a with service := a.service + n }
  else { a with other := a.other + n }

/-! Thaws (R127, R172, R177, R180, R401). -/

/-- A register of a core as the word at slot s reads it: after the landings of s (R115). -/
def Ctx.atIssue (x : Ctx) (j : Nat) : Option Core := (x.landDue j).core? j

/-- The thaw condition of one core's slip. -/
def Ctx.slipHolds (x : Ctx) (c : Core) : Bool :=
  match c.record.cause with
  | 1 =>
    let q := c.inp c.record.port
    !q.entries.isEmpty && q.entries.length == q.planNext - q.popped
  | 2 => match decode .s c.record.word with
    | some (.mmv _ _ m _) => (c.mb m.toNat).valid
    | _ => true
  | 8 | 9 => match decode .s c.record.word, x.atIssue c.idx with
    | some (.wait _ r _ tc imm), some d => (c.tc tc.toNat).err || (d.g r + imm.setWidth 64).ule (c.tc tc.toNat).value
    | _, _ => true
  | _ => true

def slipThaws (code : Nat) : Bool := code = 1 || code = 2 || code = 8 || code = 9

/-- A fault or an abort has met the frozen context: the keeper thaws it for that, and no slot runs before the freeze that follows (R51, R67, R69,
R173). -/
def Ctx.mustStop (x : Ctx) : Bool := x.stops.any fun q => (isFault q.cause.code || q.cause.code == 0x31) && decide (q.slot ≤ x.cslot)

/-- A frozen context may be thawed by its keeper (R172): a slip whose condition holds, a service that is done, a restored context. -/
def Ctx.mayThaw (x : Ctx) : Bool :=
  match x.run with
  | .frozen _ none =>
    let h := x.header
    !h.fatal && (!h.held || h.resume) && (
      if slipThaws h.cause then (x.cores.all fun c => c.idle || x.slipHolds c) || x.mustStop
      else if h.cause = 0x33 then h.serviced
      else if h.cause = 0x32 then h.serviced && x.cores.all fun c => (List.range 8).all fun i =>
        (c.inp i).walk.isNone || decide ((c.inp i).planNext - (c.inp i).popped ≤ (c.inp i).entries.length)
      else h.resume)
  | _ => false

/-- The thaw is requested; a RESUME that waited for it ends with the CSLOT of the resume (R401). -/
def Mach.thawCtx (M : Mach) (k : Nat) : Mach :=
  match M.ctx? k with
  | none => M
  | some x =>
    let M := M.setCtx (x.thaw M.mslot)
    if x.header.resume then
      (M.cmds.filter fun c => c.kind == 9 && c.field 0x18 2 == 8 && c.state == .started && c.asid == x.asid).foldl (fun M c => M.endCmd c 0 x.cslot) M
    else M

/-- A state register of a core takes what a keeper writes to it: the fields that programs or keepers write (R143). -/
def Core.keeperSreg (c : Core) (n now : Nat) (v : W64) : Core :=
  if 0x180 ≤ n ∧ n ≤ 0x187 then c.setInp (n - 0x180) { c.inp (n - 0x180) with min := bits v.toNat 10 0, cap := bits v.toNat 26 16 }
  else if 0x188 ≤ n ∧ n ≤ 0x18B then c.setOutp (n - 0x188) { c.outp (n - 0x188) with cap := bits v.toNat 11 0 }
  else c.writeSreg n now v

/-- A register of `n` words of 64 bits with word `i` replaced. -/
def putWord (i old : Nat) (v : W64) : Nat := merge old (v.toNat * 2 ^ (64 * i)) ((2 ^ 64 - 1) * 2 ^ (64 * i))

/-- A field of the matrix configuration. -/
def Matrix.setConf (q : Matrix) (i v : Nat) : Matrix :=
  match i with
  | 0 => { q with valid := v.testBit 0 }
  | 1 => { q with m := v }
  | 2 => { q with n := v }
  | 3 => { q with k := v }
  | 4 => { q with fa := (Fmt.ofCode (BitVec.ofNat 4 v)).getD q.fa }
  | 5 => { q with fw := (Fmt.ofCode (BitVec.ofNat 4 v)).getD q.fw }
  | 6 => { q with pair := v.testBit 0 }
  | _ => { q with bound := v.testBit 0 }

/-- A register of the watchpoints takes a keeper's write: reserved fields read zero, and of WPHIT a keeper writes V (R204). -/
def Watch.write (w : Watch) (i : Nat) (v : W64) : Watch :=
  match i with
  | 0 => { w with addr := v &&& BitVec.ofNat 64 (2 ^ 48 - 1) }
  | 1 => { w with mask := v }
  | 2 => { w with ctl := v &&& 0xFFFF }
  | _ => { w with hit := (w.hit &&& BitVec.ofNat 64 (2 ^ 63 - 1)) ||| (v &&& BitVec.ofNat 64 (2 ^ 63)) }

/-- A state register takes a keeper's write: the account, the allowance and the watchpoints are the context's (R136, R143, R204). -/
def Ctx.keeperSreg (x : Ctx) (j n : Nat) (v : W64) : Ctx :=
  if n = 0x040 then { x with heat := v.toInt }
  else if n = 0x041 then { x with allow := v.toNat }
  else if 0x100 ≤ n ∧ n < 0x110 then { x with watch := x.watch.modify ((n - 0x100) / 4) fun w => w.write (n % 4) v }
  else x.onCore j fun c => c.keeperSreg n x.cslot v

/-- What a keeper's write leaves in the frozen state (R177, R178). -/
def Ctx.windowPut (x : Ctx) (reg : WindowReg) (v : W64) : Ctx :=
  match reg with
  | .thaw => x
  | .g j r => x.onCore j fun c => c.setG r.toNat v
  | .sreg j n => x.keeperSreg j n.toNat v
  | .p j r => x.onCore j fun c => c.setP r.toNat (v.getLsbD 0)
  | .lc j r => x.onCore j fun c => c.setLc r.toNat (v.setWidth 32)
  | .m j r => x.onCore j fun c => c.setMb r.toNat { c.mb r.toNat with value := v }
  | .mValid j r => x.onCore j fun c => c.setMb r.toNat { c.mb r.toNat with valid := v.getLsbD 0 }
  | .h j r => x.onCore j fun c => c.setH r.toNat (v.setWidth 16)
  | .tc j r => x.onCore j fun c => c.setTc r.toNat { c.tc r.toNat with value := v }
  | .tcErr j r => x.onCore j fun c => c.setTc r.toNat { c.tc r.toNat with err := v.getLsbD 0 }
  | .tk j r => x.onCore j fun c => c.setTk r.toNat v
  | .k j r row => x.onCore j fun c => c.setK r.toNat row.toNat v
  | .v j r row w => x.onCore j fun c => c.setV r.toNat row.toNat (BitVec.ofNat 2048 (putWord w.toNat (c.tile r.toNat row.toNat).toNat v))
  | .a j r row w => x.onCore j fun c => c.setA r.toNat row.toNat (BitVec.ofNat 4096 (putWord w.toNat (c.acc r.toNat row.toNat).toNat v))
  | .conf j i => x.onCore j fun c => c.onMat fun m => m.setConf i.toNat v.toNat
  | .scale j col => x.onCore j fun c => c.onMat fun m => { m with scale := SMap.set 0 m.scale col.toNat (v.setWidth 40) }
  | .plane j shadow row w => x.onCore j fun c => c.onMat fun m =>
    let put (p : SMap Row) : SMap Row := SMap.set 0 p row.toNat (BitVec.ofNat 2048 (putWord w.toNat (SMap.get 0 p row.toNat).toNat v))
    if shadow then { m with shadow := put m.shadow } else { m with active := put m.active }
  | .pat j i w => x.onCore j fun c => c.setPat i.toNat (BitVec.ofNat 512 (putWord w.toNat (c.pat i.toNat).toNat v))
  | .cold j w => x.onCore j fun c => { c with cold := c.cold.write (8 * w.toNat) 8 v.toNat }
  | .pool cl w => { x with pools := setAt x.pools cl ((x.pools.getD cl []).write (8 * w.toNat) 8 v.toNat) }

/-- THAW_WRITE (R143, R177, R178): a keeper's write to the window of a frozen context. A write of 1 to THAW it makes only when the disposition
of the cause allows it (R172); what else it writes is visible from s on (R177). -/
def Mach.windowWrite (M : Mach) (k : Nat) (reg : WindowReg) (v : BitVec 64) : Mach :=
  match M.ctx? k with
  | none => M
  | some x => match x.run with
    | .frozen .. => match reg with
      | .thaw => if v.getLsbD 0 && x.mayThaw then M.thawCtx k else M
      | r => M.setCtx (x.windowPut r v)
    | _ => M

def execThawWrite (k : Nat) (w : WindowWrite) (s : State) : Out := s.onMach fun M => M.windowWrite k w.reg w.v

/-- FREEZE_ACK_WRITE (R178): a write of any value, and the interrupt is no longer pending. -/
def execFreezeAckWrite (k : Nat) (_ : BitVec 64) (s : State) : Out :=
  s.onMach fun M => { M with keepers := { M.keepers with unacked := M.keepers.unacked.filter fun q => q.1 != k } }.onCtx k fun x =>
    { x with header := { x.header with ack := true } }

/-- Stops that have come while the context did not run (R173). -/
def Ctx.stopsNow (x : Ctx) : List Cause := (x.stops.filter fun q => decide (q.slot ≤ x.cslot)).map (·.cause)

/-- CONTEXT_RESUME (R106, R125, R173, R177): a dwell or a freeze ends, in whole wheels; a stop that waits freezes the context again in
the same slot. -/
def Mach.resumeCtx (M : Mach) (k : Nat) : Mach :=
  match M.ctx? k with
  | none => M
  | some x =>
    let go (M : Mach) (x : Ctx) : Mach :=
      let stops := x.stopsNow
      let x := x.resume M.mslot
      let M := M.setCtx x
      if stops.isEmpty then M else M.freezeCtx k stops
    match x.run with
    | .dwelling since w kind =>
      if w = 0 ∨ M.mslot < since + 4096 * w then M
      else
        let a := if kind = 0 ∨ kind = 2 then { x.account with heat := x.account.heat + w } else { x.account with late := x.account.late + w }
        let M := if kind = 1 then M else M.trace x 4 0xFFFF w
        go M { x with account := a }
    | .frozen since (some t) =>
      if M.mslot < resumeAt since t then M
      else
        let M := M.trace x 2 0xFFFF x.header.cause
        let lost := M.mslot - x.header.mslot
        let trap := x.header.cause == 0x33 && !x.header.spill && x.replay.isNone
        go M { x with account := x.account.addFreeze x.header.cause lost
                      services := if trap then (x.cslot, lost) :: x.services.filter fun q => decide (q.1 < x.cslot) else x.services }
    | _ => M

def execContextResume (k : Nat) (s : State) : Out := s.onMach fun M => M.resumeCtx k

/-! Services (R179, R196). -/

/-- SERVICE_TRAP_SERVICE (R179): every core that trapped is served; the keeper may then thaw the context. -/
def execServiceTrapService (k : Nat) (s : State) : Out :=
  s.onMach fun M => match M.ctx? k with
    | none => M
    | some x =>
      if x.header.cause ≠ 0x33 ∨ x.header.serviced ∨ x.header.spill then M
      else match x.run with
        | .frozen _ none =>
          let M := (x.cores.filter fun c => !c.idle && c.record.cause == 0x33).foldl (fun M c => M.serve k c c.record.detail.toNat) M
          M.onCtx k fun x => { x with header := { x.header with serviced := true } }
        | _ => M

/-- RETAIN_SPILL (R196): the cold area of the core's cluster moves to the warm ring, is charged, and the context is thawed. -/
def execRetainSpill (k : Nat) (s : State) : Out :=
  s.onMach fun M => match M.ctx? k with
    | none => M
    | some x =>
      if x.header.cause ≠ 0x33 ∨ !x.header.spill ∨ x.header.serviced then M
      else match x.run with
        | .frozen _ none =>
          let cl := x.header.core / 8
          let es := x.coldLog.getD cl []
          let hu := es.length * 512 * M.cold.wx.toNat
          let x := es.foldl (fun x e => x.append [{ e with spilled := true }]) x
          let zero (c : Core) : Core := if c.cluster == cl then { c with entries := 0 } else c
          let x : Ctx := { x with
            coldLog := setAt x.coldLog cl [], heat := x.heat + (hu : Nat)
            cores := x.cores.map zero, header := { x.header with serviced := true } }
          let x := (x.onWin fun w => { w with spilled := true }).syncHeader
          ({ M with cold := { M.cold with charge := M.cold.charge + hu } }.setCtx x).thawCtx k
        | _ => M

/-! Soft errors, dumps (R172, R185, R203). -/

/-- SOFT_ERROR: parity of a cold bank, or residue of the matrix array, in core `j` (R172). -/
def execSoftError (k j : Nat) (s : State) : Out :=
  s.onCtx k fun x => match x.core? j with
    | none => x
    | some c => { x with stops := x.stops ++ [{ slot := x.nextStop, cause := { core := j, lid := c.id, code := 0x22, stream := 4, word := 0
                                                                               port := 0, detail := 0 } }] }

/-- DUMP_CLOSE (R185, R186): the dump of the context in slot `k` closes; its launch ends with status FATAL, and the next dump opens. -/
def Mach.closeDump (M : Mach) (k : Nat) : Mach :=
  match M.ctx? k with
  | none => M
  | some x =>
    if M.keepers.dumps.any fun d => d.isOpen && d.slot == k && d.asid == x.asid then
      let shut (d : Dump) : Dump := { d with isOpen := false }
      let M := { M with keepers := { M.keepers with dumps := M.keepers.dumps.map shut } }
      (M.endCtx x (if x.header.nomem then 7 else 6)).openDump
    else M

def execDumpClose (k : Nat) (s : State) : Out := s.onMach fun M => M.closeDump k

/-! Pre-emption (R182). -/

/-- Bytes of a cold space that a live-range table names. -/
def liveRanges (kind : Nat) (table : List (List Nat)) : List (Nat × Nat) :=
  table.filterMap fun i => match i with
    | [k, _, _, len, base] => if k = kind then some (base, base + len) else none
    | _ => none

def keepRanges (m : Memory) (l : List (Nat × Nat)) : Memory := m.filter fun c => l.any fun r => decide (r.1 ≤ c.1) && decide (c.1 < r.2)

/-- The saved image of a core: what its window's table names, the pattern table (R331), the streams, counters, tokens and ports; entries of
inbound ports are walked again (R182, R183). -/
def savedCore (table : List (List Nat)) (c : Core) : Core :=
  let live (kind n : Nat) : Bool := table.any fun i => i.headD 0 == kind && decide (i.getD 1 0 ≤ n) && decide (n ≤ i.getD 2 0)
  let q := c.regs
  let regs : Regs := { q with g := q.g.filter (fun e => live 1 e.1), p := if table.any (fun i => i.headD 0 == 2) then q.p else []
                              v := q.v.filter (fun e => live 3 (e.1 / 16)), a := q.a.filter (fun e => live 4 (e.1 / 16))
                              k := q.k.filter (fun e => live 5 (e.1 / 16)), h := q.h.filter (fun e => live 6 e.1)
                              lc := q.lc.filter (fun e => live 7 e.1), m := q.m.map fun e => if live 8 e.1 then e else (e.1, { e.2 with value := 0 })
                              flags := 0, dphase := 0 }
  let port (p : InPort) : InPort :=
    { p with entries := [], res := 0, shared := 0, next := p.popped, halted := none, fill := 0, rewalk := max p.rewalk p.next }
  { c with regs, mat := Matrix.start, inb := (c.inb.map fun e => (e.1, port e.2)).filter fun e => e.2 != InPort.start
           cold := keepRanges c.cold (liveRanges 9 table ++ [(0x1C000, 0x20000)]) }

/-- An earlier access or command of the context, by its home point, that is still to be performed and meets lines of an access (R221). -/
def Ctx.conflicts (x : Ctx) (id upto : Nat) (writes : Bool) (lines : List Nat) : Bool :=
  let meet (l : List (Nat × Nat)) : Bool := l.any fun e => lines.contains (e.2 / 512)
  (x.reqs.any fun w => w.id != id && !w.performed && (writes || w.act.isWrite) && decide (w.home ≤ upto) && meet (x.virtualElems w))
    || x.cmds.any fun q => q.id != id && q.kind != 2 && !q.done && decide (q.start ≤ upto)
      && (meet (q.dst.spanElems 0 q.dst.bytes) || (writes && meet (q.src.spanElems 0 q.bytes)))

/-- Warm-side work that goes on while the context is frozen for pre-emption (R111, R182): a read, an atomic, or a scalar access, unless a write
that is still to take place comes before it (log 115). -/
def Ctx.goesOn (M : Mach) (x : Ctx) (r : Req) : Bool :=
  (r.act != .write || r.queue == 12) && x.free M { r with async := true, home := M.mslot }
    && !x.conflicts r.id r.home r.act.isWrite ((x.virtualElems r).map fun e => e.2 / 512)

/-- The same for the next granule that a copy command reads. -/
def Ctx.copyGoesOn (x : Ctx) (L : Links) (q : Cmd) : Bool :=
  q.kind != 2 && q.started && !q.done && !q.held && decide (q.read < q.reads) && x.clearFor L q false
    && !x.conflicts q.id q.post false ((q.src.spanElems 0 q.bytes).map fun e => e.2 / 512)

def Mach.goOn (M : Mach) (k id : Nat) : Mach :=
  match M.ctx? k with
  | none => M
  | some x => match x.reqs.find? fun r => r.id == id with
    | none => M
    | some r =>
      if !x.goesOn M r || x.holds M r then M
      else if r.sys then M.sendSys k r
      else match M.sweep.perform k r with
        | (M, true) => if r.act == .write then M.applied k r else M
        | (M, false) => M

def Mach.copyOn (M : Mach) (k id : Nat) : Nat → Mach
  | 0 => M
  | n + 1 => match (M.ctx? k).bind fun x => (x.cmds.find? fun q => q.id == id).filter fun q => x.copyGoesOn M.links q with
    | none => M
    | some q => (M.readGranule k q).copyOn k id n

/-- The warm-side work of a victim goes on, in the order of its home points; crossings from cold storage take the data that they have still to
read (R182). -/
def Mach.finishWarm (M : Mach) (k : Nat) : Mach :=
  match M.ctx? k with
  | none => M
  | some x =>
    let ids := (sortBy (·.home) x.reqs).map (·.id)
    let M := ids.foldl (fun M id => M.goOn k id) M
    let M := x.cmds.foldl (fun M q => M.sweep.copyOn k q.id q.reads) M
    let take (x : Ctx) (id : Nat) : Ctx := match x.xings.find? fun q => q.id == id && q.kind != 0 && decide (64 * q.next < q.bytes) with
      | some q => x.readGranule q
      | none => x
    M.onCtx k fun x => (x.xings.flatMap fun q => List.replicate (cdiv q.bytes 64) q.id).foldl take x

/-- Posts that bound rows in flight are still to make, at their planned slots (R182). -/
def Ctx.rowPosts (x : Ctx) : List Post :=
  x.reqs.filterMap fun r => match r.use, x.core? r.core with
    | .row i gen k, some c =>
      let q := c.inp i
      let last := (q.walk.map fun w => k + 1 == w.rows).getD false
      if q.gen == gen && last && decide (q.rewalk ≤ k) && r.performed then
        some { slot := max x.cslot r.land, core := r.core, tc := q.tc, issue := r.opIssue
               err := r.check.isSome && (Machine.crcOf q.crc).toNat != r.value.toNat / 2 ^ 3072 % 2 ^ 32 }
      else none
    | _, _ => none

/-- A row that has still to be read posts when it has been walked again. -/
def Ctx.unread (x : Ctx) (c : Core) : Core :=
  { c with inb := c.inb.map fun e =>
      let ks := x.reqs.filterMap fun r => match r.use with
        | .row i gen k => if r.core == c.idx && i == e.1 && gen == e.2.gen && !r.performed then some k else none
        | _ => none
      (e.1, { e.2 with rewalk := ks.foldl min e.2.rewalk }) }

/-- The image of a context (R182). -/
def Ctx.image (x : Ctx) : Ctx :=
  let t := x.win.table
  { x with cores := x.cores.map fun c => x.unread (savedCore t c)
           pools := x.pools.map fun p => keepRanges p (liveRanges 10 t)
           coldLog := x.coldLog.map fun _ => [], coldNext := x.coldNext.map fun _ => 0, tags := x.tags.map fun _ => []
           windows := [], win := { x.win with unrecoverable := x.win.unrecoverable || x.coldLog.any fun l => l.any fun e => e.win == x.win.num }
           posts := x.posts ++ x.rowPosts
           reqs := x.reqs.filter fun r => match r.use with
             | .row .. => false
             | _ => true }

/-- What a victim has issued still works on the warm side, or stands at a fault (R182). -/
def Ctx.unfinished (M : Mach) (x : Ctx) : Bool :=
  x.reqs.any (fun r => r.held || x.goesOn M r) || x.cmds.any fun q => q.held || x.copyGoesOn M.links q

/-- PREEMPT_SAVE (R76, R103, R182): the warm-side work that it has issued goes on; once none is left, the victim's image is saved, and it waits at
the head of the queue of its priority. -/
def Mach.preempt (M : Mach) (k : Nat) : Mach :=
  match M.ctx? k with
  | none => M
  | some x => match x.run with
    | .frozen since none =>
      if x.header.cause ≠ 0x32 ∨ x.header.serviced ∨ x.header.fatal then M
      else
        let M := M.finishWarm k
        match M.ctx? k with
        | none => M
        | some x =>
          if x.unfinished M then M
          else
            let prio := x.field 0x002 1 % 4
            let w : Waiting := { cmd := x.cmd, asid := x.asid, record := x.record, prio, since := M.links.clock - x.aged, blocked := none, ring := some x.ringAt.1
                                 saved := some { x.image.syncHeader with victim := false, run := .frozen since none, placed := M.mslot } }
            let park (t : Trace) : Trace := if t.slot == k then { t with slot := 256 + x.asid.toNat } else t
            { M with ctxs := M.ctxs.filter fun y => y.slot != k
                     traces := M.traces.map park, warm := M.warm.clearCtxtr k
                     launch := setAt M.launch prio (w :: M.launch.getD prio []) }
    | _ => M

def execPreemptSave (k : Nat) (s : State) : Out := s.onMach fun M => M.preempt k

end Sys2Proof.Machine
end

