-- ==== Sys2Proof/Machine/Slot.lean ====
section
/-! DEFINITION. One slot: what is due in it, its stages, and its end (R106-R138, R217-R221, R324-R329); the events of the timetable. -/

namespace Sys2Proof.Machine

/-! Barriers (R121, R122, R135, R137). -/

/-- Beacons and instances that a core is held at. -/
def Ctx.instances (x : Ctx) : List (Nat × Nat) :=
  (x.cores.filterMap fun c => c.barred.map fun q => (q.1, x.instance' q.1 c.cluster)).eraseDups

/-- Modules of the other replicas (R122). -/
def Ctx.others (x : Ctx) : List Nat := (List.range 32).filter fun i => (x.field 0x05C 4).testBit i && i != Config.self.toNat

/-- The arrivals of every other replica at a release slot of a beacon have come, or, with no beacon, their completions (R108, R122). -/
def Links.allArrived (L : Links) (x : Ctx) (beacon : Option (BitVec 3)) (r : Nat) : Bool :=
  x.others.all fun h => L.arrived.contains { src := h, asid := x.asid, beacon, slot := r }

/-- The context dwells at its present slot. -/
def Ctx.dwellAt (x : Ctx) (mslot wheels kind : Nat) : Ctx := { x with run := .dwelling mslot wheels kind }

/-- At R the arrivals of a system barrier go once to every other replica, over Dretex class 0 (R26, R122). -/
def Mach.signal (M : Mach) (x : Ctx) (beacon : BitVec 3) (r : Nat) : Mach × Ctx :=
  if x.beacon beacon.toNat ≠ 4 ∨ x.replay.isSome ∨ x.signalled.contains (beacon.toNat, r) then (M, x)
  else
    let x : Ctx := { x with signalled := x.signalled ++ [(beacon.toNat, r)] }
    ({ M with links := x.others.foldl (fun L h => L.emit h (.barrier Config.self.toNat x.asid beacon r)) M.links }.setCtx x, x)

/-- BARRIER_RELEASE at R (R121, R122, R135, R137): the stop for the other replicas, the heat dwell, the foghorn dwell, and then the
release, after which each stream issues as if the hold had not been. -/
def Mach.release (M : Mach) (k : Nat) (beacon : BitVec 3) (inst : Nat) : Mach :=
  match M.ctx? k with
  | none => M
  | some x =>
    let b := beacon.toNat
    if !x.moves || x.releaseSlot b inst != some x.cslot then M
    else
      let r := x.cslot
      let system := x.beacon b = 4
      let (M, x) := M.signal x beacon r
      if system && x.replay.isNone && !M.links.allArrived x (some beacon) r then (M.setCtx (x.dwellAt M.mslot 0 3)).trace x 3 0xFFFF 0
      else if 0 < x.heat && x.dwelt != some (2 * r) && x.dwelt != some (2 * r + 1) then
        let n := cdiv x.heat.toNat (max 1 x.allow)
        (M.setCtx { x.dwellAt M.mslot n 0 with dwelt := some (2 * r) }).trace x 3 0xFFFF n
      else if M.cold.foghorn && x.dwelt != some (2 * r + 1) then
        (M.setCtx { x.dwellAt M.mslot 0 2 with dwelt := some (2 * r + 1) }).trace x 3 0xFFFF 0
      else
        let free (c : Core) : Core := match c.barred with
          | some (b', t) => if b' = b ∧ x.instance' b c.cluster = inst then { c.shift (r - 1 - t) with barred := none } else c
          | none => c
        (M.setCtx { x with cores := x.cores.map free }).trace x 5 0xFFFF b

def execBarrierRelease (k : Nat) (beacon : BitVec 3) (inst : Nat) (s : State) : Out := s.onMach fun M => M.release k beacon inst

/-- SYSTEM_BARRIER_ARRIVALS (R122): the arrivals of every replica have come, and the stop ends with its wheel. -/
def execSystemBarrierArrivals (k : Nat) (beacon : BitVec 3) (s : State) : Out :=
  s.onMach fun M => match M.ctx? k with
    | none => M
    | some x => match x.run with
      | .dwelling since 0 3 =>
        if M.links.allArrived x (some beacon) x.cslot then M.setCtx (x.dwellAt since (max 1 (cdiv (M.mslot - since) 4096)) 3) else M
      | _ => M

/-! The meter (R133-R138). -/

/-- A placed context whose CSLOT 0 has come (R110). -/
def Ctx.begun (x : Ctx) : Bool := match x.run with
  | .loading | .starting _ | .ended | .gone => false
  | _ => true

/-- WHEEL_POINT (R134, R137): the first is at CSLOT 4,096, and a foghorn dwell ends with the wheel whose point finds the foghorn clear. -/
def execWheelPoint (k : Nat) (s : State) : Out :=
  s.onMach fun M => M.onCtx k fun x =>
    if !x.begun || M.mslot % 4096 != x.phase || (x.run == .running && M.mslot == x.origin) then x
    else
      let x := { x with heat := max (x.heat - x.allow) (-4 * x.allow) }
      match x.run with
      | .dwelling since 0 2 => if M.cold.foghorn || M.mslot ≤ since then x else x.dwellAt since (max 1 (cdiv (M.mslot - since) 4096)) 2
      | _ => x

/-- A stop request at the next slot of every running context (R138, R17). -/
def Ctx.request' (x : Ctx) (code : Nat) : Ctx :=
  let c := (x.cores.find? fun c => !c.idle).map fun c => (c.idx, c.id)
  { x with stops := x.stops ++ [{ slot := x.nextStop, cause := { core := (c.getD (0, 0)).1, lid := (c.getD (0, 0)).2, code, stream := 4, word := 0
                                                                 port := 0, detail := 0 } }] }

/-- A context that runs or dwells. -/
def Ctx.live (x : Ctx) : Bool := match x.run with
  | .running | .dwelling .. => true
  | _ => false

/-- A stop of a code is asked for and has not been taken. -/
def Ctx.asked (x : Ctx) (code : Nat) : Bool := x.stops.any fun q => q.cause.code == code

def Mach.stopAll (M : Mach) (code : Nat) : Mach :=
  { M with ctxs := M.ctxs.map fun x => if x.live && !x.asked code then x.request' code else x }

/-- The same for a context that is frozen for another cause, or has not begun: the stop takes effect at its thaw, or in its first slot
(R17, R173). -/
def Mach.stopHeld (M : Mach) (code : Nat) : Mach :=
  let one (x : Ctx) : Ctx := match x.run with
    | .frozen _ thaw => if x.header.fatal || (x.header.cause == code && thaw.isNone) || x.asked code then x else x.request' code
    | .loading | .starting _ => if x.asked code then x else x.request' code
    | _ => x
  { M with ctxs := M.ctxs.map one }

/-- Every context that a thermal stop froze is thawed on its phase (R17, R138); none is in the safe state (R184). -/
def Mach.thawAll (M : Mach) : Mach :=
  let one (x : Ctx) : Ctx := match x.run with
    | .frozen _ none => if x.header.cause = 0x30 && !x.header.fatal then x.thaw M.mslot
      else { x with stops := x.stops.filter fun q => q.cause.code != 0x30 }
    | _ => { x with stops := x.stops.filter fun q => q.cause.code != 0x30 }
  if M.safe then M else { M with ctxs := M.ctxs.map one }

/-- HEAT_EVALUATION (R137, R138): E over the last 16 wheels, the foghorn, and the thermal freeze. -/
def Mach.evaluate (M : Mach) : Mach :=
  let e := M.cold.history.foldl (· + ·) M.cold.charge
  let hot := if 40960000000 < e then M.cold.hot + 1 else 0
  let horn := if 28672000000 < e then true else if e ≤ 20480000000 then false else M.cold.foghorn
  let M := { M with cold := { M.cold with history := (M.cold.charge :: M.cold.history).take 15, charge := 0, foghorn := horn, hot }
                    keepers := { M.keepers with foghornIrq := horn && (M.keepers.foghornIrq || !M.cold.foghorn) } }
  let M := if 64 ≤ hot then M.stopAll 0x30 else M
  if e ≤ 20480000000 ∧ M.cold.state = 4 then M.thawAll else M

def execHeatEvaluation (s : State) : Out := s.onMach fun M => if M.mslot % 4096 = 0 then M.evaluate else M

/-! Checkpoints (R123, R124, R328, R329). -/

/-- Nothing that the core issued in slot `c` itself has a result that R123 covers. -/
def Core.alone (c : Core) (t : Nat) : Bool :=
  (c.pend.all fun p => !(p.dst.covered && p.issue == t)) && c.ops.all fun o => !(o.covered && o.issue == t && !o.spent)

/-- The checkpoint checks of one core, in order (R328). -/
def Ctx.ckptCause (x : Ctx) (c : Core) (q : Ckpt) : Option Nat :=
  let same := x.cores.all fun d => d.idle || d.halt.isSome || match d.ckpt with
    | some r => r.ovl == q.ovl && r.tab == q.tab
    | none => false
  if !c.quiet x.cslot || !c.alone x.cslot || c.s.xfer.isSome then some 0x1B
  else if !same then some 0x1C
  else match q.ovl with
    | none => none
    | some n => if x.code.faulted.any (fun f => f.1 == n) || !(x.code.overlays.any fun o => o.1 == n) then some 0x20 else none

def Ctx.ckptCauses (x : Ctx) : List Cause :=
  x.cores.filterMap fun c => match c.ckpt with
    | none => none
    | some q => (x.ckptCause c q).map fun code => rowCause c q.word 0 { code, detail := 0, port := 0 }

/-- The words of an overlay in one stream's store: the region is as long as the largest overlay of the stream (R385). -/
def Code.overlayInto (cd : Code) (n : Nat) (st : Stream) (store : SMap W32) : SMap W32 :=
  let mine := cd.overlays.filter fun o => o.2.1 == rank st
  let size := mine.foldl (fun m o => max m (o.2.2.1 + o.2.2.2.length)) 0
  let words := (mine.filter fun o => o.1 == n).flatMap fun o => (List.range o.2.2.2.length).zip o.2.2.2 |>.map fun w => (o.2.2.1 + w.1, w.2)
  words.foldl (fun m w => SMap.set 0 m w.1 w.2) (SMap.erase store 0 size)

def Core.overlay (c : Core) (cd : Code) (n : Nat) : Core :=
  { c with s := { c.s with store := cd.overlayInto n .s c.s.store }, v := { c.v with store := cd.overlayInto n .v c.v.store }
           m := { c.m with store := cd.overlayInto n .m c.m.store }, x := { c.x with store := cd.overlayInto n .x c.x.store } }

/-- A checkpoint that has passed its checks takes effect (R329): at c + 1 the mesh targets are the cores' own, whatever an xmode of slot c says
(R376), and the matrix engines are as at CSLOT 0 (R364); an overlay goes into every non-idle core (R385). -/
def Ctx.takeCkpt (x : Ctx) : Ctx :=
  match x.cores.findSome? fun c => c.ckpt with
  | none => x
  | some q =>
    let c := x.cslot
    let one (d : Core) : Core :=
      if d.idle then d
      else
        let d := if d.halt.isSome then d else { d with ckpt := none, hold := some (c, c + 255) }
        let d := { d.onRegs fun r => { r with mesh := d.idx } with mat := Matrix.start, pend := d.pend.filter fun p => p.dst != .mesh }
        match q.ovl with
        | none => d
        | some n => d.overlay x.code n
    let first := x.cores.find? fun d => !d.idle
    let stops := if x.victim && x.replay.isNone then
        [{ slot := c + 256, cause := { core := (first.map (·.idx)).getD 0, lid := (first.map (·.id)).getD 0, code := 0x32, stream := 4, word := 0
                                       port := 0, detail := 0 } : Stop }]
      else []
    { x with cores := x.cores.map one, lastCkpt := c, opening := some (x.code.live.getD q.tab []), stops := x.stops ++ stops }

/-- CHECKPOINT_HOLD_END (R114, R124): the streams go on at c + 256. -/
def execCheckpointHoldEnd (k : Nat) (s : State) : Out :=
  s.onCtx k fun x =>
    let one (c : Core) : Core := match c.hold with
      | some (a, u) => if u < x.cslot then { c.shift (u - a) with hold := none } else c
      | none => c
    if x.moves then { x with cores := x.cores.map one } else x

/-- The slot at which a checkpoint is overdue: none has come by the end of it (R124). -/
def Ctx.overdue (x : Ctx) : Bool :=
  x.lastCkpt + x.field 0x050 4 == x.cslot && x.cores.all fun c => c.ckpt.isNone

/-- CHECKPOINT_OVERDUE (R124). -/
def execCheckpointOverdue (k : Nat) (s : State) : Out :=
  match s.now.ctx? k with
  | none => .next s
  | some x =>
    if x.moves && x.overdue then
      .next { s with causes := s.causes ++ ((x.cores.find? fun c => !c.idle).toList.map fun c => rowCause c 0 4 { code := 0x1D, detail := 0, port := 0 }) }
    else .next s

/-! Halt and completion (R98, R107-R109). -/

/-- What a halt waits for (R107): an access of the core stands in its queue until it is performed, or, at system scope, acknowledged; the cold
lines of an xin are results too (R176). -/
def Ctx.halts (x : Ctx) (c : Core) : Bool :=
  c.halt.isSome && c.line.isNone && c.pend.isEmpty && c.ops.all Op.spent
    && x.reqs.all (fun r => r.core != c.idx || match r.use with
      | .row .. => true
      | _ => false)
    && x.cmds.all (fun q => q.core != c.idx || q.kind == 2 || q.posted)
    && x.xings.all fun q => q.core != c.idx || q.posted

/-- HALT_RETIRE (R107): the halt line rises. -/
def execHaltRetire (k j : Nat) (s : State) : Out :=
  s.onCtx k fun x => match x.core? j with
    | none => x
    | some c => if x.moves && x.halts c then x.setCore { c with line := some x.cslot } else x

/-- The completion tree fires (R107). -/
def Ctx.fires (x : Ctx) : Bool := x.next.isNone && x.cores.all fun c => c.idle || c.line.isSome

/-- Extents of the serial levels, highest-numbered last (R98). -/
def Ctx.serialExtents (x : Ctx) : List Nat :=
  ((List.range (x.field 0x003 1)).filter fun i => x.field (0x0C4 + 8 * i) 1 == 6).map fun i => x.field (0x0C0 + 8 * i) 4

/-- The next serial coordinates, the highest-numbered level fastest; none after the last iteration (R98). -/
def nextSerial : List Nat → List Nat → Option (List Nat)
  | [], _ => none
  | n :: ns, l =>
    let i := l.headD 0
    match nextSerial ns l.tail with
    | some t => some (i :: t)
    | none => if i + 1 < n then some ((i + 1) :: ns.map fun _ => 0) else none

/-- The slot of the final CSLOT is not charged: the context has stopped (R109, R133, R395). -/
def Mach.uncharge (M : Mach) (x : Ctx) : Mach :=
  { M with cold := { M.cold with charge := M.cold.charge - x.charge, ran := M.cold.ran - x.cores.length } }.setCtx { x with
    heat := x.heat - (x.charge : Int), charge := 0 }

/-- The context after its tree has fired: the next iteration is planned, or the context ends, or, with a system level, tells the other replicas
and waits for their trees (R26, R98, R108, R109). -/
def Mach.fire (M : Mach) (k : Nat) : Mach :=
  match M.ctx? k with
  | none => M
  | some x =>
    match nextSerial x.serialExtents x.serial with
    | some _ => M.setCtx { x with next := some (cdiv (x.cslot + 96) 4096 * 4096) }
    | none =>
      let M := M.uncharge x
      let x : Ctx := { x with heat := x.heat - (x.charge : Int), charge := 0 }
      if (x.extent 5).isNone then M.endCtx x 0
      else
        let M := { M with links := x.others.foldl (fun L h => L.emit h (.complete Config.self.toNat x.asid)) M.links }
        if M.links.allArrived x none 0 then M.endCtx x 0 else M.setCtx { x with run := .ended }

/-! Bank collisions (R119). -/

/-- Two accesses of one slot that meet in a bank. -/
def clash (banks : Nat) (a b : BankUse) : Bool :=
  a.line % banks == b.line % banks && !(a.issue == b.issue && a.stream == b.stream && a.line == b.line)

def Core.uses (c : Core) (pool : Bool) (t : Nat) : List BankUse := c.banks.filter fun b => b.slot == t && b.pool == pool

/-- The first of a list that clashes with another. -/
def firstClash (banks : Nat) (l all : List BankUse) : Option BankUse := l.find? fun a => all.any fun b => clash banks a b

/-- The word of the instruction behind an access, if it is still in flight. -/
def Core.wordOf (c : Core) (b : BankUse) : W32 :=
  ((c.ops.find? fun o => o.issue == b.issue && rank o.stream == b.stream).map Op.word).getD 0

def Ctx.collisions (x : Ctx) : List Cause :=
  x.cores.flatMap fun c =>
    let cold := c.uses false x.cslot
    let pool := (x.cores.filter fun d => d.cluster == c.cluster).flatMap fun d => (d.uses true x.cslot).map fun b =>
      if d.idx = c.idx then b else { b with issue := b.issue + 2 ^ 64 * (d.idx + 1) }
    ([firstClash 16 cold cold, firstClash 64 (c.uses true x.cslot) pool].filterMap id).map fun b =>
      rowCause c (c.wordOf b) b.stream { code := 4, detail := BitVec.ofNat 64 (64 * b.line), port := 0 }

/-! What is due. -/

def Req.event (k : Nat) (r : Req) : Instr :=
  match r.use with
  | .sent .. => .outboundRowApply k r.id
  | .granule .. => if r.act == .write then .xoutApply k r.id else .warmAccessPerform k r.id
  | _ => .warmAccessPerform k r.id

/-- Accesses whose home point has come (R219). -/
def Ctx.homeReqs (M : Mach) (x : Ctx) : List Req :=
  x.reqs.filter fun r => !r.performed && !r.held && !r.sent && (r.async || x.moves || r.late x) && decide (r.issue ≤ x.cslot)
    && decide (r.home ≤ r.clock M x)

/-- Writes by core and then by issue, then atomics (R221). -/
def Ctx.inHomeOrder (x : Ctx) (l : List Req) : List Req :=
  let writes := sortBy (fun r => x.lid r.core) (sortBy (fun (r : Req) => r.issue) (l.filter fun r => r.act == .write))
  writes ++ l.filter fun r => r.act != .write && r.act != .read

def Ctx.writeEvents (M : Mach) (x : Ctx) : List Instr := (x.inHomeOrder (x.homeReqs M)).map (Req.event x.slot)

/-- Reads at their homes (R221). -/
def Ctx.readEvents (M : Mach) (x : Ctx) : List Instr := ((x.homeReqs M).filter fun r => r.act == .read).map (Req.event x.slot)

/-- Scalar accesses that may be performed now, whatever they have waited for (R223); a row or granule, whose post a wait of its slot would
see (R322), follows in the next. -/
def Ctx.readyEvents (M : Mach) (x : Ctx) : List Instr :=
  let l := x.reqs.filter fun r => r.queue == 12 && x.ready M r
  (x.inHomeOrder l ++ l.filter fun r => r.act == .read).map (Req.event x.slot)

/-- The X word of this slot frees inbound port `i`: from now on no further row issues (R375). -/
def Core.frees (c : Core) (t i : Nat) : Bool :=
  !c.stopped && c.x.due t && match decode .x ((c.x.redirect t).word (c.x.redirect t).pc) with
    | some (.xfree _ port false) => port.toNat == i
    | _ => false

/-- Ports with a row to issue (R154, R180, R181). -/
def Ctx.portEvents (M : Mach) (x : Ctx) : List Instr :=
  x.cores.flatMap fun c => c.inb.filterMap fun e =>
    let q := e.2
    if x.moves && c.frees x.cslot e.1 then none
    else if (x.moves && q.planDue x.cslot) || (q.lateDue M.mslot && (x.moves || x.crossesStopped q)) then
      some (.inboundRowIssue x.slot c.idx (BitVec.ofNat 3 e.1))
    else none

/-- Landings of accesses and mesh moves (R149, R154, R159, R160). -/
def Ctx.landEvents (M : Mach) (x : Ctx) : List Instr :=
  ((x.reqs.filter fun r => x.lands M r).filterMap fun r => match r.use with
    | .mailbox _ => some (.mailboxLanding x.slot r.id)
    | .row i _ _ => some (.inboundRowReady x.slot r.core (BitVec.ofNat 3 i))
    | .granule .. => if r.act == .read then some (.xinGranuleLanding x.slot r.id) else none
    | _ => none)
    ++ (if x.moves then (x.xings.filter fun q => q.meshDue x.cslot).map fun q => .meshLanding x.slot q.id else [])

/-- Cores with a result that lands. -/
def Ctx.resultEvents (x : Ctx) : List Instr :=
  (x.cores.filter fun c => c.pend.any fun p => decide (p.land ≤ x.cslot) && !p.sends).map fun c => .resultLanding x.slot c.idx

/-- Copy commands whose start slot has come (R164). -/
def Ctx.startEvents (x : Ctx) : List Instr :=
  (x.cmds.filter fun q => q.kind != 2 && !q.started && decide (q.start ≤ x.cslot)).map fun q => .copyCommandStart x.slot q.id

/-- Copy commands that post (R164): at their slot, done or stopped for overrun, or, after they have been held, once they are done. -/
def Ctx.postEvents (x : Ctx) : List Instr :=
  (x.cmds.filter fun q => x.postDue q).map (fun q => .copyCommandPost x.slot q.id)
    ++ (x.cmds.filter fun q => q.kind != 2 && q.late && q.done && !q.posted).map fun q => .routineComplete x.slot q.id

/-- Posts that a pre-emption took into the image come at their slots (R182, R183). -/
def Ctx.keptPosts (x : Ctx) : Ctx :=
  let due := x.posts.filter fun p => decide (p.slot ≤ x.cslot)
  due.foldl (fun x p => x.postOp p.core p.tc p.err p.issue false) { x with posts := x.posts.filter fun p => decide (x.cslot < p.slot) }

/-- RESULT_LANDING (R115, R120). -/
def execResultLanding (k j : Nat) (s : State) : Out := s.onCtx k fun x => if x.moves then x.landDue j else x

/-- Token posts of a slot come before its expects (R131). -/
def postsToken (st : Stream) (w : W32) : Bool :=
  match decode st w with
  | some (.tokPost ..) | some (.vtkPost ..) | some (.mtkPost ..) | some (.xtkPost ..) => true
  | _ => false

/-- The words of one core that issue in the present slot (R112, R114, R131). -/
def Core.words (c : Core) (k t : Nat) : List Task :=
  if c.stopped then []
  else
    let due := [Stream.s, .v, .m, .x].filter fun st => (c.stream st).due t
    let post (st : Stream) : Bool := postsToken st (((c.stream st).redirect t).word ((c.stream st).redirect t).pc)
    (due.filter post ++ due.filter fun st => !post st).map fun st => .issue k c.idx st

/-! The stages of a slot. -/

/-- A replay stands at its target, or beyond it. -/
def Ctx.reached (x : Ctx) : Bool := x.moves && match x.replay with
  | some p => decide (p.target ≤ x.cslot)
  | none => false

/-- A slot opens: its window (R187), then what replay feeds at it, unless it is the slot that a reverse step has reached, whose effects have not
taken place (R201, R402), and the end of the replay (R200). -/
def Mach.opens (M : Mach) (k : Nat) : Mach :=
  let M := M.onCtx k fun x => match x.opening with
    | some t => { x.openWindow M.mslot t (decide (x.cslot = 0)) with opening := none }
    | none => x
  let ends (M : Mach) : Bool := ((M.ctx? k).map Ctx.reached).getD false
  let M := if ends M && ((M.ctx? k).map Ctx.reversing).getD false then M else (M.feedDue k).replayServices k
  if ends M then M.replayDone k else M

/-- The end of a checkpoint's hold has come. -/
def Ctx.holdEnds (x : Ctx) : Bool := x.cores.any fun c => match c.hold with
  | some (_, u) => decide (u < x.cslot)
  | none => false

/-- A slot of a running context opens: the next iteration, its window, then releases and the end of a hold. -/
def State.openSlot (s : State) (k : Nat) : State :=
  match s.now.ctx? k with
  | none => s
  | some x =>
    if !x.moves then s
    else if x.next = some x.cslot then { s with todo := [.event (.serialIterationStart k), .openSlot k] ++ s.todo }
    else
      let M := s.now.opens k
      match M.ctx? k with
      | none => { s with now := M }
      | some x =>
        if !x.moves then { s with now := M }
        else
          let releases := (x.instances.filter fun q => x.releaseSlot q.1 q.2 == some x.cslot).map fun q =>
            Task.event (.barrierRelease k (BitVec.ofNat 3 q.1) q.2)
          let hold := if x.holdEnds then [Task.event (.checkpointHoldEnd k)] else []
          { s with
            snap := some M, causes := [], dwell := none, now := M.setCtx { x with charge := 0 }
            todo := releases ++ hold ++ [.homes k, .landings k, .issues k, .rows k, .close k] ++ s.todo }

/-- Timetabled writes and atomics at their homes (R221); copy commands start before them (R164). -/
def State.homes (s : State) (k : Nat) : State :=
  match s.now.ctx? k with
  | none => s
  | some x => if !x.moves then s else { s with todo := (x.startEvents ++ x.writeEvents s.now).map Task.event ++ s.todo }

/-- The copy engines write (R164); what has waited for them follows in the same slot (R223); then posts, landings and the crossings of the ports
(R115, R154, R217). -/
def State.landings (s : State) (k : Nat) : State :=
  let M := s.now.copyWrites k
  match M.ctx? k with
  | none => { s with now := M }
  | some x =>
    if !x.moves then { s with now := M }
    else { s with now := M.setCtx x.keptPosts
                  todo := (x.writeEvents M ++ x.postEvents ++ x.startEvents ++ x.resultEvents ++ x.landEvents M ++ x.portEvents M).map Task.event ++ s.todo }

/-- Posts of crossings without bytes and of xposts; then the words of the slot (R112, R161, R380). -/
def State.issues (s : State) (k : Nat) : State :=
  match s.now.ctx? k with
  | none => s
  | some x =>
    if !x.moves then s
    else
      let x := x.emptyPosts.joinPosts
      { s with now := s.now.setCtx x, todo := (x.cores.flatMap fun c => c.words k x.cslot) ++ s.todo }

/-- Rows, and then the overdue checkpoint (R124). -/
def State.rowStage (s : State) (k : Nat) : State :=
  match s.now.ctx? k with
  | none => s
  | some x =>
    if !x.moves then s
    else
      let s := s.rows k
      if x.overdue then { s with todo := Task.event (.checkpointOverdue k) :: s.todo } else s

/-- Stream-slots of unheld cores in which nothing issued (R211). -/
def Ctx.gapSlots (x x0 : Ctx) : Nat :=
  let total (y : Ctx) : Nat := (List.range 4).foldl (fun n i => n + SMap.get 0 y.account.issue i) 0
  let unheld := x.cores.filter fun c => !c.idle && (match c.barred with
    | some (_, t) => decide (x.cslot ≤ t)
    | none => true) && match c.hold with
    | some (a, _) => decide (x.cslot ≤ a)
    | none => true
  4 * unheld.length - (total x - total x0)

/-- The issues of the slot stand: the checkpoint, the meter, the account, fault reports and traces. -/
def Mach.closeSlot (M M0 : Mach) (k : Nat) : Mach :=
  match M.ctx? k, M0.ctx? k with
  | some x, some x0 =>
    let ckpt := x.cores.any fun c => c.ckpt.isSome
    let y := if ckpt then x.takeCkpt else x
    let y := { y with heat := y.heat + (y.charge : Int), waited := 0, reports := [], done := true
                      account := { y.account with gap := y.account.gap + x.gapSlots x0 } }
    let C := { M.cold with charge := M.cold.charge + x.charge, ran := M.cold.ran + x.cores.length }
    let M := x.reports.foldl (fun M f => M.raiseFault f) ({ M with cold := C }.setCtx y)
    let M := if ckpt then M.trace x 6 0xFFFF (x.win.num + 1) else M
    if x.waited = 0 then M else M.trace x 4 0xFFFF x.waited
  | _, _ => M

/-- The overlays whose fetch has faulted and that a checkpoint names are reported with its freeze (R93). -/
def Ctx.lostOverlays (x : Ctx) (causes : List Cause) : List FaultRec :=
  if causes.any fun q => q.code == 0x20 then
    (x.code.faulted.filter fun f => x.cores.any fun c => match c.ckpt with
      | some q => q.ovl == some f.1
      | none => false).map (·.2)
  else []

/-- The end of a slot's issues: a satisfied wait whose counter has its error bit freezes the context, whatever other waits ask for (R324); else
a wait that asks for a dwell comes before everything else in the slot, then its causes; all put the machine back to where the slot began (R125,
R127). -/
def State.close (s : State) (k : Nat) : State :=
  let done (M : Mach) : State := { s with now := M, snap := none, causes := [], dwell := none }
  match s.snap, s.now.ctx? k with
  | some M0, some x =>
    if !x.moves then done s.now
    else
      let all := s.causes ++ x.stopsNow ++ x.ckptCauses ++ x.collisions
      match (if s.causes.any fun q => q.code == 0x21 then none else s.dwell), M0.ctx? k with
      | some (w, kind), some x0 =>
        let M := if x0.waited = 0 then M0.trace x0 3 0xFFFF 0 else M0
        done (M.setCtx { x0.dwellAt M0.mslot w kind with waited := x0.waited + 1 })
      | _, some x0 =>
        if all.isEmpty then done (s.now.closeSlot M0 k)
        else
          let M := if x0.waited = 0 then M0 else M0.trace x0 4 0xFFFF x0.waited
          done (((x.lostOverlays all).foldl (fun M f => M.raiseFault f) M).freezeCtx k all)
      | _, none => done s.now
  | _, _ => done s.now

/-- Reads at their homes, after every write and atomic of the slot (R221), and those of the copy engines (R164). -/
def State.reads (s : State) (k : Nat) : State :=
  match s.now.ctx? k with
  | none => s
  | some x =>
    if !x.done then s
    else
      let M := s.now.copyReads k
      { s with now := M, todo := (x.readEvents M).map Task.event ++ s.todo }

/-- A slot is over: xposts that join a post of it (R380), the completion tree, and the next CSLOT (R107). -/
def Mach.nextSlot (M : Mach) (k : Nat) : Mach :=
  let tidy (x : Ctx) (c : Core) : Core := c.tidy x.cslot
  let M := M.onCtx k fun x => if x.moves then x.joinPosts else x
  let M := if ((M.ctx? k).map fun x => x.moves && x.fires).getD false then M.fire k else M
  M.onCtx k fun x => if x.moves then ({ x with done := false, cslot := x.cslot + 1, cores := x.cores.map (tidy x) }).tidy else { x with done := false }

/-- What is left of a slot after its reads: scalar accesses that have waited for one of them (R223), and halts (R107); then the slot is over. -/
def State.commit (s : State) (k : Nat) : State :=
  match s.now.ctx? k with
  | none => s
  | some x =>
    if !x.done then s
    else
      let halts := (x.cores.filter fun c => x.halts c).map fun c => Instr.haltRetire k c.idx
      let left := match x.readyEvents s.now with
        | [] => halts
        | l => l
      if left.isEmpty then { s with now := s.now.nextSlot k }
      else { s with todo := left.map Task.event ++ [Task.commit k] ++ s.todo }

/-! The module's own slot. -/

/-- `n` seconds of the keepers' timer, which reads the station clock, have passed since the entry into state `st` (R16, R212). -/
def Mach.heldFor (M : Mach) (st : Fin 8) (n : Nat) : Bool := M.cold.state == st && decide (M.cold.entered + n * 1000000000 ≤ M.links.clock)

/-- A launch rises to the next queue once it has waited for 50 ms; one that has found that queue full rises at a later millisecond (R101). -/
def Waiting.rises (w : Waiting) (clock : Nat) : Bool :=
  decide (w.since + 50000000 ≤ clock) && (w.blocked.map fun n => decide (n < clock / 1000000)).getD true

/-- Events of the module and of its contexts that are due before the slots (R16, R56, R91, R101, R102, R110, R122, R134, R137). -/
def Mach.globalEvents (M : Mach) : List Instr :=
  let m := M.mslot
  let heat := if m % 4096 = 0 ∧ 0 < m then [Instr.heatEvaluation] else []
  let cool := (if M.heldFor 2 600 then [Instr.soakTimeout] else []) ++ if M.heldFor 5 300 then [Instr.holdTimeout] else []
  let ms := if M.links.clock / 1000000 ≠ M.journal.ms then [Instr.journalPersist] else []
  let age := if (M.launch.take 3).any (fun q => q.any fun w => w.rises M.links.clock) then [Instr.launchAging] else []
  let wheel := (M.ctxs.filter fun x => x.begun && m % 4096 == x.phase).map fun x => Instr.wheelPoint x.slot
  let arrivals := M.ctxs.flatMap fun x => match x.run with
    | .dwelling _ 0 3 => (x.instances.filter fun q => x.beacon q.1 == 4).map fun q => .systemBarrierArrivals x.slot (BitVec.ofNat 3 q.1)
    | _ => []
  let markers := (M.warm.markers.filter fun k => decide (k.mslot < m)).flatMap fun k =>
    if k.queues.isEmpty then (if k.mslot + 1024 ≤ m then [Instr.markerRetire 0] else []) else (k.queues.map fun q => .markerRetire q.1)
  let place := if M.launch.all (fun q => q.isEmpty) then [] else
    [match (M.launch.reverse.find? fun q => !q.isEmpty).bind fun q => q.head? with
      | some w => if w.saved.isSome then Instr.restore w.asid else .launchPlace
      | none => .launchPlace]
  heat ++ cool ++ ms ++ age ++ wheel ++ arrivals ++ markers ++ place

/-- An input that acts now. -/
def Input.now (i : Input) (mslot : Nat) : Bool := decide (i.mslot ≤ mslot)

/-- The end of a code load: it sets the slot at which its context starts, which may be this one (R104). -/
def Input.loads (i : Input) : Bool := match i.op with
  | .codeLoad .. => true
  | _ => false

/-- An event whose post a wait of the same MSLOT sees, or which restarts a source (R181, R322). -/
def Input.posts (i : Input) : Bool := match i.op with
  | .systemResultArrival .. | .systemAcknowledge .. | .xprefPost .. | .dedupRemapService .. | .lightFaultService .. => true
  | _ => false

/-- A read at a home, which comes after the writes and atomics of its slot (R221); the routine of a copy command reads too. -/
def Mach.readsHome (M : Mach) (i : Instr) : Bool := match i with
  | .bar2Read .. | .routineComplete .. => true
  | .remoteApply id => M.links.remote.any fun q => q.id == id && match q.msg with
    | .read .. => true
    | _ => false
  | _ => false

/-- An 8-byte register after a write of the part that `lane` names; a 4-byte write carries its value in bits [31:0]. -/
def Lane.put (l : Lane) (old v : BitVec 64) : BitVec 64 :=
  match l with
  | .full => v
  | .low => old.extractLsb' 32 32 ++ v.extractLsb' 0 32
  | .high => v.extractLsb' 0 32 ++ old.extractLsb' 0 32

/-- A write of W2BASE (R21). -/
def HostSide.writeW2base (h : HostSide) (l : Lane) (v : BitVec 64) : HostSide :=
  { h with w2base := (Lane.put l (h.w2base.setWidth 64 <<< 30) v).extractLsb' 30 11 }

/-- The agents' events in the order in which they arrive, as writes and other events, and reads; a read through BAR2 uses the window base
that the writes before it have left (R22, R221). -/
def Mach.byArrival (M : Mach) : List Instr → BitVec 11 → List Task × List Task
  | [], _ => ([], [])
  | i :: r, base =>
    let l := M.byArrival r (match i with
      | .w2baseWrite lane v => (HostSide.writeW2base { M.host with w2base := base } lane v).w2base
      | .registerWrite off lane v =>
        if off.toNat / 8 = 0x400 then (HostSide.writeW2base { M.host with w2base := base } lane v).w2base else base
      | _ => base)
    if M.readsHome i then (l.1, (match i with
      | .bar2Read .. => .hostRead base i
      | _ => .event i) :: l.2)
    else (.event i :: l.1, l.2)

/-- Ends of code loads, then the events of the module that are due. -/
def State.globals (s : State) : State :=
  let first (i : Input) : Bool := i.now s.now.mslot && i.loads
  { s with inputs := s.inputs.filter fun i => !first i
           todo := ((s.inputs.filter first).map fun i => Task.event i.op) ++ s.now.globalEvents.map Task.event ++ s.todo }

/-- Contexts that resume or start at this MSLOT (R104, R125, R177). -/
def Mach.resumeEvents (M : Mach) : List Instr :=
  M.ctxs.filterMap fun x => match x.run with
    | .dwelling since w _ => if w ≠ 0 ∧ since + 4096 * w ≤ M.mslot then some (.contextResume x.slot) else none
    | .frozen since (some t) => if resumeAt since t ≤ M.mslot then some (.contextResume x.slot) else none
    | .starting o => if o ≤ M.mslot then some (.contextStart x.slot) else none
    | _ => none

/-- Inputs that act now and satisfy a test become tasks, in the order in which they arrive. -/
def State.take (s : State) (p : Input → Bool) : State :=
  let now (i : Input) : Bool := i.now s.now.mslot && p i
  { s with inputs := s.inputs.filter fun i => !now i, todo := ((s.inputs.filter now).map fun i => Task.event i.op) ++ s.todo }

def State.resumes (s : State) : State := { s with todo := s.now.resumeEvents.map Task.event ++ s.todo }

/-- The contexts that run take their slot, in the order of their places: asynchronous posts; issues and timetabled effects; the untimetabled
agents; reads (R216, R221, R322). -/
def State.slots (s : State) : State :=
  let ks := (s.now.ctxs.filter fun x => x.moves).map (·.slot)
  { s with todo := [.arrivals] ++ ks.map Task.openSlot ++ [.agents] ++ ks.map Task.reads ++ ks.map Task.commit ++ s.todo }

/-- Asynchronous posts, and restarts of sources (R181, R322). -/
def State.arrivals (s : State) : State := s.take Input.posts

/-- The untimetabled agents of the slot (R216): the inputs that act now, of which only events are inputs; then what replay feeds after the issues,
the queues of aborted contexts, and the warm side of stopped ones (R51, R111, R200). -/
def State.agents (s : State) : State :=
  let now (i : Input) : Bool := i.now s.now.mslot
  if s.inputs.any now then
    let ops := ((s.inputs.filter now).map (·.op)).filter fun i => (encode i).isNone
    let order := s.now.byArrival ops s.now.host.w2base
    { s with inputs := s.inputs.filter fun i => !now i, todo := order.1 ++ order.2 ++ [.agents] ++ s.todo }
  else
    let M := (s.now.ctxs.foldl (fun M x => M.feedDue x.slot) s.now).drainAll
    let asyncs (x : Ctx) : List Instr :=
      if !x.moves then x.writeEvents M ++ x.readEvents M ++ x.portEvents M ++ x.landEvents M
      else if x.replay.isSome then x.landEvents M
      else []
    { s with now := M, todo := (M.ctxs.flatMap asyncs).map Task.event ++ s.todo }

/-- The station clock advances 1 ns every 32 slots, and slews by 500 ppm (R212). -/
def Links.tick (L : Links) (mslot : Nat) : Links :=
  if mslot % 32 ≠ 0 then L
  else if mslot % 64000 = 0 ∧ L.slew ≠ 0 then
    if 0 < L.slew then { L with clock := L.clock + 2, slew := L.slew - 1 } else { L with slew := L.slew + 1 }
  else { L with clock := L.clock + 1 }

/-- Hits of watchpoints are told to the trace rings, each at its CSLOT, one that has found V = 1 too (R206-R208, R210). -/
def Mach.tellHits (M : Mach) : Mach :=
  M.ctxs.foldl (fun M x =>
    let new := ((List.range x.watch.length).zip x.watch).flatMap fun w => w.2.untold.map fun t => (w.1, t)
    if new.isEmpty then M
    else
      let M := new.foldl (fun M h => M.trace { x with cslot := h.2 } 7 0xFFFF h.1) M
      M.onCtx x.slot fun y => { y with watch := y.watch.map fun w => { w with untold := [] } }) M

/-- The MSLOT ends: what the undo rings have taken stands in their bytes (R191), ended contexts whose moves are over are released (R109), and
idle core-slots of cores that no running context has charged count in E (R137). -/
def Mach.advance (M : Mach) : Mach :=
  let M := ((M.ctxs.map (·.slot)).foldl (fun M k => M.writeLog k) M).reap.tellHits
  let C := { M.cold with charge := M.cold.charge + M.cold.wi.toNat * (256 - M.cold.ran), ran := 0 }
  { M with cold := C, mslot := M.mslot + 1, links := M.links.tick (M.mslot + 1) }

/-- WATCH_IMPRECISE_FREEZE (R207): the machine takes the freeze that an imprecise hit asks for, at a slot after that of the hit; one that came in a
freeze is taken at the thaw (R208). -/
def execWatchImpreciseFreeze (k : Nat) (s : State) : Out :=
  s.onCtx k fun x =>
    let soon (t : Nat) : Nat := min t (max x.nextStop (t - 8191))
    { x with stops := x.stops.map fun q => if q.cause.code == 0x23 && q.cause.stream == 4 then { q with slot := soon q.slot } else q }

end Sys2Proof.Machine
end

