-- ==== Sys2Proof/Machine/Loader.lean ====
section
/-! DEFINITION. Code objects: reading one through translation, its checks, its segments, symbols, relocations and tables
(R93, R95, R145, R382-R392, R399). -/

namespace Sys2Proof.Machine

/-- Why a load stops: a reason to reject, no room, HBM short of a frame (R69), or a fault of kind, address, level and entry, on a fetch or on
a read. -/
inductive LoadErr where
  | illegal
  | nomem
  | short
  | fault (kind va level : Nat) (entry : BitVec 64) (fetch : Bool)
  deriving DecidableEq, Repr

/-- How the loader reads: a fetch, a read of images, or the keeper's own look ahead of the load, which stops at no light kind. -/
inductive Look where
  | fetch
  | read
  | ahead
  deriving DecidableEq, Repr

/-- The loader at work on a code object: the machine, how, for whom and where it reads, and what it has read and placed already. -/
structure Loader where
  M : Mach
  how : Look
  asid : BitVec 8
  base : Nat
  done : Loading

abbrev Load := ExceptT LoadErr (StateM Loader)

def need (b : Bool) : Load Unit := if b then pure () else throw .illegal

/-- What a part of the load ends with, an error included. -/
def attempt {α : Type} (x : Load α) : Load (Except LoadErr α) := ExceptT.mk (do let r ← ExceptT.run x; pure (.ok r))

/-! Fetches (R82, R93). -/

/-- The physical address of one byte. -/
def Warm.fetchAddr (W : Warm) (how : Look) (a : BitVec 8) (va : Nat) : Except LoadErr Nat :=
  if 2 ^ 48 ≤ va then .error (.fault 12 va 0 0 (how != .read))
  else match W.walk a va with
    | .bad k level e => .error (.fault k va level e (how != .read))
    | .leaf level w =>
      let p := pteAddr w + va % leafSize level
      match leafCheck level w false (how != .read) with
      | some k => if how = .ahead ∧ lightKind k then .ok p else .error (.fault k va level w (how != .read))
      | none => .ok p

/-- The value `v` of `n` bytes from `va` where a run that has been read gives some of them. -/
def overRun (va n v : Nat) (r : Nat × Nat × Nat) : Nat :=
  let lo := max va r.1
  let hi := min (va + n) (r.1 + r.2.1)
  if hi ≤ lo then v
  else
    let old := v / 256 ^ (lo - va) % 256 ^ (hi - lo)
    v - old * 256 ^ (lo - va) + r.2.2 / 256 ^ (lo - r.1) % 256 ^ (hi - lo) * 256 ^ (lo - va)

/-- One run of bytes within a 64 KiB page, each of them read once (R392). -/
def readRun (how : Look) (va n : Nat) : Load Nat := do
  let s ← get
  match s.done.reads.find? fun r => decide (r.1 ≤ va) && decide (va + n ≤ r.1 + r.2.1) with
  | some r => pure (r.2.2 / 256 ^ (va - r.1) % 256 ^ n)
  | none => match s.M.warm.fetchAddr how s.asid va with
    | .error e => throw e
    | .ok p =>
      let v := s.done.reads.foldl (overRun va n) (s.M.warm.mem.read p n)
      set { s with done := { s.done with reads := s.done.reads ++ [(va, n, v)] } }
      pure v

/-- `n` bytes from `va` as a little-endian number: one run within each 64 KiB page. -/
def readRuns (how : Look) : Nat → Nat → Nat → Load Nat
  | 0, _, _ => pure 0
  | fuel + 1, va, n =>
    if n = 0 then pure 0
    else do
      let m := min n (65536 - va % 65536)
      let v ← readRun how va m
      let rest ← readRuns how fuel (va + m) (n - m)
      pure (v + 256 ^ m * rest)

/-- A read of any length. -/
def readAt (how : Look) (va n : Nat) : Load Nat := readRuns how (n / 65536 + 2) va n

/-- Bytes of the object. -/
def object (off n : Nat) : Load Nat := do
  let s ← get
  readAt s.how (s.base + off) n

/-! The ELF profile (R382, R383). -/

structure Sec where
  idx : Nat
  name : List Nat
  type : Nat
  flags : Nat
  addr : Nat
  off : Nat
  size : Nat
  link : Nat
  info : Nat
  entsize : Nat
  deriving DecidableEq, Repr

structure Seg where
  flags : Nat
  off : Nat
  vaddr : Nat
  filesz : Nat
  memsz : Nat
  align : Nat
  deriving DecidableEq, Repr

/-- A list of loads in order. -/
def collect {α : Type} (f : Nat → Load α) : Nat → Load (List α)
  | 0 => pure []
  | n + 1 => do
    let l ← collect f n
    let a ← f n
    pure (l ++ [a])

/-- Bytes of a name up to a zero byte. -/
def nameAt : Nat → Nat → Load (List Nat)
  | 0, _ => pure []
  | n + 1, off => do
    let b ← object off 1
    if b = 0 then pure [] else do
      let r ← nameAt n (off + 1)
      pure (b :: r)

def codes (s : String) : List Nat := s.toList.map Char.toNat

/-- The header of R382, and the places of the section and segment tables. -/
def header : Load (Nat × Nat × Nat × Nat × Nat) := do
  let h ← object 0 64
  let f (off n : Nat) : Nat := h / 2 ^ (8 * off) % 2 ^ (8 * n)
  need (f 0 4 == 0x464C457F && f 4 1 == 2 && f 5 1 == 1 && f 6 1 == 1 && f 7 1 == 0 && f 16 2 == 3 && f 18 2 == 0x5A17 && f 20 4 == 1
    && decide (f 48 1 ≤ Config.isaRev.toNat) && f 49 3 == 0 && f 24 8 == 0)
  pure (f 32 8, f 56 2, f 40 8, f 60 2, f 62 2)

/-- A section header; the names of sections are `room` bytes at `strs`. -/
def sectionAt (at' strs room i : Nat) : Load Sec := do
  let h ← object (at' + 64 * i) 64
  let f (off n : Nat) : Nat := h / 2 ^ (8 * off) % 2 ^ (8 * n)
  let name ← nameAt (room - f 0 4) (strs + f 0 4)
  pure { idx := i, name, type := f 4 4, flags := f 8 8, addr := f 16 8, off := f 24 8, size := f 32 8, link := f 40 4, info := f 44 4
         entsize := f 56 8 }

def segment (at' i : Nat) : Load (Option Seg) := do
  let h ← object (at' + 56 * i) 56
  let f (off n : Nat) : Nat := h / 2 ^ (8 * off) % 2 ^ (8 * n)
  if f 0 4 ≠ 1 then pure none
  else pure (some { flags := f 4 4, off := f 8 8, vaddr := f 16 8, filesz := f 32 8, memsz := f 40 8, align := f 48 8 })

/-- What a section is: text of a stream, overlay of a stream, or one of the others (R383). -/
inductive SecKind where
  | text (st : Nat)
  | overlay (n st : Nat)
  | const
  | got
  | data
  | tdt
  | patt
  | livetab
  | timetab
  | launch
  | other
  deriving DecidableEq, Repr

def digit? (c : Nat) : Option Nat := if 48 ≤ c ∧ c ≤ 57 then some (c - 48) else none

def streamCode (c : Nat) : Option Nat := if c = 115 then some 0 else if c = 118 then some 1 else if c = 109 then some 2 else if c = 120 then some 3 else none

def secKind (n : List Nat) : SecKind :=
  if n.take 6 == codes ".text." then
    match n.drop 6 with
    | c :: 46 :: _ => match streamCode c with
      | some s => .text s
      | none => .other
    | _ => .other
  else if n.take 5 == codes ".ovl." then
    match n.drop 5 with
    | [a, 46, c] => match digit? a, streamCode c with
      | some d, some s => .overlay d s
      | _, _ => .other
    | [a, b, 46, c] => match digit? a, digit? b, streamCode c with
      | some d, some e, some s => if d = 1 ∧ e < 6 then .overlay (10 + e) s else .other
      | _, _, _ => .other
    | _ => .other
  else if n == codes ".const" then .const
  else if n == codes ".got" then .got
  else if n == codes ".wdata" || n == codes ".wbss" then .data
  else if n == codes ".tdt" then .tdt
  else if n == codes ".patt" then .patt
  else if n == codes ".livetab" then .livetab
  else if n == codes ".timetab" then .timetab
  else if n == codes ".launch" then .launch
  else .other

/-- The type, flags and entry size that R383 gives a section. -/
def Sec.wellTyped (s : Sec) : Bool :=
  match secKind s.name with
  | .text _ | .overlay .. => s.type == 1 && s.flags.testBit 2 && s.entsize == 4 && s.size % 4 == 0
  | .const => s.type == 1
  | .got => s.type == 1 && s.entsize == 8 && s.size % 8 == 0
  | .data => s.type == if s.name == codes ".wbss" then 8 else 1
  | .tdt => s.type == 0x70000001 && s.size % 64 == 0
  | .patt => s.type == 0x70000002 && s.size % 64 == 0
  | .livetab => s.type == 0x70000003
  | .timetab => s.type == 0x70000004 && s.size % 16 == 0
  | .launch => s.type == 0x70000005
  | .other => false

def Sec.alloc (s : Sec) : Bool := s.flags.testBit 1

/-- Step 1 of R392: header and sections. -/
def sections : Load (List Sec × List Seg) := do
  let (phoff, phnum, shoff, shnum, shstr) ← header
  let strs ← if shnum = 0 then pure 0 else object (shoff + 64 * shstr + 24) 8
  let room ← if shnum = 0 then pure 0 else object (shoff + 64 * shstr + 32) 8
  let secs ← collect (sectionAt shoff strs room) shnum
  need ((secs.filter Sec.alloc).all Sec.wellTyped)
  let segs ← collect (segment phoff) phnum
  pure (secs, segs.filterMap id)

/-! Placement of text, constants and segments (R384-R387). -/

def Sec.kind (s : Sec) : SecKind := if s.alloc then secKind s.name else .other

/-- Words of the resident text of a stream, and of its largest overlay (R384). -/
def textWords (secs : List Sec) (st : Nat) : Nat := (secs.filter fun s => s.kind == .text st).foldl (fun n s => n + s.size / 4) 0

def overlayMax (secs : List Sec) (st : Nat) : Nat := secs.foldl (fun m s => match s.kind with
  | .overlay _ t => if t = st then max m (s.size / 4) else m
  | _ => m) 0

/-- The word offset of a text section among those of its stream. -/
def textOffset (secs : List Sec) (s : Sec) : Nat :=
  (secs.filter fun t => t.kind == s.kind && decide (t.idx < s.idx)).foldl (fun n t => n + t.size / 4) 0

/-- The keeper's choice of a store base, or the lowest where that is none (R384). -/
def storeBase (secs : List Sec) (bases : List Nat) (st : Nat) : Nat :=
  let b := bases.getD st 0
  if overlayMax secs st ≤ b ∧ b + textWords secs st ≤ 4096 then b else overlayMax secs st

def secSize (secs : List Sec) (k : SecKind) : Nat := (secs.filter fun s => s.kind == k).foldl (fun n s => n + s.size) 0

/-- The cold address of .got (R383). -/
def gotAt (secs : List Sec) : Nat := cdiv (secSize secs .const) 8 * 8

/-- Step 2 of R392: text sizes, overlays, the stage, the entries, and the constants. -/
def checkText (x : Ctx) (secs : List Sec) : Load Unit := do
  need ((List.range 4).all fun st => decide (overlayMax secs st + textWords secs st ≤ 4096)
    && decide (x.field (0x010 + 4 * st) 4 < textWords secs st))
  need (decide (secs.foldl (fun n s => match s.kind with
    | .overlay .. => n + s.size
    | _ => n) 0 ≤ 65536))
  need (decide (gotAt secs + secSize secs .got ≤ 0x0E00))

/-- 64 KiB pages of a range. -/
def pagesOf (va n : Nat) : List Nat := (List.range (cdiv (va + n) 65536 - va / 65536)).map fun i => va / 65536 + i

def Warm.unmapped (W : Warm) (a : BitVec 8) (va n : Nat) : Bool :=
  decide (65536 ≤ va) && decide (va + n ≤ 2 ^ 48) && (match W.space a with
    | none => true
    | some s => !(s.ptes.any fun p => decide (p.va < cdiv (va + n) 65536 * 65536) && decide (va / 65536 * 65536 < p.va + leafSize p.level)))

/-- The load base of a segment (R386). -/
def Warm.loadBase (W : Warm) (a : BitVec 8) (g : Seg) : Option Nat :=
  if W.unmapped a g.vaddr g.memsz then some g.vaddr
  else
    let above (e : Nat) : Nat := cdiv (max e (g.vaddr + 1)) g.align * g.align
    let ends := (g.vaddr + 1) :: match W.space a with
      | none => []
      | some s => s.ptes.map fun p => p.va + leafSize p.level
    ((ends.map above).filter fun l => W.unmapped a l g.memsz).foldl (fun b l => match b with
      | none => some l
      | some m => some (min m l)) none

/-- One page of a segment at its base is mapped, empty (R386, R399). A frame that the keeper names is used while it is free; else the lowest. In
HBM the load waits for a frame that is not there, in the deep tier it ends (R69). -/
def placePage (g : Seg) (frames : List Nat) (pg : Nat) : Load Unit := do
  let s ← get
  let deep := g.flags.testBit 28
  let w := g.flags.testBit 1
  if (s.M.warm.leaf s.asid (65536 * pg)).isSome then pure ()
  else
    let f := (frames.find? fun f => s.M.freeFrames f 1 deep).getD (s.M.pickFrame 1 deep)
    if f = 0 then throw (if deep then .nomem else .short)
    else
      let word := pteWord (65536 * f) (g.flags.testBit 2) w false true w false (if deep then 1 else 0)
      let W := (s.M.warm.take f 1).putLeaf s.M.heap s.asid { level := 3, va := 65536 * pg, word, pinned := false }
      set { s with M := { s.M with warm := { W with mem := W.mem.zero (65536 * f) (65536 * f + 65536) } } }

/-- Segment `i` has been given its base; `whole`: it is mapped, and its bytes are copied. -/
def noteSegment (i base : Nat) (whole : Bool) : Load Unit :=
  modify fun s => { s with done := { s.done with placed := s.done.placed.take i ++ [(base, whole)] } }

/-- A segment is mapped with 64 KiB pages at its base, its bytes are copied, and the rest is zero (R386); what has been placed stays, whatever
follows (R409). -/
def placeSegment (i : Nat) (g : Seg) (frames : List Nat) : Load Nat := do
  let s ← get
  match s.done.placed[i]?, s.M.warm.loadBase s.asid g with
  | some (b, true), _ => pure b
  | none, none => throw .nomem
  | some (b, false), _ | none, some b =>
    noteSegment i b false
    (pagesOf b g.memsz).forM (placePage g frames)
    let v ← object g.off g.filesz
    modify fun s =>
      let put (m : Memory) (q : Nat × Byte) : Memory := match s.M.warm.phys s.asid (b + q.1) with
        | some p => m.setByte p q.2
        | none => m
      { s with M := { s.M with warm := { s.M.warm with mem := ((List.range g.filesz).zip (toBytes g.filesz v)).foldl put s.M.warm.mem } } }
    noteSegment i b true
    pure b

/-- Step 3 of R392: every segment in order, with its base. -/
def placeSegments (frames : List Nat) (segs : List Seg) : Load (List (Seg × Nat)) :=
  segs.zipIdx.mapM fun g => do
    need (decide (65536 ≤ g.1.align))
    let b ← placeSegment g.2 g.1 frames
    pure (g.1, b)

/-- The displacement of the segment of an address (R387). -/
def displaced (segs : List (Seg × Nat)) (closed : Bool) (a : Nat) : Option Nat :=
  (segs.find? fun g => decide (g.1.vaddr ≤ a) && (decide (a < g.1.vaddr + g.1.memsz) || (closed && a == g.1.vaddr + g.1.memsz))).map fun g =>
    a - g.1.vaddr + g.2

/-- A segment holds a section: at its addresses, and with the part of the file that it loads, or beyond it for a section without bytes. -/
def Seg.holds (g : Seg) (s : Sec) : Bool :=
  decide (g.vaddr ≤ s.addr) && decide (s.addr + s.size ≤ g.vaddr + g.memsz) &&
    if s.type = 8 then decide (g.vaddr + g.filesz ≤ s.addr)
    else decide (g.off ≤ s.off) && decide (s.off + s.size ≤ g.off + g.filesz) && s.off - g.off == s.addr - g.vaddr

/-- The displacement of the segment that holds a section (R387); segments may overlap in their preferred ranges. -/
def Sec.displacement (s : Sec) (segs : List (Seg × Nat)) : Option Nat :=
  ((segs.find? fun g => g.1.holds s && decide (s.addr < g.1.vaddr + g.1.memsz)).or (segs.find? fun g => g.1.holds s)).map fun g => g.2 - g.1.vaddr

/-! Symbols (R388). -/

/-- A symbol's value, and the stream of one that names a word. -/
structure Sym where
  value : Nat
  stream : Option Nat
  deriving DecidableEq, Repr

/-- One symbol of a symbol table; none where it is undefined. -/
def symbol (secs : List Sec) (segs : List (Seg × Nat)) (base : Nat → Nat) (tab : Sec) (i : Nat) : Load (Option Sym) := do
  let h ← object (tab.off + 24 * i) 24
  let shndx := h / 2 ^ 48 % 2 ^ 16
  let v := h / 2 ^ 64 % 2 ^ 64
  if shndx = 0 then pure none
  else if shndx = 0xFFF1 then pure (some { value := v, stream := none })
  else match secs.find? fun s => s.idx == shndx with
    | none => pure none
    | some s => match s.kind with
      | .text st => pure (some { value := base st + textOffset secs s + v / 4, stream := some st })
      | .overlay _ st => pure (some { value := v / 4, stream := some st })
      | .const => pure (some { value := v, stream := none })
      | .got => pure (some { value := gotAt secs + v, stream := none })
      | .data => match s.displacement segs with
        | some d => pure (some { value := v + d, stream := none })
        | none => throw .illegal
      | .tdt | .patt => pure (some { value := v / 64, stream := none })
      | _ => pure none

/-- Names of the global symbols, which must be unique (R388). -/
def globals (secs : List Sec) : Load (List (List Nat)) := do
  let l ← (secs.filter fun s => s.type == 2).mapM fun tab => do
    let (strs, room) := ((secs.find? fun s => s.idx == tab.link).map fun s => (s.off, s.size)).getD (0, 0)
    let l ← collect (fun i => do
      let h ← object (tab.off + 24 * i) 24
      if h / 2 ^ 36 % 16 = 1 ∧ h / 2 ^ 48 % 2 ^ 16 ≠ 0 then do
        let n ← nameAt (room - h % 2 ^ 32) (strs + h % 2 ^ 32)
        pure [n]
      else pure []) (tab.size / 24)
    pure (l.flatMap id)
  pure (l.flatMap id)

def unique : List (List Nat) → Bool
  | [] => true
  | a :: r => !r.contains a && unique r

/-! Relocations (R389). -/

/-- What the relocations have written so far: section index, and bytes by offset. -/
abbrev Images := List (Nat × SMap Byte)

def Images.of (m : Images) (i : Nat) : SMap Byte := ((m.find? fun e => e.1 == i).map (·.2)).getD []
def Images.put (m : Images) (i : Nat) (v : SMap Byte) : Images := if m.any fun e => e.1 == i then m.map fun e => if e.1 == i then (i, v) else e else m ++ [(i, v)]

/-- The MAJ of a word (R274). -/
def majOf (w : Nat) : Nat := w / 2 ^ 27 % 32

/-- A field of a number replaced. -/
def putField (w hi lo v : Nat) : Nat := w - bits w hi lo * 2 ^ lo + v % 2 ^ (hi + 1 - lo) * 2 ^ lo

/-- `n` bytes of a section from `off` on, as its relocations have left them. -/
def patched (m : SMap Byte) (off n v : Nat) : Nat :=
  (SMap.slice m off (off + n)).foldl (fun v c => putField v (8 * (c.1 - off) + 7) (8 * (c.1 - off)) c.2.toNat) v

structure RelEnv where
  gp : Nat
  base : Nat → Nat
  secs : List Sec
  tdtOwn : Bool
  pattOwn : Bool

/-- One relocation of section `s` (R389): type, place, symbol, addend; `word` gives the word at the place. It answers the bytes that it writes, as
their number and their value. -/
def relocate (e : RelEnv) (s : Sec) (word : Load Nat) (type off : Nat) (sym : Sym) (add : Int) : Load (Nat × Nat) := do
  let sa : Int := (sym.value : Int) + add
  let fits (n : Nat) : Bool := decide (off + n ≤ s.size)
  let text (streams : List Nat) : Bool := (match s.kind with
    | .text st | .overlay _ st => streams.contains st
    | _ => false) && off % 4 == 0 && fits 4
  let here : Nat := (match s.kind with
    | .text st => e.base st + textOffset e.secs s
    | _ => 0) + off / 4
  let put (w : Nat) : Load (Nat × Nat) := pure (4, w)
  match type with
  | 0 => pure (0, 0)
  | 1 =>
    need ((s.kind == .const || s.kind == .got || (s.kind == .data && s.type == 1) || s.kind == .tdt) && off % 8 == 0 && fits 8)
    pure (8, ofInt 64 sa)
  | 2 =>
    need (text [0])
    let w ← word
    let v := (sa - e.gp + 0x800) / 4096
    need (majOf w == 0x04 && decide (-524288 ≤ v ∧ v ≤ 524287))
    put (putField w 19 0 (ofInt 20 v))
  | 3 =>
    need (text [0])
    let w ← word
    need (majOf w == 0x03 && bits w 14 12 == 0)
    put (putField w 11 0 (ofInt 12 (sa - e.gp)))
  | 4 =>
    need (s.kind == .got && sym.stream == some 0 && fits 8)
    pure (8, ofInt 64 sa)
  | 5 =>
    need (text [0] && sym.stream == some 0)
    let w ← word
    need (majOf w == 0x12 || majOf w == 0x13)
    put (putField w 19 0 (ofInt 20 (sa - here)))
  | 6 =>
    let n := secSize e.secs .tdt / 64
    need (e.tdtOwn && decide (0 ≤ sa ∧ sa < n))
    if s.kind == .tdt || s.kind == .patt then do
      need (fits 2)
      pure (2, ofInt 16 sa)
    else do
      need (text [0])
      let w ← word
      need (majOf w == 0x1E && bits w 1 0 == 0)
      put (putField w 20 5 (ofInt 16 sa))
  | 7 =>
    need (e.pattOwn && decide (sym.value < secSize e.secs .patt / 64) && (add == 0 || add == 1) && text [0, 3])
    let w ← word
    let maj := majOf w
    if text [0] && maj == 0x1E && bits w 1 0 == 2 then put (putField w 24 19 sym.value)
    else do
      need (text [3])
      if maj = 0x01 then put (putField w 21 16 sym.value)
      else if 0x04 ≤ maj ∧ maj ≤ 0x06 then put (putField w 24 19 sym.value)
      else do
        need (decide (0x07 ≤ maj ∧ maj ≤ 0x09))
        put (if add = 0 then putField w 24 19 sym.value else putField w 18 13 sym.value)
  | _ => throw .illegal

/-- One record of a relocation section: place, type, symbol number, addend. -/
def relRecord (rel : Sec) (i : Nat) : Load (Nat × Nat × Nat × Int) := do
  let h ← object (rel.off + 24 * i) 24
  let info := h / 2 ^ 64 % 2 ^ 64
  pure (h % 2 ^ 64, info % 2 ^ 32, info / 2 ^ 32, toSigned 64 (h / 2 ^ 128))

/-- The relocation sections of allocated sections, with those and their symbol tables. -/
def relSections (secs : List Sec) : Load (List (Sec × Sec × Sec)) := do
  let l ← (secs.filter fun s => s.type == 4).mapM fun rel =>
    match secs.find? fun s => s.idx == rel.info, secs.find? fun s => s.idx == rel.link with
    | some s, some tab => pure (if s.alloc then [(rel, s, tab)] else [])
    | _, _ => throw .illegal
  pure (l.flatMap id)

/-- The symbols that the relocations name are defined (R388). -/
def resolveSymbols (secs : List Sec) (segs : List (Seg × Nat)) (base : Nat → Nat) (r : Sec × Sec × Sec) : Load Unit :=
  (List.range (r.1.size / 24)).forM fun i => do
    let (_, type, n, _) ← relRecord r.1 i
    if type = 0 then pure () else do
      let sym ← symbol secs segs base r.2.2 n
      need sym.isSome

/-- The relocations of one section, in record order (R389). -/
def relocateSection (e : RelEnv) (segs : List (Seg × Nat)) (m : Images) (r : Sec × Sec × Sec) : Load Images :=
  (List.range (r.1.size / 24)).foldlM (fun (m : Images) i => do
    let (off, type, n, add) ← relRecord r.1 i
    if type = 0 then pure m else do
      let s := r.2.1
      let sym ← symbol e.secs segs e.base r.2.2 n
      match sym with
      | none => throw .illegal
      | some sym => do
        let word : Load Nat := do
          let w ← object (s.off + off) 4
          pure (patched (m.of s.idx) off 4 w)
        let (k, v) ← relocate e s word type off sym add
        pure (m.put s.idx (((List.range k).zip (toBytes k v)).foldl (fun l c => SMap.put l (off + c.1) c.2) (m.of s.idx)))) m

/-! Descriptors and tables (R145, R390, R391). -/

/-- Lowest and highest byte that any element of a descriptor reaches. -/
def descSpan (d : Line) : Int × Int :=
  let ends := (List.range 4).map fun i => ((dExt d i : Int) - 1) * dStr d i
  let lo := ends.foldl (fun n v => if v < 0 then n + v else n) 0
  let hi := ends.foldl (fun n v => if 0 < v then n + v else n) 0
  ((dBase d : Int) + lo * dWidth d / 8, (dBase d : Int) + (hi * dWidth d + dWidth d - 1) / 8)

/-- The checks of one descriptor; `scale` is the entry that SCALE names (R145). -/
def descOk (d : Line) (scale : Option Line) : Bool :=
  if d = 0 then true
  else
    let fmt := lfield d 0x2A 1
    let shape := lfield d 0x2B 1
    let cold := decide (dSpace d < 2)
    let block : Nat := if dSpace d = 0 then 1024 else 4096
    let span := descSpan d
    decide (1 ≤ dDims d) && decide (dDims d ≤ 4) && !shape.testBit 3 && decide (shape < 64) && decide (fmt < 15)
      && decide (lfield d 0x2C 1 < 16) && decide (lfield d 0x2D 1 < 64) && lfield d 0x2E 18 == 0
      && ((List.range 4).all fun i => decide (1 ≤ dExt d i) && (decide (i < dDims d) || dExt d i == 1))
      && (fmt != 14 || cold) && (cold || dPerm d == 0) && (dSpace d != 0 || decide (dPerm d < 16))
      && (dPerm d == 0 || (dBase d % block == 0 && span.1 % block == 0 && (span.2 + 1) % block == 0))
      && (dFmt d != some .nq4 || match scale with
        | some s => s != 0 && dFmt s == some .uint8 && dDims s == 1 && dStr s 0 == 1
        | none => false)

def descsOk (l : List Line) : Bool := l.all fun d => descOk d (if dScale d < l.length then l[dScale d]? else none)

/-- Lines of 64 bytes of a number. -/
def linesIn (n v : Nat) : List Line := (List.range n).map fun i => BitVec.ofNat 512 (v / 2 ^ (512 * i))

/-- Bytes of one item's image, whatever core writes it (R390). -/
def itemBytes : List Nat → Nat
  | [kind, first, last, len, _] =>
    let n := last + 1 - first
    match kind with
    | 1 | 8 => 8 * n
    | 2 => 1
    | 3 => 4096 * n
    | 4 => 8192 * n
    | 5 => 128 * n
    | 6 => 2 * n
    | 7 => 4 * n
    | _ => len
  | _ => 0

/-- Registers of a kind (R390). -/
def itemLimit (kind : Nat) : Nat :=
  if kind = 1 then 32 else if kind = 6 then 16 else if kind = 4 ∨ kind = 7 then 4 else 8

def itemOk : List Nat → Bool
  | [kind, first, last, len, base] =>
    if kind = 9 ∨ kind = 10 then
      len % 64 == 0 && base % 64 == 0 && (len == 0 || coldOk (kind == 10) true base len)
    else if kind = 2 then first == 0 && last == 7 && len == 0
    else decide (1 ≤ kind) && decide (kind ≤ 8) && decide (first ≤ last) && decide (last < itemLimit kind) && len == 0
  | _ => false

def tableOk (t : List (List Nat)) : Bool :=
  t.all itemOk && decide (t.foldl (fun a i => cdiv (a + itemBytes i) 8 * 8) 0 ≤ 15360)

/-- One live-range table of a section of `size` bytes (R390); none where it does not lie in the section, or breaks the form. -/
def readTable (v size off : Nat) : Option (List (List Nat)) :=
  let f (o n : Nat) : Nat := v / 2 ^ (8 * (off + o)) % 2 ^ (8 * n)
  if size < off + 8 ∨ f 2 6 ≠ 0 ∨ size < off + 8 + 16 * f 0 2 then none
  else some ((List.range (f 0 2)).map fun i =>
    let o := 8 + 16 * i
    if f (o + 3) 1 = 0 then [f o 1, f (o + 1) 1, f (o + 2) 1, f (o + 4) 4, f (o + 8) 8] else [])

/-- All tables of .livetab; none where the form is broken. -/
def readTables (v size : Nat) : Option (List (List (List Nat))) :=
  if size = 0 then some []
  else
    let n := v % 2 ^ 32
    let l := (List.range n).map fun i => readTable v size (v / 2 ^ (8 * (8 + 4 * i)) % 2 ^ 32)
    if 8 + 4 * n ≤ size ∧ v / 2 ^ 32 % 2 ^ 32 = 0 ∧ l.all Option.isSome then some (l.filterMap id) else none

/-- The reservations of .timetab: kind, cluster, count, length, start (R391). -/
def readTimes (v size : Nat) : List (List Nat) :=
  (List.range (size / 16)).map fun i =>
    let f (o n : Nat) : Nat := v / 2 ^ (8 * (16 * i + o)) % 2 ^ (8 * n)
    [f 0 1, f 1 1, f 2 2, f 4 4, f 8 8]

/-- The checks of R391: lanes in every slot at which a reservation starts, tick positions, pool banks. -/
def timesOk (x : Ctx) (t : List (List Nat)) : Bool :=
  let k (r : List Nat) : Nat := r.getD 0 0
  let at' (r : List Nat) (cl s : Nat) (kind : Nat) : Bool := k r == kind && r.getD 1 0 == cl && decide (r.getD 4 0 ≤ s) && decide (s < r.getD 4 0 + r.getD 3 0)
  let lanes (kind limit : Nat) : Bool := (t.filter fun r => k r == kind).all fun r =>
    decide ((t.filter fun q => at' q (r.getD 1 0) (r.getD 4 0) kind).foldl (fun n q => n + q.getD 2 0) 0 ≤ limit)
  let ticks := ((t.filter fun r => k r == 3).map fun r => r.getD 4 0).eraseDups
  let banks := t.filter fun r => k r == 4
  t.all (fun r => decide (1 ≤ k r) && decide (k r ≤ 4) && decide (r.getD 1 0 < x.clusters)
      && (k r < 3 || r.getD 3 0 == 1) && (k r != 3 || decide (r.getD 4 0 < 256)) && (k r != 4 || decide (r.getD 2 0 < 64)))
    && lanes 1 (x.field 0x060 1) && lanes 2 (x.field 0x061 1) && decide (ticks.length ≤ x.field 0x062 2)
    && banks.eraseDups.length == banks.length

/-! The load (R392). -/

/-- What a load brings: the code, the descriptors, and the cold bytes of every core below 0x1_B000. -/
structure Loaded where
  code : Code
  tdt : List Line
  cold : Memory
  stores : List (SMap W32)

/-- Words of a section. -/
def wordsIn (n v : Nat) : List W32 := (List.range n).map fun i => BitVec.ofNat 32 (v / 2 ^ (32 * i))

/-- The stores with the words of one section (R384). -/
def storeWords (store : SMap W32) (at' : Nat) (l : List W32) : SMap W32 :=
  ((List.range l.length).zip l).foldl (fun m q => SMap.set 0 m (at' + q.1) q.2) store

/-- The bytes of a section, relocated. -/
def contents (m : Images) (s : Sec) : Load Nat := do
  let v ← object s.off s.size
  pure (patched (m.of s.idx) 0 s.size v)

/-- The bytes of all sections of a kind, one behind the other: their number and their value. -/
def whole (secs : List Sec) (m : Images) (k : SecKind) : Load (Nat × Nat) :=
  (secs.filter fun s => s.kind == k).foldlM (fun (r : Nat × Nat) s => do
    let v ← contents m s
    pure (r.1 + s.size, r.2 + v * 256 ^ r.1)) (0, 0)

/-- Every overlay is fetched (R385): those that a hard fault keeps from it, with the fault's record. -/
def fetchOverlays (x : Ctx) (secs : List Sec) : Load (List (Nat × Nat × FaultRec)) := do
  let l ← secs.mapM fun s => match s.kind with
    | .overlay n _ => do
      let r ← attempt (object s.off s.size)
      let M := (← get).M
      match r with
      | .ok _ => pure []
      | .error (.fault kind va level entry f) =>
        if lightKind kind then throw (.fault kind va level entry f)
        else pure [(s.idx, n, ({ source := 4120, kind, src := 5, asid := x.asid, write := false, fetch := true, raised := false, unit := 0, port := 0
                                 level, addr := va, cslot := 0, mslot := M.mslot, position := 0, entry, ctx := x.slot, req := 0 } : FaultRec))]
      | .error e => throw e
    | _ => pure []
  pure (l.flatMap id)

/-- Steps 4 to 8 of R392, the segments being placed: what the context gets, and the relocated bytes of the sections. -/
def finishLoad (x : Ctx) (secs : List Sec) (base : Nat → Nat) (placed : List (Seg × Nat)) : Load (Loaded × Images) := do
  let gp0 := x.field 0x040 8
  let tdtOwn := x.field 0x020 8 == 0
  let pattOwn := x.field 0x030 8 == 0
  let gp ← match gp0, displaced placed true gp0 with
    | 0, _ => pure 0
    | _, some a => pure a
    | _, none => throw .illegal
  let names ← globals secs
  need (unique names)
  let rels ← relSections secs
  rels.forM (resolveSymbols secs placed base)
  let faulted ← fetchOverlays x secs
  let faulty (s : Sec) : Bool := faulted.any fun f => f.1 == s.idx
  let e : RelEnv := { gp, base, secs, tdtOwn, pattOwn }
  let images ← (rels.filter fun r => !faulty r.2.1).foldlM (relocateSection e placed) []
  let own ← whole secs images .tdt
  let tdtn := if tdtOwn then own.1 / 64 else x.field 0x028 4
  let tdtv ← if tdtOwn then pure own.2 else readAt .read (x.field 0x020 8) (64 * tdtn)
  let tdt := linesIn tdtn tdtv
  need (descsOk tdt)
  let own ← whole secs images .patt
  let patn := if pattOwn then own.1 / 64 else x.field 0x038 2
  let patv ← if pattOwn then pure own.2 else readAt .read (x.field 0x030 8) (64 * patn)
  need (decide (x.field 0x03C 4 + 64 * patn ≤ 0x1B000) && (linesIn patn patv).all pShape)
  let tables ← whole secs images .livetab
  let live ← match readTables tables.2 tables.1 with
    | some t => pure t
    | none => throw .illegal
  need (live.all tableOk)
  let reserved ← whole secs images .timetab
  let times := readTimes reserved.2 reserved.1
  need (timesOk x times)
  let stores ← (List.range 4).mapM fun st => (secs.filter fun s => s.kind == .text st).foldlM (fun (m : SMap W32) s => do
    let v ← contents images s
    pure (storeWords m (base st + textOffset secs s) (wordsIn (s.size / 4) v))) []
  let overlays ← (secs.filter fun s => !faulty s).mapM fun s => match s.kind with
    | .overlay n st => do
      let v ← contents images s
      pure [(n, st, 0, wordsIn (s.size / 4) v)]
    | _ => pure []
  let const ← whole secs images .const
  let got ← whole secs images .got
  let cold := Memory.write [] 0 const.1 const.2
  let cold := Memory.write cold (gotAt secs) got.1 got.2
  let cold := Memory.write cold (x.field 0x03C 4) (64 * patn) patv
  let rec' := putField x.record.toNat (8 * 0x048 - 1) (8 * 0x040) gp
  let cold := Memory.write cold 0x0E00 512 rec'
  pure ({ code := { base := (List.range 4).map base, gp := BitVec.ofNat 64 gp, got := BitVec.ofNat 64 (gotAt secs), live, time := times
                    overlays := overlays.flatMap id, faulted := faulted.map (·.2) }
          tdt, cold, stores }, images)

/-- Relocated warm data goes to the pages of its sectionAts segment (R389). -/
def Warm.patchData (W : Warm) (a : BitVec 8) (secs : List Sec) (placed : List (Seg × Nat)) (images : Images) : Warm :=
  (secs.filter fun s => s.kind == .data && s.type == 1).foldl (fun W s =>
    (images.of s.idx).foldl (fun (W : Warm) c => match (s.displacement placed).bind fun d => W.phys a (s.addr + d + c.1) with
      | some p => { W with mem := W.mem.setByte p c.2 }
      | none => W) W) W

/-- The steps of R392. -/
def loadSteps (x : Ctx) (bases frames : List Nat) : Load Loaded := do
  let (secs, segs) ← sections
  checkText x secs
  let placed ← placeSegments frames segs
  let (l, images) ← finishLoad x secs (storeBase secs bases) placed
  modify fun s => { s with M := { s.M with warm := s.M.warm.patchData x.asid secs placed images } }
  pure l

/-- The load of context `x`, from where it has stopped before. The machine answered has what has been placed, and the context has what has been
read (R83, R386, R392, R409). -/
def Mach.load (M : Mach) (x : Ctx) (bases frames : List Nat) : Mach × Except LoadErr Loaded :=
  let (r, s) := (loadSteps x bases frames).run.run { M, how := .fetch, asid := x.asid, base := x.field 0x008 8, done := x.loading }
  (s.M.setCtx { x with loading := s.done }, r)

end Sys2Proof.Machine
end

