-- ==== Sys2Proof/Machine/Launch.lean ====
section
/-! DEFINITION. The launch unit: queues and aging, the undo ring, placement and victims, loading, the start of a context and of a
serial iteration, restores (R97-R106, R183, R391, R392). -/

namespace Sys2Proof.Machine

/-! The start state (R97, R104, R129, R147). -/

def StreamSt.blank : StreamSt := { store := [], pc := 0, ready := 0, loops := [], xfer := none }

def Regs.start (idx : Nat) : Regs :=
  { g := [], p := [], lc := [], m := [], h := [], tc := [], v := [], k := [], a := [], pat := [], tk := [], flags := 0, dphase := 0
    mesh := idx }

def Record.none : Record := { cause := 0, causes := 0, reported := false, word := 0, stream := 0, port := 0, detail := 0 }

/-- A core whose cold side is zero, with nothing in flight (R104, R109). -/
def Core.blank (id idx : Nat) (idle : Bool) : Core :=
  { id, idx, idle, s := StreamSt.blank, v := StreamSt.blank, m := StreamSt.blank, x := StreamSt.blank, regs := Regs.start idx
    mat := Matrix.start, units := { divider := 0, vector := 0, array := 0, loader := 0, reader := 0, mask := 0 }
    inb := [], outb := [], cold := [], pend := [], ops := [], banks := [], ranges := [], barred := none, hold := none, ckpt := none
    halt := none, line := none, record := Record.none, logged := [], entries := 0, causal := [], orderR := [], orderW := [], orderS := [], orderT := [], orderK := [], orderA := [] }

/-- The entry point of a stream, from its store base (R94, R384). -/
def Ctx.entryOf (x : Ctx) (st : Nat) : Nat := x.code.base.getD st 0 + x.field (0x010 + 4 * st) 4

/-- The registers of R104; the general ones in ascending order. -/
def Ctx.startRegs (x : Ctx) (c : Core) : Regs :=
  let g : List (Nat × W64) := [(2, 0x1C000), (3, x.code.gp), (4, x.code.got), (29, 0xE00), (30, BitVec.ofNat 64 c.id), (31, x.coordWord c)]
  let tc (i : Nat) : Nat × Counter := (i, { value := BitVec.ofNat 64 (x.field (0x070 + i) 1), err := false, errAt := 0 })
  { Regs.start c.idx with g := g.foldl (fun m q => SMap.set 0 m q.1 q.2) []
                          tc := ((List.range 8).map tc).foldl (fun m q => SMap.set Counter.start m q.1 q.2) [] }

/-- A core at its entry points (R98, R104): its cold storage, its stores and the numbers of its old bindings are kept. -/
def Ctx.startCore (x : Ctx) (c : Core) : Core :=
  if c.idle then c
  else
    let stream (st : Nat) (q : StreamSt) : StreamSt := { q with pc := x.entryOf st, ready := x.cslot, loops := [], xfer := none }
    let inp (m : SMap InPort) (i : Nat) : SMap InPort :=
      let q := c.inp i
      SMap.set InPort.start m i { InPort.start with gen := q.gen, res := q.res - q.entries.length, shared := min q.shared (q.res - q.entries.length)
                                                    min := x.field (0x080 + 4 * i) 2, cap := x.field (0x082 + 4 * i) 2 }
    let outp (m : SMap OutPort) (i : Nat) : SMap OutPort :=
      SMap.set OutPort.start m i { OutPort.start with gen := (c.outp i).gen, cap := x.field (0x0A0 + 2 * i) 2 }
    { c with
      s := stream 0 c.s, v := stream 1 c.v, m := stream 2 c.m, x := stream 3 c.x
      regs := x.startRegs c, mat := Matrix.start
      units := { divider := 0, vector := 0, array := 0, loader := 0, reader := 0, mask := 0 }
      inb := (List.range 8).foldl inp [], outb := (List.range 4).foldl outp []
      pend := [], ops := [], banks := [], ranges := [], barred := none, hold := none, ckpt := none, halt := none, line := none }

/-- A window with nothing in it. -/
def Window.none : Window :=
  { num := 0, start := 0, mslot := 0, heat := 0, tainted := false, irrevocable := false, unrecoverable := false, spilled := false
    dropping := false, table := [], cores := [], serial := [], reqs := [], xings := [], cmds := [], joins := [], posts := [], lanes := []
    lastCkpt := 0 }

def Header.none : Header :=
  { cause := 0, core := 0, cslot := 0, mslot := 0, freezes := 0, detail := 0, service := 0, ack := false, handlerLost := false, spill := false
    debugged := false, held := false, resume := false, serviced := false, fatal := false, nomem := false }

def Account.zero : Account :=
  { issue := [], gap := 0, heat := 0, late := 0, slip := 0, fault := 0, preempt := 0, service := 0, other := 0 }

/-- Watchpoint registers at reset (R204). -/
def Watch.off : Watch := { addr := 0, mask := 0, ctl := 0, hit := 0, first := 0, untold := [] }

def Code.none : Code :=
  { base := [], gp := 0, got := 0, live := [], time := [], overlays := [], faulted := [] }

/-- The allowance A (R99). -/
def recAllow (r : BitVec 4096) : Nat :=
  if recField r 0x064 2 = 0 then 625000 * recField r 0x004 1 * (recField r 0x060 1 + recField r 0x061 1)
  else 1280000000 * recField r 0x064 2 / 65536

/-- MiB of the undo ring (R94). -/
def recUndo (r : BitVec 4096) : Nat := if recField r 0x058 4 = 0 then 1024 else recField r 0x058 4

/-- Entry places of the undo ring (R191). -/
def recPlaces (r : BitVec 4096) : Nat := recUndo r * 2 ^ 20 / 80

/-- A context that has been placed and has not begun: its cold side is zero. -/
def Ctx.new (slot : Nat) (asid : BitVec 8) (record : BitVec 4096) (cmd : Nat) (ids : List Nat) : Ctx :=
  let width := (recExtent record 1).getD 8
  let core (q : Nat × Nat) : Core := Core.blank q.2 q.1 (decide (width ≤ q.1 % 8))
  let serial := ((List.range (recField record 0x003 1)).filter fun i => recField record (0x0C4 + 8 * i) 1 == 6).map fun _ => 0
  { slot, asid, record, cmd, ring := recPlaces record, ringPos := 0, ringAt := (0, 0), die := 0, rot := 0, phase := 0, origin := 0, cslot := 0
    run := .loading, placed := 0, aged := 0, code := Code.none, loading := Loading.start, serial
    cores := ((List.range ids.length).zip ids).map core, pools := List.replicate (recField record 0x004 1) [], tdt := []
    heat := 0, allow := recAllow record, charge := 0, win := Window.none, windows := []
    coldLog := List.replicate (recField record 0x004 1) [], warmLog := [], coldNext := List.replicate (recField record 0x004 1) 0
    tags := List.replicate (recField record 0x004 1) [], unwritten := [], warmSeen := [], poolSeen := [], lastCkpt := 0, opening := none
    next := none, dwelt := none, signalled := [], waited := 0, reqs := [], nextReq := 1, xings := [], cmds := [], joins := [], posts := []
    engineK := [], lanes := [], ticks := [], watch := List.replicate 4 Watch.off, stops := [], done := false, header := Header.none, victim := false, replay := none, retried := none
    account := Account.zero, index := [], reports := [] }

/-! The queues (R101). -/

/-- The head of the highest queue that is not empty. -/
def Mach.head? (M : Mach) : Option (Nat × Waiting) :=
  (([3, 2, 1, 0] : List Nat).find? fun q => !(M.launch.getD q []).isEmpty).bind fun q => (M.launch.getD q []).head?.map fun w => (q, w)

def Mach.dropHead (M : Mach) (q : Nat) : Mach := { M with launch := setAt M.launch q ((M.launch.getD q []).drop 1) }

/-- The head of queue `q` changed. -/
def Mach.setHead (M : Mach) (q : Nat) (w : Waiting) : Mach := { M with launch := setAt M.launch q (w :: (M.launch.getD q []).drop 1) }

/-- Launches of one queue that have waited 50 ms move to the tail of the next, or, if it is full, at the next millisecond at which it has
room. -/
def ageQueue (clock : Nat) (l : List (List Waiting)) (q : Nat) : List (List Waiting) :=
  let step (r : List Waiting × List Waiting) (w : Waiting) : List Waiting × List Waiting :=
    if !w.rises clock then (r.1 ++ [w], r.2)
    else if r.2.length < 64 then (r.1, r.2 ++ [{ w with since := clock, blocked := none }])
    else (r.1 ++ [{ w with blocked := some (clock / 1000000) }], r.2)
  let (keep, up) := (l.getD q []).foldl step ([], l.getD (q + 1) [])
  setAt (setAt l q keep) (q + 1) up

/-- LAUNCH_AGING (R101). -/
def execLaunchAging (s : State) : Out :=
  s.onMach fun M => { M with launch := ([2, 1, 0] : List Nat).foldl (ageQueue M.links.clock) M.launch }

/-! The undo ring (R69, R102, R191). -/

/-- `n` frames of HBM from `f` are free for an undo ring. -/
def Mach.ringFree (M : Mach) (f n : Nat) : Bool :=
  decide (0x4000 ≤ f) && hbmFrame (f + n - 1) && !(M.heapFrames :: M.warm.used ++ M.warm.retired).any (framesMeet (f, n))

/-- Some place is free for a ring. -/
def Mach.ringFits (M : Mach) (n : Nat) : Bool :=
  (0x4000 :: (M.heapFrames :: M.warm.used ++ M.warm.retired).map fun q => q.1 + q.2).any fun f => M.ringFree f n

/-- The ring of the launch at the head of queue `q`, if it still needs one (R69, R102): it takes the frames from the one named, or, while HBM is
short, a victim is moved; where nothing can be moved the launch leaves its queue with NOMEM. None while it waits for another place. -/
def Mach.ringFor (M : Mach) (frames : List Nat) (q : Nat) : Option Mach :=
  match (M.launch.getD q []).head? with
  | none => none
  | some w =>
    let n := 16 * recUndo w.record
    let f := frames.headD 0
    if w.ring.isSome then none
    else if M.ringFree f n then some ({ M with warm := M.warm.take f n }.setHead q { w with ring := some f })
    else if M.ringFits n then none
    else if M.stuck && !M.freeing then some ((((M.dropHead q).endSeq w.cmd 7 0).settleAborts w.cmd 1).forget w.asid)
    else some (M.evict frames)

/-- UNDO_RING_ALLOCATE (R102): for the head of each queue, the highest first. -/
def Mach.allocateRing (M : Mach) (frames : List Nat) : Mach := (([3, 2, 1, 0] : List Nat).findSome? (M.ringFor frames)).getD M

def execUndoRingAllocate (frames : List Nat) (s : State) : Out := s.onMach fun M => M.allocateRing frames

/-! Placement (R100, R102-R104, R391). -/

/-- A launch's place: die offset, rotation, and cluster numbers. -/
structure Place where
  die : Nat
  rot : Nat
  clusters : List Nat
  phase : Nat
  slot : Nat
  deriving DecidableEq, Repr

/-- Clusters of a placed context. -/
def Ctx.taken (x : Ctx) : List Nat := (x.cores.map fun c => c.id / 8).eraseDups

/-- Die and position of context cluster `j` relative to the placement (R102). -/
def relative (r : BitVec 4096) (j : Nat) : Nat × Nat :=
  match recExtent r 3 with
  | some _ => let e := (recExtent r 2).getD 1; (j / e, j % e)
  | none => (j / 8, j % 8)

/-- The clusters that a placement takes; none if a die is beyond the last. -/
def clustersAt (r : BitVec 4096) (d ρ : Nat) : Option (List Nat) :=
  let l := (List.range (recField r 0x004 1)).map fun j => let q := relative r j; (d + q.1, (ρ + q.2) % 8)
  if l.all fun q => decide (q.1 < 4) then some (l.map fun q => 8 * q.1 + q.2) else none

/-- Tick positions of a timetable at a phase (R391). -/
def ticksAt (t : List (List Nat)) (phase : Nat) : List Nat :=
  (t.filter fun r => r.getD 0 0 == 3).map fun r => (r.getD 4 0 + phase / 16) % 256

/-- A phase at which the ticks keep off the refresh and off those of the placed contexts (R104, R391). -/
def phaseOk (others : List Ctx) (t : List (List Nat)) (p : Nat) : Bool :=
  let used := others.flatMap fun y => ticksAt y.code.time y.phase
  (ticksAt t p).all fun q => decide (q < 240) && !used.contains q

/-- The lowest of a list of numbers that passes a test. -/
def lowest (n : Nat) (p : Nat → Bool) : Option Nat := (List.range n).find? p

/-- A place on what the contexts `others` leave free, at phase `fixed` if one is given (R100, R102, R104, R183). -/
def placeAmong (others : List Ctx) (r : BitVec 4096) (time : List (List Nat)) (fixed : Option Nat) : Option Place :=
  let used := others.flatMap Ctx.taken
  let ok (n : Nat) : Bool := match clustersAt r (n / 8) (n % 8) with
    | none => false
    | some l => l.all fun c => !used.contains c
  let phase := match fixed with
    | some p => if phaseOk others time p then some p else none
    | none => (lowest 256 fun n => phaseOk others time (16 * n)).map (16 * ·)
  match lowest 32 ok, phase, lowest 8 fun k => !(others.any fun y => y.slot == k) with
  | some n, some phase, some slot =>
    if recAllow r + others.foldl (fun a y => a + y.allow) 0 ≤ 1280000000
        ∧ recField r 0x062 2 + others.foldl (fun a y => a + y.field 0x062 2) 0 ≤ 240 then
      (clustersAt r (n / 8) (n % 8)).map fun clusters => { die := n / 8, rot := n % 8, clusters, phase, slot }
    else none
  | _, _, _ => none

/-- The records of .timetab of a code object; none while it cannot be read, and its load will then end the launch. -/
def Mach.timesOf (M : Mach) (asid : BitVec 8) (r : BitVec 4096) : List (List Nat) :=
  let times : Load (List (List Nat)) := do
    let (secs, _) ← sections
    let (n, v) ← whole secs [] .timetab
    pure (readTimes v n)
  match times.run.run { M, how := .ahead, asid, base := recField r 0x008 8, done := Loading.start } with
  | (.ok l, _) => l
  | (.error _, _) => []

/-- Contexts of lower priority that run, or are marked already: lowest priority first, then the one placed last (R103). -/
def Mach.candidates (M : Mach) : List Ctx :=
  let prio (x : Ctx) : Nat := x.field 0x002 1 % 4
  let l := M.ctxs.filter fun x => decide (prio x < 3) && (x.live || x.victim) && x.header.fatal == false
  sortBy prio (sortBy (fun x => M.mslot - x.placed) l)

/-- The victims: the shortest run of candidates without which the launch has a place (R103). -/
def Mach.victims (M : Mach) (r : BitVec 4096) (time : List (List Nat)) : List Nat :=
  let c := M.candidates
  match lowest (c.length + 1) fun n =>
    (placeAmong (M.ctxs.filter fun x => !((c.take n).any fun y => y.slot == x.slot)) r time none).isSome with
  | none => []
  | some n => (c.take n).map (·.slot)

/-- A context of the ASID is placed, or is saved and waits to be restored: a second launch of it then waits. -/
def Mach.holdsAsid (M : Mach) (a : BitVec 8) : Bool :=
  M.ctxs.any (fun x => x.asid == a) || M.launch.any fun q => q.any fun w => w.asid == a && w.saved.isSome

/-- Trace rings of a context that is not placed are kept under 256 + ASID. -/
def Mach.bringTraces (M : Mach) (a : BitVec 8) (k : Nat) : Mach :=
  { M with traces := M.traces.map fun t => if t.slot = 256 + a.toNat then { t with slot := k } else t }

/-- LAUNCH_PLACE (R76, R78, R102-R104): the head launch is placed, with its CTXTR, empty TLBs, and its START entry (R49); one of priority 3 that cannot be marks victims. -/
def Mach.placeHead (M : Mach) : Mach :=
  match M.head? with
  | none => M
  | some (q, w) =>
    if M.cold.state ≠ 4 ∨ w.saved.isSome ∨ M.holdsAsid w.asid ∨ M.safe then M
    else
      let time := M.timesOf w.asid w.record
      match placeAmong M.ctxs w.record time none, w.ring with
      | some p, some ring =>
        let ids := p.clusters.flatMap fun c => (List.range 8).map fun k => 8 * c + k
        let x := Ctx.new p.slot w.asid w.record w.cmd ids
        let kept := M.kept.filter fun e => e.1 == w.asid
        let x : Ctx := { x with
          ringAt := (ring, 16 * recUndo w.record), die := p.die, rot := p.rot, phase := p.phase, placed := M.mslot
          aged := M.links.clock - w.since, code := { Code.none with time }
          watch := kept.foldl (fun l e => setAt l e.2.1 e.2.2) x.watch
          header := { x.header with debugged := !kept.isEmpty } }
        let W := (M.warm.emptyTlbs ids).setCtxtr M.heap p.slot w.asid
        let M := { M.dropHead q with ctxs := M.ctxs ++ [x], warm := W, kept := M.kept.filter fun e => e.1 != w.asid }.bringTraces w.asid p.slot
        match M.cmd? w.cmd with
        | some c => M.startEntry c
        | none => M
      | none, _ =>
        if w.prio = 3 then
          let v := M.victims w.record time
          { M with ctxs := M.ctxs.map fun x => if v.contains x.slot then { x with victim := true } else x }
        else M
      | some _, none => M

def execLaunchPlace (s : State) : Out := s.onMach Mach.placeHead

/-! Loading and starting (R98, R104-R106, R392). -/

/-- Pattern images, constants and the record in every core that is not idle, and the stores of its streams (R105, R392). -/
def Ctx.loadCore (l : Loaded) (c : Core) : Core :=
  if c.idle then c
  else
    let store (i : Nat) : SMap W32 := l.stores.getD i []
    { c with cold := l.cold, s := { c.s with store := store 0 }, v := { c.v with store := store 1 }, m := { c.m with store := store 2 }
             x := { c.x with store := store 3 } }

/-- The code loader stands at a light fault that is not served yet (R84, R87). -/
def Mach.loaderHalted (M : Mach) : Bool :=
  M.warm.rings.any fun r => (r.recs ++ r.held ++ r.taken).any fun f => f.source == 4120 && lightKind f.kind

/-- CODE_LOAD (R93, R392): with the keeper's store bases and frames. A light fault is served, and a frame freed, while the loader waits, and the
loader goes on at its faulting access (R69, R83); another failure ends the launch, and a fault on a fetch is reported too (R95). -/
def Mach.loadCode (M : Mach) (k : Nat) (bases frames : List Nat) : Mach :=
  match M.ctx? k with
  | none => M
  | some x =>
    if x.run ≠ .loading ∨ M.loaderHalted ∨ M.safe then M
    else if x.header.nomem then M.endCtx x 7
    else match M.load x bases frames with
    | (N, .error (.fault kind va level entry fetch)) =>
      let f : FaultRec :=
        { source := 4120, kind, src := 5, asid := x.asid, write := false, fetch, raised := false, unit := 0, port := 0, level
          addr := va, cslot := 0, mslot := M.mslot, position := 0, entry, ctx := k, req := 0 }
      if lightKind kind then N.raiseFault f
      else (if fetch then N.raiseFault f else N).endCtx x 1
    | (N, .error .nomem) => N.endCtx x 7
    | (N, .error .short) => if M.stuck && !M.freeing then N.endCtx x 7 else N.evictAny
    | (N, .error .illegal) => N.endCtx x 1
    | (N, .ok l) =>
      N.setCtx { x with
        code := l.code, loading := Loading.start, tdt := ((List.range l.tdt.length).zip l.tdt).foldl (fun m q => SMap.set 0 m q.1 q.2) []
        cores := x.cores.map (Ctx.loadCore l), run := .starting (alignTo M.mslot x.phase) }

def execCodeLoad (k : Nat) (bases frames : List Nat) (s : State) : Out := s.onMach fun M => M.loadCode k bases frames

/-- CONTEXT_START (R104, R106, R187): CSLOT 0. -/
def Ctx.start (x : Ctx) (mslot : Nat) : Ctx :=
  let x : Ctx := { x with run := .running, origin := mslot, cslot := 0, heat := 0, lastCkpt := 0, opening := some [] }
  { x with cores := x.cores.map x.startCore }

def execContextStart (k : Nat) (s : State) : Out :=
  s.onMach fun M => M.onCtx k fun x => match x.run with
    | .starting o => if o ≤ M.mslot then x.start M.mslot else x
    | _ => x

/-- SERIAL_ITERATION_START (R98, R187): the coordinates advance, every core restarts, and a window opens with nothing live. -/
def Ctx.iterate (x : Ctx) : Ctx :=
  match nextSerial x.serialExtents x.serial with
  | none => x
  | some l =>
    let x : Ctx := { x with serial := l, next := none, lastCkpt := x.cslot, opening := some [] }
    let free (h : LaneHold) : LaneHold := match h.port with
      | some _ => { h with upto := some x.cslot, port := none }
      | none => h
    { x with cores := x.cores.map x.startCore, lanes := x.lanes.map free }

def execSerialIterationStart (k : Nat) (s : State) : Out :=
  s.onMach fun M => M.onCtx k fun x => if x.moves && x.next == some x.cslot then x.iterate else x

/-! Restores (R183). -/

/-- The core at its new place. -/
def Core.moveTo (ids : List Nat) (c : Core) : Core := { c with id := ids.getD c.idx c.id }

/-- Wheel points of a phase after MSLOT `a` and up to `b` (R134). -/
def wheelsPast (phase a b : Nat) : Nat := (b + 4096 - phase) / 4096 - (a + 4096 - phase) / 4096

/-- RESTORE (R76, R78, R134, R183): the saved context takes its place at its own phase; its ports walk again while it is still frozen. -/
def Mach.restoreHead (M : Mach) (asid : BitVec 8) : Mach :=
  match M.head? with
  | none => M
  | some (q, w) => match w.saved with
    | none => M
    | some y =>
      if M.cold.state ≠ 4 ∨ y.asid ≠ asid ∨ M.safe then M
      else match placeAmong M.ctxs y.record y.code.time (some y.phase) with
        | none =>
          if w.prio = 3 then
            let v := M.victims y.record y.code.time
            { M with ctxs := M.ctxs.map fun x => if v.contains x.slot then { x with victim := true } else x }
          else M
        | some p =>
          let ids := p.clusters.flatMap fun c => (List.range 8).map fun k => 8 * c + k
          let heat : Int := max (y.heat - (wheelsPast y.phase y.placed M.mslot * y.allow : Nat)) (-4 * (y.allow : Int))
          let catch' (e : Nat × InPort) : Nat × InPort := (e.1, if e.2.walk.isSome then { e.2 with catchX := M.mslot + 1 } else e.2)
          let core (c : Core) : Core := { c.moveTo ids with inb := c.inb.map catch' }
          let x : Ctx := { y with
            slot := p.slot, die := p.die, rot := p.rot, placed := M.mslot, aged := M.links.clock - w.since, heat
            cores := y.cores.map core, header := { y.header with serviced := true } }
          let W := (M.warm.emptyTlbs ids).setCtxtr M.heap p.slot asid
          { M.dropHead q with ctxs := M.ctxs ++ [x], warm := W }.bringTraces asid p.slot

def execRestore (asid : BitVec 8) (s : State) : Out := s.onMach fun M => M.restoreHead asid

end Sys2Proof.Machine
end

