-- ==== Sys2Proof/Machine/Host.lean ====
section
/-! DEFINITION. The host link: BAR0 and its registers, the BAR2 window (R18-R22, R36, R41-R43, R56, R195, R212, R410, R411). -/

namespace Sys2Proof.Machine

/-! Writes to BAR0 registers (R20, R42, R43). -/

def Mach.onHost (M : Mach) (f : HostSide → HostSide) : Mach := { M with host := { f M.host with unsupported := false } }

def Mach.queue (M : Mach) (q : Nat) : HQueue := M.host.queues.getD q HQueue.reset

/-- Queue `q` changed by a register write. -/
def Mach.onQueue (M : Mach) (q : Nat) (f : HQueue → HQueue) : Mach :=
  M.onHost fun h => { h with queues := setAt h.queues q (f (M.queue q)) }

/-- QCFG as it reads (R42). -/
def HQueue.cfg (q : HQueue) : BitVec 64 := BitVec.ofNat 64 (16 * q.log2n.toNat + 4 * q.cls.toNat + if q.en then 1 else 0)

/-- A write to QTAIL (R43): TAIL is never made to move backwards, or past a full ring. -/
def HQueue.writeTail (q : HQueue) (l : Lane) (v : BitVec 64) : HQueue :=
  if l = .high then q
  else
    let t : BitVec 32 := v.setWidth 32
    if (t - q.head).toNat ≤ 2 ^ q.log2n.toNat ∧ q.tail - q.head ≤ t - q.head then { q with tail := t }
    else { q with ovr := true, dropped := if q.dropped = BitVec.allOnes 32 then q.dropped else q.dropped + 1 }

/-- A write to QBASE (R42, R43). -/
def HQueue.writeBase (q : HQueue) (l : Lane) (v : BitVec 64) : HQueue :=
  if q.en then q else { q with base := (Lane.put l (q.base.setWidth 64 <<< 12) v).extractLsb' 12 18 }

/-- A write to QCFG (R43). -/
def HQueue.writeCfg (q : HQueue) (l : Lane) (v : BitVec 64) : HQueue :=
  let w := Lane.put l q.cfg v
  if q.en then { q with en := w.getLsbD 0 }
  else
    let n := bits w.toNat 7 4
    if n < 6 ∨ 12 < n ∨ bits w.toNat 3 2 = 3 then q
    else
      let q := { q with log2n := BitVec.ofNat 4 n, cls := w.extractLsb' 2 2 }
      if w.getLsbD 0 then { q with en := true, head := 0, tail := 0 } else q

/-- A write to QSTAT (R42). -/
def HQueue.writeStat (q : HQueue) (l : Lane) (v : BitVec 64) : HQueue := if l ≠ .high ∧ v.getLsbD 0 then { q with ovr := false } else q

/-- QTAIL_WRITE (R43). -/
def execQtailWrite (q : BitVec 3) (lane : Lane) (v : BitVec 64) (s : State) : Out := s.onMach fun M => M.onQueue q.toNat fun h => h.writeTail lane v
/-- QBASE_WRITE (R43). -/
def execQbaseWrite (q : BitVec 3) (lane : Lane) (v : BitVec 64) (s : State) : Out := s.onMach fun M => M.onQueue q.toNat fun h => h.writeBase lane v
/-- QCFG_WRITE (R43). -/
def execQcfgWrite (q : BitVec 3) (lane : Lane) (v : BitVec 64) (s : State) : Out := s.onMach fun M => M.onQueue q.toNat fun h => h.writeCfg lane v
/-- QSTAT_OVR_CLEAR (R42). -/
def execQstatOvrClear (q : BitVec 3) (lane : Lane) (v : BitVec 64) (s : State) : Out :=
  s.onMach fun M => M.onQueue q.toNat fun h => h.writeStat lane v

/-- W2BASE_WRITE (R21). -/
def execW2baseWrite (lane : Lane) (v : BitVec 64) (s : State) : Out := s.onMach fun M => M.onHost fun h => h.writeW2base lane v
/-- W2DISC_CLEAR (R21): whatever is written. -/
def execW2discClear (_lane : Lane) (_v : BitVec 64) (s : State) : Out := s.onMach fun M => M.onHost fun h => { h with w2disc := 0 }

/-- A write of a BAR0 register by its offset: JWSEL takes its field, a register with an effect of its own has it, and every other
location ignores it (R20, R56). -/
def Mach.bar0Write (M : Mach) (off : Nat) (l : Lane) (v : BitVec 64) : Mach :=
  let r := off / 8 * 8
  if r = 0x1020 then M.onHost fun h => if l = .high then h else { h with jwsel := v.setWidth 7 }
  else if r = 0x2000 then M.onHost fun h => h.writeW2base l v
  else if r = 0x2008 then M.onHost fun h => { h with w2disc := 0 }
  else if 0x10000 ≤ r ∧ r < 0x20000 then
    let q := r / 0x2000 % 8
    match r % 0x2000 with
    | 0x000 => M.onQueue q fun h => h.writeBase l v
    | 0x008 => M.onQueue q fun h => h.writeCfg l v
    | 0x010 => M.onQueue q fun h => h.writeTail l v
    | 0x020 => M.onQueue q fun h => h.writeStat l v
    | _ => M.onHost id
  else M.onHost id

/-- REGISTER_WRITE (R20). -/
def execRegisterWrite (off : BitVec 22) (lane : Lane) (v : BitVec 64) (s : State) : Out := s.onMach fun M => M.bar0Write off.toNat lane v

/-- An access of 4 or 8 bytes, naturally aligned (R20). -/
def bar0Ok (off size : Nat) : Bool := (size == 4 || size == 8) && off % size == 0

/-- BAR0_UNSUPPORTED_ACCESS (R20): Unsupported Request, and nothing else. -/
def execBar0UnsupportedAccess (read : Bool) (off : BitVec 22) (size : Nat) (s : State) : Out :=
  s.onMach fun M => if bar0Ok off.toNat size then M
    else { M with host := { M.host with unsupported := true, data := if read then none else M.host.data } }

/-! What BAR0 reads (R18, R20, R21, R36, R42, R56, R57, R212, R410, R411). -/

def ascii (l : List Nat) : BitVec 64 := BitVec.ofNat 64 (pack 8 l)

def Mach.status (M : Mach) (off : Nat) : BitVec 64 :=
  match off with
  | 0x000 => M.cold.t4k ++ M.cold.t40k ++ (0 : BitVec 16) ++ M.cold.holds ++ (0 : BitVec 5) ++ BitVec.ofNat 3 M.cold.state.val
  | 0x008 => (0 : BitVec 32) ++ Config.fusedSvn ++ M.keepers.fstage ++ M.keepers.attempts ++ (0 : BitVec 4) ++ M.keepers.bootPhase
  | 0x010 => BitVec.ofNat 64 M.journal.next
  | 0x018 => BitVec.ofNat 64 M.journal.persisted
  | 0x020 => M.host.jwsel.setWidth 64
  | 0x028 => BitVec.ofNat 64 M.links.clock
  | 0x030 => M.links.corr ++ (0 : BitVec 31) ++ BitVec.ofBool M.links.locked
  | 0x038 => M.keepers.kheap.setWidth 64 <<< 30
  | _ => 0

/-- The 8-byte register at an offset of BAR0. -/
def Mach.bar0 (M : Mach) (off : Nat) : BitVec 64 :=
  if off < 0x1000 then match off with
    | 0x000 => ascii [0x56, 0x52, 0x45, 0x4C, 0x4D, 0x45, 0x54, 0]
    | 0x008 => ascii [0x4F, 0x4C, 0x32, 0x2D, 0x32, 0x35, 0x36, 0]
    | 0x010 => Config.isaRev.setWidth 64
    | 0x018 => Config.serial
    | _ => 0
  else if off < 0x2000 then M.status (off - 0x1000)
  else if off = 0x2000 then M.host.w2base.setWidth 64 <<< 30
  else if off = 0x2008 then M.host.w2disc.setWidth 64
  else if 0x10000 ≤ off ∧ off < 0x20000 then
    let q := M.queue (off / 0x2000 % 8)
    match off % 0x2000 with
    | 0x000 => q.base.setWidth 64 <<< 12
    | 0x008 => q.cfg
    | 0x010 => q.tail.setWidth 64
    | 0x018 => q.head.setWidth 64
    | 0x020 => q.dropped ++ (0 : BitVec 31) ++ BitVec.ofBool q.ovr
    | _ => 0
  else if 0x100000 ≤ off ∧ off < 0x200000 then
    let n := off - 0x100000
    (SMap.get 0 M.journal.ring (8192 * M.host.jwsel.toNat + n / 128)).extractLsb' (8 * (n % 128)) 64
  else 0

/-- What a host read of BAR0 returns: an 8-byte register, or the half of it that a read of 4 bytes names; a read of any other size or
alignment is an Unsupported Request, for which the device gives no data (R20, R410). -/
def Mach.bar0Read (M : Mach) (off size : Nat) : Option (BitVec 64) :=
  if !bar0Ok off size then none
  else if size = 8 then some (M.bar0 off)
  else some (((M.bar0 (off / 8 * 8)).extractLsb' (8 * (off % 8)) 32).setWidth 64)

/-! BAR2 (R21, R22, R30, R195). -/

/-- A frame that the host reaches: populated, and outside the keeper heap (R30, R62). -/
def Mach.populated (M : Mach) (f : Nat) : Bool := (hbmFrame f || deepFrame f) && !framesMeet (f, 1) M.heapFrames

/-- The physical address of a BAR2 offset (R21). -/
def Mach.window (M : Mach) (off : Nat) : Nat := M.host.w2base.toNat * 2 ^ 30 + off

/-- BAR2_READ (R22): all ones where nothing is populated. -/
def execBar2Read (off : BitVec 36) (len : Nat) (s : State) : Out :=
  s.onMach fun M =>
    let byte (i : Nat) : Byte :=
      let a := M.window (off.toNat + i)
      if M.populated (a / 65536) then M.warm.mem.byte a else 0xFF
    { M with host := { M.host with data := some ((List.range len).map byte) } }

/-- A foreign write to a line of a context's memory: logged with the foreign bit, and the window is tainted (R195). -/
def Ctx.logForeign (x : Ctx) (W : Warm) (line source : Nat) : Ctx :=
  let old := match W.phys x.asid (64 * line) with
    | some p => W.mem.read p 64
    | none => 0
  let y := x.append [{ kind := 1, space := 2, foreign := true, atomic := false, spilled := false, source, core := 0, cslot := x.cslot
                       addr := 64 * line, win := x.win.num, payload := BitVec.ofNat 512 old }]
  ({ y with warmSeen := if y.warmSeen.contains line then y.warmSeen else line :: y.warmSeen }.onWin fun w => { w with tainted := true }).syncHeader

/-- The virtual lines of a context that physical bytes belong to. -/
def Warm.linesOf (W : Warm) (a : BitVec 8) (phys : List Nat) : List Nat :=
  match W.space a with
  | none => []
  | some s => (phys.flatMap fun p => (s.ptes.filter fun e => decide (pteAddr e.word ≤ p) && decide (p < pteAddr e.word + leafSize e.level)).map fun e =>
      (e.va + (p - pteAddr e.word)) / 64).eraseDups

/-- Bytes written by the host or by a keeper for it (R22, R195, R205): logged in every context that maps them and has begun, placed or not. -/
def Mach.foreignWrite (M : Mach) (source : Nat) (l : List (Nat × Byte)) : Mach :=
  let phys := l.map (·.1)
  let one (x : Ctx) : Ctx :=
    if !x.begun then x
    else match M.warm.linesOf x.asid phys with
      | [] => x
      | lines =>
        let x := lines.foldl (fun x n => x.logForeign M.warm n source) x
        x.watchHome M.warm 2 ((x.cores.findIdx? fun c => !c.idle).getD 0) source 0 phys
  let mem := l.foldl (fun m q => m.setByte q.1 q.2) M.warm.mem
  let writers := phys.foldl (fun m a => SMap.set 0 m a 0) M.warm.writers
  { M.everyCtx one with warm := { M.warm with mem, writers } }.keepWritten phys

/-- BAR2_WRITE (R22): bytes at unpopulated addresses are discarded, and such a write is counted. -/
def execBar2Write (off : BitVec 36) (bytes : List Byte) (s : State) : Out :=
  s.onMach fun M =>
    let l := ((List.range bytes.length).map fun i => M.window (off.toNat + i)).zip bytes
    let good := l.filter fun q => M.populated (q.1 / 65536)
    let n := M.host.w2disc
    let M := if good.length = l.length then M
      else { M with host := { M.host with w2disc := if n = BitVec.allOnes 32 then n else n + 1 } }
    M.foreignWrite 0x300 good

end Sys2Proof.Machine
end

