-- ==== Sys2Proof/Machine/Command.lean ====
section
/-! DEFINITION. Host commands: how a keeper takes, checks, accepts and starts one; maps, copies, migrations (R43-R52, R55, R61, R70,
R92, R94-R96, R101, R195). -/

namespace Sys2Proof.Machine

/-! The launch record (R94-R96). -/

/-- Level `i` of a record: extent, code, and its zero bytes. -/
def recLevel (r : BitVec 4096) (i : Nat) : Nat × Nat × Nat := (recField r (0x0C0 + 8 * i) 4, recField r (0x0C4 + 8 * i) 1, recField r (0x0C5 + 8 * i) 3)

/-- The limits of one level (R96). -/
def levelOk (r : BitVec 4096) (l : Nat × Nat × Nat) : Bool :=
  let (n, code, z) := l
  decide (1 ≤ n) && z == 0 && match code with
    | 0 => decide (n ≤ 64)
    | 1 => decide (n ≤ 8)
    | 2 => decide (n ≤ 32)
    | 3 => decide (n ≤ 4)
    | 4 => n == 1
    | 5 => decide (n ≤ 32) && n == popc 32 (recField r 0x05C 4)
    | 6 => true
    | _ => false

/-- The levels of a record (R96). -/
def levelsOk (r : BitVec 4096) : Bool :=
  let n := recField r 0x003 1
  let l := (List.range n).map (recLevel r)
  l.all (levelOk r) && ((List.range 8).all fun i => decide (i < n) || recLevel r i == (0, 0, 0))
    && ((List.range 6).all fun c => decide ((l.filter fun q => q.2.1 == c).length ≤ 1))
    && (recExtent r 2).getD 1 * (recExtent r 3).getD 1 == recField r 0x004 1
    && ((recExtent r 3).isNone || decide ((recExtent r 2).getD 1 ≤ 8))
    && ((recExtent r 5).isSome || recField r 0x05C 4 == 0)

/-- The other fields (R94, R95). -/
def recordOk (r : BitVec 4096) : Bool :=
  let f := recField r
  let zero (off n : Nat) : Bool := f off n == 0
  let le (off n m : Nat) : Bool := decide (f off n ≤ m)
  f 0x000 2 == 1 && le 0x002 1 3 && decide (1 ≤ f 0x003 1) && le 0x003 1 8 && decide (1 ≤ f 0x004 1) && le 0x004 1 32 && le 0x005 1 1
    && zero 0x006 2 && zero 0x02C 4 && zero 0x03A 2 && zero 0x066 2 && zero 0x078 8 && zero 0x0A8 24
    && ((List.range 4).all fun i => le (0x010 + 4 * i) 4 4095)
    && le 0x028 4 65536 && le 0x038 2 64 && f 0x03C 4 % 64 == 0 && decide (f 0x03C 4 + 64 * f 0x038 2 ≤ 0x1B000)
    && decide (1 ≤ f 0x050 4) && le 0x050 4 (2 ^ 22) && le 0x054 4 65535 && (zero 0x058 4 || (decide (16 ≤ f 0x058 4) && le 0x058 4 16384))
    && le 0x060 1 32 && le 0x061 1 32 && le 0x062 2 240 && !(zero 0x064 2 && f 0x060 1 + f 0x061 1 == 0)
    && ((List.range 8).all fun i => le (0x068 + i) 1 4)
    && ((List.range 8).all fun i => decide (f (0x080 + 4 * i) 2 ≤ f (0x082 + 4 * i) 2) && le (0x082 + 4 * i) 2 1024)
    && decide (8 * (List.range 8).foldl (fun n i => n + f (0x080 + 4 * i) 2) 0 ≤ 1024)
    && ((List.range 4).all fun i => decide (1 ≤ f (0x0A0 + 2 * i) 2) && le (0x0A0 + 2 * i) 2 2048)
    && decide (f 0x008 8 < 2 ^ 48) && decide (f 0x020 8 < 2 ^ 48) && decide (f 0x030 8 < 2 ^ 48)
    && levelsOk r

/-! Checks of a command (R46-R48). -/

/-- [a, a + n) lies in the host staging region (R41). -/
def staged (a n : Nat) : Bool := decide (a + n ≤ 2 ^ 30)

/-- The kind of a DEBUG command (R47). -/
def HostCmd.debug (c : HostCmd) : Nat := c.field 0x18 2

/-- A command that names a context (R46). -/
def HostCmd.names (c : HostCmd) : Bool := decide (c.kind ≤ 6) || (c.kind == 9 && c.debug != 1)

/-- Zero bytes and field values of a payload (R38, R47, R201, R209, R210, R401). -/
def HostCmd.payloadOk (c : HostCmd) : Bool :=
  let z (off n : Nat) : Bool := c.field off n == 0
  match c.kind with
  | 1 => z 0x10 8 && z 0x20 32
  | 2 => decide (c.field 0x30 8 < 128) && decide (c.field 0x30 1 % 4 ≤ 1) && decide (c.field 0x30 1 / 4 % 4 ≤ 2) && z 0x38 8
  | 3 => z 0x28 24
  | 4 => decide (c.field 0x28 8 ≤ 1) && z 0x30 16
  | 5 | 6 => z 0x30 16
  | 7 | 8 => z 0x20 32
  | 9 => match c.debug with
    | 1 => z 0x1E 2
    | 2 | 3 => z 0x1A 6 && z 0x28 24
    | 4 => z 0x1A 6 && decide (c.field 0x28 1 < 3) && z 0x2A 6 && z 0x30 16
    | 5 => decide (c.field 0x1A 2 < 4) && z 0x1C 4 && z 0x38 8
    | 6 => z 0x1A 6 && z 0x38 8
    | 7 => z 0x1A 6 && z 0x28 24
    | 8 => z 0x1A 6 && z 0x20 32
    | _ => false
  | _ => false

/-- TYPE, DEBUG kind, zero fields and ASID (R48). -/
def HostCmd.legal (c : HostCmd) : Bool :=
  decide (1 ≤ c.kind) && decide (c.kind ≤ 9) && decide (c.field 0x01 1 < 2) && c.field 0x03 5 == 0 && (c.names == (c.asid != 0)) && c.payloadOk

/-- Bytes of a MAP's page size (R47). -/
def HostCmd.pageLevel (c : HostCmd) : Nat := 3 - c.field 0x30 1 / 4 % 4
def HostCmd.deep (c : HostCmd) : Bool := c.field 0x30 1 % 4 == 1

/-- The frames that a MAP names (R47). -/
def Mach.mapBaseOk (M : Mach) (c : HostCmd) : Bool :=
  let pa := c.field 0x28 8
  let len := c.field 0x20 8
  let inside (lo hi : Nat) : Bool := decide (lo ≤ pa) && decide (pa + len ≤ hi)
  (if c.deep then inside 0x8000000000 0x20000000000 else inside 0x40000000 0x6000000000)
    && pa % leafSize c.pageLevel == 0 && !framesMeet (pa / 65536, cdiv len 65536) M.heapFrames

/-- A range of whole pages, none cut (R47). -/
def Mach.wholePages (M : Mach) (a : BitVec 8) (va len : Nat) : Bool :=
  va % 65536 == 0 && len % 65536 == 0 && decide (va + len ≤ 2 ^ 48) && match M.warm.space a with
    | none => true
    | some s => s.ptes.all fun p => decide (p.va + leafSize p.level ≤ va) || decide (va + len ≤ p.va)
        || (decide (va ≤ p.va) && decide (p.va + leafSize p.level ≤ va + len))

/-- A byte address lies in its space: 0 cold, 1 pool, 2 warm; a watchpoint of space 3 has the range of its ADDR field (R59, R61, R201,
R204). -/
def spaceHolds (space a : Nat) : Bool := if space = 0 then decide (a < 0x20000) else if space = 1 then decide (a < 0x100000) else decide (a < 2 ^ 48)

/-- Every address of the record lies in its region, aligned as it must be (R48). -/
def Mach.inRegion (M : Mach) (c : HostCmd) : Bool :=
  let a := c.field 0x18 8
  let n := c.field 0x20 8
  let size := leafSize c.pageLevel
  match c.kind with
  | 1 => a % 512 == 0 && staged a 512
  | 2 => decide (65536 ≤ a) && decide (a + n ≤ 2 ^ 48) && a % size == 0 && n % size == 0 && (c.field 0x28 8 == 0 || M.mapBaseOk c)
  | 3 | 4 => M.wholePages c.asid a n
  | 5 => decide (n + c.field 0x28 8 ≤ 2 ^ 48) && decide (c.field 0x28 8 ≤ 2 ^ 40)
  | 6 => decide (a + c.field 0x28 8 ≤ 2 ^ 48) && decide (c.field 0x28 8 ≤ 2 ^ 40)
  | 9 => match c.debug with
    | 1 => c.field 0x1A 4 % 64 == 0 && staged (c.field 0x1A 4) 30384
    | 4 => spaceHolds (c.field 0x28 1 % 4) n
    | 5 => spaceHolds (c.field 0x30 1 / 64) n
    | 6 => n % 4096 == 0 && c.field 0x28 8 % 4096 == 0 && staged n (c.field 0x28 8)
    | 7 => n % 128 == 0 && staged n 128
    | _ => true
  | _ => true

/-- A context is placed, or queued in the launch unit (R48). -/
def Mach.busyAsid (M : Mach) (a : BitVec 8) : Bool := M.ctxs.any (fun x => x.asid == a) || M.launch.any fun q => q.any fun w => w.asid == a

/-! The order of a queue (R49). -/

/-- Its turn has come: every earlier command of its queue has started, and with WAITPREV the one taken before it has ended. -/
def Mach.turn (M : Mach) (c : HostCmd) : Bool :=
  M.cmds.all fun d => d.queue != c.queue || decide (c.seq ≤ d.seq) || (d.state != .accepted && !(c.waitPrev && c.prev == some d.seq))

def Mach.prioOf (c : HostCmd) : Nat := recField c.record 0x002 1 % 4

/-- The status with which a command is rejected; 0 for none (R48, R95, R101). A LAUNCH of more clusters than there are never carries
ILLEGAL. -/
def Mach.checkCmd (M : Mach) (c : HostCmd) : Nat :=
  if c.kind = 1 ∧ M.inRegion c ∧ 32 < recField c.record 0x004 1 then 4
  else if !c.legal then 1
  else if !M.inRegion c then 2
  else if c.kind = 1 ∧ !recordOk c.record then 1
  else if (c.kind = 1 ∨ c.kind = 2) ∧ M.busyAsid c.asid then 8
  else if c.kind = 1 ∧ M.turn c ∧ 64 ≤ (M.launch.getD (Mach.prioOf c) []).length then 3
  else 0

/-! Taking a command (R36, R44, R45, R55). -/

def HQueue.ready (q : HQueue) : Bool := q.en && q.head != q.tail

/-- The queue from which a keeper takes the next command: by class, and in turn within a class. -/
def Mach.nextQueue (M : Mach) : Option Nat :=
  let order (c : Nat) : List Nat := (List.range 8).map fun i => (M.host.turn.getD c 7 + 1 + i) % 8
  (([0, 1, 2] : List Nat).flatMap fun c => (order c).filter fun q => (M.queue q).ready && (M.queue q).cls.toNat == c).head?

/-- The command at the head of queue `q`, if it is taken now. -/
def Mach.headCmd (M : Mach) (q : Nat) : Option HostCmd :=
  if !M.accepting || M.nextQueue != some q then none
  else
    let h := M.queue q
    let words := BitVec.ofNat 512 (M.warm.mem.read (4096 * h.base.toNat + 64 * (h.head.toNat % 2 ^ h.log2n.toNat)) 64)
    let c : HostCmd := { seq := M.journal.next, queue := q, index := h.head.toNat, words, prev := h.last, record := 0, state := .accepted, pages := [], moved := 0
                         busy := false, failed := false, count := 0, result := none }
    some (if c.kind = 1 ∧ staged (c.field 0x18 8) 512 then { c with record := BitVec.ofNat 4096 (M.warm.mem.read (c.field 0x18 8) 512) } else c)

/-- HEAD passes the command whose entry is `seq` (R55). -/
def Mach.passHead (M : Mach) (q seq : Nat) : Mach :=
  let h := M.queue q
  { M with host := { M.host with queues := setAt M.host.queues q { h with head := h.head + 1, last := some seq }, turn := setAt M.host.turn h.cls.toNat q } }

/-- REJECT (R48). -/
def Mach.reject (M : Mach) (c : HostCmd) (status : Nat) : Mach :=
  (M.entry 2 c.queue c.asid.toNat status none c.index 0 c.words.toNat).passHead c.queue c.seq

/-- ACCEPT (R46). -/
def Mach.accept (M : Mach) (c : HostCmd) : Mach :=
  { (M.entry 1 c.queue c.asid.toNat 0 none c.index 0 c.words.toNat).passHead c.queue c.seq with cmds := M.cmds ++ [c] }

/-! LAUNCH (R49, R101). -/

/-- A LAUNCH whose turn has come enters the queue of its priority, while that has room. -/
def Mach.enqueue (M : Mach) (c : HostCmd) : Mach :=
  let p := Mach.prioOf c
  let q := M.launch.getD p []
  if M.launch.any (fun l => l.any fun w => w.cmd == c.seq) || decide (64 ≤ q.length) then M
  else
    let w : Waiting := { cmd := c.seq, asid := c.asid, record := c.record, prio := p, since := M.links.clock, blocked := none, ring := none, saved := none }
    { M with launch := setAt M.launch p (q ++ [w]) }

/-- LAUNCH_ENQUEUE (R101). -/
def execLaunchEnqueue (seq : Nat) (s : State) : Out :=
  s.onMach fun M => match M.cmd? seq with
    | none => M
    | some c => if c.kind = 1 ∧ c.state = .accepted ∧ M.turn c then M.enqueue c else M

/-! MAP and UNMAP (R47, R52, R69, R92). -/

def Mach.finish (M : Mach) (seq status detail : Nat) : Mach :=
  { M with cmds := M.cmds.map fun c => if c.seq == seq then { c with result := some (status, detail) } else c }

def Mach.onCmd (M : Mach) (seq : Nat) (f : HostCmd → HostCmd) : Mach := { M with cmds := M.cmds.map fun c => if c.seq == seq then f c else c }

/-- A range touches a mapped page. -/
def Mach.touches (M : Mach) (a : BitVec 8) (va len : Nat) : Bool :=
  match M.warm.space a with
  | none => false
  | some s => s.ptes.any fun p => decide (p.va < va + len) && decide (va < p.va + leafSize p.level)

/-- The leaf that a MAP makes: its rights, and A and D clear (R47, R75). -/
def HostCmd.leafAt (c : HostCmd) (va addr : Nat) (pinned : Bool) : Pte :=
  let r := c.field 0x30 1 / 16
  { level := c.pageLevel, va, pinned, word := pteWord addr (r.testBit 0) (r.testBit 1) (r.testBit 2) false false false (if c.deep then 1 else 0) }

/-- The keeper's frame for a page, or the lowest where that is not free. -/
def Mach.chooseFrame (M : Mach) (f n : Nat) (deep : Bool) : Nat := if M.freeFrames f n deep then f else M.pickFrame n deep

/-- Pages mapped in order on free frames; none where they run out. -/
def Mach.mapPages (M : Mach) (c : HostCmd) : List Nat → List Nat → Option Mach
  | [], _ => some M
  | va :: r, frames =>
    let n := leafSize c.pageLevel / 65536
    let f := M.chooseFrame (frames.headD 0) n c.deep
    if f = 0 then none
    else { M with warm := (M.warm.take f n).putLeaf M.heap c.asid (c.leafAt va (65536 * f) false) }.mapPages c r (frames.drop 1)

/-- A MAP does its work, or waits while HBM is short (R47, R69). -/
def Mach.runMap (M : Mach) (c : HostCmd) (frames : List Nat) : Mach :=
  let va := c.field 0x18 8
  let len := c.field 0x20 8
  let pa := c.field 0x28 8
  let size := leafSize c.pageLevel
  let pages := (List.range (len / size)).map fun i => va + size * i
  if M.touches c.asid va len then M.finish c.seq 2 0
  else if pa ≠ 0 then
    let W := pages.foldl (fun W p => Warm.putLeaf W M.heap c.asid (c.leafAt p (pa + (p - va)) true)) (M.warm.take (pa / 65536) (len / 65536))
    { M with warm := W }.finish c.seq 0 0
  else match M.mapPages c pages frames with
    | some M => M.finish c.seq 0 0
    | none => if c.deep || (M.stuck && !M.freeing) then M.finish c.seq 7 0 else M.evict frames

/-- One page leaves its address space: a move of it ends, unless another page maps its frame and goes on with the move; its frame is retired if
it is poisoned, and is free after the invalidation if nothing else maps it (R63, R65, R92). -/
def Mach.unmapPage (M : Mach) (a : BitVec 8) (p : Pte) : Mach :=
  let n := leafSize p.level / 65536
  let M' : Mach := { M with warm := M.warm.dropLeaf a p }
  let M := match M.moveOf a p.va with
    | some m =>
      if M'.warm.mappers m.old p.level != [] then M'
      else
        let N := M'.dropMove m
        { N with warm := N.warm.release m.frame n }.tell { moved := false, lost := true } m.who
    | none => M'
  let (M, mark) := M.invalidate [(a, p)] a p.va p.level
  let f := pteAddr p.word / 65536
  let shared := (List.range n).any fun i => !(M.warm.mapping (f + i)).isEmpty
  if shared then
    let k := SMap.get (0 : BitVec 32) M.warm.refs f
    { M with warm := { M.warm with refs := if pteSh p.word then SMap.set 0 M.warm.refs f (k - 1) else M.warm.refs } }
  else if pteMoor p.word = 4 then { M with warm := { M.warm.release f n with retired := M.warm.retired ++ [(f, n)] } }
  else M.freeAfter mark f n

/-- An UNMAP removes every page of its range, and waits for the markers (R52). -/
def Mach.runUnmap (M : Mach) (c : HostCmd) : Mach :=
  let va := c.field 0x18 8
  let len := c.field 0x20 8
  let pages := ((M.warm.space c.asid).map fun s => s.ptes.filter fun p => decide (va ≤ p.va) && decide (p.va < va + len)).getD []
  let M' := pages.foldl (fun M p => M.unmapPage c.asid p) M
  M'.onCmd c.seq fun c => { c with count := if pages.isEmpty then 0 else M'.warm.invseq }

/-! MIGRATE (R52, R68-R70). -/

/-- The pages of a MIGRATE in ascending order, up to one that moves: the next is decided when that move has ended. One that finds no frame waits
while HBM can be freed, and else fails (R68-R70, log 116). -/
def Mach.migratePages (M : Mach) (c : HostCmd) (frames : List Nat) : List Nat → Mach
  | [] => M.onCmd c.seq fun c => { c with pages := [] }
  | va :: r =>
    let up := c.field 0x28 8 == 0
    let n := ((M.warm.leaf c.asid va).map fun p => leafSize p.level / 65536).getD 1
    match M.requestMove c.asid va up (M.chooseFrame (frames.headD 0) n (!up)) (256, c.seq) with
    | (M, some .done) => M.migratePages c frames r
    | (M, some .busy) => (M.onCmd c.seq fun c => { c with busy := true }).migratePages c frames r
    | (M, some .lost) => (M.onCmd c.seq fun c => { c with failed := true }).migratePages c frames r
    | (M, some _) => M.onCmd c.seq fun c => { c with pages := r }
    | (M, none) =>
      if !up || (M.stuck && !M.freeing) then (M.onCmd c.seq fun c => { c with failed := true }).migratePages c frames r
      else (M.evict frames).onCmd c.seq fun c => { c with pages := va :: r }

/-- A page of a MIGRATE is in a move. -/
def Mach.migrating (M : Mach) (c : HostCmd) : Bool := M.warm.moves.any fun m => m.who.contains (256, c.seq)

/-- The mapped pages of a MIGRATE's range. -/
def Mach.migrateList (M : Mach) (c : HostCmd) : List Nat :=
  let va := c.field 0x18 8
  let len := c.field 0x20 8
  sortBy (fun (n : Nat) => n) (((M.warm.space c.asid).map fun s => (s.ptes.filter fun p => decide (va ≤ p.va) && decide (p.va < va + len)).map (·.va)).getD [])

/-! COPYIN and COPYOUT (R47, R63, R195). -/

/-- The runs of a range within its 64 KiB pages: address and bytes. -/
def pageRuns (va len : Nat) : List (Nat × Nat) :=
  (pagesOf va len).map fun pg =>
    let lo := max va (65536 * pg)
    (lo, min (va + len) (65536 * pg + 65536) - lo)

/-- How a keeper finds one run: at a physical address, in a move, or nowhere (unmapped or lost). -/
inductive RunAt where
  | phys (a n : Nat)
  | moving
  | gone
  deriving DecidableEq, Repr

def Mach.runAt (M : Mach) (a : BitVec 8) (r : Nat × Nat) : RunAt :=
  match M.warm.leaf a r.1 with
  | none => .gone
  | some p =>
    let m := pteMoor p.word
    if m = 0 ∨ m = 1 then .phys (pteAddr p.word + (r.1 - p.va)) r.2 else if m = 4 then .gone else .moving

def RunAt.bytes : RunAt → Nat
  | .phys _ n => n
  | _ => 0

/-- Physical addresses of the runs up to the first that is not there. -/
def runAddrs : List RunAt → List Nat
  | .phys a n :: r => (List.range n).map (a + ·) ++ runAddrs r
  | _ => []

/-- A shared page that a COPYIN is to write gets a copy of its own first, in its own tier (R64, R406). -/
def Mach.unshareRuns (M : Mach) (a : BitVec 8) (l : List (Nat × Nat)) (frames : List Nat) : Mach :=
  l.foldl (fun M r => match M.warm.leaf a r.1 with
    | some p => if pteSh p.word && pteMoor p.word != 4 then
        let f := M.chooseFrame (frames.headD 0) (leafSize p.level / 65536) (pteMoor p.word == 1)
        if f = 0 then M else M.unshare a r.1 p f
      else M
    | none => M) M

/-- A COPYIN or COPYOUT moves its bytes, unless a page of it is in a move; it ends at a page that is not there. A COPYIN that finds no frame for
a page of its own waits while one can be freed, and else fails (R69, log 116). -/
def Mach.runCopy (M : Mach) (c : HostCmd) (frames : List Nat) : Mach :=
  let into := c.kind == 5
  let va := if into then c.field 0x20 8 else c.field 0x18 8
  let bus := if into then c.field 0x18 8 else c.field 0x20 8
  let runs := pageRuns va (c.field 0x28 8)
  if (runs.map (M.runAt c.asid)).contains .moving then M
  else
    let M := if into then M.unshareRuns c.asid runs frames else M
    let at' := runs.map (M.runAt c.asid)
    let left := into && runs.any fun r => ((M.warm.leaf c.asid r.1).map fun p => pteSh p.word && pteMoor p.word != 4).getD false
    if left then (if M.stuck && !M.freeing then M.finish c.seq 7 0 else M.evict frames)
    else
      let addrs := runAddrs at'
      let n := addrs.length
      let M := if into then M.foreignWrite 0x301 (addrs.zip (M.host.memory.readList bus n))
        else { M with host := { M.host with memory := M.host.memory.writeList bus (addrs.map M.warm.mem.byte) } }
      M.finish c.seq (if at'.contains .gone then 2 else 0) n

end Sys2Proof.Machine
end

