-- ==== Sys2Proof/Machine/Hash.lean ====
section
/-! DEFINITION. SHAKE256 (FIPS 202), by which images are measured and reported (R34, R40). -/

namespace Sys2Proof.Machine

/-- The permuted string: bit z of the lane in column x of plane y is bit 64 (5 y + x) + z. -/
abbrev Sponge := BitVec 1600

def Sponge.lane (s : Sponge) (x y : Nat) : W64 := s.extractLsb' (64 * (5 * (y % 5) + x % 5)) 64

/-- The string that has lane `f x y` in column x of plane y. -/
def Sponge.build (f : Nat → Nat → W64) : Sponge :=
  (List.range 25).foldr (fun n s => (s <<< 64) ||| (f (n % 5) (n / 5)).setWidth 1600) 0

/-- θ: the parity of one column on its left and of one on its right, that one turned by a bit, goes into every lane. -/
def Sponge.mixColumns (s : Sponge) : Sponge :=
  let parity (x : Nat) : W64 := (List.range 5).foldl (fun p y => p ^^^ s.lane x y) 0
  let sums := (List.range 5).map parity
  let effect (x : Nat) : W64 := sums.getD ((x + 4) % 5) 0 ^^^ (sums.getD ((x + 1) % 5) 0).rotateLeft 1
  Sponge.build fun x y => s.lane x y ^^^ effect x

/-- The turn of a lane in ρ: the lane met after t moves (x, y) ↦ (y, 2 x + 3 y) from (1, 0) turns by (t + 1)(t + 2) / 2; lane (0, 0) stays. -/
def turnAfter (x y : Nat) : Nat → Nat → Nat → Nat
  | 0, _, _ => 0
  | left + 1, a, b => if a = x ∧ b = y then (24 - left) * (25 - left) / 2 else turnAfter x y left b ((2 * a + 3 * b) % 5)

/-- ρ and then π: lane (x, y) comes from lane (x + 3 y, x), turned. -/
def Sponge.scatter (s : Sponge) : Sponge :=
  Sponge.build fun x y =>
    let from' := (x + 3 * y) % 5
    (s.lane from' x).rotateLeft (turnAfter from' x 24 1 0 % 64)

/-- χ: a lane changes where its right neighbour is 0 and the one beyond is 1. -/
def Sponge.bend (s : Sponge) : Sponge := Sponge.build fun x y => s.lane x y ^^^ (s.lane (x + 2) y &&& ~~~(s.lane (x + 1) y))

/-- A step of the register that gives the bits of ι: multiplication by X modulo X⁸ + X⁶ + X⁵ + X⁴ + 1. -/
def nextTap (r : Nat) : Nat := if r < 128 then 2 * r else (2 * r) ^^^ 0x171

/-- The bits that ι flips in lane (0, 0), at places 2 ^ j − 1, and the register after them. -/
def tapBits : Nat → Nat → Nat → W64 × Nat
  | 0, _, r => (0, r)
  | n + 1, j, r =>
    let (rest, last) := tapBits n (j + 1) (nextTap r)
    ((if r % 2 = 1 then BitVec.twoPow 64 (2 ^ j - 1) else 0) ^^^ rest, last)

/-- The rounds that are left, from the state of the register. -/
def Sponge.rounds : Nat → Nat → Sponge → Sponge
  | 0, _, s => s
  | n + 1, r, s =>
    let (flips, r) := tapBits 7 0 r
    Sponge.rounds n r (s.mixColumns.scatter.bend ^^^ flips.setWidth 1600)

/-- Whole blocks of 136 bytes enter the string, each followed by the 24 rounds. -/
def Sponge.enter (s : Sponge) : Nat → List Byte → Sponge
  | 0, _ => s
  | n + 1, l => (Sponge.rounds 24 1 (s ^^^ BitVec.ofNat 1600 (ofBytes (l.take 136)))).enter n (l.drop 136)

/-- SHAKE256 of bytes, with 512 bits of output, byte 0 lowest: the message, 1111, and a 1 at either end of the padding. -/
def shake256 (l : List Byte) : BitVec 512 :=
  let blocks := l.length / 136 + 1
  let padded := BitVec.ofNat (8 * 136 * blocks) (ofBytes l + 0x1F * 256 ^ l.length) ^^^ BitVec.twoPow _ (8 * 136 * blocks - 1)
  ((0 : Sponge).enter blocks (toBytes (136 * blocks) padded.toNat)).setWidth 512

end Sys2Proof.Machine
end

