-- ==== Sys2Proof/Machine/Slh.lean ====
section
/-! DEFINITION. SLH-DSA-SHAKE-256s (FIPS 205), by which images are verified and quotes are signed (R32, R37, R38, log 140). Strings of 32 bytes are
hashes, unless a definition says otherwise. -/

namespace Sys2Proof.Machine

abbrev Bytes := List Byte

/-- `n` bytes of a number, highest first. -/
def bigBytes (n v : Nat) : Bytes := (toBytes n v).reverse

/-- The number of bytes, highest first. -/
def bigNat (l : Bytes) : Nat := ofBytes l.reverse

/-- The address of a hash: layer, tree, type, and three words whose sense the type gives. -/
structure Adrs where
  layer : Nat
  tree : Nat
  kind : Nat
  a : Nat
  b : Nat
  c : Nat
  deriving DecidableEq, Repr

def Adrs.bytes (x : Adrs) : Bytes := bigBytes 4 x.layer ++ bigBytes 12 x.tree ++ bigBytes 4 x.kind ++ bigBytes 4 x.a ++ bigBytes 4 x.b ++ bigBytes 4 x.c

/-- Types of address: 0 a WOTS+ chain, 1 a WOTS+ public key, 2 a Merkle tree, 3 a FORS tree, 4 FORS roots, 5 WOTS+ keys, 6 FORS keys. -/
def Adrs.typed (x : Adrs) (kind a b c : Nat) : Adrs := { x with kind, a, b, c }

/-- `n` bytes of SHAKE256, at most 64. -/
def shakeBytes (n : Nat) (l : Bytes) : Bytes := (toBytes 64 (shake256 l).toNat).take n

/-- The hash of a message at an address under PK.seed: F, H and T of FIPS 205, which differ in the length of the message. -/
def slhHash (pkSeed : Bytes) (x : Adrs) (m : Bytes) : Bytes := shakeBytes 32 (pkSeed ++ x.bytes ++ m)

/-- The first `n` digits of `b` bits of a string, highest first. -/
def digits (b n : Nat) (l : Bytes) : List Nat := (List.range n).map fun i => bigNat l / 2 ^ (8 * l.length - b * (i + 1)) % 2 ^ b

/-- The 32-byte string number `i` of a longer one. -/
def part (l : Bytes) (i : Nat) : Bytes := (l.drop (32 * i)).take 32

/-! WOTS+: 67 chains of 16. -/

/-- `n` links of a chain from link `i`. -/
def chain (pkSeed : Bytes) (x : Adrs) : Nat → Nat → Bytes → Bytes
  | 0, _, m => m
  | n + 1, i, m => chain pkSeed x n (i + 1) (slhHash pkSeed { x with c := i } m)

/-- The lengths that a message asks of the chains: its digits, and those of their sum. -/
def wotsDigits (m : Bytes) : List Nat :=
  let d := digits 4 64 m
  d ++ digits 4 3 (bigBytes 2 (16 * d.foldl (fun s x => s + (15 - x)) 0))

/-- The secret start of a chain. -/
def wotsSecret (skSeed pkSeed : Bytes) (x : Adrs) (i : Nat) : Bytes := slhHash pkSeed (x.typed 5 x.a i 0) skSeed

/-- The public key from the ends of the chains. -/
def wotsJoin (pkSeed : Bytes) (x : Adrs) (ends : List Bytes) : Bytes := slhHash pkSeed (x.typed 1 x.a 0 0) ends.flatten

def wotsPublic (skSeed pkSeed : Bytes) (x : Adrs) : Bytes :=
  wotsJoin pkSeed x ((List.range 67).map fun i => chain pkSeed (x.typed 0 x.a i 0) 15 0 (wotsSecret skSeed pkSeed x i))

def wotsSign (skSeed pkSeed : Bytes) (x : Adrs) (m : Bytes) : Bytes :=
  ((wotsDigits m).zipIdx.map fun d => chain pkSeed (x.typed 0 x.a d.2 0) d.1 0 (wotsSecret skSeed pkSeed x d.2)).flatten

def wotsFrom (pkSeed : Bytes) (x : Adrs) (sig m : Bytes) : Bytes :=
  wotsJoin pkSeed x ((wotsDigits m).zipIdx.map fun d => chain pkSeed (x.typed 0 x.a d.2 0) (15 - d.1) d.1 (part sig d.2))

/-! Merkle trees. -/

/-- The node that an authentication path gives above leaf `idx`: `joined` hashes two children at a height and an index. -/
def climb (joined : Nat → Nat → Bytes → Bytes) : List Bytes → Nat → Nat → Bytes → Bytes
  | [], _, _, node => node
  | s :: r, height, idx, node =>
    climb joined r (height + 1) (idx / 2) (joined (height + 1) (idx / 2) (if idx % 2 = 0 then node ++ s else s ++ node))

/-- The node of a height and an index of a tree, from its leaves. -/
def merkle (leaf : Nat → Bytes) (joined : Nat → Nat → Bytes → Bytes) : Nat → Nat → Bytes
  | 0, i => leaf i
  | z + 1, i => joined (z + 1) i (merkle leaf joined z (2 * i) ++ merkle leaf joined z (2 * i + 1))

/-- The sibling index. -/
def sibling (i : Nat) : Nat := i ^^^ 1

/-! The hypertree: 8 layers of XMSS trees of height 8. -/

def xmssJoined (pkSeed : Bytes) (x : Adrs) (height idx : Nat) (m : Bytes) : Bytes := slhHash pkSeed (x.typed 2 0 height idx) m

def xmssNode (skSeed pkSeed : Bytes) (x : Adrs) (z i : Nat) : Bytes :=
  merkle (fun l => wotsPublic skSeed pkSeed (x.typed 0 l 0 0)) (xmssJoined pkSeed x) z i

def xmssSign (skSeed pkSeed : Bytes) (x : Adrs) (idx : Nat) (m : Bytes) : Bytes :=
  wotsSign skSeed pkSeed (x.typed 0 idx 0 0) m ++ ((List.range 8).map fun j => xmssNode skSeed pkSeed x j (sibling (idx / 2 ^ j))).flatten

def xmssFrom (pkSeed : Bytes) (x : Adrs) (idx : Nat) (sig m : Bytes) : Bytes :=
  climb (xmssJoined pkSeed x) ((List.range 8).map fun j => part sig (67 + j)) 0 idx (wotsFrom pkSeed (x.typed 0 idx 0 0) sig m)

/-- The trees from layer `layer` on: each signs the root of the one below. -/
def treeSign (skSeed pkSeed : Bytes) : Nat → Nat → Nat → Nat → Bytes → Bytes
  | 0, _, _, _, _ => []
  | n + 1, layer, tree, leaf, m =>
    let x : Adrs := { layer, tree, kind := 0, a := 0, b := 0, c := 0 }
    let sig := xmssSign skSeed pkSeed x leaf m
    sig ++ treeSign skSeed pkSeed n (layer + 1) (tree / 256) (tree % 256) (xmssFrom pkSeed x leaf sig m)

/-- The root that a hypertree signature gives. -/
def treeFrom (pkSeed : Bytes) : Nat → Nat → Nat → Nat → Bytes → Bytes → Bytes
  | 0, _, _, _, _, m => m
  | n + 1, layer, tree, leaf, sig, m =>
    let x : Adrs := { layer, tree, kind := 0, a := 0, b := 0, c := 0 }
    treeFrom pkSeed n (layer + 1) (tree / 256) (tree % 256) (sig.drop (32 * 75)) (xmssFrom pkSeed x leaf sig m)

/-! FORS: 22 trees of height 14. -/

def forsSecret (skSeed pkSeed : Bytes) (x : Adrs) (i : Nat) : Bytes := slhHash pkSeed (x.typed 6 x.a 0 i) skSeed
def forsJoined (pkSeed : Bytes) (x : Adrs) (height idx : Nat) (m : Bytes) : Bytes := slhHash pkSeed (x.typed 3 x.a height idx) m
def forsLeaf (skSeed pkSeed : Bytes) (x : Adrs) (i : Nat) : Bytes := forsJoined pkSeed x 0 i (forsSecret skSeed pkSeed x i)

def forsSign (skSeed pkSeed : Bytes) (x : Adrs) (md : Bytes) : Bytes :=
  ((digits 14 22 md).zipIdx.map fun d =>
    forsSecret skSeed pkSeed x (d.2 * 2 ^ 14 + d.1) ++ ((List.range 14).map fun j =>
      merkle (forsLeaf skSeed pkSeed x) (forsJoined pkSeed x) j (d.2 * 2 ^ (14 - j) + sibling (d.1 / 2 ^ j))).flatten).flatten

def forsFrom (pkSeed : Bytes) (x : Adrs) (sig md : Bytes) : Bytes :=
  slhHash pkSeed (x.typed 4 x.a 0 0) ((digits 14 22 md).zipIdx.map fun d =>
    let idx := d.2 * 2 ^ 14 + d.1
    climb (forsJoined pkSeed x) ((List.range 14).map fun j => part sig (15 * d.2 + 1 + j)) 0 idx (forsJoined pkSeed x 0 idx (part sig (15 * d.2)))).flatten

/-! Keys, signatures, verification. -/

/-- The parts of the seed: SK.seed, SK.prf, PK.seed (R37). -/
def seedPart (seed : BitVec 768) (i : Nat) : Bytes := part (toBytes 96 seed.toNat) i

/-- PK.root: the root of the topmost tree. -/
def slhRoot (skSeed pkSeed : Bytes) : Bytes := xmssNode skSeed pkSeed { layer := 7, tree := 0, kind := 0, a := 0, b := 0, c := 0 } 8 0

/-- The public key of the pair that a seed gives: PK.seed and PK.root (R32, R37). -/
def slhPublic (seed : BitVec 768) : BitVec 512 :=
  BitVec.ofNat 512 (ofBytes (seedPart seed 2 ++ slhRoot (seedPart seed 0) (seedPart seed 2)))

/-- The message as it is signed: with an empty context string. -/
def slhMessage (m : Bytes) : Bytes := [0, 0] ++ m

/-- The digest of a message under a randomizer: the string for FORS, the tree and the leaf. -/
def slhDigest (r pkSeed pkRoot m : Bytes) : Bytes × Nat × Nat :=
  let d := shakeBytes 47 (r ++ pkSeed ++ pkRoot ++ m)
  (d.take 39, bigNat ((d.drop 39).take 7), bigNat (d.drop 46))

def forsAdrs (tree leaf : Nat) : Adrs := { layer := 0, tree, kind := 3, a := leaf, b := 0, c := 0 }

/-- The signature of a message under the private key that a seed gives, with 32 bytes of randomness: 29,792 bytes. -/
def slhSign (seed : BitVec 768) (random : BitVec 256) (m : Bytes) : BitVec 238336 :=
  let skSeed := seedPart seed 0
  let pkSeed := seedPart seed 2
  let m := slhMessage m
  let r := shakeBytes 32 (seedPart seed 1 ++ toBytes 32 random.toNat ++ m)
  let (md, tree, leaf) := slhDigest r pkSeed (slhRoot skSeed pkSeed) m
  let x := forsAdrs tree leaf
  let fors := forsSign skSeed pkSeed x md
  BitVec.ofNat 238336 (ofBytes (r ++ fors ++ treeSign skSeed pkSeed 8 0 tree leaf (forsFrom pkSeed x fors md)))

/-- Whether a signature over a message verifies under a public key (R32). -/
def slhVerify (key : BitVec 512) (m : Bytes) (sig : BitVec 238336) : Bool :=
  let key := toBytes 64 key.toNat
  let sig := toBytes 29792 sig.toNat
  let pkSeed := part key 0
  let (md, tree, leaf) := slhDigest (part sig 0) pkSeed (part key 1) (slhMessage m)
  let fors := (sig.drop 32).take (32 * 330)
  treeFrom pkSeed 8 0 tree leaf (sig.drop (32 * 331)) (forsFrom pkSeed (forsAdrs tree leaf) fors md) == part key 1

end Sys2Proof.Machine
end

