-- ==== Sys2Proof/Machine/Debug.lean ====
section
/-! DEFINITION. What commands do when they start and while they work: SIGNAL, ABORT, QUOTE, the reverse steps, WATCH, TRACE, ACCOUNT
and RESUME; a keeper taking a command; starts and ends (R38, R46-R52, R201, R202, R209-R211, R398, R401). -/

namespace Sys2Proof.Machine

/-! ABORT (R51). -/

/-- A launch that waits in the launch unit leaves it: its undo ring is free, and a saved context is released, or, while moves that it asked for
are under way, stands on no clusters until they are over (R109). -/
def Mach.dropWaiting (M : Mach) (seq : Nat) : Mach :=
  let gone := M.launch.flatMap fun q => q.filter fun w => w.cmd == seq
  let M := { M with launch := M.launch.map fun q => q.filter fun w => w.cmd != seq }
  gone.foldl (fun M w =>
    let a := w.asid
    let M := M.forget a
    match w.saved, w.ring with
    | some y, _ =>
      let y : Ctx := { y with slot := 256 + a.toNat, run := .gone, cores := [], record := 0, allow := 0, code := Code.none, loading := Loading.start }
      if M.movesOf y = [] then M.freeCtx y else { M with ctxs := M.ctxs ++ [y] }
    | none, some f =>
      { M with warm := M.warm.release f (16 * recUndo w.record), traces := M.traces.filter fun t => t.slot != 256 + a.toNat }
    | none, none => { M with traces := M.traces.filter fun t => t.slot != 256 + a.toNat }) M

/-- No dump is written of a context that is aborted (R51). -/
def Mach.dropDump (M : Mach) (x : Ctx) : Mach :=
  { M with keepers := { M.keepers with dumps := M.keepers.dumps.filter fun d => !(d.isOpen && d.slot == x.slot && d.asid == x.asid) } }

/-- A frozen context that nothing is to thaw is aborted as it stands: its queues drain, and its launch ends with no dump (R51). -/
def Mach.abortFrozen (M : Mach) (x : Ctx) : Mach :=
  let y : Ctx := { x with header := { x.header with cause := 0x31, fatal := false, held := false } }
  ((M.dropDump x).setCtx y).openDump.drain x.slot

/-- An ABORT of a launch that has been placed (R51): of one that has not begun at once; of one that runs, by a stop; of one that is held by the
debugger, or is to end with a fault, as it stands. -/
def Mach.abortPlaced (M : Mach) (c : HostCmd) (x : Ctx) : Mach :=
  let mark (M : Mach) : Mach := M.setCmd { c with state := .aborting }
  match x.run with
  | .loading | .starting _ | .ended => M.endCtx x 5
  | .gone => M
  | .running | .dwelling .. => mark (M.onCtx x.slot fun x => x.request' 0x31)
  | .frozen .. =>
    if x.header.fatal || (x.header.held && x.replay.isNone) then (mark M).abortFrozen x
    else mark (M.onCtx x.slot fun x => x.request' 0x31)

/-- An ABORT of a launch that has started. -/
def Mach.abortLaunch (M : Mach) (c : HostCmd) : Mach :=
  match M.ctxs.find? fun x => x.cmd == c.seq with
  | some x => M.abortPlaced c x
  | none => match (M.launch.flatMap id).find? fun w => w.cmd == c.seq with
    | some w => ((M.dropWaiting c.seq).endSeq c.seq 5 ((w.saved.map (·.cslot)).getD 0)).settleAborts c.seq 0
    | none => M

/-- What the journal's ring says of a SEQ that names no live command: 1 for a command that has ended or was rejected, 2 otherwise. -/
def Mach.abortCode (M : Mach) (seq : Nat) : Nat :=
  let e := (SMap.get (0 : BitVec 1024) M.journal.ring (seq % 2 ^ 20)).toNat
  let kind := e / 2 ^ 128 % 256
  if seq < M.journal.next ∧ e % 2 ^ 64 = seq ∧ (kind = 1 ∨ kind = 2) then 1 else 2

/-- An aborted command that is no launch ends at its next page or granule: a MIGRATE once the page in its move is over, an UNMAP once its markers
have retired, any other at once; what has been moved stays (R51-R53, R70). -/
def Mach.endAborted (M : Mach) (c : HostCmd) : Mach :=
  match c.kind with
  | 3 => if c.count ≤ M.warm.invdone then M.endCmd c 5 0 else M.setCmd c
  | 4 => if M.migrating c then M.setCmd { c with pages := [] } else M.endCmd c 5 c.moved
  | 5 | 6 => M.endCmd c 5 ((c.result.map (·.2)).getD 0)
  | _ => M.endCmd c 5 0

/-- ABORT by the state of its target (R51); it always ends COMPLETE. -/
def Mach.runAbort (M : Mach) (a : HostCmd) : Mach :=
  let seq := a.field 0x18 8
  match M.cmd? seq with
  | none => M.endCmd a 0 (M.abortCode seq)
  | some c =>
    if c.kind = 8 ∨ c.state = .aborting then M.endCmd a 0 1
    else if c.state = .accepted then (((M.dropWaiting seq).endCmd c 5 0).forget c.asid).endCmd a 0 0
    else if c.kind = 1 then M.abortLaunch c
    else
      let M := if c.kind = 9 ∧ c.debug = 8 then
          { M with ctxs := M.ctxs.map fun x => if x.asid == c.asid then { x with header := { x.header with resume := false } } else x }
        else M
      (M.endAborted { c with state := .aborting }).endCmd a 0 0

/-! QUOTE (R38, R39). -/

/-- The signed part of a quote: 592 bytes. -/
def quoteBody (K : Keepers) (clock nonce : Nat) : List Byte :=
  toBytes 4 0x32514C4F ++ toBytes 2 1 ++ toBytes 2 (if K.lost.any id then 1 else 0) ++ toBytes 8 Config.serial.toNat
    ++ toBytes 4 Config.isaRev.toNat ++ toBytes 4 Config.fusedSvn.toNat ++ toBytes 8 clock ++ toBytes 32 nonce ++ toBytes 8 K.loads.toNat
    ++ toBytes 8 0 ++ K.meas.flatMap fun m => toBytes 64 m.toNat

/-- A quote of 30,384 bytes. -/
def Mach.quote (M : Mach) (nonce : Nat) : List Byte :=
  let body := quoteBody M.keepers M.links.clock nonce
  body ++ toBytes 29792 (slhSign Config.seed (Config.signRandom M.mslot) body).toNat

/-- QUOTE: the whole quote is written before the end (R38). -/
def Mach.runQuote (M : Mach) (c : HostCmd) : Mach :=
  let mem := M.warm.mem.writeList (c.field 0x1A 4) (M.quote (c.field 0x20 32))
  { M with warm := { M.warm with mem } }.finish c.seq 0 30384

/-! Reverse steps (R198-R202). -/

/-- The context has begun and has not ended, and no fatal end is under way. -/
def Ctx.reversible (x : Ctx) : Bool := x.begun && !x.header.fatal

/-- A reverse step of a frozen context that is not already in replay. A context whose first window has not opened stands at its start. -/
def Mach.reverse (M : Mach) (c : HostCmd) (x : Ctx) : Mach :=
  let n := c.field 0x20 8
  let fail := M.endCmd c 2 0
  let go (w : Window) (target : Nat) (seek : Option (Nat × Nat × Nat)) : Mach :=
    if w.cores.isEmpty then (M.setCtx (x.standing M.mslot)).endCmd c 0 x.cslot
    else (M.setAside x.slot).replayFrom x.slot w { target, seek, live := false, cmd := some c.seq }
  match x.horizon with
  | none => fail
  | some h => match c.debug with
    | 2 => match x.window? n with
      | some w => if n < h then fail else go w w.start none
      | none => fail
    | 3 => match (x.windows ++ [x.win]).reverse.find? fun w => decide (w.start ≤ n) with
      | some w => if x.cslot < n ∨ w.num < h then fail else go w n none
      | none => fail
    | _ =>
      let q := (n, c.field 0x28 1 % 4, c.field 0x29 1)
      match x.writtenBefore (x.win.num + 1) q with
      | some w => go w x.cslot (some q)
      | none => fail

/-- A context that a pre-emption has saved (R182). -/
def Mach.savedCtx (M : Mach) (a : BitVec 8) : Option Ctx :=
  ((M.launch.flatMap id).find? fun w => w.asid == a && w.saved.isSome).bind (·.saved)

/-- A context that is placed and has not ended. -/
def Mach.placed (M : Mach) (a : BitVec 8) : Option Ctx := (M.byAsid a).filter fun x => x.run != .gone

/-- RSTEP goes on: it stops a context that runs, and acts on it once it stands; one that is in a replay, or saved, is waited for. -/
def Mach.runRstep (M : Mach) (c : HostCmd) : Mach :=
  match M.placed c.asid with
  | none => if (M.savedCtx c.asid).isSome then M else M.endCmd c 2 0
  | some x =>
    if !x.reversible then M.endCmd c 2 0
    else if x.replay.isSome then M
    else match x.run with
      | .frozen .. => M.reverse c x
      | _ => M

/-- RSTEP starts (R201): the context is under the debugger from now on (R401), and one that runs is stopped with cause 0x34. -/
def Mach.startRstep (M : Mach) (c : HostCmd) : Mach :=
  let arm (x : Ctx) : Ctx :=
    let y := { x with header := { x.header with debugged := true } }
    if x.reversible && x.live && x.replay.isNone then y.request' 0x34 else y
  (M.onAsid c.asid.toNat arm).runRstep c

/-! WATCH, TRACE, ACCOUNT, RESUME. -/

/-- WATCH (R209, R398): armed in a placed or saved context, or kept for one that is queued; WPHIT is cleared. -/
def Mach.runWatch (M : Mach) (c : HostCmd) : Mach :=
  let n := c.field 0x1A 2 % 4
  let w (first : Nat) : Watch :=
    { addr := BitVec.ofNat 64 (c.field 0x20 8), mask := BitVec.ofNat 64 (c.field 0x28 8), ctl := BitVec.ofNat 64 (c.field 0x30 8 % 2 ^ 16)
      hit := 0, first, untold := [] }
  let from' (x : Ctx) : Nat := if x.begun then x.cslot + (if x.done then 1 else 0) else 0
  let arm (x : Ctx) : Ctx := { x with watch := setAt x.watch n (w (from' x)), header := { x.header with debugged := true } }
  match M.placed c.asid, M.savedCtx c.asid with
  | some x, _ | none, some x => (M.onAsid c.asid.toNat arm).finish c.seq 0 (from' x)
  | none, none =>
    if M.queued c.asid then
      { M with kept := M.kept.filter (fun (e : BitVec 8 × Nat × Watch) => !(e.1 == c.asid && e.2.1 == n)) ++ [(c.asid, n, w 0)] }.finish c.seq 0 0
    else M.finish c.seq 2 0

/-- The slot under which the trace rings of an ASID are kept. -/
def Mach.traceSlot (M : Mach) (a : BitVec 8) : Option Nat :=
  match M.placed a with
  | some x => some x.slot
  | none => if M.queued a then some (256 + a.toNat) else none

/-- TRACE (R210): a ring starts with both offsets at 32; size 0 stops tracing. -/
def Mach.runTrace (M : Mach) (c : HostCmd) : Mach :=
  match M.traceSlot c.asid with
  | none => M.finish c.seq 2 0
  | some k =>
    let base := c.field 0x20 8
    let size := c.field 0x28 8
    let others := M.traces.filter fun t => t.slot != k
    if size = 0 then { M with traces := others }.finish c.seq 0 0
    else
      let t : Trace := { slot := k, base, size, mask := BitVec.ofNat 64 (c.field 0x30 8), woff := 32, dropped := 0 }
      let mem := ((M.warm.mem.write base 8 32).write (base + 8) 8 32).write (base + 16) 16 0
      { M with traces := others ++ [t], warm := { M.warm with mem } }.finish c.seq 0 0

/-- The 128 bytes of lost time (R211). -/
def Ctx.accountWords (x : Ctx) : List Nat :=
  let a := x.account
  let fill := x.cores.foldl (fun n c => (List.range 8).foldl (fun n i => n + (c.inp i).fill.toNat) n) 0
  (List.range 4).map (fun i => SMap.get 0 a.issue i) ++ [a.gap, fill, a.heat, a.late, a.slip, a.fault, a.preempt, a.service, a.other, 0, 0, 0]

/-- ACCOUNT (R211). -/
def Mach.runAccount (M : Mach) (c : HostCmd) : Mach :=
  let put (l : List Nat) : Mach :=
    { M with warm := { M.warm with mem := M.warm.mem.write (c.field 0x20 8) 128 (pack 64 l) } }.finish c.seq 0 0
  match M.placed c.asid, M.savedCtx c.asid with
  | some x, _ | none, some x => put x.accountWords
  | none, none => if M.queued c.asid then put [] else M.finish c.seq 2 0

/-- RESUME (R401). -/
def Mach.runResume (M : Mach) (c : HostCmd) : Mach :=
  match M.byAsid c.asid with
  | none => M.finish c.seq 2 0
  | some x => match x.run with
    | .frozen _ none =>
      let code := x.header.cause
      if !x.header.held || x.replay.isSome || x.header.fatal then M.finish c.seq 2 0
      else if code = 0x23 ∨ code = 0x34 ∨ isSlip code then
        let M := M.onCtx x.slot fun x => { x with header := { x.header with resume := true } }
        if ((M.ctx? x.slot).map Ctx.mayThaw).getD false then M.thawCtx x.slot else M
      else
        ((M.onCtx x.slot fun x => { x with header := { x.header with fatal := true } }).openDump).finish c.seq 0 0
    | _ => M.finish c.seq 2 0

/-! Starts and ends (R49, R50). -/

/-- A started command does its work, or goes on with it. -/
def Mach.workCmd (M : Mach) (c : HostCmd) (frames : List Nat) : Mach :=
  match c.kind with
  | 2 => M.runMap c frames
  | 4 => if M.migrating c then M else M.migratePages c frames c.pages
  | 5 | 6 => M.runCopy c frames
  | _ => M

/-- What a DEBUG command does at its start, by kind (R47). -/
def Mach.startDebug (M : Mach) (c : HostCmd) : Mach :=
  match c.debug with
  | 1 => M.runQuote c
  | 2 | 3 | 4 => M.startRstep c
  | 5 => M.runWatch c
  | 6 => M.runTrace c
  | 7 => M.runAccount c
  | _ => M.runResume c

/-- SIGNAL (R50): the value is written at the start, and the end follows at once. -/
def Mach.runSignal (M : Mach) (c : HostCmd) : Mach :=
  let a := c.field 0x10 8
  (if a = 0 then M else M.hostWrite a 8 (c.field 0x18 8)).endCmd c 0 0

/-- A command other than LAUNCH starts: its START entry, then its effect (R49). -/
def Mach.startCmd (M : Mach) (c : HostCmd) (frames : List Nat) : Mach :=
  let M := M.startEntry c
  let c : HostCmd := { c with state := .started }
  match c.kind with
  | 3 => M.runUnmap c
  | 4 =>
    let l := M.migrateList c
    (M.setCmd { c with pages := l }).migratePages { c with pages := l } frames l
  | 7 => M.runSignal c
  | 8 => M.runAbort c
  | 9 => M.startDebug c
  | _ => M.workCmd c frames

/-- COMMAND_START (R49): a command whose turn has come starts; one that has started and not done its work goes on. -/
def execCommandStart (seq : Nat) (frames : List Nat) (s : State) : Out :=
  s.onMach fun M => match M.cmd? seq with
    | none => M
    | some c => match c.state with
      | .accepted => if c.kind ≠ 1 ∧ M.turn c then M.startCmd c frames else M
      | .started => if c.result.isNone then M.workCmd c frames else M
      | .aborting => M

/-- A MIGRATE ends once every page has been decided and none of its moves is under way (R52, R70). -/
def Mach.endMigrate (M : Mach) (c : HostCmd) : Mach :=
  if !c.pages.isEmpty || M.migrating c then M
  else M.endCmd c (if c.busy then 3 else if c.failed then 2 else 0) c.moved

/-- COMMAND_END (R50): a started command whose work is done ends, and so does an aborted one (R51). -/
def Mach.endDone (M : Mach) (c : HostCmd) : Mach :=
  if c.state = .aborting ∧ c.kind ≠ 1 then M.endAborted c
  else if c.state ≠ .started then M
  else match c.result with
    | some (status, detail) => M.endCmd c status detail
    | none => match c.kind with
      | 3 => if c.count ≤ M.warm.invdone then M.endCmd c 0 0 else M
      | 4 => M.endMigrate c
      | 9 => if c.debug = 2 ∨ c.debug = 3 ∨ c.debug = 4 then M.runRstep c
        else if c.debug = 8 ∧ !((M.byAsid c.asid).map fun x => x.header.resume).getD false then M.endCmd c 2 0 else M
      | _ => M

def execCommandEnd (seq : Nat) (s : State) : Out :=
  s.onMach fun M => match M.cmd? seq with
    | none => M
    | some c => M.endDone c

/-! A keeper takes a command (R45-R49, R55). -/

/-- A command whose turn has come: a LAUNCH enters the launch unit, any other starts. -/
def Mach.firstTurn (M : Mach) (seq : Nat) (frames : List Nat) : Mach :=
  match M.cmd? seq with
  | none => M
  | some c => if !M.turn c then M else if c.kind = 1 then M.enqueue c else M.startCmd c frames

/-- The head command of queue `q`, if it is of the kind that `ok` names, is rejected or accepted. -/
def Mach.takeCmd (M : Mach) (q : Nat) (ok : HostCmd → Bool) (frames : List Nat) : Mach :=
  match M.headCmd q with
  | none => M
  | some c =>
    if !ok c then M
    else if M.checkCmd c ≠ 0 then M.reject c (M.checkCmd c)
    else (M.accept c).firstTurn c.seq frames

/-- TYPE names no command, or a DEBUG names no kind (R48). -/
def HostCmd.unassigned (c : HostCmd) : Bool :=
  c.kind == 0 || decide (10 ≤ c.kind) || (c.kind == 9 && (c.debug == 0 || decide (9 ≤ c.debug)))

def isKind (n : Nat) (c : HostCmd) : Bool := c.kind == n
def isDebug (n : Nat) (c : HostCmd) : Bool := c.kind == 9 && c.debug == n

/-- ILLEGAL_COMMAND (R48). -/
def execIllegalCommand (q : BitVec 3) (s : State) : Out := s.onMach fun M => M.takeCmd q.toNat HostCmd.unassigned []
/-- LAUNCH (R95, R101). -/
def execLaunch (q : BitVec 3) (s : State) : Out := s.onMach fun M => M.takeCmd q.toNat (isKind 1) []
/-- MAP (R47, R69). -/
def execMap (q : BitVec 3) (frames : List Nat) (s : State) : Out := s.onMach fun M => M.takeCmd q.toNat (isKind 2) frames
/-- UNMAP (R52). -/
def execUnmap (q : BitVec 3) (s : State) : Out := s.onMach fun M => M.takeCmd q.toNat (isKind 3) []
/-- MIGRATE (R70). -/
def execMigrate (q : BitVec 3) (frames : List Nat) (s : State) : Out := s.onMach fun M => M.takeCmd q.toNat (isKind 4) frames
/-- COPYIN (R47, R195). -/
def execCopyin (q : BitVec 3) (s : State) : Out := s.onMach fun M => M.takeCmd q.toNat (isKind 5) []
/-- COPYOUT (R47). -/
def execCopyout (q : BitVec 3) (s : State) : Out := s.onMach fun M => M.takeCmd q.toNat (isKind 6) []
/-- SIGNAL (R50). -/
def execSignal (q : BitVec 3) (s : State) : Out := s.onMach fun M => M.takeCmd q.toNat (isKind 7) []
/-- ABORT (R51). -/
def execAbort (q : BitVec 3) (s : State) : Out := s.onMach fun M => M.takeCmd q.toNat (isKind 8) []
/-- QUOTE (R38). -/
def execQuote (q : BitVec 3) (s : State) : Out := s.onMach fun M => M.takeCmd q.toNat (isDebug 1) []
/-- RSTEP_WIN (R201). -/
def execRstepWin (q : BitVec 3) (s : State) : Out := s.onMach fun M => M.takeCmd q.toNat (isDebug 2) []
/-- RSTEP_SLOT (R201). -/
def execRstepSlot (q : BitVec 3) (s : State) : Out := s.onMach fun M => M.takeCmd q.toNat (isDebug 3) []
/-- RSTEP_WRITE (R202). -/
def execRstepWrite (q : BitVec 3) (s : State) : Out := s.onMach fun M => M.takeCmd q.toNat (isDebug 4) []
/-- WATCH (R209). -/
def execWatch (q : BitVec 3) (s : State) : Out := s.onMach fun M => M.takeCmd q.toNat (isDebug 5) []
/-- TRACE (R210). -/
def execTrace (q : BitVec 3) (s : State) : Out := s.onMach fun M => M.takeCmd q.toNat (isDebug 6) []
/-- ACCOUNT (R211). -/
def execAccount (q : BitVec 3) (s : State) : Out := s.onMach fun M => M.takeCmd q.toNat (isDebug 7) []
/-- RESUME (R401). -/
def execResume (q : BitVec 3) (s : State) : Out := s.onMach fun M => M.takeCmd q.toNat (isDebug 8) []

end Sys2Proof.Machine
end

