-- ==== Sys2Proof/Machine/Keeper.lean ====
section
/-! DEFINITION. The keepers' own services: reset, boot and measurement, routines, the clock, the cold stage, sparing, keeper failures,
the Dretex ports, the drives (R11-R40, R53-R58, R184, R212). -/

namespace Sys2Proof.Machine

/-! The journal over a reset (R53-R58). -/

/-- JOURNAL_PERSIST (R56). -/
def execJournalPersist (s : State) : Out :=
  s.onMach fun M => let M := M.persist; { M with journal := { M.journal with ms := M.links.clock / 1000000 } }

/-- A field of a journal entry: first bit and width. -/
def entryField (e : BitVec 1024) (lo w : Nat) : Nat := e.toNat / 2 ^ lo % 2 ^ w
def entrySeq (e : BitVec 1024) : Nat := entryField e 0 64
def entryKind (e : BitVec 1024) : Nat := entryField e 128 8
def entryRef (e : BitVec 1024) : Nat := entryField e 192 64

/-- START entries without an end entry, oldest first (R58). -/
def openStarts (ring : SMap (BitVec 1024)) : List (BitVec 1024) :=
  let es := ring.map (·.2)
  let ended := (es.filter fun e => entryKind e == 4 || entryKind e == 5).map entryRef
  sortBy entrySeq (es.filter fun e => entryKind e == 3 && !ended.contains (entryRef e))

/-- The keepers restore the journal: the ring, an end for every command that a reset cut off, and a BOOT entry (R58). -/
def Mach.restoreJournal (M : Mach) : Mach :=
  let j := M.journal
  let last := j.persisted - 1
  let M := { M with journal := { j with next := j.persisted, ring := j.saved } }
  let M := (openStarts j.saved).foldl (fun M e =>
    M.entry 5 (entryField e 136 8) (entryField e 144 8) 9 (some (entryRef e)) (entryField e 256 64) 0 0) M
  M.entry 6 0xFF 0 0 none 0 last 0

/-- MODULE_RESET (R18, R34, R42, R56, R58): every register takes its reset value; what the boot flash, the drives, HBM and host memory hold
stays, and MSLOT goes on (R110). -/
def Mach.reboot (M : Mach) : Mach :=
  let K := M.keepers
  { Mach.reset with
    mslot := M.mslot
    host := { Mach.reset.host with memory := M.host.memory, msix := M.host.msix }
    journal := { next := M.journal.persisted, persisted := M.journal.persisted, ring := [], saved := M.journal.saved, ms := 0 }
    keepers := { Mach.reset.keepers with present := K.present, spares := K.spares, flash := K.flash, drives := K.drives, lost := K.lost
                                         replies := K.replies, dumps := K.dumps, dumpSpace := K.dumpSpace }
    cold := { Mach.reset.cold with coreMap := M.cold.coreMap, laneMap := M.cold.laneMap, hbmMap := M.cold.hbmMap }
    warm := { Mach.reset.warm with mem := M.warm.mem, retired := M.warm.retired } }

def execModuleReset (s : State) : Out :=
  .next { s with now := s.now.reboot, snap := none, todo := [], cur := none, causes := [], dwell := none }

/-! Boot (R32-R36). -/

/-- An image's header (R32, R163). -/
def Image.header (i : Image) : List Byte := Config.headerBytes i.kind i.length i.svn.toNat i.num i.s0 i.w i.fmin

/-- The image as it is signed and measured: header and body (R32, R34). -/
def Image.bytes (i : Image) : List Byte := Image.header i ++ i.body

/-- A signed image of its length verifies under the root key, at or above the fused SVN (R32); data of phase 3 by their CRC (R33). -/
def Image.good (key : BitVec 512) (i : Image) : Bool :=
  i.length == i.body.length
    && if i.kind = 3 ∨ i.kind = 4 then crc32c i.body == i.crc else slhVerify key (Image.bytes i) i.sig && Config.fusedSvn.ule i.svn

/-- A slot of the boot flash verifies: its key is the root key of the fuses, and its image is stage-one firmware under that key (R32,
R33). -/
def FlashSlot.good (f : FlashSlot) : Bool :=
  (shake256 (toBytes 64 f.key.toNat)).setWidth 256 == Config.rootHash && f.image.kind == 0 && Image.good f.key f.image

/-- Loading an image into a measurement register (R34). -/
def extend (meas : BitVec 512) (body : List Byte) : BitVec 512 := shake256 (toBytes 64 meas.toNat ++ toBytes 64 (shake256 body).toNat)

def Keepers.measure (K : Keepers) (i : Nat) (img : Image) : Keepers :=
  { K with meas := setAt K.meas i (extend (K.meas.getD i 0) (Image.bytes img)) }

/-- ATTEMPTS counts failures, saturating (R36). -/
def Keepers.failed (K : Keepers) : Keepers := { K with attempts := if K.attempts = BitVec.allOnes 8 then K.attempts else K.attempts + 1 }

/-- The first copy that verifies (R35). -/
def Keepers.pick (K : Keepers) {α : Type} (good : α → Bool) : List (Option α) → Keepers × Option α
  | [] => (K, none)
  | c :: r => match c with
    | some i => if good i then (K, some i) else K.failed.pick good r
    | none => K.failed.pick good r

/-- The copies of an image on the drives that are left, drive 0 first (log 107). -/
def Keepers.copies (K : Keepers) (kind num : Nat) : List (Option Image) :=
  ((K.drives.zip K.lost).filter fun d => !d.2).map fun d => d.1.find? fun i => i.kind == kind && i.num == num

/-- A copy of an image from the drives (R33, R35). -/
def Keepers.pickImage (K : Keepers) (kind num : Nat) : Keepers × Option Image := K.pick (Image.good K.rootKey) (K.copies kind num)

/-- Boot stops at a phase (R35). -/
def Keepers.stopAt (K : Keepers) (p : Nat) : Keepers := { K with bootPhase := 0xF, fstage := BitVec.ofNat 8 (p + 1) }

/-- Numbers of the routines that phase 2 loads: every built-in routine, then the installed ones on the drives, ascending (R33, R165);
6 and 7 are reserved. -/
def builtIn : List Nat := [0, 1, 2, 3, 4, 5, 8, 9, 10, 11, 12, 13, 14, 15]

def Keepers.routineNums (K : Keepers) : List Nat :=
  let here := (K.drives.zip K.lost).flatMap fun d => if d.2 then [] else (d.1.filter fun i => i.kind == 2).map (·.num)
  builtIn ++ sortBy (fun (n : Nat) => n) (here.filter fun n => decide (16 ≤ n)).eraseDups

/-- The header of a routine is one that R163 or R165 allows; the table of R165 gives routine 5 no bounds (log 108). -/
def Image.routineOk (i : Image) : Bool :=
  i.kind == 2 && if i.num < 16 then i.num == 5 || builtInBound i.num == some (i.s0, i.w)
    else decide (i.num ≤ 63) && decide (1 ≤ i.w) && decide (i.w ≤ 65535)

def Image.routine (i : Image) : Routine := { num := i.num, s0 := i.s0, w := i.w, fmin := i.fmin }

/-- Phase 2: every routine is loaded and measured; none if one of them fails on both drives. -/
def Keepers.loadRoutines (K : Keepers) : List Nat → Keepers × Bool
  | [] => (K, true)
  | n :: r => match K.pick (fun i => Image.good K.rootKey i && Image.routineOk i) (K.copies 2 n) with
    | (K, none) => (K, false)
    | (K, some i) => ({ K.measure 2 i with routines := K.routines ++ [Image.routine i] }).loadRoutines r

/-- Phase 3: calibration data that fail on both drives make the kernel calibrate afresh; the configuration must be there. The keepers then take
freeze interrupts (R178, log 104). -/
def Keepers.loadData (K : Keepers) : Keepers :=
  let (K, cal) := K.pickImage 3 0
  let K := match cal with
    | some i => K.measure 3 i
    | none => { K with fresh := true }
  match K.pickImage 4 0 with
  | (K, none) => K.stopAt 3
  | (K, some i) => { K.measure 4 i with bootPhase := if K.lost.any id then 0xE else 4, sie := BitVec.allOnes 16 }

/-- BOOT_PHASE (R33-R36, R411): one stage, on a keeper core that has passed its self-test; the keeper firmware places the heap in phase
1, and the journal is restored at the end. -/
def Mach.boot (M : Mach) (heap : BitVec 11) : Mach :=
  let K := M.keepers
  if !K.present.any id then M
  else match K.bootPhase.toNat with
  | 0 => match K.pick FlashSlot.good (([0, 1] : List Nat).map fun i => K.flash[i]?) with
    | (K, none) => { M with keepers := K.stopAt 0 }
    | (K, some f) => { M with keepers := { K.measure 0 f.image with bootPhase := 1, rootKey := f.key } }
  | 1 =>
    if heap = 0 ∨ 380 < heap.toNat then M
    else match K.pickImage 1 0 with
      | (K, none) => { M with keepers := K.stopAt 1 }
      | (K, some i) => { M with keepers := { K.measure 1 i with bootPhase := 2, kheap := heap } }
  | 2 => match K.loadRoutines K.routineNums with
    | (K, true) => { M with keepers := { K with bootPhase := 3 } }
    | (K, false) => { M with keepers := K.stopAt 2 }
  | 3 =>
    let M := { M with keepers := K.loadData }
    if M.accepting then M.restoreJournal.raiseVector 8 else M
  | _ => M

def execBootPhase (kheap : BitVec 11) (s : State) : Out := s.onMach fun M => M.boot kheap

/-! Routines and quotes (R38, R39, R163). -/

/-- ROUTINE_LOAD (R33, R163): an installed routine whose image verifies; MEAS5 and the count change together (R39). -/
def Keepers.install (K : Keepers) (i : Image) : Keepers :=
  if !Image.routineOk i || decide (i.num < 16) then K
  else if !(Image.good K.rootKey i) then K.failed
  else { K.measure 5 i with routines := K.routines.filter (fun r => r.num != i.num) ++ [Image.routine i], loads := K.loads + 1 }

def execRoutineLoad (img : Image) (s : State) : Out :=
  s.onMach fun M => if M.accepting then { M with keepers := M.keepers.install img } else M

/-- QUOTE_REQUEST_MGMT (R38): the quote is the reply. A request before the keeper firmware runs, or in a stopped boot, gets none
(log 109). -/
def execQuoteRequestMgmt (nonce : BitVec 256) (s : State) : Out :=
  s.onMach fun M =>
    if M.accepting then { M with keepers := { M.keepers with replies := M.keepers.replies ++ [M.quote nonce.toNat] } } else M

/-! The station clock (R212). -/

/-- An event of the module, told to every ring with the CSLOT of its context. -/
def Mach.traceEach (M : Mach) (event data : Nat) : Mach :=
  (M.traces.map (·.slot)).eraseDups.foldl (fun M k =>
    let x := M.ctx? k
    let asid := (x.map fun x => x.asid.toNat).getD (k - 256)
    M.traceTo (fun t => t.slot == k) event ((x.map (·.cslot)).getD 0) asid 0xFFFF data) M

/-- CLOCK_CORRECTION: a step where the offset is positive and above 1 ms, else a slew; counted and logged. -/
def Mach.correct (M : Mach) (n : Int) : Mach :=
  if !M.links.locked || n == 0 then M
  else
    let L := M.links
    let L := { L with corr := if L.corr = BitVec.allOnes 32 then L.corr else L.corr + 1, corrections := L.corrections ++ [n] }
    let L := if 1000000 < n then { L with clock := L.clock + n.toNat, slew := 0 } else { L with slew := n }
    { M with links := L }.traceEach 8 (ofInt 32 n)

def execClockCorrection (offset : Int) (s : State) : Out := s.onMach fun M => M.correct offset
/-- PTP_LOCK (R212). -/
def execPtpLock (locked : Bool) (s : State) : Out := s.onMach fun M => { M with links := { M.links with locked } }

/-! The cold stage (R16-R18). -/

/-- The cooldown state, told to the host by vector 8 (R19), and timed from its entry (R16). -/
def Mach.coolTo (M : Mach) (st : Fin 8) : Mach := { M with cold := { M.cold with state := st, entered := M.links.clock } }.raiseVector 8

/-- The core by which a stop of the whole context is reported. -/
def Ctx.wholeStop (x : Ctx) (code : Nat) : Cause :=
  let c := (x.cores.find? fun c => !c.idle).map fun c => (c.idx, c.id)
  { core := (c.getD (0, 0)).1, lid := (c.getD (0, 0)).2, code, stream := 4, word := 0, port := 0, detail := 0 }

/-- One placed context on entry into WARMING (R17): one that runs freezes first, at its next slot, with cause thermal; every freeze is then
fatal. -/
def Mach.condemn (M : Mach) (k : Nat) : Mach :=
  match M.ctx? k with
  | none => M
  | some x => match x.run with
    | .loading | .starting _ | .ended => M.endCtx x 6
    | .gone => M
    | .running => if x.asked 0x30 then M else M.setCtx (x.request' 0x30)
    | .dwelling .. => M.freezeCtx k [x.wholeStop 0x30]
    | .frozen since _ => M.setCtx { x with run := .frozen since none, replay := none, header := { x.header with fatal := true } }

/-- Every placed context becomes fatal, and the first dump opens (R17, R186). -/
def Mach.condemnAll (M : Mach) : Mach := ((M.ctxs.map (·.slot)).foldl Mach.condemn M).openDump

/-- KEEPER_START_COMMAND (R16, R36). -/
def execKeeperStartCommand (s : State) : Out := s.onMach fun M => if M.cold.state = 0 ∧ M.accepting then M.coolTo 1 else M

/-- KEEPER_STOP_COMMAND (R16, R17). -/
def execKeeperStopCommand (s : State) : Out :=
  s.onMach fun M => if M.cold.state = 4 then (M.coolTo 6).condemnAll else if M.cold.state = 7 then M.coolTo 6 else M

/-- The transitions that a temperature of the 4 K stage, in mK, takes (R16, R17). -/
def Mach.threshold (M : Mach) (t : Nat) : Mach :=
  match M.cold.state.val with
  | 1 => if t ≤ 4500 then M.coolTo 2 else M
  | 2 => if 4500 < t then M.coolTo 1 else M
  | 4 =>
    if 4800 < t then
      let h := M.cold.holds
      let M := { M with cold := { M.cold with holds := if h = BitVec.allOnes 8 then h else h + 1 } }.coolTo 5
      (M.stopAll 0x30).stopHeld 0x30
    else M
  | 5 => if t ≤ 4400 then (M.coolTo 4).thawAll else M
  | 6 => if 280000 ≤ t then M.coolTo 0 else M
  | _ => M

/-- A field of COLDSTAT (R18). -/
def tempField (t : Nat) : BitVec 16 := if 65534 < t then 0xFFFF else BitVec.ofNat 16 t

/-- Boot phase 1 has ended, and a keeper runs (R18). -/
def Mach.monitored (M : Mach) : Bool :=
  let p := M.keepers.bootPhase.toNat
  p ≠ 0 && p ≠ 1 && !(p = 0xF && decide (M.keepers.fstage.toNat < 3))

/-- TEMPERATURE_MEASUREMENT (R18): the 4 K stage in mK, the shield in units of 10 mK. -/
def execTemperatureMeasurement (t4k t40k : Nat) (s : State) : Out :=
  s.onMach fun M =>
    if M.monitored then { M with cold := { M.cold with t4k := tempField t4k, t40k := tempField t40k } }.threshold t4k else M

/-- SOAK_TIMEOUT (R16): 600 s at no more than 4.5 K, which any measurement above ends. -/
def execSoakTimeout (s : State) : Out := s.onMach fun M => if M.heldFor 2 600 then M.coolTo 3 else M

/-- HOLD_TIMEOUT (R16, R17): 300 s in HOLD. -/
def execHoldTimeout (s : State) : Out := s.onMach fun M => if M.heldFor 5 300 then (M.coolTo 6).condemnAll else M

/-- The measurement report of new data (R40): kind, clock, and the hash that goes into MEAS3 or MEAS4. -/
def Mach.report (M : Mach) (i : Image) : Mach :=
  let r := toBytes 8 i.kind ++ toBytes 8 M.links.clock ++ toBytes 64 (shake256 (Image.bytes i)).toNat
  { M with keepers := { M.keepers with replies := M.keepers.replies ++ [r] } }

/-- An image of data: kind 3 calibration, 4 keeper configuration (R33, R40, log 105). -/
def dataImage (kind : Nat) (body : List Byte) : Image :=
  { kind, length := body.length, svn := 0, body, sig := 0, crc := crc32c body, num := 0, s0 := 0, w := 0, fmin := 0 }

/-- New data go to every drive that is left and are reported (R35, R40). -/
def Mach.saveImage (M : Mach) (i : Image) : Mach :=
  let put (d : List Image × Bool) : List Image := if d.2 then d.1 else d.1.filter (fun j => j.kind != i.kind) ++ [i]
  { M with keepers := { M.keepers with drives := (M.keepers.drives.zip M.keepers.lost).map put } }.report i

/-- New calibration data: they are measured if the boot had none (R35). -/
def Mach.saveCalibration (M : Mach) (body : List Byte) : Mach :=
  let i := dataImage 3 body
  let M := M.saveImage i
  if M.keepers.fresh then { M with keepers := { M.keepers.measure 3 i with fresh := false } } else M

/-- CALIBRATION_DONE (R16, R35, R40, R133): the data that the keepers write, and the meter's weights. A boot without calibration data
needs new ones. READY holds no temperature above 4.8 K, so that a stage that is warmer goes on to HOLD (R18). -/
def execCalibrationDone (passed : Bool) (data : CalData) (weights : BitVec 64) (s : State) : Out :=
  s.onMach fun M =>
    if M.cold.state ≠ 3 then M
    else if !passed then M.coolTo 7
    else if M.keepers.fresh && data.data.isNone then M
    else
      let M := match data.data with
        | some body => M.saveCalibration body
        | none => M
      let M := match data.config with
        | some body => M.saveImage (dataImage 4 body)
        | none => M
      let w := weights
      let C := { M.cold with wx := w.extractLsb' 48 16, wm := w.extractLsb' 32 16, wv := w.extractLsb' 16 16, wi := w.extractLsb' 0 16
                             calibrated := true }
      ({ M with cold := C }.coolTo 4).threshold M.cold.t4k.toNat

/-! Sparing and keepers (R11, R12, R184). -/

/-- The physical number that a logical one has before any sparing: groups of 64 with 4 spares each. -/
def physical (l : Nat) : Nat := 68 * (l / 64) + l % 64

/-- A map entry changes, if the new place is in the group and free. -/
def respare (m : SMap Nat) (limit l p : Nat) : SMap Nat :=
  let taken := (List.range 64).any fun i =>
    let q := 64 * (l / 64) + i
    q != l && (SMap.find m q).getD (physical q) == p
  if limit ≤ l ∨ p / 68 ≠ l / 64 ∨ taken then m else if p = physical l then SMap.drop m l else SMap.put m l p

/-- SPARING_CHANGE (R11): not while a context is placed on what it affects; or the repair of a failed lane of a Dretex port, at any time
(R25). -/
def execSparingChange (kind : SpareKind) (logical phys : Nat) (s : State) : Out :=
  s.onMach fun M =>
    let used (c : Nat) : Bool := M.ctxs.any fun x => x.taken.contains c
    match kind with
    | .core => if used (logical / 8) then M else { M with cold := { M.cold with coreMap := respare M.cold.coreMap 256 logical phys } }
    | .lane => if used (logical / 64) then M else { M with cold := { M.cold with laneMap := respare M.cold.laneMap 2048 logical phys } }
    | .dretex => { M with links := { M.links with ports := setAt M.links.ports (logical % 8)
                                                   (let q := M.links.ports.getD (logical % 8) Port.reset; { q with failed := q.failed - 1 }) } }
    | .hbm => if M.ctxs.isEmpty then { M with cold := { M.cold with hbmMap := SMap.put M.cold.hbmMap logical phys } } else M

/-- KEEPER_RESTART (R12): spares take over the numbers of failed keepers, lowest first. -/
def Keepers.restart (K : Keepers) : Keepers :=
  let step (r : List Bool × Nat) (p : Bool) : List Bool × Nat := if p || r.2 == 0 then (r.1 ++ [p], r.2) else (r.1 ++ [true], r.2 - 1)
  let (present, spares) := K.present.foldl step ([], K.spares)
  { K with present, spares }

def execKeeperRestart (s : State) : Out := s.onMach fun M => { M with keepers := M.keepers.restart }


/-- The safe state (R184): every context frozen, one that runs at its next slot; the journal persisted. -/
def Mach.safeState (M : Mach) : Mach :=
  let M := M.ctxs.foldl (fun M x => match x.run with
    | .running => M.setCtx (x.request' 0x34)
    | .dwelling .. => M.freezeCtx x.slot [x.wholeStop 0x34]
    | .frozen since _ => M.setCtx { x with run := .frozen since none }
    | .loading | .starting _ | .ended => M.setCtx { x with run := .frozen M.mslot none }
    | .gone => M) M
  { M.persist with keepers := { M.keepers with bootPhase := 0xF, fstage := 0 } }.raiseVector 8

/-- KEEPER_HANDLER_FETCH_FAULT (R12, R184): pending freeze interrupts of the keeper are marked, and go to the next that is present. -/
def Mach.loseKeeper (M : Mach) (n : Nat) : Mach :=
  let K := M.keepers
  if !K.present.getD n false then M
  else
    let mark (x : Ctx) : Ctx := match x.run with
      | .frozen .. => if !x.header.ack && K.serving (ringOf x.asid) == some n then { x with header := { x.header with handlerLost := true } } else x
      | _ => x
    let M := { M with ctxs := M.ctxs.map mark, keepers := { K with present := setAt K.present n false } }
    if M.keepers.present.any id then M else M.safeState

def execKeeperHandlerFetchFault (keeper : BitVec 4) (s : State) : Out := s.onMach fun M => M.loseKeeper keeper.toNat

/-! Dretex (R24-R26, R108, R122, R230). -/

def Links.onPort (L : Links) (p : BitVec 3) (f : Port → Port) : Links :=
  { L with ports := setAt L.ports p.toNat (f (L.ports.getD p.toNat Port.reset)) }

def Mach.onLinks (M : Mach) (f : Links → Links) : Mach := { M with links := f M.links }

/-- A context whose tree has fired ends when the trees of the other replicas have (R108). -/
def Mach.replicaDone (M : Mach) (a : BitVec 8) : Mach :=
  match M.byAsid a with
  | none => M
  | some x => if x.run = .ended ∧ M.links.allArrived x none 0 then M.endCtx x 0 else M

/-- What a message that has been delivered does. -/
def Mach.deliver (M : Mach) (port : BitVec 3) (m : Msg) : Mach :=
  let queue (id : Nat) : Mach := M.onLinks fun L => { L with remote := L.remote ++ [{ id, port := port.toNat, msg := m, halted := false }] }
  match m with
  | .write _ id .. | .atomic _ id .. | .read _ id .. => queue id
  | .ack id => M.sysAck id
  | .result id bytes seen => M.sysResult id bytes seen
  | .barrier src asid b slot => M.onLinks fun L => { L with arrived := L.arrived ++ [{ src, asid, beacon := some b, slot }] }
  | .complete src asid => (M.onLinks fun L => { L with arrived := L.arrived ++ [{ src, asid, beacon := none, slot := 0 }] }).replicaDone asid
  | .hardFault id poisoned => M.sysFault id poisoned
  | .keeper _ => M

/-- One flit that has come in good order: its acknowledgements free the replay buffer, and it is taken if it is the next of its class; its message
is delivered with its last flit (R24). -/
def Mach.takeFlit (M : Mach) (p : BitVec 3) (f : Flit) : Mach :=
  let M := M.onLinks fun L => L.onPort p fun q => q.acked f.acks
  let n := SMap.get 0 (M.links.ports.getD p.toNat Port.reset).expect f.cls
  if 2 < f.cls ∨ f.seq ≠ n then M
  else
    let M := M.onLinks fun L => L.onPort p fun q => { q with expect := SMap.set 0 q.expect f.cls (n + 1) }
    (f.msg.map fun m => M.deliver p m).getD M

/-- DRETEX_FLIT_RECEIVE (R24, R25): a flit whose CRC fails is not taken; one that comes during a retrain is held. -/
def Mach.receive (M : Mach) (p : BitVec 3) (f : Flit) : Mach :=
  if crc32c (toBytes 252 f.payload.toNat) ≠ f.crc then M
  else if (M.links.ports.getD p.toNat Port.reset).retraining then
    M.onLinks fun L => L.onPort p fun q => { q with heldIn := q.heldIn ++ [f] }
  else M.takeFlit p f

def execDretexFlitReceive (port : BitVec 3) (flit : Flit) (s : State) : Out := s.onMach fun M => M.receive port flit

/-- DRETEX_REPLAY_TIMEOUT (R24): the flits of a sequence number that stand in the replay buffer are sent again. -/
def Port.resend (q : Port) (seq : Nat) : Port :=
  if q.retraining then q else { q with wire := q.wire ++ q.replay.filter fun f => f.seq == seq }

def execDretexReplayTimeout (port : BitVec 3) (seq : Nat) (s : State) : Out := s.onMach fun M => M.onLinks fun L => L.onPort port fun q => q.resend seq

def Mach.tellKeepers (M : Mach) (e : LinkEvent) : Mach := { M with keepers := { M.keepers with linkLog := M.keepers.linkLog ++ [e] } }

/-- DRETEX_LANE_FAILURE (R25): the first makes the port retrain onto its spare; after the second it runs at 15 lanes. It is reported. -/
def execDretexLaneFailure (port : BitVec 3) (s : State) : Out :=
  s.onMach fun M => (M.onLinks fun L => L.onPort port fun q =>
    { q with failed := q.failed + 1, retraining := q.retraining || q.failed == 0 }).tellKeepers (.laneFailed port.toNat)

/-- DRETEX_RETRAIN_COMPLETE (R25): held flits flow, those that came in the order in which they came, and the keepers are told. -/
def Mach.retrained (M : Mach) (p : BitVec 3) : Mach :=
  let q := M.links.ports.getD p.toNat Port.reset
  if !q.retraining then M
  else
    let M := M.onLinks fun L => L.onPort p fun q => { q with retraining := false, heldIn := [] }.refill
    (q.heldIn.foldl (fun M f => M.takeFlit p f) M).tellKeepers (.retrained p.toNat)

def execDretexRetrainComplete (port : BitVec 3) (s : State) : Out := s.onMach fun M => M.retrained port

/-! The drives (R29, R35, R36). -/

/-- NVME_DRIVE_LOST (R29): reported in module status. -/
def Mach.loseDrive (M : Mach) (d : Nat) : Mach :=
  let K := M.keepers
  let K := { K with lost := setAt K.lost d true, bootPhase := if K.bootPhase = 4 then 0xE else K.bootPhase }
  { M with keepers := K }.raiseVector 8

def execNvmeDriveLost (drive : BitVec 1) (s : State) : Out := s.onMach fun M => M.loseDrive drive.toNat

end Sys2Proof.Machine
end

