-- ==== Sys2Proof/Machine/Dispatch.lean ====
section
/-! DEFINITION. One arm for each constructor of Instr. -/

namespace Sys2Proof.Machine

def exec (i : Instr) (s : State) : Host.Outcome State Fault Refusal :=
  match i with
  | .nop g => Sys2Proof.Machine.execNop g s
  | .alu g rd ra rb p fn => Sys2Proof.Machine.execAlu g rd ra rb p fn s
  | .muldiv g rd ra rb p fn => Sys2Proof.Machine.execMuldiv g rd ra rb p fn s
  | .alui g rd ra fn imm => Sys2Proof.Machine.execAlui g rd ra fn imm s
  | .lih g rd imm => Sys2Proof.Machine.execLih g rd imm s
  | .pcmp g pd ra rb cond => Sys2Proof.Machine.execPcmp g pd ra rb cond s
  | .plog g pd op pa pb => Sys2Proof.Machine.execPlog g pd op pa pb s
  | .ldc g rd ra size imm => Sys2Proof.Machine.execLdc g rd ra size imm s
  | .ldp g rd ra size imm => Sys2Proof.Machine.execLdp g rd ra size imm s
  | .stc g p rs ra wd imm => Sys2Proof.Machine.execStc g p rs ra wd imm s
  | .stp g p rs ra wd imm => Sys2Proof.Machine.execStp g p rs ra wd imm s
  | .wld g m ra wd acq scope imm => Sys2Proof.Machine.execWld g m ra wd acq scope imm s
  | .wst g p rs ra wd rel scope imm => Sys2Proof.Machine.execWst g p rs ra wd rel scope imm s
  | .mmv g rd m p => Sys2Proof.Machine.execMmv g rd m p s
  | .amo g m ra rb op scope order dbl => Sys2Proof.Machine.execAmo g m ra rb op scope order dbl s
  | .amocas g m ra rb scope order dbl => Sys2Proof.Machine.execAmocas g m ra rb scope order dbl s
  | .amof g m ra rb op scope order dbl => Sys2Proof.Machine.execAmof g m ra rb op scope order dbl s
  | .b g ra rb cond off => Sys2Proof.Machine.execB g ra rb cond off s
  | .j g off => Sys2Proof.Machine.execJ g off s
  | .jal g rd off => Sys2Proof.Machine.execJal g rd off s
  | .jalr g rd ra imm => Sys2Proof.Machine.execJalr g rd ra imm s
  | .loopImm g count n => Sys2Proof.Machine.execLoopImm g count n s
  | .loopLc g lc n => Sys2Proof.Machine.execLoopLc g lc n s
  | .lcsetReg g r lc => Sys2Proof.Machine.execLcsetReg g r lc s
  | .lcsetImm g lc imm => Sys2Proof.Machine.execLcsetImm g lc imm s
  | .gapl g f => Sys2Proof.Machine.execGapl g f s
  | .fence g kind scope => Sys2Proof.Machine.execFence g kind scope s
  | .wait g r kind tc imm => Sys2Proof.Machine.execWait g r kind tc imm s
  | .bar g beacon => Sys2Proof.Machine.execBar g beacon s
  | .tokPost g cell => Sys2Proof.Machine.execTokPost g cell s
  | .tokExpect g cell d => Sys2Proof.Machine.execTokExpect g cell d s
  | .align g k c => Sys2Proof.Machine.execAlign g k c s
  | .ckpt g tab => Sys2Proof.Machine.execCkpt g tab s
  | .ckptOvl g ovl tab => Sys2Proof.Machine.execCkptOvl g ovl tab s
  | .sethImm g h tid => Sys2Proof.Machine.execSethImm g h tid s
  | .sethReg g h ra => Sys2Proof.Machine.execSethReg g h ra s
  | .spat g pat ra imm => Sys2Proof.Machine.execSpat g pat ra imm s
  | .srd g r num => Sys2Proof.Machine.execSrd g r num s
  | .swr g r num => Sys2Proof.Machine.execSwr g r num s
  | .trap g n => Sys2Proof.Machine.execTrap g n s
  | .halt g => Sys2Proof.Machine.execHalt g s
  | .varith g vd sa sb sc k fmt fn => Sys2Proof.Machine.execVarith g vd sa sb sc k fmt fn s
  | .vlogic g vd sa sb k fmt fn => Sys2Proof.Machine.execVlogic g vd sa sb k fmt fn s
  | .vcmp g kd sa sb k fmt fn => Sys2Proof.Machine.execVcmp g kd sa sb k fmt fn s
  | .vsel g vd sa sb k fmt => Sys2Proof.Machine.execVsel g vd sa sb k fmt s
  | .vcvt g vd sa src dst rnd sat k pos => Sys2Proof.Machine.execVcvt g vd sa src dst rnd sat k pos s
  | .vnarrow g vd a int dst rnd sat k pos => Sys2Proof.Machine.execVnarrow g vd a int dst rnd sat k pos s
  | .vsfu g vd sa k fmt fn => Sys2Proof.Machine.execVsfu g vd sa k fmt fn s
  | .vrot g vd sa axis amount k fmt => Sys2Proof.Machine.execVrot g vd sa axis amount k fmt s
  | .vbc g vd sa axis amount k fmt => Sys2Proof.Machine.execVbc g vd sa axis amount k fmt s
  | .vred g vd sa axis k fmt => Sys2Proof.Machine.execVred g vd sa axis k fmt s
  | .vld g v h gy gx k sp => Sys2Proof.Machine.execVld g v h gy gx k sp s
  | .vst g v h gy gx k sp => Sys2Proof.Machine.execVst g v h gy gx k sp s
  | .vgath g v h gy gx k sp => Sys2Proof.Machine.execVgath g v h gy gx k sp s
  | .vsplat g vd r k dbl => Sys2Proof.Machine.execVsplat g vd r k dbl s
  | .vput g v port k => Sys2Proof.Machine.execVput g v port k s
  | .vpop g v port k => Sys2Proof.Machine.execVpop g v port k s
  | .ksetBox g kd ncol nrow => Sys2Proof.Machine.execKsetBox g kd ncol nrow s
  | .ksetReg g kd r => Sys2Proof.Machine.execKsetReg g kd r s
  | .klog g kd ka kb op => Sys2Proof.Machine.execKlog g kd ka kb op s
  | .vloopImm g count n => Sys2Proof.Machine.execVloopImm g count n s
  | .vloopLc g lc n => Sys2Proof.Machine.execVloopLc g lc n s
  | .vgap g f => Sys2Proof.Machine.execVgap g f s
  | .vtkPost g cell => Sys2Proof.Machine.execVtkPost g cell s
  | .vtkExpect g cell d => Sys2Proof.Machine.execVtkExpect g cell d s
  | .tcfg g m n k fa fw => Sys2Proof.Machine.execTcfg g m n k fa fw s
  | .ldsw g src gy gx => Sys2Proof.Machine.execLdsw g src gy gx s
  | .swap g => Sys2Proof.Machine.execSwap g s
  | .mma g src ad acc gy gx ovr m => Sys2Proof.Machine.execMma g src ad acc gy gx ovr m s
  | .mzero g ad => Sys2Proof.Machine.execMzero g ad s
  | .mread g a port dst rnd sat first rows => Sys2Proof.Machine.execMread g a port dst rnd sat first rows s
  | .mscl g h gy gx => Sys2Proof.Machine.execMscl g h gy gx s
  | .mloopImm g count n => Sys2Proof.Machine.execMloopImm g count n s
  | .mloopLc g lc n => Sys2Proof.Machine.execMloopLc g lc n s
  | .mgap g f => Sys2Proof.Machine.execMgap g f s
  | .mtkPost g cell => Sys2Proof.Machine.execMtkPost g cell s
  | .mtkExpect g cell d => Sys2Proof.Machine.execMtkExpect g cell d s
  | .xbind g port pat tc len gx gy out => Sys2Proof.Machine.execXbind g port pat tc len gx gy out s
  | .xfree g port out => Sys2Proof.Machine.execXfree g port out s
  | .xmode g idx => Sys2Proof.Machine.execXmode g idx s
  | .xin g pat tc sp off => Sys2Proof.Machine.execXin g pat tc sp off s
  | .xout g pat tc sp off => Sys2Proof.Machine.execXout g pat tc sp off s
  | .xcmv g pat tc sp off => Sys2Proof.Machine.execXcmv g pat tc sp off s
  | .xpref g src tc routine down => Sys2Proof.Machine.execXpref g src tc routine down s
  | .xcopy g src dst tc routine flags => Sys2Proof.Machine.execXcopy g src dst tc routine flags s
  | .xded g src dst tc routine flags => Sys2Proof.Machine.execXded g src dst tc routine flags s
  | .xpost g tc => Sys2Proof.Machine.execXpost g tc s
  | .xloopImm g count n => Sys2Proof.Machine.execXloopImm g count n s
  | .xloopLc g lc n => Sys2Proof.Machine.execXloopLc g lc n s
  | .xgap g f => Sys2Proof.Machine.execXgap g f s
  | .xtkPost g cell => Sys2Proof.Machine.execXtkPost g cell s
  | .xtkExpect g cell d => Sys2Proof.Machine.execXtkExpect g cell d s
  | .qtailWrite q lane v => Sys2Proof.Machine.execQtailWrite q lane v s
  | .qbaseWrite q lane v => Sys2Proof.Machine.execQbaseWrite q lane v s
  | .qcfgWrite q lane v => Sys2Proof.Machine.execQcfgWrite q lane v s
  | .qstatOvrClear q lane v => Sys2Proof.Machine.execQstatOvrClear q lane v s
  | .w2baseWrite lane v => Sys2Proof.Machine.execW2baseWrite lane v s
  | .w2discClear lane v => Sys2Proof.Machine.execW2discClear lane v s
  | .registerWrite off lane v => Sys2Proof.Machine.execRegisterWrite off lane v s
  | .bar0UnsupportedAccess read off size => Sys2Proof.Machine.execBar0UnsupportedAccess read off size s
  | .bar2Read off len => Sys2Proof.Machine.execBar2Read off len s
  | .bar2Write off bytes => Sys2Proof.Machine.execBar2Write off bytes s
  | .illegalCommand q => Sys2Proof.Machine.execIllegalCommand q s
  | .launch q => Sys2Proof.Machine.execLaunch q s
  | .map q frames => Sys2Proof.Machine.execMap q frames s
  | .unmap q => Sys2Proof.Machine.execUnmap q s
  | .migrate q frames => Sys2Proof.Machine.execMigrate q frames s
  | .copyin q => Sys2Proof.Machine.execCopyin q s
  | .copyout q => Sys2Proof.Machine.execCopyout q s
  | .signal q => Sys2Proof.Machine.execSignal q s
  | .abort q => Sys2Proof.Machine.execAbort q s
  | .quote q => Sys2Proof.Machine.execQuote q s
  | .rstepWin q => Sys2Proof.Machine.execRstepWin q s
  | .rstepSlot q => Sys2Proof.Machine.execRstepSlot q s
  | .rstepWrite q => Sys2Proof.Machine.execRstepWrite q s
  | .watch q => Sys2Proof.Machine.execWatch q s
  | .trace q => Sys2Proof.Machine.execTrace q s
  | .account q => Sys2Proof.Machine.execAccount q s
  | .resume q => Sys2Proof.Machine.execResume q s
  | .commandStart seq frames => Sys2Proof.Machine.execCommandStart seq frames s
  | .launchEnqueue seq => Sys2Proof.Machine.execLaunchEnqueue seq s
  | .commandEnd seq => Sys2Proof.Machine.execCommandEnd seq s
  | .journalPersist => Sys2Proof.Machine.execJournalPersist s
  | .moduleReset => Sys2Proof.Machine.execModuleReset s
  | .bootPhase kheap => Sys2Proof.Machine.execBootPhase kheap s
  | .routineLoad img => Sys2Proof.Machine.execRoutineLoad img s
  | .quoteRequestMgmt nonce => Sys2Proof.Machine.execQuoteRequestMgmt nonce s
  | .clockCorrection offset => Sys2Proof.Machine.execClockCorrection offset s
  | .keeperStartCommand => Sys2Proof.Machine.execKeeperStartCommand s
  | .keeperStopCommand => Sys2Proof.Machine.execKeeperStopCommand s
  | .temperatureMeasurement t4k t40k => Sys2Proof.Machine.execTemperatureMeasurement t4k t40k s
  | .soakTimeout => Sys2Proof.Machine.execSoakTimeout s
  | .holdTimeout => Sys2Proof.Machine.execHoldTimeout s
  | .calibrationDone passed data weights => Sys2Proof.Machine.execCalibrationDone passed data weights s
  | .sparingChange kind logical physical => Sys2Proof.Machine.execSparingChange kind logical physical s
  | .keeperRestart => Sys2Proof.Machine.execKeeperRestart s
  | .keeperHandlerFetchFault keeper => Sys2Proof.Machine.execKeeperHandlerFetchFault keeper s
  | .dretexFlitReceive port flit => Sys2Proof.Machine.execDretexFlitReceive port flit s
  | .dretexReplayTimeout port seq => Sys2Proof.Machine.execDretexReplayTimeout port seq s
  | .dretexLaneFailure port => Sys2Proof.Machine.execDretexLaneFailure port s
  | .dretexRetrainComplete port => Sys2Proof.Machine.execDretexRetrainComplete port s
  | .launchAging => Sys2Proof.Machine.execLaunchAging s
  | .undoRingAllocate frames => Sys2Proof.Machine.execUndoRingAllocate frames s
  | .launchPlace => Sys2Proof.Machine.execLaunchPlace s
  | .codeLoad k bases frames => Sys2Proof.Machine.execCodeLoad k bases frames s
  | .contextStart k => Sys2Proof.Machine.execContextStart k s
  | .serialIterationStart k => Sys2Proof.Machine.execSerialIterationStart k s
  | .haltRetire k j => Sys2Proof.Machine.execHaltRetire k j s
  | .resultLanding k j => Sys2Proof.Machine.execResultLanding k j s
  | .wheelPoint k => Sys2Proof.Machine.execWheelPoint k s
  | .heatEvaluation => Sys2Proof.Machine.execHeatEvaluation s
  | .barrierRelease k beacon inst => Sys2Proof.Machine.execBarrierRelease k beacon inst s
  | .systemBarrierArrivals k beacon => Sys2Proof.Machine.execSystemBarrierArrivals k beacon s
  | .checkpointHoldEnd k => Sys2Proof.Machine.execCheckpointHoldEnd k s
  | .checkpointOverdue k => Sys2Proof.Machine.execCheckpointOverdue k s
  | .thawWrite k w => Sys2Proof.Machine.execThawWrite k w s
  | .freezeAckWrite k v => Sys2Proof.Machine.execFreezeAckWrite k v s
  | .contextResume k => Sys2Proof.Machine.execContextResume k s
  | .serviceTrapService k => Sys2Proof.Machine.execServiceTrapService k s
  | .preemptSave k => Sys2Proof.Machine.execPreemptSave k s
  | .restore asid => Sys2Proof.Machine.execRestore asid s
  | .dumpClose k => Sys2Proof.Machine.execDumpClose k s
  | .retainSpill k => Sys2Proof.Machine.execRetainSpill k s
  | .softError k j => Sys2Proof.Machine.execSoftError k j s
  | .warmAccessPerform k id => Sys2Proof.Machine.execWarmAccessPerform k id s
  | .frconsWrite ring w => Sys2Proof.Machine.execFrconsWrite ring w s
  | .frbaseWrite ring v => Sys2Proof.Machine.execFrbaseWrite ring v s
  | .lightFaultService ring frames => Sys2Proof.Machine.execLightFaultService ring frames s
  | .tlbinvWrite v => Sys2Proof.Machine.execTlbinvWrite v s
  | .markerRetire source => Sys2Proof.Machine.execMarkerRetire source s
  | .moveComplete asid vpn => Sys2Proof.Machine.execMoveComplete asid vpn s
  | .moveError asid vpn err => Sys2Proof.Machine.execMoveError asid vpn err s
  | .eccUncorrectable frame => Sys2Proof.Machine.execEccUncorrectable frame s
  | .xprefPost k id => Sys2Proof.Machine.execXprefPost k id s
  | .inboundRowIssue k j port => Sys2Proof.Machine.execInboundRowIssue k j port s
  | .inboundRowReady k j port => Sys2Proof.Machine.execInboundRowReady k j port s
  | .outboundRowApply k id => Sys2Proof.Machine.execOutboundRowApply k id s
  | .xinGranuleLanding k id => Sys2Proof.Machine.execXinGranuleLanding k id s
  | .xoutApply k id => Sys2Proof.Machine.execXoutApply k id s
  | .meshLanding k id => Sys2Proof.Machine.execMeshLanding k id s
  | .mailboxLanding k id => Sys2Proof.Machine.execMailboxLanding k id s
  | .systemResultArrival id bytes seen => Sys2Proof.Machine.execSystemResultArrival id bytes seen s
  | .remoteApply id => Sys2Proof.Machine.execRemoteApply id s
  | .systemAcknowledge id => Sys2Proof.Machine.execSystemAcknowledge id s
  | .copyCommandStart k id => Sys2Proof.Machine.execCopyCommandStart k id s
  | .copyCommandPost k id => Sys2Proof.Machine.execCopyCommandPost k id s
  | .routineComplete k id => Sys2Proof.Machine.execRoutineComplete k id s
  | .dedupRemapService k id => Sys2Proof.Machine.execDedupRemapService k id s
  | .watchImpreciseFreeze k => Sys2Proof.Machine.execWatchImpreciseFreeze k s
  | .nvmeDriveLost drive => Sys2Proof.Machine.execNvmeDriveLost drive s
  | .ptpLock locked => Sys2Proof.Machine.execPtpLock locked s

end Sys2Proof.Machine
end

