-- ==== Sys2Proof/Machine/Issue.lean ====
section
/-! DEFINITION. The word that issues, and how one is placed for the next step (R112, R140, R303). -/

namespace Sys2Proof.Machine

/-- The stream takes a pending transfer whose window has ended (R303), before its word is fetched. -/
def Mach.fetchAt (M : Mach) (k j : Nat) (st : Stream) : Mach :=
  M.onCtx k fun x => if x.moves then x.onCore j fun c => c.setStream st ((c.stream st).redirect x.cslot) else x

/-- The context, core, index and word that stream `st` of core `j` issues; none once the context has stopped within the slot. -/
def Mach.wordAt (M : Mach) (k j : Nat) (st : Stream) : Option (Ctx × Core × Nat × W32) :=
  match M.ctx? k with
  | none => none
  | some x => match x.core? j with
    | none => none
    | some c => if x.moves then some (x, c, (c.stream st).pc, (c.stream st).word (c.stream st).pc) else none

/-- The issue has ended. -/
def State.settled (s : State) : State := { s with cur := none }

/-- A cause that comes before any instruction: an index beyond the store, or a word that decodes to nothing (R140, R172). -/
def State.badWord (s : State) (i : Issue) (lid code : Nat) : State := s.raise i lid { code, detail := 0, port := 0 }

/-- What issues: the state with the transfer taken, and the instruction with its place, if there is one. -/
def State.fetch (s : State) (k j : Nat) (st : Stream) : State × Option (Issue × Instr) :=
  let s := { s with now := s.now.fetchAt k j st }
  match s.now.wordAt k j st with
  | none => (s, none)
  | some (_, c, pc, word) =>
    let i : Issue := { k, j, st, word }
    if 4096 ≤ pc then (s.badWord i c.id 0x12, none)
    else match decode st word with
      | none => (s.badWord i c.id 0x10, none)
      | some ins => ({ s with cur := some i }, some (i, ins))

/-! A place for one word (log 13). -/

/-- The record of the context of `State.withFetchWord`: version 1, one cluster, one level of one core. -/
def benchRecord : BitVec 4096 := BitVec.ofNat 4096 (1 + 2 ^ 24 + 2 ^ 32 + (1 + 2 ^ 32) * 2 ^ (8 * 0x0C0))

/-- A context of one core that runs, at CSLOT 0. -/
def Ctx.bench (mslot : Nat) : Ctx :=
  let x : Ctx := { Ctx.new 0 1 benchRecord 0 [0] with run := .running, origin := mslot }
  { x with cores := x.cores.map x.startCore }

/-- The machine with a running context in slot 0 that has a core 0. -/
def Mach.withBench (M : Mach) : Mach :=
  match (M.ctx? 0).bind fun x => x.core? 0 with
  | some _ => M.onCtx 0 fun x => { x with run := .running }
  | none => { M with ctxs := Ctx.bench M.mslot :: M.ctxs.filter fun x => x.slot != 0 }

/-- A word at the index that a stream issues next. -/
def StreamSt.place (q : StreamSt) (w : W32) : StreamSt :=
  { q with pc := q.pc % 4096, store := SMap.set 0 q.store (q.pc % 4096) w, xfer := none }

/-- The word of a table row where the next step issues it. -/
def State.placeWord (s : State) (w : W32) : State :=
  let st := tableStream w
  let M := s.now.withBench.onCtx 0 fun x => x.onCore 0 fun c => c.setStream st ((c.stream st).place w)
  { s with now := M, todo := [.issue 0 0 st] }

end Sys2Proof.Machine
end

