-- ==== Sys2Proof/Machine/Step.lean ====
section
/-! DEFINITION. One micro-step of the machine: the next thing that is left to do in the present MSLOT. -/

namespace Sys2Proof.Machine

/-- One stream of one core issues a word. -/
def issueStep (s : State) (k j : Nat) (st : Stream) : Host.Outcome State Fault Refusal :=
  match s.fetch k j st with
  | (t, none) => .next t
  | (t, some (_, ins)) => match exec ins t with
    | .next u => .next u.settled
    | .fault r => .fault r
    | .refused r => .refused r

/-- A read through BAR2 with the window base that stood when it arrived (R22). -/
def hostReadStep (s : State) (base : BitVec 11) (i : Instr) : Host.Outcome State Fault Refusal :=
  let through (s : State) (base : BitVec 11) : State := { s with now := { s.now with host := { s.now.host with w2base := base } } }
  match exec i (through s base) with
  | .next t => .next (through t s.now.host.w2base)
  | o => o

/-- One task. -/
def taskStep (s : State) (t : Task) : Host.Outcome State Fault Refusal :=
  match t with
  | .globals => .next s.globals
  | .resumes => .next s.resumes
  | .slots => .next s.slots
  | .arrivals => .next s.arrivals
  | .agents => .next s.agents
  | .hostRead base i => hostReadStep s base i
  | .advance => .next { s with now := s.now.advance }
  | .event i => exec i s
  | .openSlot k => .next (s.openSlot k)
  | .homes k => .next (s.homes k)
  | .landings k => .next (s.landings k)
  | .issues k => .next (s.issues k)
  | .issue k j st => issueStep s k j st
  | .rows k => .next (s.rowStage k)
  | .close k => .next (s.close k)
  | .reads k => .next (s.reads k)
  | .commit k => .next (s.commit k)

def step (s : State) : Host.Outcome State Fault Refusal :=
  match s.todo with
  | [] => .next { s with todo := [.globals, .resumes, .slots, .advance] }
  | t :: r => taskStep { s with todo := r } t

/-- The state with one word of the opcode table where the next step issues it (log 7, 13). A word is 32 bits. -/
def State.withFetchWord (s : State) (nbits w : Nat) : State := if nbits ≤ 32 then s.placeWord (BitVec.ofNat 32 w) else s

end Sys2Proof.Machine
end

