-- ==== Sys2Proof/Safety.lean ====
section
/-! DEFINITION. The terms in which claims are stated: a word that is issuing, what a byte of each memory holds, what an issue leaves
alone, the integer form of the arithmetic of the manual, and the states from which every step is taken. -/

namespace Sys2Proof.Machine

/-! The issue of a word. -/

/-- Word `i` is issuing in `s`: its context is `x` and its core `c`, which stands at its own place among the context's cores (R97). -/
structure State.Issuing (s : State) (i : Issue) (x : Ctx) (c : Core) : Prop where
  cur : s.cur = some i
  ctx : s.now.ctx? i.k = some x
  core : x.core? i.j = some c
  idx : c.idx = i.j

/-- The context in slot `k` of `t` is `y`, and its core `j` is `d`. -/
structure State.Holds (t : State) (k j : Nat) (y : Ctx) (d : Core) : Prop where
  ctx : t.now.ctx? k = some y
  core : y.core? j = some d

/-- The word is executed: the machine goes on, its context stands at the same slot with every cause of stopping as before, the stream
of the word is `q`, and `post` holds of the context and the core. -/
def Proceeds (s : State) (ins : Instr) (i : Issue) (x : Ctx) (q : StreamSt) (post : Ctx → Core → Prop) : Prop :=
  ∃ t y d, exec ins s = .next t ∧ t.causes = s.causes ∧ t.dwell = s.dwell ∧ t.Holds i.k i.j y d ∧ y.cslot = x.cslot
    ∧ d.stream i.st = q ∧ post y d

/-- The word completes: it is executed, and its stream has passed it with the successor's GAP counting from `ready` (R112, R308). -/
def Completes (s : State) (ins : Instr) (i : Issue) (x : Ctx) (c : Core) (ready : Nat) (post : Ctx → Core → Prop) : Prop :=
  Proceeds s ins i x ((c.stream i.st).step ready) post

/-- A whole result that lands in `dst` at slot `land` (R176). -/
def result (dst : Dest) (st : Stream) (issue land : Nat) (v : BitVec 4096) : Pend :=
  { dst, land, issue, stream := st, mask := BitVec.allOnes 64, fine := none, value := v, flags := 0, acc := .set }

/-- The word completes by planning the results `ps`: no register changes at its issue (R115, R290). -/
def Plans (s : State) (ins : Instr) (i : Issue) (x : Ctx) (c : Core) (ps : List Pend) : Prop :=
  Completes s ins i x c (x.cslot + 1) fun _ d => d.pend = c.pend ++ ps ∧ d.regs = c.regs

/-- The result of a scalar word, `lat` slots after its issue; none where the guard reads 0 (R290). -/
def scalarResult (guard : Bool) (dst : Dest) (t lat : Nat) (v : W64) : List Pend :=
  if guard then [result dst .s t (t + lat) (v.setWidth 4096)] else []

/-- The word does not complete: it records cause `code` with `detail`, and changes nothing else (R127, R172). -/
def Stops (s : State) (ins : Instr) (i : Issue) (c : Core) (code : Nat) (detail : W64) (port : Nat) : Prop :=
  exec ins s = .next { s with causes := s.causes ++ [{ core := i.j, lid := c.id, code, stream := rank i.st, word := i.word, port, detail }] }

/-- The word does not complete for two slips at once: it records both, the lower code first, and changes nothing else (R128). -/
def StopsTwice (s : State) (ins : Instr) (i : Issue) (c : Core) (code : Nat) (detail : W64) (code' : Nat) (detail' : W64) : Prop :=
  exec ins s = .next { s with causes := s.causes
    ++ [{ core := i.j, lid := c.id, code, stream := rank i.st, word := i.word, port := 0, detail }]
    ++ [{ core := i.j, lid := c.id, code := code', stream := rank i.st, word := i.word, port := 0, detail := detail' }] }

/-- A word that needs a unit and a range of cold storage: it records the slip of each that is in use (R118, R128, R151). -/
def UnitSlips (s : State) (ins : Instr) (i : Issue) (c : Core) (busy clash : Prop) (lo : Nat) : Prop :=
  (busy → ¬clash → Stops s ins i c 6 0 0) ∧ (¬busy → clash → Stops s ins i c 5 (BitVec.ofNat 64 lo) 0)
    ∧ (busy → clash → StopsTwice s ins i c 5 (BitVec.ofNat 64 lo) 6 0)

/-! Memory, byte by byte. -/

/-- Core `j` of the context in slot `k`. -/
def State.coreOf (s : State) (k j : Nat) : Option Core := (s.now.ctx? k).bind fun x => x.core? j

/-- A byte of the cold bank of core `j` of the context in slot `k`. -/
def State.coldByte (s : State) (k j a : Nat) : Byte := ((s.coreOf k j).map fun c => c.cold.byte a).getD 0

/-- A byte of the pool of cluster `n` of the context in slot `k`. -/
def State.poolByte (s : State) (k n a : Nat) : Byte := ((s.now.ctx? k).map fun x => (x.pools.getD n []).byte a).getD 0

/-- A byte of HBM or of the deep tier, by physical address. -/
def State.warmByte (s : State) (a : Nat) : Byte := s.now.warm.mem.byte a

/-- A byte of the entry of a leaf, in the tables of some address space (R74, R77). -/
def Warm.leafByte (W : Warm) (a : Nat) : Prop := ∃ s ∈ W.spaces, ∃ p ∈ s.ptes, ∃ e, s.entry p.level p.va = some e ∧ e ≤ a ∧ a < e + 8

/-- A byte of the entry of a leaf or of a pointer. -/
def Warm.tableByte (W : Warm) (a : Nat) : Prop :=
  W.leafByte a ∨ ∃ s ∈ W.spaces, ∃ t ∈ s.tabs, ∃ e, s.entry (t.1 - 1) t.2.1 = some e ∧ e ≤ a ∧ a < e + 8

/-- Warm memory is as it was, but for the entries of the leaves that stood in `W`. -/
def Warm.SameButLeaves (W W' : Warm) : Prop := ∀ a, ¬W.leafByte a → W'.mem.byte a = W.mem.byte a

/-- A byte of host memory. -/
def State.hostByte (s : State) (a : Nat) : Byte := s.now.host.memory.byte a

/-- No byte of any memory differs. -/
structure SameMemory (s t : State) : Prop where
  cold : ∀ k j a, t.coldByte k j a = s.coldByte k j a
  pool : ∀ k n a, t.poolByte k n a = s.poolByte k n a
  warm : ∀ a, t.warmByte a = s.warmByte a
  host : ∀ a, t.hostByte a = s.hostByte a

/-! Frames. -/

/-- Nothing of the module changes but the context in slot `k`, and nothing of that context's other cores. -/
structure SameElsewhere (s t : State) (k j : Nat) : Prop where
  module : { t.now with ctxs := [] } = { s.now with ctxs := [] }
  contexts : ∀ l, l ≠ k → t.now.ctx? l = s.now.ctx? l
  cores : ∀ l, l ≠ j → t.coreOf k l = s.coreOf k l

/-- What a core holds for a program: its registers, planes, ports, cold bank and freeze record. -/
structure SameArchitecture (c d : Core) : Prop where
  regs : d.regs = c.regs
  mat : d.mat = c.mat
  inb : d.inb = c.inb
  outb : d.outb = c.outb
  cold : d.cold = c.cold
  record : d.record = c.record
  identity : d.id = c.id ∧ d.idx = c.idx ∧ d.idle = c.idle

/-- What a context holds beside its cores and its accesses: its place, record, code, pools, tensors, windows, logs and header. -/
structure SameContext (x y : Ctx) : Prop where
  place : y.slot = x.slot ∧ y.asid = x.asid ∧ y.record = x.record ∧ y.origin = x.origin ∧ y.cslot = x.cslot ∧ y.run = x.run
  code : y.code = x.code
  pools : y.pools = x.pools
  tdt : y.tdt = x.tdt
  win : y.win = x.win ∧ y.windows = x.windows
  logs : y.coldLog = x.coldLog ∧ y.warmLog = x.warmLog
  header : y.header = x.header
  heat : y.heat = x.heat

/-! What the words of several streams have in common. -/

/-- The count and the length of a loop word (R308, R363, R381). -/
def loopParts (c : Core) : Instr → Option (Nat × Nat)
  | .loopImm _ k n | .vloopImm _ k n | .mloopImm _ k n | .xloopImm _ k n => some (k.toNat + 1, n.toNat)
  | .loopLc _ l n | .vloopLc _ l n | .mloopLc _ l n | .xloopLc _ l n => some ((c.lc l).toNat, n.toNat)
  | _ => none

/-- The length of a gap word (R113, R312). -/
def gapLength : Instr → Option Nat
  | .gapl _ f | .vgap _ f | .mgap _ f | .xgap _ f => some f.toNat
  | _ => none

/-- The cell of a word that posts a token (R326, R363, R381). -/
def postedCell : Instr → Option Nat
  | .tokPost _ n | .vtkPost _ n | .mtkPost _ n | .xtkPost _ n => some n.toNat
  | _ => none

/-- The cell and the distance of a word that expects a token. -/
def expectedCell : Instr → Option (Nat × Nat)
  | .tokExpect _ n d | .vtkExpect _ n d | .mtkExpect _ n d | .xtkExpect _ n d => some (n.toNat, d.toNat)
  | _ => none

/-- The slot at which the word `n` places after the next one issues, if a transfer issues at slot `t` and none after it (R112, R113,
R132). -/
def windowSlot (q : StreamSt) (t : Nat) : Nat → Nat
  | 0 => t + 1 + gapOf (q.word (q.pc + 1))
  | n + 1 => windowSlot q t n + 1 + silence (q.word (q.pc + 1 + n)) (windowSlot q t n) + gapOf (q.word (q.pc + 1 + (n + 1)))

/-- A scalar warm access of core `c` to address `a` (R219, R313-R316): with 2,048 requests outstanding it slips; an address that is no
warm address, or names no module of the launch, is a range fault, which stops the context in the next slot, and is reported unless the
queue has a report already (R87); otherwise the request enters
the scalar queue of its context, and `post` holds of it. -/
def Accesses (s : State) (ins : Instr) (i : Issue) (x : Ctx) (c : Core) (sys : Bool) (a n : Nat) (act : Act) (use : Use)
    (post : Core → Req → Prop) : Prop :=
  let ok := if sys then a < 2 ^ 53 ∧ (a / 2 ^ 48 = Config.self.toNat ∨ (x.field 0x05C 4).testBit (a / 2 ^ 48) = true) else a < 2 ^ 48
  (2048 ≤ x.outstanding i.j → Stops s ins i c 10 0 0)
  ∧ (x.outstanding i.j < 2048 → ¬ ok → Completes s ins i x c (x.cslot + 1) fun y d => SameArchitecture c d ∧ y.reqs = x.reqs
      ∧ y.stops = x.stops ++ [{ slot := x.cslot + 1, cause := { core := i.j, lid := c.id, code := 0x1E, stream := 4, word := i.word, port := 0
                                                                detail := BitVec.ofNat 64 a } }]
      ∧ ((∃ r ∈ x.reqs, r.core = i.j ∧ r.queue = 12 ∧ r.held = true) → y.reports = x.reports)
      ∧ ((∀ r ∈ x.reqs, r.core = i.j → r.queue = 12 → r.held = false) → ∃ r, y.reports = x.reports ++ [r] ∧ r.kind = 12 ∧ r.addr = a
          ∧ r.asid = x.asid ∧ r.write = (act != .read) ∧ r.cslot = x.cslot))
  ∧ (x.outstanding i.j < 2048 → ok → Completes s ins i x c (x.cslot + 1) fun y d => ∃ q, y.reqs = x.reqs ++ [q]
      ∧ (q.id = x.nextReq ∧ y.nextReq = x.nextReq + 1) ∧ (q.core = i.j ∧ q.queue = 12 ∧ q.act = act ∧ q.use = use ∧ q.sys = sys)
      ∧ (q.elems = [(0, 8 * a)] ∧ q.width = 8 * n) ∧ (q.issue = x.cslot ∧ q.performed = false ∧ q.word = i.word)
      ∧ (d.cold = c.cold ∧ d.mat = c.mat ∧ d.inb = c.inb ∧ d.outb = c.outb ∧ d.pend = c.pend) ∧ post d q)

/-- What an access `q` of core `c` of `x` must follow, as it enters (R222-R224, R231, R232): earlier acquires, what the fences before it
name, and, for a release, every earlier access and copy command, none of them performed; and, at system scope, until they have landed,
earlier system acquires and what fences at that scope name. -/
structure Ordered (x : Ctx) (c : Core) (q : Req) : Prop where
  after : ∀ n, n ∈ q.after ↔ n ≠ q.id ∧ x.pendingId n = true ∧
    ((∃ r ∈ x.reqs, r.id = n ∧ r.core = c.idx ∧ r.performed = false ∧ r.issue ≤ x.cslot ∧ (r.acquire = true ∨ q.release = true))
      ∨ (q.release = true ∧ ∃ z ∈ x.cmds, z.id = n ∧ z.core = c.idx ∧ z.kind ≠ 2 ∧ z.done = false)
      ∨ n ∈ if q.act = .read then c.orderR else c.orderW)
  gone : ∀ n, n ∈ q.gone ↔ q.sys = true ∧ n ≠ q.id ∧ (∃ r ∈ x.reqs, r.id = n) ∧
    (n ∈ c.orderS ∨ (q.act ≠ .read ∧ n ∈ c.orderT) ∨ ∃ r ∈ x.reqs, r.id = n ∧ r.core = c.idx ∧ r.sys = true ∧ r.acquire = true)
  writes : q.acks = (if q.sys then c.orderK else []) ∧ q.scs = (if q.sys then c.orderA else []) ∧ q.seen = c.causal

/-! Operations in flight. -/

/-- A word of several slots begins: an operation that has reached no row joins those of its core (R139, R174). -/
structure Begins (c d : Core) (o : Op) (ins : Instr) (st : Stream) (t rows period : Nat) : Prop where
  ops : d.ops = c.ops ++ [o]
  word : o.instr = ins ∧ o.stream = st
  time : o.issue = t ∧ o.next = 0 ∧ o.rows = rows ∧ o.period = period

/-- What R336-R352, R359 and R360 fix of a word of the vector datapath: the inbound ports it names, F64 timing, an operand read whole, its
mask, and rounding in RDI. -/
structure VecParts where
  ports : List Nat
  wide : Bool
  whole : Bool
  k : BitVec 3
  rdi : Bool

def vecParts : Instr → Option VecParts
  | .varith _ _ sa sb sc k fmt fn =>
    some { ports := srcPort sa ++ (if fn = .abs ∨ fn = .neg then [] else srcPort sb) ++ (if fn = .fma ∨ fn = .fms then srcPort sc else [])
           wide := fmt == .f64, whole := false, k, rdi := false }
  | .vlogic _ _ sa sb k fmt _ | .vcmp _ _ sa sb k fmt _ | .vsel _ _ sa sb k fmt =>
    some { ports := srcPort sa ++ srcPort sb, wide := fmt == .f64, whole := false, k, rdi := false }
  | .vcvt _ _ sa _ dst rnd _ k _ => some { ports := srcPort sa, wide := dst == .f64, whole := false, k, rdi := rnd == .rdi }
  | .vnarrow _ _ _ _ dst rnd _ k _ => some { ports := [], wide := dst == .f64, whole := false, k, rdi := rnd == .rdi }
  | .vsfu _ _ sa k _ _ => some { ports := srcPort sa, wide := false, whole := false, k, rdi := false }
  | .vrot _ _ sa axis _ k fmt | .vbc _ _ sa axis _ k fmt =>
    some { ports := srcPort sa, wide := fmt == .f64, whole := axis == .col, k, rdi := false }
  | .vred _ _ sa axis k fmt => some { ports := srcPort sa, wide := fmt == .f64, whole := axis == .col, k, rdi := false }
  | .vsplat _ _ _ k _ | .vput _ _ _ k => some { ports := [], wide := false, whole := false, k, rdi := false }
  | .vpop _ _ port k => some { ports := [port.toNat], wide := false, whole := false, k, rdi := false }
  | _ => none

/-- One row gives one result, for `dst` at slot `land`, of which `post` holds, and changes nothing else of its core (R115, R339). -/
def RowLands (c : Core) (o : Op) (out : Except Trouble Core) (dst : Dest) (land : Nat) (post : Pend → Prop) : Prop :=
  ∃ p, out = .ok { c with pend := c.pend ++ [p] } ∧ p.dst = dst ∧ p.land = land ∧ p.issue = o.issue ∧ p.stream = o.stream ∧ post p

/-- The balanced tree of R255 over the leaves from `2 ^ n * i` on. -/
def treeOf (add : Nat → Nat → Nat) (leaf : Nat → Nat) : Nat → Nat → Nat
  | 0, i => leaf i
  | n + 1, i => add (treeOf add leaf n (2 * i)) (treeOf add leaf n (2 * i + 1))

/-- `n` more rows fit the walk of outbound port `port` (R359, R371). -/
def RowsFit (c : Core) (port : BitVec 2) (n : Nat) : Prop :=
  ∃ w, (c.outp port.toNat).walk = some w ∧ (c.outp port.toNat).sent + c.dueRows port + n ≤ w.rows

/-- An operand source of ldsw or mma is ready (R365): a bound port, or a readable tensor of the format whose rows lie within it, in its
space, and clear of every write in flight. -/
def OperandReady (x : Ctx) (c : Core) (src : BitVec 4) (gy gx : BitVec 5) (f : Fmt) (n len period : Nat) : Prop :=
  if src.toNat < 8 then (c.inp src.toNat).walk.isSome = true
  else
    ∃ d, x.tensor (c.h (src - 8)).toNat = some d ∧ dSpace d < 2 ∧ dRead d = true ∧ dFmt d = some f
      ∧ let v := coords (c.g gx) (c.g gy)
        v.getD 0 0 + len ≤ dExt d 0 ∧ v.getD 1 0 + n ≤ dExt d 1 ∧ v.getD 2 0 < dExt d 2 ∧ v.getD 3 0 < dExt d 3
        ∧ (dWidth d = 4 → ∀ i < n, elemPos d [v.getD 0 0, v.getD 1 0 + i, v.getD 2 0, v.getD 3 0] % 2 = 0)
        ∧ (∀ r ∈ matRows d v n len, r.ok (dSpace d == 1) false (dPerm d) = true)
        ∧ ∀ q, spanOf (dPerm d) (matRows d v n len) = some q →
            x.hazard c { pool := dSpace d == 1, lo := q.1, hi := q.2, write := false, upto := x.cslot + (n - 1) * period } = false

/-- Check 3 of R373: pattern `p` walks a tensor of the right kind, with the right it needs, within its extents, no 4-bit row starting at
an odd element. -/
structure WalkLegal (x : Ctx) (p : Line) (w : Walk) (warm : Bool) (right : Line → Bool) : Prop where
  pat : w.pat = p
  desc : x.tensor (pTid p) = some w.desc
  kind : decide (2 ≤ dSpace w.desc) = warm
  right : right w.desc = true
  inside : w.outside = none
  even : w.odd = false

/-! The manual's arithmetic on exact integers, narrowed once at the end. -/

/-- alu (R292): a shift amount is the low six bits of `b`. -/
def aluExact (fn : AluFn) (a b : W64) (p : Bool) : W64 :=
  let n := b.toNat % 64
  match fn with
  | .add => BitVec.ofInt 64 (a.toInt + b.toInt)
  | .sub => BitVec.ofInt 64 (a.toInt - b.toInt)
  | .and => BitVec.ofNat 64 (a.toNat &&& b.toNat)
  | .or => BitVec.ofNat 64 (a.toNat ||| b.toNat)
  | .xor => BitVec.ofNat 64 (a.toNat ^^^ b.toNat)
  | .andn => BitVec.ofNat 64 (a.toNat &&& (2 ^ 64 - 1 - b.toNat))
  | .sll => BitVec.ofNat 64 (a.toNat * 2 ^ n)
  | .srl => BitVec.ofNat 64 (a.toNat / 2 ^ n)
  | .sra => BitVec.ofInt 64 (a.toInt / 2 ^ n)
  | .slt => BitVec.ofNat 64 (if a.toInt < b.toInt then 1 else 0)
  | .sltu => BitVec.ofNat 64 (if a.toNat < b.toNat then 1 else 0)
  | .seq => BitVec.ofNat 64 (if a.toNat = b.toNat then 1 else 0)
  | .min => BitVec.ofInt 64 (min a.toInt b.toInt)
  | .max => BitVec.ofInt 64 (max a.toInt b.toInt)
  | .minu => BitVec.ofNat 64 (min a.toNat b.toNat)
  | .maxu => BitVec.ofNat 64 (max a.toNat b.toNat)
  | .sel => if p then a else b
  | .clz => BitVec.ofNat 64 ((List.range 64).takeWhile fun i => !a.getLsbD (63 - i)).length
  | .popc => BitVec.ofNat 64 ((List.range 64).countP fun i => a.getLsbD i)

/-- muldiv (R293). -/
def muldivExact (fn : MulFn) (a b : W64) : W64 :=
  match fn with
  | .mul => BitVec.ofInt 64 (a.toInt * b.toInt)
  | .mulh => BitVec.ofInt 64 ((a.toInt * b.toInt) / 2 ^ 64)
  | .mulhu => BitVec.ofNat 64 (a.toNat * b.toNat / 2 ^ 64)
  | .div => if b.toNat = 0 then BitVec.ofInt 64 (-1) else BitVec.ofInt 64 (a.toInt.tdiv b.toInt)
  | .divu => if b.toNat = 0 then BitVec.ofInt 64 (-1) else BitVec.ofNat 64 (a.toNat / b.toNat)
  | .rem => if b.toNat = 0 then a else BitVec.ofInt 64 (a.toInt - b.toInt * a.toInt.tdiv b.toInt)
  | .remu => if b.toNat = 0 then a else BitVec.ofNat 64 (a.toNat - b.toNat * (a.toNat / b.toNat))

/-- alui (R295): the immediate is sign-extended, a shift amount is its low six bits. -/
def aluiExact (fn : AluiFn) (a : W64) (imm : BitVec 12) : W64 :=
  let i : W64 := BitVec.ofInt 64 imm.toInt
  match fn with
  | .addi => BitVec.ofInt 64 (a.toInt + imm.toInt)
  | .andi => BitVec.ofNat 64 (a.toNat &&& i.toNat)
  | .ori => BitVec.ofNat 64 (a.toNat ||| i.toNat)
  | .xori => BitVec.ofNat 64 (a.toNat ^^^ i.toNat)
  | .slli => BitVec.ofNat 64 (a.toNat * 2 ^ (imm.toNat % 64))
  | .srli => BitVec.ofNat 64 (a.toNat / 2 ^ (imm.toNat % 64))
  | .srai => BitVec.ofInt 64 (a.toInt / 2 ^ (imm.toNat % 64))
  | .slti => BitVec.ofNat 64 (if a.toInt < imm.toInt then 1 else 0)

/-- The conditions of pcmp and b (R281). -/
def condExact (c : Cond) (a b : W64) : Bool :=
  match c with
  | .eq => decide (a.toNat = b.toNat)
  | .ne => decide (a.toNat ≠ b.toNat)
  | .lt => decide (a.toInt < b.toInt)
  | .ge => decide (b.toInt ≤ a.toInt)
  | .ltu => decide (a.toNat < b.toNat)
  | .geu => decide (b.toNat ≤ a.toNat)

/-- The comparisons of vcmp on integers of `w` bits (R343). -/
def cmpExact (fn : VcmpFn) (w a b : Nat) : Bool :=
  let s (v : Nat) : Int := (BitVec.ofNat w v).toInt
  match fn with
  | .eq => decide (a = b)
  | .ne => decide (a ≠ b)
  | .lt => decide (s a < s b)
  | .le => decide (s a ≤ s b)
  | .gt => decide (s b < s a)
  | .ge => decide (s b ≤ s a)
  | .ltu => decide (a < b)
  | .geu => decide (b ≤ a)
  | .uno => false

/-- An exact value as a rational number. -/
def Dy.val (d : Dy) : Rat := (if d.neg then -1 else 1) * d.m * (2 : Rat) ^ d.e

/-- The value of finite bits of a float format (R243). -/
def Shape.val (s : Shape) (n : Nat) : Option Rat := match s.decode n with
  | .fin d => some d.val
  | _ => none

/-- `r` is `v` rounded to nearest, ties to even, in a format with infinities (R247, R248, R251): the infinity of its sign from half a unit
beyond max finite on. -/
def Nearest (s : Shape) (r : Nat) (v : Rat) : Prop :=
  r < 2 ^ s.width
    ∧ (v.abs < (2 ^ (s.mb + 2) - 1) * (2 : Rat) ^ ((2 : Int) ^ s.eb - 2 - s.bias - s.mb - 1) → ∃ u, s.val r = some u
        ∧ ∀ n z, n < 2 ^ s.width → s.val n = some z → (u - v).abs ≤ (z - v).abs ∧ ((u - v).abs = (z - v).abs → u ≠ z → r % 2 = 0))
    ∧ ((2 ^ (s.mb + 2) - 1) * (2 : Rat) ^ ((2 : Int) ^ s.eb - 2 - s.bias - s.mb - 1) ≤ v.abs → s.decode r = .inf (decide (v < 0)))

/-- The truth table of plog (R297). -/
def logExact (op : LogOp) (a b : Bool) : Bool :=
  match op with
  | .and => a && b
  | .or => a || b
  | .xor => a != b
  | .andn => a && !b
  | .orn => a || !b
  | .nand => !(a && b)
  | .nor => !(a || b)
  | .xnor => a == b

/-- Extension of `n` loaded bytes with the value `v` (R298). -/
def loadExact (size : LdSize) (v : Nat) : W64 :=
  match size with
  | .b => BitVec.ofInt 64 (if v < 2 ^ 7 then (v : Int) else v - 2 ^ 8)
  | .h => BitVec.ofInt 64 (if v < 2 ^ 15 then (v : Int) else v - 2 ^ 16)
  | .w => BitVec.ofInt 64 (if v < 2 ^ 31 then (v : Int) else v - 2 ^ 32)
  | .bu | .hu | .wu | .d => BitVec.ofNat 64 v

/-- The address of a scalar access: base plus offset modulo 2^64, its low bits ignored (R298, R300, R313). -/
def addrExact (base : W64) (off : Int) (n : Nat) : Nat :=
  let a := ((base.toInt + off) % 2 ^ 64).toNat
  a / n * n

/-- amo on `w` bits (R233): the new value, from the old one and the operand. -/
def amoExact (fn : AmoFn) (w a b : Nat) : Nat :=
  let s (v : Nat) : Int := (BitVec.ofNat w v).toInt
  match fn with
  | .add => ((s a + s b) % 2 ^ w).toNat
  | .and => a &&& b
  | .or => a ||| b
  | .xor => a ^^^ b
  | .min => (min (s a) (s b) % 2 ^ w).toNat
  | .max => (max (s a) (s b) % 2 ^ w).toNat
  | .minu => min a b
  | .maxu => max a b
  | .swap => b

/-! Events and safe states. -/

/-- A task that is an event, and not a stream instruction on its own. -/
def Task.sound (t : Task) : Bool :=
  match t with
  | .event i => (encode i).isNone
  | _ => true

/-- Only events and stages are left to do: the machine never runs a stream instruction that no core issues. -/
def State.Sound (s : State) : Prop := s.todo.all Task.sound = true

/-- HBM and host memory are in canonical form, and so are their copies kept for the rollback of the slot. -/
def State.MemoryCanonical (s : State) : Prop :=
  s.now.warm.mem.wf = true ∧ s.now.host.memory.wf = true
    ∧ ∀ M, s.snap = some M → M.warm.mem.wf = true ∧ M.host.memory.wf = true

/-! Events. -/

/-- The event happens: it changes the module alone, to one of which `post` holds. -/
def Runs (s : State) (ins : Instr) (post : Mach → Prop) : Prop := ∃ M, exec ins s = .next { s with now := M } ∧ post M

/-- The event changes one context, to one of which `post` holds, and nothing else. -/
def Becomes (s : State) (ins : Instr) (post : Ctx → Prop) : Prop := ∃ y, exec ins s = .next { s with now := s.now.setCtx y } ∧ post y

/-- Access `id` of the context in slot `k` is `r`, of core `c`, which stands at its own place. -/
structure State.Asks (s : State) (k : Nat) (x : Ctx) (c : Core) (r : Req) : Prop where
  ctx : s.now.ctx? k = some x
  req : x.reqs.find? (fun q => q.id == r.id) = some r
  core : x.core? r.core = some c
  idx : c.idx = r.core

/-- What the elements of an access, and its check word if it has one, are translated to (R82, R84, R91, R167). -/
def Req.found (s : State) (x : Ctx) (c : Core) (r : Req) : (List (Nat × Nat) × Option Nat) ⊕ Miss :=
  (r.spots s.now.sweep x (16 * c.id + r.queue)).2

/-- The record `f` of an access's fault is raised in the ring of its ASID (R85, R86). -/
def Mach.Reports (M : Mach) (s : State) (x : Ctx) (m : Miss) (write : Bool) (f : FaultRec) : Prop :=
  M.warm.rings = (s.now.warm.onRing (ringOf x.asid) fun q => q.raise f).rings ∧ f.kind = m.kind ∧ f.addr = m.addr ∧ f.level = m.level
    ∧ f.entry = m.entry ∧ f.asid = x.asid ∧ f.write = write ∧ f.cslot = x.cslot ∧ f.mslot = s.now.mslot

/-- Counter `n` of `d` has had one post more than in `c` (R150). -/
def Posted (c d : Core) (n : Nat) : Prop := (d.tc n).value = (c.tc n).value + 1

/-- The context is in no replay, and no post that one has fed is still to be met by its operation (R200, R402). -/
def Ctx.Current (x : Ctx) : Prop := x.replay = none ∧ x.posted = []

/-- A row of binding `gen` of the outbound port `o` of a row's core, other than it, is still to apply (R155, R227). -/
def Ctx.Unapplied (x : Ctx) (r : Req) (o gen : Nat) : Prop := ∃ p ∈ x.reqs, p.id ≠ r.id ∧ p.core = r.core ∧ ∃ row post, p.use = .sent o gen row post

/-- The row is the last of its walk and others are still to apply: it stays, and its counter is posted by the last of them. -/
def Ctx.LastWaits (x : Ctx) (r : Req) : Prop := ∃ o gen row n, r.use = .sent o gen row (some n) ∧ x.Unapplied r o gen

/-- What the apply of outbound row `r` of core `c` posts in `d`: its own counter, or that of the last row of the walk, if no other row is still
to apply (R155, R227). -/
def RowPosts (x : Ctx) (r : Req) (c d : Core) (o gen : Nat) (post : Option Nat) : Prop :=
  (¬x.Unapplied r o gen → (∀ n, post = some n → x.Current → Posted c d n ∧ (d.tc n).err = (c.tc n).err) ∧ ∀ n, post ≠ some n → d.tc n = c.tc n)
    ∧ (x.Unapplied r o gen → post ≠ none → ∀ n, d.tc n = c.tc n)
    ∧ ∀ p row n, (x.reqs.filter fun z => z.id != r.id && (z.sentPost r.core o gen).isSome) = [p] → p.use = .sent o gen row (some n) → post = none →
        x.Current → if p.performed then Posted c d n else d.tc n = c.tc n

/-- Memory `m` at `a` holds the `n` bytes of `v`, and elsewhere what it held. -/
def Stored (m old : Memory) (a n v : Nat) : Prop :=
  ∀ b, (m.byte b).toNat = if a ≤ b ∧ b < a + n then v / 2 ^ (8 * (b - a)) % 256 else (old.byte b).toNat

/-- Every core stands at its own place among the cores of its context, now and as kept for the start of each window. -/
def Ctx.Seated (x : Ctx) : Prop :=
  (∀ (j : Nat) (c : Core), x.cores[j]? = some c → c.idx = j)
    ∧ ∀ w ∈ x.win :: x.windows, ∀ (j : Nat) (c : Core), w.cores[j]? = some c → c.idx = j

/-- The shape of the module: eight host queues, four launch queues, sixteen fault rings, eight Dretex ports, two drives, sixteen keepers,
eight measurement registers; one address space for an ASID; no more than 64 flits in a replay buffer (R24); every core at its own place; no command, waiting launch or
context numbered beyond the journal; and none of them before boot ends. -/
structure Mach.Shaped (M : Mach) : Prop where
  host : M.host.queues.length = 8 ∧ M.host.turn.length = 3
  launch : M.launch.length = 4
  rings : M.warm.rings.length = 16
  spaces : M.warm.spaces.Pairwise fun a b => a.asid ≠ b.asid
  ports : M.links.ports.length = 8
  replay : ∀ q ∈ M.links.ports, q.replay.length ≤ 64
  drives : M.keepers.drives.length = 2 ∧ M.keepers.lost.length = 2
  keepers : M.keepers.present.length = 16 ∧ M.keepers.meas.length = 8
  commands : ∀ c ∈ M.cmds, c.seq < M.journal.next
  waiting : ∀ q ∈ M.launch, ∀ w ∈ q, w.cmd < M.journal.next ∧ ∀ y, w.saved = some y → y.cmd < M.journal.next ∧ y.Seated
  contexts : ∀ x ∈ M.ctxs, x.cmd < M.journal.next ∧ x.Seated
  aside : ∀ a ∈ M.aside, a.1.cmd < M.journal.next ∧ a.1.Seated
  asleep : M.keepers.bootPhase.toNat < 4 → M.cmds = [] ∧ M.ctxs = [] ∧ M.aside = [] ∧ ∀ q ∈ M.launch, q = []

/-- The machine, and its copy kept for the rollback of the slot, have that shape. -/
def State.Shaped (s : State) : Prop := s.now.Shaped ∧ ∀ M, s.snap = some M → M.Shaped

/-- The journal holds entry `n`, of a kind, for a command of a queue, with a status, a reference and a detail (R53). -/
def Mach.Holds (M : Mach) (clock n kind : Nat) (c : HostCmd) (status ref detail rec : Nat) : Prop :=
  SMap.get 0 M.journal.ring (n % 2 ^ 20) = journalEntry n clock kind c.queue c.asid.toNat status ref c.index detail rec

/-- The event by which a keeper takes a command of a kind, the queue it takes it from, and the frames it chooses (R45-R47). -/
def takenBy : Instr → Option (Nat × (HostCmd → Bool) × List Nat)
  | .illegalCommand q => some (q.toNat, HostCmd.unassigned, [])
  | .launch q => some (q.toNat, fun c => c.kind == 1, [])
  | .map q f => some (q.toNat, fun c => c.kind == 2, f)
  | .unmap q => some (q.toNat, fun c => c.kind == 3, [])
  | .migrate q f => some (q.toNat, fun c => c.kind == 4, f)
  | .copyin q => some (q.toNat, fun c => c.kind == 5, [])
  | .copyout q => some (q.toNat, fun c => c.kind == 6, [])
  | .signal q => some (q.toNat, fun c => c.kind == 7, [])
  | .abort q => some (q.toNat, fun c => c.kind == 8, [])
  | .quote q => some (q.toNat, fun c => c.kind == 9 && c.debug == 1, [])
  | .rstepWin q => some (q.toNat, fun c => c.kind == 9 && c.debug == 2, [])
  | .rstepSlot q => some (q.toNat, fun c => c.kind == 9 && c.debug == 3, [])
  | .rstepWrite q => some (q.toNat, fun c => c.kind == 9 && c.debug == 4, [])
  | .watch q => some (q.toNat, fun c => c.kind == 9 && c.debug == 5, [])
  | .trace q => some (q.toNat, fun c => c.kind == 9 && c.debug == 6, [])
  | .account q => some (q.toNat, fun c => c.kind == 9 && c.debug == 7, [])
  | .resume q => some (q.toNat, fun c => c.kind == 9 && c.debug == 8, [])
  | _ => none

end Sys2Proof.Machine
end

