-- ==== Sys2Proof/Certificates/Slice0/Obligations.lean ====
section
/-! DEFINITION. The statements about the machine, for the provers. -/

open Sys2Proof Sys2Proof.Machine

/-! Encodings and the step. -/

/-- The word of every well-formed instruction of the four streams decodes, in its stream, to that instruction: no bit of an encoding is dropped
(R274-R289). -/
def Obligations.DecodeOfEncode : Prop :=
  ∀ (i : Instr) (w : W32), i.wf = true → encode i = some w → decode i.stream w = some i

/-- Every word that decodes in some stream is the word of the instruction it decodes to, and that instruction keeps the limits of R275: a reserved
field, function code or limit never falls through to a neighbour (R274, R275). -/
def Obligations.DecodedWordsEncodeBack : Prop :=
  ∀ (st : Stream) (w : W32) (i : Instr), decode st w = some i → encode i = some w ∧ i.wf = true

/-- Words that the manual spells out decode to the instructions it names: align 6, 5 (R327); halt (R335); ckpt with table 1 (R328); vrot.row.f32 v1,
v1, 1 (R351). -/
def Obligations.ManualWordsDecode : Prop :=
  decode .s 0xE0006005#32 = some (.align 0 6 5) ∧ decode .s 0xF8030000#32 = some (.halt 0) ∧ decode .s 0xE8000001#32 = some (.ckpt 0 1)
    ∧ decode .v 0x40440800#32 = some (.vrot 0 1 1 .row 1 0 .f32)

/-- nop is the word with MAJ 0x00 and a zero body, in every stream and with any GAP; with a nonzero body it is no instruction; and it issues and
does nothing else: no register, memory or other context changes, and of its own core only its place in its stream, as for every word of one slot. In
a delay window that place is the next index; outside one, the loops that end with the word and have no run left are over, and the innermost loop
left goes back to its first word if it ends here, with one run less (R291, R303, R308). The account of lost time counts the issue (R211). -/
def Obligations.NopDoesNothingElse : Prop :=
  (∀ (st : Stream) (g : BitVec 2) (body : BitVec 25), decode st (0#5 ++ g ++ body) = if body = 0 then some (.nop g) else none)
  ∧ ∀ (s : State) (i : Issue) (x : Ctx) (c : Core) (g : BitVec 2), s.Issuing i x c →
      let q := c.stream i.st
      ∃ t y loops pc, exec (.nop g) s = .next t ∧ t = { s with now := s.now.setCtx y } ∧ y = { x with cores := y.cores, account := y.account }
        ∧ t.Holds i.k i.j y (c.setStream i.st { q with loops, pc, ready := x.cslot + 1 }) ∧ SameMemory s t ∧ SameElsewhere s t i.k i.j
        ∧ (q.xfer ≠ none → pc = q.pc + 1 ∧ loops = q.loops)
        ∧ (q.xfer = none → ∃ n, (∀ l ∈ q.loops.take n, l.stop = q.pc ∧ l.left = 0) ∧ match q.loops.drop n with
          | [] => pc = q.pc + 1 ∧ loops = []
          | l :: r => (l.stop ≠ q.pc → pc = q.pc + 1 ∧ loops = l :: r)
            ∧ (l.stop = q.pc → l.left ≠ 0 ∧ pc = l.start ∧ loops = { l with left := l.left - 1 } :: r))

/-- When the word that a stream issues decodes, the step is `exec` of the instruction, with the transfer of an ended delay window taken and the word
named as the one that issues, and afterwards no word is issuing; an index beyond the store takes the instruction-range fault 0x12, and a word that
is no instruction the illegal-instruction fault 0x10, in the slot of its issue, and nothing else changes (R112, R140, R172, R275, R303). -/
def Obligations.StepRunsDecodedWord : Prop :=
  ∀ (s : State) (k j : Nat) (st : Stream) (r : List Task) (x : Ctx) (c : Core) (pc : Nat) (w : W32),
    s.todo = .issue k j st :: r → (s.now.fetchAt k j st).wordAt k j st = some (x, c, pc, w) →
    (∀ ins : Instr, pc < 4096 → decode st w = some ins →
      step s = match exec ins { s with todo := r, now := s.now.fetchAt k j st, cur := some { k, j, st, word := w } } with
        | .next t => .next { t with cur := none }
        | .fault e => .fault e
        | .refused e => .refused e)
    ∧ (4096 ≤ pc ∨ decode st w = none →
      step s = .next { s with todo := r, now := s.now.fetchAt k j st
                              causes := s.causes ++ [{ core := j, lid := c.id, code := if 4096 ≤ pc then 0x12 else 0x10, stream := rank st
                                                       word := w, port := 0, detail := 0 }] })

/-- From every state in which only events and stages are left to do, the machine takes a step to such a state: it never stops with a fault or a
refusal. -/
def Obligations.SoundStepsNeverStop : Prop :=
  ∀ s : State, s.Sound → ∃ t, step s = .next t ∧ t.Sound

/-- The state after reset has only events and stages left to do, memory in canonical form of which every byte reads 0 (the model's choice, log 3),
and the shape of the module. -/
def Obligations.ResetMeetsItsInvariants : Prop :=
  State.reset.Sound ∧ State.reset.MemoryCanonical ∧ State.reset.Shaped
    ∧ ∀ a, State.reset.warmByte a = 0 ∧ State.reset.hostByte a = 0

/-- Every step keeps HBM and host memory, in the machine and in the copy kept for the slot's rollback, in their canonical form. -/
def Obligations.MemoryStaysCanonical : Prop :=
  ∀ s t : State, s.MemoryCanonical → step s = .next t → t.MemoryCanonical

/-! The S stream. -/

/-- alu: the destination lands at +2 with the exact function of the operands, narrowed to 64 bits, unless the guard reads 0; sel's predicate is an
operand and not a guard. muldiv: products land at +6 and quotients at +40, with the borderline cases of division; a divide occupies the divider for
40 slots whatever its guard reads, and slips with cause 6 while it is occupied. A function code beyond the tables, and a clz or popc that names a
second source, is no instruction (R292-R294). -/
def Obligations.AluAndMuldivWriteExactResults : Prop :=
  (∀ (g : BitVec 2) (rd ra rb : BitVec 5) (p : BitVec 3) (n : BitVec 7),
    let fns : List AluFn := [.add, .sub, .and, .or, .xor, .andn, .sll, .srl, .sra, .slt, .sltu, .seq, .min, .max, .minu, .maxu, .sel, .clz, .popc]
    let muls : List MulFn := [.mul, .mulh, .mulhu, .div, .divu, .rem, .remu]
    (decode .s (0x01#5 ++ g ++ rd ++ ra ++ rb ++ p ++ n)
        = if 0x11 ≤ n.toNat ∧ rb ≠ 0 then none else (fns[n.toNat]?).map (Instr.alu g rd ra rb p ·))
      ∧ decode .s (0x02#5 ++ g ++ rd ++ ra ++ rb ++ p ++ n) = (muls[n.toNat]?).map (Instr.muldiv g rd ra rb p ·))
  ∧ ∀ (s : State) (i : Issue) (x : Ctx) (c : Core), s.Issuing i x c →
    (∀ (g : BitVec 2) (rd ra rb : BitVec 5) (p : BitVec 3) (fn : AluFn),
       Plans s (.alu g rd ra rb p fn) i x c
         (scalarResult (fn == .sel || c.p p) (.g rd.toNat) x.cslot 2 (aluExact fn (c.g ra) (c.g rb) (c.p p))))
    ∧ ∀ (g : BitVec 2) (rd ra rb : BitVec 5) (p : BitVec 3) (fn : MulFn),
      (MulFn.isDiv fn = true → x.cslot < c.units.divider → Stops s (.muldiv g rd ra rb p fn) i c 6 0 0)
      ∧ ((MulFn.isDiv fn = true → c.units.divider ≤ x.cslot) →
          Completes s (.muldiv g rd ra rb p fn) i x c (x.cslot + 1) fun _ d =>
            d.pend = c.pend ++ scalarResult (c.p p) (.g rd.toNat) x.cslot (if MulFn.isDiv fn then 40 else 6)
                (muldivExact fn (c.g ra) (c.g rb))
              ∧ d.regs = c.regs ∧ d.units.divider = if MulFn.isDiv fn then x.cslot + 40 else c.units.divider)

/-- alui lands at +2 with its function of the sign-extended immediate, lih at +1 with the sign-extended 20-bit immediate times 4,096. Every word of
either is an instruction, but a shift with a bit above the sixth of its amount (R295, R296). -/
def Obligations.ImmediatesWriteExactResult : Prop :=
  (∀ (g : BitVec 2) (rd ra : BitVec 5) (n : BitVec 3) (imm : BitVec 12) (up : BitVec 20),
    let fns : List AluiFn := [.addi, .andi, .ori, .xori, .slli, .srli, .srai, .slti]
    (decode .s (0x03#5 ++ g ++ rd ++ ra ++ n ++ imm)
        = if (n = 4 ∨ n = 5 ∨ n = 6) ∧ 64 ≤ imm.toNat then none else (fns[n.toNat]?).map (Instr.alui g rd ra · imm))
      ∧ decode .s (0x04#5 ++ g ++ rd ++ up) = some (.lih g rd up))
  ∧ ∀ (s : State) (i : Issue) (x : Ctx) (c : Core), s.Issuing i x c →
    (∀ (g : BitVec 2) (rd ra : BitVec 5) (fn : AluiFn) (imm : BitVec 12), (Instr.alui g rd ra fn imm).wf = true →
      Plans s (.alui g rd ra fn imm) i x c (scalarResult true (.g rd.toNat) x.cslot 2 (aluiExact fn (c.g ra) imm)))
    ∧ ∀ (g : BitVec 2) (rd : BitVec 5) (imm : BitVec 20),
      Plans s (.lih g rd imm) i x c (scalarResult true (.g rd.toNat) x.cslot 1 (BitVec.ofInt 64 (imm.toInt * 4096)))

/-- pcmp lands at +2 with its condition, plog at +1 with its truth table; an unassigned condition, and a nonzero field that the format marks 0, is
no instruction (R297, with the conditions of R281). -/
def Obligations.PredicatesWriteExactResult : Prop :=
  (∀ (g : BitVec 2) (pd n pa pb : BitVec 3) (ra rb : BitVec 5) (low : BitVec 9) (mid : BitVec 10) (z : BitVec 3),
    let conds : List Cond := [.eq, .ne, .lt, .ge, .ltu, .geu]
    let ops : List LogOp := [.and, .or, .xor, .andn, .orn, .nand, .nor, .xnor]
    (decode .s (0x05#5 ++ g ++ pd ++ ra ++ rb ++ n ++ low) = if low = 0 then (conds[n.toNat]?).map (Instr.pcmp g pd ra rb ·) else none)
      ∧ decode .s (0x06#5 ++ g ++ pd ++ mid ++ n ++ pa ++ pb ++ z)
          = if mid = 0 ∧ z = 0 then (ops[n.toNat]?).map (Instr.plog g pd · pa pb) else none)
  ∧ ∀ (s : State) (i : Issue) (x : Ctx) (c : Core), s.Issuing i x c →
    (∀ (g : BitVec 2) (pd : BitVec 3) (ra rb : BitVec 5) (cond : Cond),
      Plans s (.pcmp g pd ra rb cond) i x c
        (scalarResult true (.p pd.toNat) x.cslot 2 (if condExact cond (c.g ra) (c.g rb) then 1 else 0)))
    ∧ ∀ (g : BitVec 2) (pd pa pb : BitVec 3) (op : LogOp),
      Plans s (.plog g pd op pa pb) i x c
        (scalarResult true (.p pd.toNat) x.cslot 1 (if logExact op (c.p pa) (c.p pb) then 1 else 0))

/-- lcset lands at +8 with the low 32 bits of its source, seth at +1 with a 16-bit tensor id; mmv copies a valid mailbox at +2 under its guard, and
an invalid mailbox slips with cause 2 whatever the guard reads (R311, R319, R330). -/
def Obligations.CountsHandlesAndMailboxesAreRead : Prop :=
  ∀ (s : State) (i : Issue) (x : Ctx) (c : Core), s.Issuing i x c →
    (∀ (g : BitVec 2) (r : BitVec 5),
     (∀ lc : BitVec 2, Plans s (.lcsetReg g r lc) i x c
       (scalarResult true (.lc lc.toNat) x.cslot 8 (BitVec.ofNat 64 ((c.g r).toNat % 2 ^ 32))))
     ∧ (∀ (lc : BitVec 2) (imm : BitVec 12), Plans s (.lcsetImm g lc imm) i x c
       (scalarResult true (.lc lc.toNat) x.cslot 8 (BitVec.ofNat 64 imm.toNat)))
     ∧ (∀ (h : BitVec 4) (tid : BitVec 16), Plans s (.sethImm g h tid) i x c
       (scalarResult true (.h h.toNat) x.cslot 1 (BitVec.ofNat 64 tid.toNat)))
     ∧ ∀ h : BitVec 4, Plans s (.sethReg g h r) i x c
       (scalarResult true (.h h.toNat) x.cslot 1 (BitVec.ofNat 64 ((c.g r).toNat % 2 ^ 16))))
    ∧ ∀ (g : BitVec 2) (rd : BitVec 5) (m p : BitVec 3),
    ((c.mb m.toNat).valid = true →
      Plans s (.mmv g rd m p) i x c (scalarResult (c.p p) (.g rd.toNat) x.cslot 2 (c.mb m.toNat).value))
    ∧ ((c.mb m.toNat).valid = false → Stops s (.mmv g rd m p) i c 2 0 0)

/-- srd of every register that a program may read lands at +2 with its value at the issue slot, MSLOT and HEAT in a replay with the value that the log
feeds; swr of FLAGS, DPHASE and TCERR lands at +1; the watchpoint registers, and a write to a register that only reads, are privilege faults; every
other number is illegal (R96, R136, R143, R200, R204, R333). -/
def Obligations.StateRegistersObeyAccess : Prop :=
  ∀ (s : State) (i : Issue) (x : Ctx) (c : Core), s.Issuing i x c → ∀ (g : BitVec 2) (r : BitVec 5),
    let reads (num : Nat) (v : W64) : Prop := Plans s (.srd g r (BitVec.ofNat 12 num)) i x c (scalarResult true (.g r.toNat) x.cslot 2 v)
    let fed (num code : Nat) (live : W64) : Prop := (x.replay = none → reads num live)
      ∧ ∀ p e, x.replay = some p → p.feed.find? (fun e => e.kind == 3 && e.core == i.j && e.addr == code && e.cslot == x.cslot) = some e →
          reads num (e.payload.setWidth 64)
    let within (num : BitVec 12) (lo hi : Nat) : Prop := lo ≤ num.toNat ∧ num.toNat ≤ hi
    let readable (num : BitVec 12) : Prop := within num 0x000 0x003 ∨ within num 0x008 0x010 ∨ within num 0x018 0x01F ∨ within num 0x030 0x037
      ∨ within num 0x040 0x042 ∨ within num 0x050 0x057 ∨ within num 0x180 0x18B
    let writable (num : BitVec 12) : Prop := num = 0x020 ∨ num = 0x021 ∨ num = 0x058
    let half (low high : Nat) : W64 := BitVec.ofNat 64 (low % 2 ^ 11 + 2 ^ 16 * (high % 2 ^ 11))
    (reads 0x000 (BitVec.ofNat 64 x.cslot) ∧ fed 0x001 0x701 (BitVec.ofNat 64 s.now.mslot) ∧ reads 0x002 (BitVec.ofNat 64 c.id)
      ∧ reads 0x003 (x.asid.setWidth 64) ∧ reads 0x010 (BitVec.ofNat 64 x.win.num) ∧ reads 0x020 (c.regs.flags.setWidth 64)
      ∧ reads 0x021 (c.regs.dphase.setWidth 64) ∧ fed 0x040 0x740 (BitVec.ofInt 64 x.heat) ∧ reads 0x041 (BitVec.ofNat 64 x.allow)
      ∧ reads 0x042 (s.now.cold.wx ++ s.now.cold.wm ++ s.now.cold.wv ++ s.now.cold.wi)
      ∧ (∃ v, reads 0x058 v ∧ ∀ n < 64, v.getLsbD n = (decide (n < 8) && (c.tc n).err))
      ∧ ∀ n : Nat, n < 8 → reads (0x018 + n) ((c.inp n).fill.setWidth 64) ∧ reads (0x030 + n) (half (c.inp n).entries.length (c.inp n).res)
        ∧ reads (0x050 + n) (c.tc n).value ∧ reads (0x180 + n) (half (c.inp n).min (c.inp n).cap)
        ∧ (n < 4 → reads (0x188 + n) (BitVec.ofNat 64 ((c.outp n).cap % 2 ^ 12)))
        ∧ let dom := x.field (0x0C4 + 8 * n) 1
          let coord (v : Nat) : Prop := reads (0x008 + n) (BitVec.ofNat 64 v)
          (x.field 0x003 1 ≤ n → coord 0)
          ∧ (n < x.field 0x003 1 → (dom = 1 → coord (c.idx % 8)) ∧ (dom = 2 → x.extent 3 = none → coord c.cluster)
            ∧ (∀ e e', dom = 2 → x.extent 3 = some e → x.extent 2 = some e' → coord (c.cluster % e')) ∧ (dom = 3 → coord (x.dieGroup c.cluster))
            ∧ (dom = 5 → coord ((List.range Config.self.toNat).countP fun m => (x.field 0x05C 4).testBit m))
            ∧ (dom = 6 → coord (x.serial.getD ((List.range n).countP fun m => x.field (0x0C4 + 8 * m) 1 == 6) 0))))
    ∧ ∀ num : BitVec 12,
      (writable num → Plans s (.swr g r num) i x c (scalarResult true (.sreg num.toNat) x.cslot 1 (c.g r)))
      ∧ (within num 0x100 0x13F → Stops s (.srd g r num) i c 0x11 0 0 ∧ Stops s (.swr g r num) i c 0x11 0 0)
      ∧ (readable num → Stops s (.swr g r num) i c 0x11 0 0)
      ∧ (¬readable num → ¬writable num → ¬within num 0x100 0x13F → Stops s (.srd g r num) i c 0x10 0 0 ∧ Stops s (.swr g r num) i c 0x10 0 0)

/-- ldc and ldp read their aligned bytes at the issue slot and land, extended, at +8 and +12; spat loads the aligned 64-byte line of a pattern entry
at +8; stc and stp plan the write of their low n bytes at the aligned address, 4 and 6 slots after issue, and of no other byte of the line, unless
their guard reads 0; an access that leaves its space takes the cold-space fault with its address; a full undo log asks for a spill (R60, R196,
R298-R301, R331). -/
def Obligations.ColdAccessesReachTheirBytes : Prop :=
  ∀ (s : State) (i : Issue) (x : Ctx) (c : Core), s.Issuing i x c →
    (∀ (g : BitVec 2) (rd ra : BitVec 5) (imm : BitVec 12),
     (∀ size : LdSize,
       let n := ldBytes size
       let a := addrExact (c.g ra) imm.toInt n
       (a + n ≤ 0x20000 → Plans s (.ldc g rd ra size imm) i x c
         (scalarResult true (.g rd.toNat) x.cslot 8 (loadExact size (c.cold.read a n))))
       ∧ (0x20000 < a + n → Stops s (.ldc g rd ra size imm) i c 0x13 (BitVec.ofNat 64 a) 0)
       ∧ (a + n ≤ 0xC0000 → Plans s (.ldp g rd ra size imm) i x c
         (scalarResult true (.g rd.toNat) x.cslot 12 (loadExact size ((x.pools.getD c.cluster []).read a n))))
       ∧ (0xC0000 < a + n → Stops s (.ldp g rd ra size imm) i c 0x13 (BitVec.ofNat 64 a) 0))
     ∧ ∀ pat : BitVec 6,
       let a := addrExact (c.g ra) (imm.toInt * 64) 64
       (a + 64 ≤ 0x1C000 → Plans s (.spat g pat ra imm) i x c
         [result (.pat pat.toNat) .s x.cslot (x.cslot + 8) (BitVec.ofNat 4096 (c.cold.read a 64))])
       ∧ (0x1C000 < a + 64 → Stops s (.spat g pat ra imm) i c 0x13 (BitVec.ofNat 64 a) 0))
    ∧ ∀ (g : BitVec 2) (p : BitVec 3) (rs ra : BitVec 5) (wd : Width) (imm : BitVec 10) (pool : Bool),
      let ins := if pool then Instr.stp g p rs ra wd imm else .stc g p rs ra wd imm
      let n := widthBytes wd
      let a := addrExact (c.g ra) (imm.toInt * n) n
      let top := if pool then 0xC0000 else 0x1C000
      let room := x.quotaOk c pool [a / 64] = true ∨ x.roll = true
      (c.p p = false → Plans s ins i x c [])
      ∧ (c.p p = true → a + n ≤ top → room →
          Completes s ins i x c (x.cslot + 1) fun _ d => d.regs = c.regs ∧ ∃ q : Pend, d.pend = c.pend ++ [q]
            ∧ q.dst = (if pool then .pool (a / 64) else .cold (a / 64)) ∧ q.land = x.cslot + (if pool then 6 else 4) ∧ q.issue = x.cslot
            ∧ (∀ b < 64, q.mask.getLsbD b = (decide (a % 64 ≤ b) && decide (b < a % 64 + n)))
            ∧ ∀ b < n, q.value.toNat / 2 ^ (8 * (a % 64 + b)) % 256 = (c.g rs).toNat / 2 ^ (8 * b) % 256)
      ∧ (c.p p = true → top < a + n → Stops s ins i c 0x13 (BitVec.ofNat 64 a) 0)
      ∧ (c.p p = true → a + n ≤ top → ¬ room → Stops s ins i c 0x33 0x7FF 16)

/-- wld asks for n bytes at base plus offset times n, home point 4,096 slots after issue and landing 2,048 after that, and clears its mailbox's
valid bit; wst asks for the write of the low n bytes of its source, home point 3,072 slots on, unless its guard reads 0; amo, amocas and amof ask
for an atomic on the aligned 4 or 8 bytes at ra, home point 4,096 slots on and result 4,096 after that, with the operand of rb, or the expected and
new values of an even and odd pair; at scope SYS the request leaves at once (R233, R234, R313-R318, R320). -/
def Obligations.WarmAccessesAreRequested : Prop :=
  ∀ (s : State) (i : Issue) (x : Ctx) (c : Core), s.Issuing i x c →
    ((∀ (g : BitVec 2) (m : BitVec 3) (ra : BitVec 5) (wd : Width) (acq : Bool) (scope : Scope) (imm : BitVec 11),
       let n := widthBytes wd
       let sys := scope == .sys
       Accesses s (.wld g m ra wd acq scope imm) i x c sys (addrExact (c.g ra) (imm.toInt * n) n) n .read (.mailbox m.toNat) fun d q =>
         (q.acquire = acq ∧ q.release = false) ∧ (q.home = (if sys then x.cslot else x.cslot + 4096) ∧ q.land = q.home + 2048)
           ∧ (d.mb m.toNat).valid = false ∧ ∀ m', m' ≠ m.toNat → d.mb m' = c.mb m')
     ∧ ∀ (g : BitVec 2) (p : BitVec 3) (rs ra : BitVec 5) (wd : Width) (rel : Bool) (scope : Scope) (imm : BitVec 6),
       let n := widthBytes wd
       let sys := scope == .sys
       let a := addrExact (c.g ra) (imm.toInt * n) n
       (c.p p = false → Completes s (.wst g p rs ra wd rel scope imm) i x c (x.cslot + 1) fun y d => SameArchitecture c d ∧ y.reqs = x.reqs)
       ∧ (c.p p = true → Accesses s (.wst g p rs ra wd rel scope imm) i x c sys a n .write .store fun d q =>
           (q.acquire = false ∧ q.release = rel) ∧ q.home = (if sys then x.cslot else x.cslot + 3072)
             ∧ q.value.toNat = (c.g rs).toNat % 2 ^ (8 * n) ∧ q.mask.toNat = 2 ^ (8 * n) - 1 ∧ d.regs = c.regs))
    ∧ ∀ (g : BitVec 2) (m : BitVec 3) (ra : BitVec 5) (scope : Scope) (order : Order) (dbl : Bool),
      let n := if dbl then 8 else 4
      let sys := scope == .sys
      let asks (ins : Instr) (op : Nat) (v e : W64) : Prop :=
        Accesses s ins i x c sys (addrExact (c.g ra) 0 n) n (.atomic op) (.mailbox m.toNat) fun d q =>
          (q.acquire = decide (order = .acq ∨ order = .ar) ∧ q.release = decide (order = .rel ∨ order = .ar))
            ∧ (q.home = (if sys then x.cslot else x.cslot + 4096) ∧ q.land = q.home + 4096)
            ∧ (q.value.toNat = v.toNat % 2 ^ (8 * n) ∧ q.expect.toNat = e.toNat % 2 ^ (8 * n))
            ∧ (d.mb m.toNat).valid = false ∧ ∀ m', m' ≠ m.toNat → d.mb m' = c.mb m'
      (∀ (rb : BitVec 5) (op : AmoFn), asks (.amo g m ra rb op scope order dbl) op.code.toNat (c.g rb) 0)
      ∧ (∀ rb : BitVec 4, asks (.amocas g m ra rb scope order dbl) 16 (c.g (BitVec.ofNat 5 (2 * rb.toNat + 1)))
          (c.g (BitVec.ofNat 5 (2 * rb.toNat))))
      ∧ ∀ (rb : BitVec 5) (op : AmofFn), asks (.amof g m ra rb op scope order dbl) (32 + op.code.toNat) (c.g rb) 0

/-- A fence issues, and its stream goes on in the next slot, whatever the state; at scopes CORE and CLU it does nothing else, and at MOD and SYS
every access and copy command of the core that is not yet performed comes before what its kind orders: after acq, reads and atomics, and what a
command reads, before all; after rel, all before writes; after sc, all before all. At SYS, later system accesses wait as well for the landing of
system reads and atomics, after rel only writes and atomics and only for that of reads, and after sc for that of every system access and for the
writes of the core's causal set, and those that a held read brings to it. An access that enters names what it must follow so; while its context runs
and nothing is replayed it is free at its home point once all of that has been performed, has landed or has applied, with nothing of its own queue
still ahead, and is performed unless the machine chooses to hold it; what a landing observes goes with the accesses that it held (R219-R224, R228,
R231, R232, R321). Which write of the causal set counts as applied is the model's reading of log 137. -/
def Obligations.FencesOrderLaterAccesses : Prop :=
  (∀ (s : State) (i : Issue) (x : Ctx) (c : Core), s.Issuing i x c →
    (∀ (g : BitVec 2) (kind : FenceKind) (scope : Scope),
      Completes s (.fence g kind scope) i x c (x.cslot + 1) fun y d => SameArchitecture c d ∧ y.reqs = x.reqs ∧ d.pend = c.pend
        ∧ (scope = .core ∨ scope = .clu → d.orderR = c.orderR ∧ d.orderW = c.orderW ∧ d.orderS = c.orderS ∧ d.orderT = c.orderT ∧ d.orderK = c.orderK
            ∧ d.orderA = c.orderA)
        ∧ (scope = .mod ∨ scope = .sys → ∀ r ∈ x.reqs, r.core = i.j → r.performed = false → r.issue ≤ x.cslot →
            (kind = .acq → r.act ≠ .write → r.id ∈ d.orderR ∧ r.id ∈ d.orderW) ∧ (kind = .rel → r.id ∈ d.orderW)
            ∧ (kind = .sc → r.id ∈ d.orderR ∧ r.id ∈ d.orderW))
        ∧ (scope = .mod ∨ scope = .sys → ∀ q ∈ x.cmds, q.core = i.j → q.kind ≠ 2 → q.done = false →
            (kind = .acq → readsOf q.id ∈ d.orderR ∧ readsOf q.id ∈ d.orderW) ∧ (kind ≠ .acq → q.id ∈ d.orderW) ∧ (kind = .sc → q.id ∈ d.orderR))
        ∧ (scope = .sys → (∀ r ∈ x.reqs, r.core = i.j → r.sys = true → (kind = .sc ∨ (kind = .acq ∧ r.act ≠ .write) → r.id ∈ d.orderS)
              ∧ (kind = .rel → r.act = .read → r.id ∈ d.orderT) ∧ (kind = .sc → r.act ≠ .write → r.id ∈ d.orderA))
            ∧ (kind = .sc → ∀ n ∈ c.causal, n ∈ d.orderK)))
    ∧ ∀ (g : BitVec 2) (ra : BitVec 5) (wd : Width) (scope : Scope), x.outstanding i.j < 2048 →
      let n := widthBytes wd
      let there (a : Nat) : Prop := if scope = .sys then
          a < 2 ^ 53 ∧ (a / 2 ^ 48 = Config.self.toNat ∨ (x.field 0x05C 4).testBit (a / 2 ^ 48) = true) else a < 2 ^ 48
      let enters (ins : Instr) : Prop := ∃ t y d q, exec ins s = .next t ∧ t.Holds i.k i.j y d ∧ y.reqs = x.reqs ++ [q] ∧ q.id = x.nextReq ∧ Ordered x c q
      (∀ (m : BitVec 3) (acq : Bool) (imm : BitVec 11), there (addrExact (c.g ra) (imm.toInt * n) n) → enters (.wld g m ra wd acq scope imm))
      ∧ ∀ (p : BitVec 3) (rs : BitVec 5) (rel : Bool) (imm : BitVec 6), c.p p = true → there (addrExact (c.g ra) (imm.toInt * n) n) →
          enters (.wst g p rs ra wd rel scope imm))
  ∧ (∀ (M : Mach) (x : Ctx) (r : Req), x.run = .running → x.replay = none →
      (x.ready M r = true ↔ x.free M r = true ∧ x.holds M r = false)
      ∧ (x.free M r = true ↔ (r.performed = false ∧ r.held = false ∧ r.sent = false) ∧ r.issue ≤ x.cslot
          ∧ r.home ≤ (if r.async then M.mslot else x.cslot) ∧ (∀ n ∈ r.after, x.pendingId n = false) ∧ (∀ n ∈ r.gone, ∀ q ∈ x.reqs, q.id ≠ n)
          ∧ (∀ n ∈ r.acks, (∀ q ∈ M.links.send, q.id ≠ n) ∧ (homeOf n = Config.self.toNat → n ∈ M.links.applied))
          ∧ ∀ q ∈ x.reqs.takeWhile (fun q => q.id != r.id), q.core = r.core → q.queue = r.queue → q.performed = true ∨ q.sent = true))
  ∧ (∀ (x : Ctx) (n : Nat), x.pendingId n = true ↔ (∃ r ∈ x.reqs, r.id = n ∧ r.performed = false)
      ∨ ∃ q ∈ x.cmds, q.done = false ∧ (q.id = n ∨ (readsOf q.id = n ∧ q.taken < q.reads)))
  ∧ ∀ (x : Ctx) (j id : Nat) (got : List Nat) (n : Nat) (q : Req), x.reqs[n]? = some q → ∃ z, (x.observe j id got).reqs[n]? = some z
      ∧ z = { q with seen := z.seen, acks := z.acks } ∧ (q.core ≠ j ∨ id ∉ q.gone → z = q)
      ∧ (q.core = j → id ∈ q.gone → ∀ w ∈ got, w ∈ z.seen ∧ (id ∈ q.scs → w ∈ z.acks))

/-- A taken transfer at slot t goes on with the next word; its target is the next index after slot t + 4; b and j leave the loops that hold the word
and not the target; a link is the index of the first word that does not issue in the window, landing at +2; a b that is not taken only goes on
(R302-R307, R309). -/
def Obligations.TransfersOpenDelayWindows : Prop :=
  ∀ (s : State) (i : Issue) (x : Ctx) (c : Core), s.Issuing i x c → i.st = .s →
    let pc := c.s.pc
    let last := x.cslot + 4
    let out (target : Nat) (l : Loop) : Bool := decide ((l.start ≤ pc ∧ pc ≤ l.stop) ∧ ¬(l.start ≤ target ∧ target ≤ l.stop))
    let goes (ins : Instr) (target : Nat) (loops : List Loop) (post : Ctx → Core → Prop) : Prop :=
      Proceeds s ins i x { c.s with loops, pc := pc + 1, ready := x.cslot + 1, xfer := some { target, last } } fun y d =>
        d.regs = c.regs ∧ d.cold = c.cold ∧ y.reqs = x.reqs ∧ post y d
    let rel (off : Int) : Nat := (((pc : Int) + off) % 2 ^ 64).toNat
    let links (rd : BitVec 5) (d : Core) : Prop := ∃ n ≤ 4, (∀ m < n, windowSlot c.s x.cslot m ≤ last)
      ∧ (n < 4 → last < windowSlot c.s x.cslot n) ∧ d.pend = c.pend ++ scalarResult true (.g rd.toNat) x.cslot 2 (BitVec.ofNat 64 (pc + 1 + n))
    ∀ g : BitVec 2,
      (∀ (ra rb : BitVec 5) (cond : Cond) (off : BitVec 12),
        (condExact cond (c.g ra) (c.g rb) = true → goes (.b g ra rb cond off) (rel off.toInt) (c.s.loops.dropWhile (out (rel off.toInt)))
          fun _ d => d.pend = c.pend)
        ∧ (condExact cond (c.g ra) (c.g rb) = false → Completes s (.b g ra rb cond off) i x c (x.cslot + 1) fun y d =>
          SameArchitecture c d ∧ SameContext x y ∧ d.pend = c.pend))
      ∧ (∀ off : BitVec 20, goes (.j g off) (rel off.toInt) (c.s.loops.dropWhile (out (rel off.toInt))) fun _ d => d.pend = c.pend)
      ∧ (∀ (rd : BitVec 5) (off : BitVec 20), goes (.jal g rd off) (rel off.toInt) c.s.loops fun _ d => links rd d)
      ∧ ∀ (rd ra : BitVec 5) (imm : BitVec 12), goes (.jalr g rd ra imm) (((c.g ra).toInt + imm.toInt) % 2 ^ 64).toNat c.s.loops fun _ d =>
          links rd d

/-- loop, vloop, mloop and xloop: a body of n words runs count times; a count of zero passes it; a fifth level, or a body that is not inside the
body around it, is an illegal instruction, and a body beyond the store an instruction-range fault; in a delay window nothing is pushed. gapl, vgap,
mgap and xgap with field f keep their stream silent for f + 1 further slots, and align k, c until the next slot that is c modulo 2^k; nothing else
changes (R113, R132, R308-R310, R312, R327, R363, R381). -/
def Obligations.LoopsGapsAndAlignsSequence : Prop :=
  ∀ (s : State) (i : Issue) (x : Ctx) (c : Core), s.Issuing i x c →
    (∀ (ins : Instr) (count n : Nat), loopParts c ins = some (count, n) →
     let q := c.stream i.st
     let deep := q.xfer = none ∧ 4 ≤ q.loops.length ∧ count ≠ 0
     let crossing := ∃ t, q.loops.head? = some t ∧ t.start ≤ q.pc ∧ q.pc ≤ t.stop ∧ t.stop < q.pc + n
     let same (d : Core) : Prop := d.regs = c.regs ∧ d.pend = c.pend ∧ d.cold = c.cold
     (q.xfer.isSome = true → ¬crossing → q.pc + n ≤ 4095 → Completes s ins i x c (x.cslot + 1) fun _ d => same d ∧ (d.stream i.st).loops = q.loops)
     ∧ (deep ∨ crossing → Stops s ins i c 0x10 0 0)
     ∧ (¬deep → ¬crossing → 4095 < q.pc + n → Stops s ins i c 0x12 0 0)
     ∧ (q.xfer = none → ¬deep → ¬crossing → q.pc + n ≤ 4095 → count = 0 →
         Proceeds s ins i x { q with pc := q.pc + n + 1, ready := x.cslot + 1 } fun _ d => same d)
     ∧ (q.xfer = none → ¬deep → ¬crossing → q.pc + n ≤ 4095 → count ≠ 0 →
         Proceeds s ins i x { q with loops := { start := q.pc + 1, stop := q.pc + n, left := BitVec.ofNat 32 (count - 1) } :: q.loops
                                     pc := q.pc + 1, ready := x.cslot + 1 } fun _ d => same d))
    ∧ let same (y : Ctx) (d : Core) : Prop := SameArchitecture c d ∧ SameContext x y ∧ d.pend = c.pend ∧ y.reqs = x.reqs
    (∀ (ins : Instr) (f : Nat), gapLength ins = some f → Completes s ins i x c (x.cslot + f + 2) same)
    ∧ ∀ (g : BitVec 2) (k : BitVec 4) (r : BitVec 12), ∃ u, x.cslot < u ∧ u % 2 ^ k.toNat = r.toNat % 2 ^ k.toNat
        ∧ (∀ m, x.cslot < m → m < u → m % 2 ^ k.toNat ≠ r.toNat % 2 ^ k.toNat) ∧ Completes s (.align g k r) i x c u same

/-- A posted token writes the current CSLOT into its cell, at its issue; an expected one does nothing if the cell equals the slot less its distance,
and slips with cause 7 otherwise. wait: with the counter at its target it does nothing, and with the counter's error bit set, whatever its value, it
takes the data-error fault; below the target a DWELL wait right before a bar makes the context dwell, or slips with cause 9 once it has dwelt as
many wheels as the record allows; every other wait slips with cause 8 (R126, R131, R322-R324, R326, R363, R381). ckpt and ckpt.ovl name a live-range
table of the object, or are illegal; trap n stops its context in the next slot with cause 0x33 and DETAIL n; halt ends the issue of its core with the
slot it issues in, and abandons every loop and a pending transfer (R328-R329, R334-R335). A checkpoint that has passed its checks resets mesh targets and
matrix engines, puts its overlay in place and begins the hold; the window that follows opens with its number, and no register or live byte changes
(R187-R188, R364, R385). The DETAIL of causes 7, 8, 9, 0x21 and 0x33 is the model's reading (log 29). -/
def Obligations.TokensWaitsAndCheckpointsTakeEffect : Prop :=
  (∀ (s : State) (i : Issue) (x : Ctx) (c : Core), s.Issuing i x c →
    (∀ ins : Instr,
     (∀ n, postedCell ins = some n → Completes s ins i x c (x.cslot + 1) fun y d => d.tk n = BitVec.ofNat 64 x.cslot
       ∧ (∀ m, m ≠ n → d.tk m = c.tk m) ∧ { d.regs with tk := [] } = { c.regs with tk := [] } ∧ d.pend = c.pend ∧ SameContext x y)
     ∧ ∀ n d, expectedCell ins = some (n, d) →
       ((c.tk n).toNat + d = x.cslot → Completes s ins i x c (x.cslot + 1) fun y e => SameArchitecture c e ∧ e.pend = c.pend ∧ SameContext x y)
       ∧ ((c.tk n).toNat + d ≠ x.cslot → Stops s ins i c 7 (BitVec.ofNat 64 n) 0))
    ∧ (∀ (g : BitVec 2) (r : BitVec 5) (kind : WaitKind) (tc : BitVec 3) (imm : BitVec 12),
      let ins := Instr.wait g r kind tc imm
      let t := c.tc tc.toNat
      let target := ((c.g r).toNat + imm.toNat) % 2 ^ 64
      let dwells := kind = .dwl ∧ c.s.beforeBar x.cslot = true
      (target ≤ t.value.toNat → t.err = false → Completes s ins i x c (x.cslot + 1) fun y d =>
          SameArchitecture c d ∧ SameContext x y ∧ d.pend = c.pend)
      ∧ (t.err = true → Stops s ins i c 0x21 (BitVec.ofNat 64 tc.toNat) 0)
      ∧ (t.value.toNat < target → t.err = false → ¬dwells → Stops s ins i c 8 (BitVec.ofNat 64 tc.toNat) 0)
      ∧ (t.value.toNat < target → t.err = false → dwells → x.field 0x054 4 ≤ x.waited → Stops s ins i c 9 (BitVec.ofNat 64 tc.toNat) 0)
      ∧ (t.value.toNat < target → t.err = false → dwells → x.waited < x.field 0x054 4 → exec ins s = .next { s with dwell := some (1, 1) }))
    ∧ (i.st = .s → ∀ g : BitVec 2,
      (∀ (tab : BitVec 12) (ovl : BitVec 4) (o : Bool),
        let ins := if o then Instr.ckptOvl g ovl tab else .ckpt g tab
        (x.code.live.length ≤ tab.toNat → Stops s ins i c 0x10 0 0)
        ∧ (tab.toNat < x.code.live.length → Completes s ins i x c (x.cslot + 1) fun _ d => SameArchitecture c d
            ∧ d.ckpt = some { ovl := if o then some ovl.toNat else none, tab := tab.toNat, word := i.word }))
      ∧ (∀ n : BitVec 12, Completes s (.trap g n) i x c (x.cslot + 1) fun y d => SameArchitecture c d ∧ SameContext x y
          ∧ y.stops = x.stops ++ [{ slot := x.cslot + 1, cause := { core := i.j, lid := c.id, code := 0x33, stream := 0, word := i.word, port := 0
                                                                    detail := BitVec.ofNat 64 n.toNat } }])
      ∧ Proceeds s (.halt g) i x { c.s with loops := [], xfer := none, pc := c.s.pc + 1, ready := x.cslot + 1 } fun y d =>
          d.halt = some x.cslot ∧ (d.v.loops = [] ∧ d.m.loops = [] ∧ d.x.loops = []) ∧ d.stopped = true ∧ SameArchitecture c d ∧ SameContext x y))
  ∧ ∀ x : Ctx, x.Seated →
    (∀ q, x.cores.findSome? (·.ckpt) = some q →
      let y := x.takeCkpt
      (y.cslot = x.cslot ∧ y.lastCkpt = x.cslot ∧ y.opening = some (x.code.live.getD q.tab []) ∧ y.pools = x.pools ∧ y.reqs = x.reqs)
        ∧ ∀ j c, x.core? j = some c → ∃ d, y.core? j = some d ∧ (c.idle = true → d = c) ∧ (c.idle = false →
          (d.regs = { c.regs with mesh := j } ∧ d.mat = Matrix.start ∧ d.pend = c.pend.filter fun p => p.dst != .mesh)
          ∧ (d.cold = c.cold ∧ d.inb = c.inb ∧ d.outb = c.outb) ∧ (c.halt = none → d.ckpt = none ∧ d.hold = some (x.cslot, x.cslot + 255))
          ∧ ∀ st, (q.ovl = none → d.stream st = c.stream st)
            ∧ ∀ n base l, q.ovl = some n → (x.code.overlays.filter fun o => o.1 == n && o.2.1 == rank st) = [(n, rank st, base, l)] →
              (d.stream st).pc = (c.stream st).pc ∧ ∀ (m : Nat) (w : W32), l[m]? = some w → SMap.get 0 (d.stream st).store (base + m) = w))
    ∧ ∀ (mslot : Nat) (table : List (List Nat)) (first : Bool), let y := x.openWindow mslot table first
      (y.cslot = x.cslot ∧ y.reqs = x.reqs ∧ y.win.num = (if first then 0 else x.win.num + 1) ∧ y.win.start = x.cslot)
        ∧ (y.win.mslot = mslot ∧ y.win.heat = x.heat ∧ y.win.table = table ∧ y.win.cores = y.cores ∧ y.warmSeen = [])
        ∧ ∀ j c, x.core? j = some c → ∃ d, y.core? j = some d ∧ (d.regs = c.regs ∧ d.mat = c.mat ∧ d.pend = c.pend ∧ d.inb = c.inb ∧ d.outb = c.outb)
          ∧ (d.s = c.s ∧ d.v = c.v ∧ d.m = c.m ∧ d.x = c.x) ∧ (∀ a < 0x1C000, d.cold.byte a = c.cold.byte a)
          ∧ (c.idle = false → d.cold.read 0x1C000 8 = y.win.num % 2 ^ 64 ∧ d.cold.read 0x1C008 8 = x.cslot % 2 ^ 64)

/-- bar arrives at its beacon in the slot of its issue and holds the core; an unbound beacon is an illegal instruction, and a result still in flight
a barrier-quiescence fault (R121, R123, R325). -/
def Obligations.BarriersArrive : Prop :=
  ∀ (s : State) (i : Issue) (x : Ctx) (c : Core), s.Issuing i x c → ∀ (g : BitVec 2) (b : BitVec 3),
    (x.field (0x068 + b.toNat) 1 = 0 → Stops s (.bar g b) i c 0x10 0 0)
    ∧ (x.field (0x068 + b.toNat) 1 ≠ 0 → c.quiet x.cslot = false → Stops s (.bar g b) i c 0x1B 0 0)
    ∧ (x.field (0x068 + b.toNat) 1 ≠ 0 → c.quiet x.cslot = true → Completes s (.bar g b) i x c (x.cslot + 1) fun y d =>
        d.barred = some (b.toNat, x.cslot) ∧ SameArchitecture c d ∧ SameContext x y ∧ d.pend = c.pend)

/-! The V stream. -/

/-- A word of the vector datapath with a port that is not bound takes the pattern fault; with the datapath occupied it slips with cause 6; otherwise
it begins: 16 rows, or one for an operand read whole, a row a slot, or two slots a row in F64, with the mask and the dither phase of its issue slot,
and the datapath is occupied for 16 or 32 slots. vput's rows must fit its walk (R118, R249, R336-R353, R359, R360). -/
def Obligations.VectorWordsBegin : Prop :=
  ∀ (s : State) (i : Issue) (x : Ctx) (c : Core), s.Issuing i x c → ∀ (ins : Instr) (q : VecParts), vecParts ins = some q →
    let free := q.ports.all fun p => (c.inp p).walk.isSome
    let rows := ((List.range 16).countP fun r => c.k q.k r != 0)
    let fits := ∀ g v p k, ins = .vput g v p k → RowsFit c p rows
    (∀ p, q.ports.find? (fun p => (c.inp p).walk.isNone) = some p → Stops s ins i c 0x18 0 p)
    ∧ (∀ g v p k, ins = .vput g v p k → ¬RowsFit c p rows → Stops s ins i c 0x18 0 (8 + p.toNat))
    ∧ (free = true → fits → x.cslot < c.units.vector → Stops s ins i c 6 0 0)
    ∧ (free = true → fits → c.units.vector ≤ x.cslot → Completes s ins i x c (x.cslot + 1) fun _ d => ∃ o,
        Begins c d o ins .v x.cslot (if q.whole then 1 else 16) (if q.wide then 2 else 1)
          ∧ o.mask = (List.range 16).map (c.k q.k) ∧ o.phase = c.phase x.cslot
          ∧ d.units.vector = x.cslot + (if q.wide then 32 else 16) ∧ d.regs = c.regs ∧ d.cold = c.cold
          ∧ d.pend = c.pend ++ if q.rdi then [result .dphase .v x.cslot (x.cslot + 1) 0] else [])

/-- kset.box, kset.reg and klog land sixteen mask rows at +2: a box of columns and rows, a register in every row, or a truth table bit by bit; the
mask unit is occupied for one slot, and an occupied one slips with cause 6 (R361, R362). -/
def Obligations.MaskWordsLandTheirRows : Prop :=
  ∀ (s : State) (i : Issue) (x : Ctx) (c : Core), s.Issuing i x c → ∀ (g : BitVec 2) (kd : BitVec 3),
    let lands (ins : Instr) (bit : Nat → Nat → Bool) : Prop :=
      (x.cslot < c.units.mask → Stops s ins i c 6 0 0)
      ∧ (c.units.mask ≤ x.cslot → Completes s ins i x c (x.cslot + 1) fun _ d => d.regs = c.regs ∧ d.units.mask = x.cslot + 1
          ∧ ∃ row : Nat → W64, (∀ r < 16, ∀ b < 64, (row r).getLsbD b = bit r b)
            ∧ d.pend = c.pend ++ (List.range 16).map fun r => result (.k kd.toNat r) .v x.cslot (x.cslot + 2) ((row r).setWidth 4096))
    (∀ (ncol : BitVec 7) (nrow : BitVec 5), (Instr.ksetBox g kd ncol nrow).wf = true →
      lands (.ksetBox g kd ncol nrow) fun r b => decide (r < nrow.toNat) && decide (b < ncol.toNat))
    ∧ (∀ r : BitVec 5, lands (.ksetReg g kd r) fun _ b => (c.g r).getLsbD b)
    ∧ ∀ (ka kb : BitVec 3) (op : LogOp), lands (.klog g kd ka kb op) fun r b => logExact op ((c.k ka r).getLsbD b) ((c.k kb r).getLsbD b)

/-- vld, vst and vgath: an unknown tensor, a missing right or another space, an enabled element outside an extent, and a
4-bit row whose first element is odd fault; a busy datapath slips,
and so does a range in flight, each recorded; clear of all of these and of the bounds of the space, and with room in the undo log for a store, the
access begins with the descriptor, coordinates and mask of its issue slot, and without that room a store asks for a spill (R128, R145, R151, R196,
R354-R357). -/
def Obligations.TileAccessesBegin : Prop :=
  ∀ (s : State) (i : Issue) (x : Ctx) (c : Core), s.Issuing i x c →
    ∀ (g : BitVec 2) (v : BitVec 3) (h : BitVec 4) (gy gx : BitVec 5) (k : BitVec 3) (sp : CSpace) (kind : Fin 3),
      let ins : Instr := match kind with
        | 0 => .vld g v h gy gx k sp
        | 1 => .vst g v h gy gx k sp
        | 2 => .vgath g v h gy gx k sp
      let tid := (c.h h).toNat
      let d := SMap.get 0 x.tdt tid
      let pool := sp == .pool
      let write := kind == 1
      let known := tid < x.field 0x028 4 ∧ d ≠ 0
      let legal := (if write then dWrite d else dRead d) = true ∧ dSpace d = if pool then 1 else 0
      let u := coords (c.g gx) (c.g gy)
      let c1 (r : Nat) : Nat := if kind = 2 then (c.tile v.toNat r).toNat % 2 ^ 32 else u.getD 1 0 + r
      let w := dWidth d
      let on (r e : Nat) : Prop := (laneMask (w == 64) (c.k k r)).getLsbD (e * w / 32) = true
      let inside (r : Nat) : Prop := ∀ e < 2048 / w, on r e →
        u.getD 0 0 + e < dExt d 0 ∧ c1 r < dExt d 1 ∧ u.getD 2 0 < dExt d 2 ∧ u.getD 3 0 < dExt d 3
      let odd (r : Nat) : Prop := w = 4 ∧ elemPos d [u.getD 0 0, c1 r, u.getD 2 0, u.getD 3 0] % 2 ≠ 0
      let mask := (List.range 16).map (c.k k)
      let rows := tileRows d u c1 mask
      let placed := ∀ r ∈ rows, r.ok pool write (dPerm d) = true
      let room := write = true →
        x.quotaOk c pool (rows.flatMap fun r => r.lines.map fun q => q.1 ^^^ dPerm d).eraseDups = true ∨ x.roll = true
      let range (q : Nat × Nat) : Range := { pool, lo := q.1, hi := q.2, write
                                             upto := x.cslot + (if write ∨ pool then 4 else 2) + lastRow rows }
      let clear := ∀ q, spanOf (dPerm d) rows = some q → x.hazard c (range q) = false
      let busy := x.cslot < c.units.vector
      (¬known → Stops s ins i c 0x14 (BitVec.ofNat 64 tid) 0)
      ∧ (known → ¬legal → Stops s ins i c 0x15 (BitVec.ofNat 64 tid) 0)
      ∧ (known → legal → (dFmt d).isSome = true → ∀ r < 16, ¬inside r → (∀ q < r, inside q) → Stops s ins i c 0x16 (BitVec.ofNat 64 (c1 r)) 0)
      ∧ (known → legal → (dFmt d).isSome = true → (∀ r < 16, inside r) → ∀ r < 16, odd r → (∀ q < r, ¬odd q) →
          Stops s ins i c 0x17 (BitVec.ofNat 64 (c1 r)) 0)
      ∧ (known → legal → (dFmt d).isSome = true → (∀ r < 16, inside r) → (∀ r < 16, ¬odd r) → placed →
          (busy → clear → Stops s ins i c 6 0 0)
          ∧ (∀ q, spanOf (dPerm d) rows = some q → UnitSlips s ins i c busy (x.hazard c (range q) = true) q.1)
          ∧ (¬busy → clear → (¬room → Stops s ins i c 0x33 0x7FF 16)
              ∧ (room → Completes s ins i x c (x.cslot + 1) fun _ e => ∃ o, Begins c e o ins .v x.cslot 16 1 ∧ o.desc = d ∧ o.coord = u
                  ∧ o.mask = mask ∧ o.index = (List.range 16).map c1 ∧ e.units.vector = x.cslot + 16 ∧ e.regs = c.regs ∧ e.pend = c.pend
                  ∧ e.cold = c.cold)))

/-- Row r of an integer varith, or of a vlogic, whose sources are tiles: a row whose mask row is zero writes nothing; otherwise the enabled lanes of
row r of the destination take, at issue + 6 (8 for fma and fms) + r, the exact function of their elements modulo the element width (R336-R342). -/
def Obligations.VectorRowsComputeExactElements : Prop :=
  ∀ (x : Ctx) (c : Core) (o : Op) (r : Nat) (g : BitVec 2) (vd : BitVec 3) (sa sb sc : BitVec 4) (k : BitVec 3) (fmt : VFmt),
    r < 16 → o.period = 1 → sa.toNat < 8 → sb.toNat < 8 → sc.toNat < 8 → (fmt = .int32 ∨ fmt = .int16x2 ∨ fmt = .int8x4) →
    let w := viewWidth fmt
    let el (t : BitVec 4) (e : Nat) : Nat := elem w e (c.tile t.toNat r).toNat
    let val (t : BitVec 4) (e : Nat) : Int := toSigned w (el t e)
    let lands (lat : Nat) (f : Nat → Int) : Prop :=
      (o.mask.getD r 0 = 0 → vRow x c o r = .ok c)
      ∧ (o.mask.getD r 0 ≠ 0 → ∃ d p, vRow x c o r = .ok d ∧ d.pend = c.pend ++ [p] ∧ d.regs = c.regs
          ∧ p.dst = .v vd.toNat r ∧ p.land = o.issue + lat + r ∧ p.mask = o.mask.getD r 0 ∧ p.flags = 0 ∧ p.fine = none
          ∧ ∀ e < 2048 / w, (o.mask.getD r 0).getLsbD (e * w / 32) = true → (elem w e p.value.toNat : Int) = f e % (2 ^ w : Int))
    (∀ fn : VarithFn, o.instr = .varith g vd sa sb sc k fmt fn → lands (if fn = .fma ∨ fn = .fms then 8 else 6) fun e => match fn with
      | .add => val sa e + val sb e
      | .sub => val sa e - val sb e
      | .mul => val sa e * val sb e
      | .fma => val sa e * val sb e + val sc e
      | .fms => val sa e * val sb e - val sc e
      | .min => min (val sa e) (val sb e)
      | .max => max (val sa e) (val sb e)
      | .abs => if val sa e < 0 then -val sa e else val sa e
      | .neg => -val sa e)
    ∧ ∀ fn : VlogicFn, o.instr = .vlogic g vd sa sb k fmt fn → lands 6 fun e => match fn with
      | .and => ((el sa e &&& el sb e : Nat) : Int)
      | .or => ((el sa e ||| el sb e : Nat) : Int)
      | .xor => ((el sa e ^^^ el sb e : Nat) : Int)
      | .shl => ((el sa e * 2 ^ (el sb e % w) : Nat) : Int)
      | .shr => ((el sa e / 2 ^ (el sb e % w) : Nat) : Int)
      | .sra => val sa e / (2 ^ (el sb e % w) : Nat)

/-- The rows of the other vector words, and of varith on floats, whose sources are tiles: a row whose mask row is zero writes nothing (one of vsel
keeps b), any other gives one result at its slot, for the enabled lanes, with the function of the word on its elements: the arithmetic of the format
and its flags (varith, vsfu), a mask bit that holds where every element of the lane compares so (vcmp), a choice (vsel), the paired elements
converted (vcvt, vnarrow), lanes or rows moved (vrot, vbc), the sum in the order of R255 (vred), the operand of its issue (vsplat), the next entry of a
port (vpop) or a row for a port (vput) (R255, R338-R341, R343-R353, R359, R360). A tile access reads or writes its enabled bytes in the line that the
permutation gives, and no other (R145, R354-R357). -/
def Obligations.VectorRowsLandTheirResults : Prop :=
  ∀ (x : Ctx) (c : Core) (o : Op) (r : Nat) (g : BitVec 2) (vd : BitVec 3) (sa sb sc : BitVec 4) (k : BitVec 3) (fmt : VFmt),
    r < 16 → o.mask.length = 16 → sa.toNat < 8 → sb.toNat < 8 → sc.toNat < 8 →
    let m := o.mask.getD r 0
    let w := viewWidth fmt
    let wide := fmt == .f64
    let lanes (q : Nat) : BitVec 64 := laneMask wide (o.mask.getD q 0)
    let on (e : Nat) : Bool := (lanes r).getLsbD (e * w / 32)
    let src (s : BitVec 4) (q : Nat) : Nat := (c.tile s.toNat q).toNat
    let el (s : BitVec 4) (e : Nat) : Nat := elem w e (src s r)
    let out := vRow x c o r
    let at' (lat : Nat) : Nat := o.issue + lat + o.period * r
    let lands (dst : Dest) (slot : Nat) (post : Pend → Prop) : Prop := (m = 0 → out = .ok c) ∧ (m ≠ 0 → RowLands c o out dst slot post)
    let numbers (p : Pend) (f : Nat → Nat × Flags) : Prop := p.fine = none ∧ (∀ e < 2048 / w, on e = true → elem w e p.value.toNat = (f e).1 % 2 ^ w)
      ∧ ∀ b < 6, p.flags.getLsbD b = (List.range (2048 / w)).any fun e => on e && (f e).2.getLsbD b
    let converts (a b : Fmt) (ns lat : Nat) (rnd : Rnd) (sat : Bool) (pos v : Nat) : Prop :=
      let wd := b.width
      let nd := 2048 / wd
      lands (.v vd.toNat r) (at' (if b = .f64 then 10 else lat)) fun p => p.mask = laneMask (b == .f64) m ∧ ∃ fine, p.fine = some fine
        ∧ ∀ d < nd, let lane := d * wd / 32
          let pair (i : Nat) : Prop := (nd ≤ ns ∧ i = ns / nd * d + if ns = nd then 0 else pos) ∨ (ns < nd ∧ d % (nd / ns) = pos ∧ i = d / (nd / ns))
          let enabled := (laneMask (b == .f64) m).getLsbD lane = true
          (∀ i, pair i → enabled → elem wd d fine.toNat = 2 ^ wd - 1
              ∧ elem wd d p.value.toNat = (convert a b ⟨rnd, bitrev6 ((lane + o.phase) % 64)⟩ sat (elem a.width i v)).1 % 2 ^ wd)
            ∧ ((∀ i, ¬pair i) ∨ ¬enabled → elem wd d fine.toNat = 0)
    let rows (lat : Nat) (f : Nat → Nat) : Prop := ∃ l : List Pend, out = .ok { c with pend := c.pend ++ l }
      ∧ l.map (·.dst) = ((List.range 16).filter fun q => o.mask.getD q 0 != 0).map (Dest.v vd.toNat ·)
      ∧ ∀ p ∈ l, ∀ q, p.dst = .v vd.toNat q → p.land = o.issue + (if wide then 10 + 2 * q else lat + q) ∧ p.mask = lanes q ∧ p.fine = none
          ∧ p.value.toNat = src sa (f q)
    let levels := if wide then 5 else 6
    let plus (a b : Nat) : Nat := (addElem fmt a b).1
    (∀ fn s, viewShape fmt = some s → o.instr = .varith g vd sa sb sc k fmt fn →
      lands (.v vd.toNat r) (at' (if wide then 10 else if fn = .fma ∨ fn = .fms then 8 else 6)) fun p => p.mask = lanes r
        ∧ numbers p fun e => floatArith fn s (el sa e) (el sb e) (el sc e))
    ∧ (∀ fn s, viewShape fmt = some s → fmt ≠ .f64 → o.instr = .vsfu g vd sa k fmt fn →
      lands (.v vd.toNat r) (at' 12) fun p => p.mask = lanes r ∧ numbers p fun e => sfu fn s (el sa e))
    ∧ (∀ (kd : BitVec 3) (fn : VcmpFn), o.instr = .vcmp g kd sa sb k fmt fn →
      let one (e : Nat) : Bool := match viewShape fmt with
        | some s => (floatCmp fn s (el sa e) (el sb e)).1
        | none => cmpExact fn w (el sa e) (el sb e)
      lands (.k kd.toNat r) (at' (if wide then 10 else 6)) fun p => p.mask = lanes r ∧ ∀ l < 64, (lanes r).getLsbD l = true →
        p.value.getLsbD l = if w = 64 then one (l / 2) else (List.range (32 / w)).all fun n => one (32 / w * l + n))
    ∧ (o.instr = .vsel g vd sa sb k fmt → RowLands c o out (.v vd.toNat r) (at' (if wide then 10 else 6)) fun p => p.mask = BitVec.allOnes 64
      ∧ p.fine = none ∧ ∀ l < 64, elem 32 l p.value.toNat = if (lanes r).getLsbD l then elem 32 l (src sa r) else elem 32 l (src sb r))
    ∧ (∀ a b rnd sat (pos : BitVec 3), o.instr = .vcvt g vd sa a b rnd sat k pos → converts a b (2048 / a.width) 6 rnd sat pos.toNat (src sa r))
    ∧ (∀ (q : BitVec 2) (int : Bool) b rnd sat (pos : BitVec 3), o.instr = .vnarrow g vd q int b rnd sat k pos →
      converts (if int then .int64 else .f64) b 64 8 rnd sat pos.toNat (c.acc q.toNat r).toNat)
    ∧ (∀ n : BitVec 6, o.instr = .vrot g vd sa .row n k fmt → lands (.v vd.toNat r) (at' (if wide then 10 else 8)) fun p => p.mask = lanes r
      ∧ p.fine = none ∧ ∀ l < 64, elem 32 ((l + n.toNat) % 64) p.value.toNat = elem 32 l (src sa r))
    ∧ (∀ n : BitVec 6, o.instr = .vrot g vd sa .col n k fmt → rows 20 fun q => (q + 16 - n.toNat % 16) % 16)
    ∧ (∀ n : BitVec 6, o.instr = .vbc g vd sa .row n k fmt → let u := if wide then 64 else 32
      lands (.v vd.toNat r) (at' (if wide then 10 else 6)) fun p => p.mask = lanes r ∧ p.fine = none
        ∧ ∀ e < 2048 / u, elem u e p.value.toNat = elem u (n.toNat * 32 / u) (src sa r))
    ∧ (∀ n : BitVec 6, n.toNat < 16 → o.instr = .vbc g vd sa .col n k fmt → rows 6 fun _ => n.toNat)
    ∧ (fmt = .int32 ∨ fmt = .f32 ∨ fmt = .f64 → o.instr = .vred g vd sa .row k fmt →
      lands (.v vd.toNat r) (at' (if wide then 10 else 12)) fun p => p.mask = (if wide then 3 else 1) ∧ p.fine = none
        ∧ elem w 0 p.value.toNat = treeOf plus (fun e => if on e then el sa e else redZero fmt) levels 0 % 2 ^ w
        ∧ (fmt = .int32 → elem 32 0 p.value.toNat = ((List.range 64).map fun e => if on e then el sa e else 0).foldl (· + ·) 0 % 2 ^ 32))
    ∧ (o.instr = .vred g vd sa .col k fmt → let some' (l : Nat) : Bool := (List.range 16).any fun q => (lanes q).getLsbD l
      ((∀ q < 16, lanes q = 0) → out = .ok c)
      ∧ ((∃ q < 16, lanes q ≠ 0) → RowLands c o out (.v vd.toNat 0) (o.issue + if wide then 10 else 24) fun p => p.fine = none
        ∧ (∀ l < 64, p.mask.getLsbD l = some' l) ∧ ∀ e < 2048 / w, some' (e * w / 32) = true →
          let leaf (q : Nat) : Nat := if (lanes q).getLsbD (e * w / 32) then elem w e (src sa q) else redZero fmt
          elem w e p.value.toNat = (List.range 15).foldl (fun s q => plus s (leaf (q + 1))) (leaf 0) % 2 ^ w))
    ∧ (∀ (rs : BitVec 5) (dbl : Bool), o.instr = .vsplat g vd rs k dbl → let u := if dbl then 64 else 32
      lands (.v vd.toNat r) (o.issue + 6 + r) fun p => p.mask = laneMask dbl m ∧ p.fine = none
        ∧ ∀ e < 2048 / u, elem u e p.value.toNat = o.index.headD 0 % 2 ^ u)
    ∧ (∀ port : BitVec 3, o.instr = .vpop g vd port k → let q := c.inp port.toNat
      (m = 0 → out = .ok c)
      ∧ (m ≠ 0 → q.entries = [] → q.lenient = false → out = .error { code := 1, detail := 0, port := port.toNat })
      ∧ (m ≠ 0 → q.entries = [] → q.lenient = true → out = .ok (c.setInp port.toNat { q with fill := BitVec.ofNat 32 (min (q.fill.toNat + 1) (2 ^ 32 - 1)) }))
      ∧ ∀ e l, m ≠ 0 → q.entries = e :: l → ∃ d p, out = .ok d ∧ d = { c with inb := d.inb, pend := c.pend ++ [p] } ∧ p.dst = .v vd.toNat r
          ∧ p.land = o.issue + 2 + r ∧ p.mask = m ∧ p.fine = none ∧ p.value.toNat = e.value.toNat ∧ (∀ n, n ≠ port.toNat → d.inp n = c.inp n)
          ∧ (d.inp port.toNat).entries = l ∧ (d.inp port.toNat).popped = q.popped + 1 ∧ (d.inp port.toNat).res = q.res - 1)
    ∧ (∀ port : BitVec 2, o.instr = .vput g vd port k → lands (.send port.toNat (o.index.headD 0)) (o.issue + 2 + r) fun p =>
      p.mask = m ∧ p.value.toNat = (c.tile vd.toNat r).toNat)
    ∧ ∀ (h : BitVec 4) (gy gx : BitVec 5) (sp : CSpace), let d := o.desc
      let pool := sp == .pool
      let first := rowAddr d [o.coord.getD 0 0, o.index.getD r 0, o.coord.getD 2 0, o.coord.getD 3 0]
      let mask := laneMask (dWidth d == 64) m
      let byte (b : Nat) : Nat := (first + b).toNat
      let line (b : Nat) : Nat := byte b / 64 ^^^ dPerm d
      let loads (lat : Nat) : Prop := (mask = 0 → out = .ok c) ∧ (mask ≠ 0 → RowLands c o out (.v vd.toNat r) (o.issue + lat + r) fun p => p.mask = mask
        ∧ ∀ b < 256, mask.getLsbD (b / 4) = true → 0 ≤ first + b →
            p.value.toNat / 2 ^ (8 * b) % 256 = ((x.space c pool).byte (64 * line b + byte b % 64)).toNat)
      (o.instr = .vld g vd h gy gx k sp → loads (if pool then 14 else 10)) ∧ (o.instr = .vgath g vd h gy gx k sp → loads 12)
      ∧ (o.instr = .vst g vd h gy gx k sp → ∃ l : List Pend, out = .ok { c with pend := c.pend ++ l }
        ∧ (∀ b < 256, mask.getLsbD (b / 4) = true → 0 ≤ first + b → ∃ p ∈ l, p.dst = (if pool then .pool (line b) else .cold (line b))
            ∧ p.mask.getLsbD (byte b % 64) = true
            ∧ p.value.toNat / 2 ^ (8 * (byte b % 64)) % 256 = (c.tile vd.toNat r).toNat / 2 ^ (8 * b) % 256)
        ∧ ∀ p ∈ l, p.land = o.issue + 4 + r ∧ ∀ n < 64, p.mask.getLsbD n = true → ∃ b < 256, mask.getLsbD (b / 4) = true ∧ 0 ≤ first + b
            ∧ byte b % 64 = n ∧ p.dst = if pool then .pool (line b) else .cold (line b))

/-- In every float format of a vector view the sum, the difference, the product and the product with a sum of finite elements are the exact value
rounded once to nearest, ties to even, and the infinity of its sign from half a unit beyond max finite on; an infinity plus a finite value is that
infinity, and of opposite infinities, or of zero times an infinity, the result is the default NaN; an element of an order compares by its value
(R243, R247, R248, R250, R340, R343). -/
def Obligations.FloatArithmeticRoundsToNearest : Prop :=
  ∀ (fmt : VFmt) (s : Shape), viewShape fmt = some s → ∀ a b c : Nat, a < 2 ^ s.width → b < 2 ^ s.width → c < 2 ^ s.width →
    (∀ u v, s.val a = some u → s.val b = some v →
      Nearest s (floatArith .add s a b c).1 (u + v) ∧ Nearest s (floatArith .sub s a b c).1 (u - v) ∧ Nearest s (floatArith .mul s a b c).1 (u * v)
      ∧ (∀ z, s.val c = some z → Nearest s (floatArith .fma s a b c).1 (u * v + z) ∧ Nearest s (floatArith .fms s a b c).1 (u * v - z))
      ∧ ((floatCmp .eq s a b).1 = true ↔ u = v) ∧ ((floatCmp .lt s a b).1 = true ↔ u < v) ∧ ((floatCmp .le s a b).1 = true ↔ u ≤ v)
      ∧ (u < v → (floatArith .min s a b c).1 = a ∧ (floatArith .max s a b c).1 = b))
    ∧ (∀ n v, s.decode a = .inf n → s.val b = some v → (floatArith .add s a b c) = (a, 0) ∧ (floatArith .sub s a b c) = (a, 0)
      ∧ (v = 0 → floatArith .mul s a b c = (s.defNan, Flag.inv)))
    ∧ ∀ n p, s.decode a = .inf n → s.decode b = .inf p → (n = p → floatArith .add s a b c = (a, 0) ∧ floatArith .sub s a b c = (s.defNan, Flag.inv))
      ∧ (n ≠ p → floatArith .add s a b c = (s.defNan, Flag.inv) ∧ floatArith .sub s a b c = (a, 0))

/-! The M stream. -/

/-- tcfg with formats that do not pair, or with NQ4 weights and K not 64, faults; with a unit occupied it slips; otherwise it sets m, n, K and the
formats, unbinds the scales, occupies the units for 80 slots, and clears planes and accumulators at +80. mscl binds, at +1, the scale code and the
super-scale of blocks b0 to b0 + 63 to the columns, block b's code at byte 260 (b / 256) + 4 + b mod 256 of the tensor and its super-scale at byte
260 (b / 256); an array in use and a write in flight to what it reads are slips (R151, R245, R253, R366, R372). While VALID is 0 ldsw, swap, mread, mscl
and an mma whose rows fit fault with cause 0x1A, and an mma whose rows do not fit is illegal; an mma with NQ4 weights and no binding faults. On a
configured engine swap exchanges the planes at +1 once every ldsw has reached its last row; mzero clears accumulator row j at 1 + j, whatever VALID;
an ldsw of K rows (64 with NQ4), an mma of m rows at 1, 4 or 16 slots a row and an mread begin when their source or port is ready and their unit free
(R253, R364-R371). DETAIL of cause 5 is the model's reading (log 29), as is the recording of both slips of one word (log 110). -/
def Obligations.MatrixIsConfiguredAndItsWordsBegin : Prop :=
  (∀ (s : State) (i : Issue) (x : Ctx) (c : Core), s.Issuing i x c →
    (∀ (g : BitVec 2) (m : BitVec 6) (n k : BitVec 2) (fa fw : BitVec 4),
     let ins := Instr.tcfg g m n k fa fw
     let four (f : Fmt) : Prop := f = .int4 ∨ f = .uint4 ∨ f = .e2m1
     let legal (a w : Fmt) : Prop := Fmt.ofCode fa = some a ∧ Fmt.ofCode fw = some w ∧ fa.toNat ≤ 0xB ∧ fw.toNat ≤ 0xB ∧ a ≠ .nq4
       ∧ pairingOk a w = true ∧ (w = .nq4 → k = 3)
     let busy := x.cslot < c.units.array ∨ x.cslot < c.units.loader ∨ x.cslot < c.units.reader
     ((¬∃ a w, legal a w) → Stops s ins i c 0x1A 0 0)
     ∧ ∀ a w, legal a w → (busy → Stops s ins i c 6 0 0)
       ∧ (¬busy → Completes s ins i x c (x.cslot + 1) fun _ d => (d.mat.valid = true ∧ d.mat.bound = false)
           ∧ (d.mat.m = m.toNat + 1 ∧ d.mat.n = 16 * (n.toNat + 1) ∧ d.mat.fa = a ∧ d.mat.fw = w)
           ∧ (four a ∧ four w → d.mat.k = 32 * (k.toNat + 1)) ∧ (¬(four a ∧ four w) → d.mat.k = 16 * (k.toNat + 1))
           ∧ (d.mat.active = c.mat.active ∧ d.mat.shadow = c.mat.shadow ∧ d.regs = c.regs)
           ∧ (d.units.array = x.cslot + 80 ∧ d.units.loader = x.cslot + 80 ∧ d.units.reader = x.cslot + 80)
           ∧ d.pend = c.pend ++ [result .clear .m x.cslot (x.cslot + 80) 0]))
    ∧ ∀ (d : Line) (g : BitVec 2) (h : BitVec 3) (gy gx : BitVec 5),
    c.mat.valid = true → c.mat.fw = .nq4 → x.tensor (c.h (0#1 ++ h)).toNat = some d → dSpace d < 2 → dRead d = true →
    dFmt d = some .uint8 → dDims d = 1 → dStr d 0 = 1 →
    let u := coords (c.g gx) (c.g gy)
    let code (n : Nat) : Nat := 260 * ((u.getD 0 0 + n) / 256) + 4 + (u.getD 0 0 + n) % 256
    let sup (n : Nat) : Nat := 260 * ((u.getD 0 0 + n) / 256)
    let byte (e : Nat) : Nat := ((x.space c (dSpace d == 1)).byte ((dBase d + e) ^^^ (64 * dPerm d))).toNat
    (∀ n < 64, code n < dExt d 0 ∧ sup n + 3 < dExt d 0) → u.getD 0 0 < dExt d 0 → u.getD 1 0 < dExt d 1 → u.getD 2 0 < dExt d 2 →
    u.getD 3 0 < dExt d 3 →
    (∀ n < 64, coldOk (dSpace d == 1) false ((dBase d + code n) ^^^ (64 * dPerm d)) 1 = true
      ∧ ∀ b < 4, coldOk (dSpace d == 1) false ((dBase d + (sup n + b)) ^^^ (64 * dPerm d)) 1 = true) →
    let at' (e : Nat) : Nat := (dBase d + e) ^^^ (64 * dPerm d)
    let touched := (List.range 64).flatMap fun n => at' (code n) :: (List.range 4).map fun b => at' (sup n + b)
    let lo := touched.foldl min (touched.headD 0)
    let range : Range := { pool := dSpace d == 1, lo, hi := touched.foldl max 0, write := false, upto := x.cslot }
    UnitSlips s (.mscl g h gy gx) i c (x.cslot < c.units.array) (x.hazard c range = true) lo
    ∧ (c.units.array ≤ x.cslot → x.hazard c range = false →
      Completes s (.mscl g h gy gx) i x c (x.cslot + 1) fun _ e => e.regs = c.regs ∧ e.units.array = x.cslot + 1
      ∧ e.pend = c.pend ++ (List.range 64).map fun n => result (.scale n) .m x.cslot (x.cslot + 1) (BitVec.ofNat 4096
          (byte (code n) + 256 * (byte (sup n) + 256 * byte (sup n + 1) + 65536 * byte (sup n + 2) + 16777216 * byte (sup n + 3))))))
  ∧ ∀ (s : State) (i : Issue) (x : Ctx) (c : Core), s.Issuing i x c → ∀ g : BitVec 2,
    let t := x.cslot
    let q := c.mat
    (q.valid = false → (∀ src gy gx, Stops s (.ldsw g src gy gx) i c 0x1A 0 0) ∧ Stops s (.swap g) i c 0x1A 0 0
      ∧ (∀ src ad acc gy gx ovr m, (if ovr then m.toNat + 1 else q.m) ≤ 16 * (4 - ad.toNat) → Stops s (.mma g src ad acc gy gx ovr m) i c 0x1A 0 0)
      ∧ (∀ src ad acc gy gx ovr m, 16 * (4 - ad.toNat) < (if ovr then m.toNat + 1 else q.m) → Stops s (.mma g src ad acc gy gx ovr m) i c 0x10 0 0)
      ∧ (∀ a port dst rnd sat first rows, Stops s (.mread g a port dst rnd sat first rows) i c 0x1A 0 0)
      ∧ ∀ h gy gx, Stops s (.mscl g h gy gx) i c 0x1A 0 0)
    ∧ (∀ ad : BitVec 2, (t < c.units.array → Stops s (.mzero g ad) i c 6 0 0)
      ∧ (c.units.array ≤ t → Completes s (.mzero g ad) i x c (t + 1) fun _ d => d.regs = c.regs ∧ d.units.array = t + 16
          ∧ d.pend = c.pend ++ (List.range 16).map fun j => result (.a ad.toNat j) .m t (t + (1 + j)) 0))
    ∧ (q.valid = true →
      (let loading := ∃ o ∈ c.ops, (∃ g src gy gx, o.instr = .ldsw g src gy gx) ∧ t < o.issue + o.rows - 1;
        (loading → Stops s (.swap g) i c 0x1A 0 0)
        ∧ (¬loading → t < c.units.array → Stops s (.swap g) i c 6 0 0)
        ∧ (¬loading → c.units.array ≤ t → Completes s (.swap g) i x c (t + 1) fun _ d => d.regs = c.regs ∧ d.mat = c.mat
            ∧ d.units.array = t + 1 ∧ d.pend = c.pend ++ [result .planes .m t (t + 1) 0]))
      ∧ (∀ (src : BitVec 4) (gy gx : BitVec 5),
          let n := if q.fw = .nq4 then 64 else q.k
          OperandReady x c src gy gx q.fw n (if q.fw = .nq4 then 64 else q.n) 1 →
            (t < c.units.loader → Stops s (.ldsw g src gy gx) i c 6 0 0)
            ∧ (c.units.loader ≤ t → Completes s (.ldsw g src gy gx) i x c (t + 1) fun _ d => ∃ o,
                Begins c d o (.ldsw g src gy gx) .m t n 1 ∧ d.regs = c.regs ∧ d.mat = c.mat ∧ d.pend = c.pend ∧ d.units.loader = t + n))
      ∧ (∀ (src : BitVec 4) (ad : BitVec 2) (acc : Bool) (gy gx : BitVec 5) (ovr : Bool) (m : BitVec 6),
          let ins := Instr.mma g src ad acc gy gx ovr m
          let n := if ovr then m.toNat + 1 else q.m
          let width := max q.fa.width q.fw.width
          let rate := if width ≤ 8 then 1 else if width = 16 then 4 else 16
          (16 * (4 - ad.toNat) < n → Stops s ins i c 0x10 0 0)
          ∧ (n ≤ 16 * (4 - ad.toNat) → q.fw = .nq4 → q.bound = false → (∀ p ∈ c.pend, ∀ b, p.dst ≠ .scale b) → Stops s ins i c 0x1A 0 0)
          ∧ (n ≤ 16 * (4 - ad.toNat) → (q.fw = .nq4 → q.bound = true) → OperandReady x c src gy gx q.fa n q.k rate →
              (t < c.units.array → Stops s ins i c 6 0 0)
              ∧ (c.units.array ≤ t → Completes s ins i x c (t + 1) fun _ d => ∃ o, Begins c d o ins .m t n rate
                  ∧ d.regs = c.regs ∧ d.mat = c.mat ∧ d.pend = c.pend ∧ d.units.array = t + rate * n)))
      ∧ ∀ (a port : BitVec 2) (dst : Fmt) (rnd : Rnd) (sat : Bool) (first rows : BitVec 4),
          let ins := Instr.mread g a port dst rnd sat first rows
          let n := rows.toNat + 1
          let ready := RowsFit c port n ∧ ∀ w, (c.outp port.toNat).walk = some w → dFmt w.desc = some dst
          (¬ready → Stops s ins i c 0x18 0 (8 + port.toNat))
          ∧ (ready → t < c.units.reader → Stops s ins i c 6 0 0)
          ∧ (ready → c.units.reader ≤ t → Completes s ins i x c (t + 1) fun _ d => ∃ o, Begins c d o ins .m t n 1
              ∧ o.phase = c.phase t ∧ d.regs = c.regs ∧ d.units.reader = t + n
              ∧ d.pend = c.pend ++ if rnd = .rdi then [result .dphase .m t (t + 1) 0] else []))

/-- Row j of an integer mma whose source is a handle lands at the slot of its last array slot + 80 with, in each of the N columns, the exact sum of
the K products modulo 2^64, added to the accumulator or in its place (R253, R254, R369). -/
def Obligations.MatrixRowsSumExactly : Prop :=
  ∀ (x : Ctx) (c : Core) (o : Op) (j : Nat) (g : BitVec 2) (src : BitVec 4) (ad : BitVec 2) (acc ovr : Bool) (gy gx : BitVec 5) (m : BitVec 6),
    o.instr = .mma g src ad acc gy gx ovr m → 8 ≤ src.toNat → j < o.rows → intClass c.mat.fa = true → c.mat.n ≤ 64 →
    let q := c.mat
    let a (k : Nat) : Int := intVal ((intSigned q.fa).getD true) q.fa.width (elem q.fa.width k (handleRow x c o j o.rows q.k))
    let w (k n : Nat) : Int := intVal ((intSigned q.fw).getD true) q.fw.width (elem q.fw.width n (SMap.get 0 q.active k).toNat)
    ∃ d p, mRow x c o j = .ok d ∧ d.pend = c.pend ++ [p] ∧ d.regs = c.regs ∧ d.mat = c.mat
      ∧ p.dst = .a (ad.toNat + j / 16) (j % 16) ∧ p.land = o.issue + o.period * j + 80 + o.period - 1
      ∧ p.acc = (if acc then .int else .set) ∧ (∀ b < 64, p.mask.getLsbD b = decide (b < q.n))
      ∧ ∀ n < q.n, (elem 64 n p.value.toNat : Int) = (((List.range q.k).map fun k => a k * w k n).foldl (· + ·) 0) % 2 ^ 64

/-- A row of an ldsw by handle puts its N elements into its row of the shadow plane, or with NQ4 its 64 elements into its column, and nothing else of
the planes; by port it takes the next entry. A row of an mma by port takes one entry, or two for more than 64 elements, and sums as one by handle does;
a row of a float mma gives the slice sums of R254 in each of the N columns, to be accumulated with the binding of the columns when it lands, or, where
the word starts a sum, accumulated to zero. A row of an mread leaves for its port at 6 + j with the first ROWLEN columns of its accumulator row, each
converted from the class of its issue, and a row for an old binding goes nowhere (R253, R254, R365, R367, R369, R371). -/
def Obligations.MatrixRowsLandTheirResults : Prop :=
  ∀ (x : Ctx) (c : Core) (o : Op) (j : Nat) (g : BitVec 2) (src : BitVec 4) (gy gx : BitVec 5), j < o.rows → c.mat.n ≤ 64 →
    let q := c.mat
    let port := src.toNat
    let p := c.inp port
    let out := mRow x c o j
    let pops (d : Core) (n : Nat) : Prop := (∀ i, i ≠ port → d.inp i = c.inp i) ∧ (d.inp port).entries = p.entries.drop n
      ∧ (d.inp port).popped = p.popped + n ∧ (d.inp port).res = p.res - n ∧ (d.inp port).walk = p.walk
    (o.instr = .ldsw g src gy gx →
      let puts (d : Core) (v : Nat) : Prop := d.regs = c.regs ∧ d.pend = c.pend ∧ d.mat = { q with shadow := d.mat.shadow }
        ∧ (q.fw ≠ .nq4 → ∀ r, (r ≠ j → SMap.get 0 d.mat.shadow r = SMap.get 0 q.shadow r)
            ∧ (r = j → ∀ n < q.n, q.fw.width * n < 2048 → elem q.fw.width n (SMap.get 0 d.mat.shadow r).toNat = elem q.fw.width n v))
        ∧ (q.fw = .nq4 → j < 64 → ∀ r < 64, ∀ n < 512, elem 4 n (SMap.get 0 d.mat.shadow r).toNat
            = if n = j then elem 4 r v else elem 4 n (SMap.get 0 q.shadow r).toNat)
      (8 ≤ port → ∃ d, out = .ok d ∧ d.inb = c.inb ∧ puts d (handleRow x c o j o.rows (if q.fw = .nq4 then 64 else q.n)))
      ∧ (port < 8 → p.entries = [] → p.lenient = false → out = .error { code := 1, detail := 0, port })
      ∧ ∀ e l, port < 8 → p.entries = e :: l → ∃ d, out = .ok d ∧ pops d 1 ∧ puts d e.value.toNat)
    ∧ (∀ (ad : BitVec 2) (acc ovr : Bool) (m : BitVec 6), o.instr = .mma g src ad acc gy gx ovr m →
      let lands (d : Core) (post : Pend → Prop) : Prop := ∃ z, d.pend = c.pend ++ [z] ∧ d.regs = c.regs ∧ d.mat = c.mat
        ∧ z.dst = .a (ad.toNat + j / 16) (j % 16) ∧ z.land = o.issue + o.period * j + 80 + o.period - 1
        ∧ (∀ b < 64, z.mask.getLsbD b = decide (b < q.n)) ∧ post z
      let column (n : Nat) : List Nat := (List.range q.k).map fun k => elem q.fw.width n (SMap.get 0 q.active k).toNat
      let bind (n : Nat) : Option (Nat × Nat) := if q.fw = .nq4 then
          some ((SMap.get 0 q.scale n).toNat % 2 ^ 8, (SMap.get 0 q.scale n).toNat / 2 ^ 8) else none
      let sums (a : List Nat) (z : Pend) : Prop :=
        (intClass q.fa = true → z.acc = (if acc then .int else .set) ∧ ∀ n < q.n, (elem 64 n z.value.toNat : Int) = intSlice q.fa q.fw a (column n) % 2 ^ 64)
        ∧ (intClass q.fa = false → let (wide, s) : Bool × Shape := if q.fa = .f32 ∨ q.fw = .f32 then (true, f64Shape) else (false, f32Shape)
          let sum (n : Nat) : Nat := (floatSlice q.fa q.fw a (column n)).1
          ∀ n < q.n, (acc = true → elem 64 n z.value.toNat = sum n % 2 ^ 64
              ∧ ∃ l, z.acc = .float wide l ∧ ∀ old v, accColumn z.acc old v n = accumulate old v s (bind n))
            ∧ (acc = false → z.acc = .set ∧ elem 64 n z.value.toNat = accumulate 0 (sum n) s (bind n) % 2 ^ 64))
      let elems (v : Nat) : List Nat := (List.range q.k).map fun k => elem q.fa.width k v
      (8 ≤ port → ∃ d, out = .ok d ∧ d.inb = c.inb ∧ lands d (sums (elems (handleRow x c o j o.rows q.k))))
      ∧ (port < 8 → p.entries = [] → p.lenient = false → out = .error { code := 1, detail := 0, port })
      ∧ (∀ e l, port < 8 → q.k ≤ 64 → p.entries = e :: l → ∃ d, out = .ok d ∧ pops d 1 ∧ lands d (sums (elems e.value.toNat)))
      ∧ ∀ e f l, port < 8 → 64 < q.k → p.entries = e :: f :: l → ∃ d, out = .ok d ∧ pops d 2 ∧ lands d (sums ((List.range q.k).map fun k =>
          if k < 64 then elem q.fa.width k e.value.toNat else if k < 128 then elem q.fa.width (k - 64) f.value.toNat else 0)))
    ∧ ∀ (a port : BitVec 2) (dst : Fmt) (rnd : Rnd) (sat : Bool) (first rows : BitVec 4), o.instr = .mread g a port dst rnd sat first rows →
      let u := c.outp port.toNat
      (u.walk = none ∨ u.gen ≠ o.index.headD 0 → out = .ok c)
      ∧ ∀ w, u.walk = some w → u.gen = o.index.headD 0 → RowLands c o out (.send port.toNat u.gen) (o.issue + 6 + j) fun z => z.mask = BitVec.allOnes 64
        ∧ ∀ n < pRow w.pat, dst.width * (n + 1) ≤ 4096 → elem dst.width n z.value.toNat = (convert (if o.index.getD 1 0 = 1 then .int64 else .f64) dst
            ⟨rnd, bitrev6 ((n + o.phase) % 64)⟩ sat (elem 64 n (c.acc a.toNat (first.toNat + j)).toNat)).1 % 2 ^ dst.width

/-! The X stream. -/

/-- xbind binds a walk to a free port, with START from its registers and its share of lanes; a spat in flight, a malformed entry, another counter, a
bound port, or a row of more than 32 elements of 64 bits is a pattern fault; lanes that do not fit slip with cause 10. xfree unbinds, and does
nothing to a port that is not bound; xmode.mesh names a core of the context at +1 (R146, R157, R331, R373-R376). -/
def Obligations.PortsAreBoundAndFreed : Prop :=
  ∀ (s : State) (i : Issue) (x : Ctx) (c : Core), s.Issuing i x c → ∀ g : BitVec 2,
    (∀ (port : BitVec 3) (pat : BitVec 6) (tc : BitVec 3) (len : Bool) (gx gy : BitVec 5) (out : Bool),
      let ins := Instr.xbind g port pat tc len gx gy out
      let p := pBind (c.pat pat.toNat) (c.g gx) (c.g gy)
      let flying := ∃ q ∈ c.pend, q.dst = .pat pat.toNat
      let bound := if out then (c.outp port.toNat).walk.isSome = true else (c.inp port.toNat).walk.isSome = true
      let shaped := pShape p = true ∧ pTc p = tc.toNat ∧ pLanes p ≤ x.field (if out then 0x061 else 0x060) 1
      let code := (if out then 8 else 0) + port.toNat
      let wide := 32 < pRow p ∧ ∃ d, x.tensor (pTid p) = some d ∧ dWidth d = 64
      (flying ∨ ¬shaped ∨ bound ∨ wide → Stops s ins i c 0x18 0 code)
      ∧ ∀ w, ¬flying → shaped → ¬bound → ¬wide → WalkLegal x p w true (if out then dOut else dIn) →
          (x.lanesOk c.cluster out (pLanes p) = false → Stops s ins i c 10 0 0)
          ∧ (x.lanesOk c.cluster out (pLanes p) = true → Completes s ins i x c (x.cslot + 1) fun y d => d.regs = c.regs ∧ d.pend = c.pend
              ∧ y.lanes = x.lanes ++ [{ cluster := c.cluster, out, lanes := pLanes p, upto := none, port := some (i.j, code) }]
              ∧ (out = false → (d.inp port.toNat).walk = some w ∧ (d.inp port.toNat).tc = tc.toNat ∧ (d.inp port.toNat).planNext = 0
                  ∧ (d.inp port.toNat).planX = x.cslot + 1 ∧ (d.inp port.toNat).lenient = (len || pLenient p)
                  ∧ (d.inp port.toNat).entries = [] ∧ (∀ n, n ≠ port.toNat → d.inp n = c.inp n) ∧ d.outb = c.outb)
              ∧ (out = true → (d.outp port.toNat).walk = some w ∧ (d.outp port.toNat).tc = tc.toNat ∧ (d.outp port.toNat).sent = 0
                  ∧ (∀ n, n ≠ port.toNat → d.outp n = c.outp n) ∧ d.inb = c.inb)))
    ∧ (∀ (port : BitVec 3) (out : Bool), Completes s (.xfree g port out) i x c (x.cslot + 1) fun _ d => d.regs = c.regs ∧ d.pend = c.pend
        ∧ (out = false → (d.inp port.toNat).walk = none ∧ ((c.inp port.toNat).walk.isSome = true → (d.inp port.toNat).entries = [])
            ∧ (∀ n, n ≠ port.toNat → d.inp n = c.inp n) ∧ d.outb = c.outb)
        ∧ (out = true → (d.outp port.toNat).walk = none ∧ (∀ n, n ≠ port.toNat → d.outp n = c.outp n) ∧ d.inb = c.inb))
    ∧ ∀ idx : BitVec 8, (8 * x.clusters ≤ idx.toNat → Stops s (.xmode g idx) i c 0x10 0 0)
      ∧ (idx.toNat < 8 * x.clusters → Completes s (.xmode g idx) i x c (x.cslot + 1) fun _ d => d.regs = c.regs
          ∧ d.pend = c.pend ++ [result .mesh .x x.cslot (x.cslot + 1) (BitVec.ofNat 4096 idx.toNat)])

/-- xin, xout and xcmv with a legal pattern, a cold range within its space and clear of every range in flight, room in the undo log, and, for a
crossing, lanes, request slots and ticks, enter the context's crossings with the bytes of their walk; a crossing asks for one access a granule.
xcopy, xded and xpref with a routine that is not loaded, or not permitted for them, take the fault 0x19; with the queue full they slip with cause
10; otherwise the command joins the cluster's queue, starting 6,144 slots on or when the one before it posts, an xpref at once; xpost joins what its
core has in flight (R133, R156-R160, R162-R165, R373, R377-R380). -/
def Obligations.CrossingsAndCommandsBegin : Prop :=
  ∀ (s : State) (i : Issue) (x : Ctx) (c : Core), s.Issuing i x c →
    (∀ (g : BitVec 2) (pat : BitVec 6) (tc : BitVec 3) (sp : CSpace) (off : BitVec 15) (p : Line) (w : Walk),
       c.entry pat = some p → pShape p = true → pTc p = tc.toNat →
       let pool := sp == .pool
       let o := 64 * off.toNat
       let n := cdiv w.bytes 64
       let dest (write : Bool) : Range := { pool, lo := o, hi := o + w.bytes - 1, write, upto := 0 }
       (∀ out : Bool, pLanes p ≤ x.laneShare out → WalkLegal x p w true (if out then dOut else dIn) →
         (w.bytes = 0 ∨ coldOk pool (!out) o w.bytes = true) →
         (0 < n → x.lanesOk c.cluster out (pLanes p) = true ∧ x.outstanding i.j + n ≤ 2048 ∧ x.ticksOk s.now (w.pages s.now x) = true
           ∧ x.hazard c (dest !out) = false ∧ (out = false → x.quotaOk c pool (linesOf o w.bytes) = true ∨ x.roll = true)) →
         Completes s (if out then .xout g pat tc sp off else .xin g pat tc sp off) i x c (x.cslot + 1) fun y d => d.regs = c.regs
           ∧ d.pend = c.pend ∧ d.cold = c.cold ∧ y.reqs.length = x.reqs.length + n ∧ y.charge = x.charge + n * 512 * s.now.cold.wx.toNat
           ∧ ∃ q, y.xings = x.xings ++ [q] ∧ q.id = x.nextReq ∧ q.core = i.j ∧ q.kind = (if out then 1 else 0) ∧ q.walk = w ∧ q.tc = tc.toNat
             ∧ q.pool = pool ∧ q.off = o ∧ q.bytes = w.bytes ∧ q.issue = x.cslot ∧ q.posted = false)
       ∧ ∀ d : Core, x.core? c.regs.mesh = some d → d.idx = c.regs.mesh → WalkLegal x p w false dRead →
         (∀ q ∈ w.coldBytes 0 w.bytes, coldOk (dSpace w.desc == 1) false q.2 1 = true) → (w.bytes = 0 ∨ coldOk pool true o w.bytes = true) →
         (w.bytes ≠ 0 → x.outstanding i.j + n ≤ 2048 ∧ x.hazard d (dest true) = false
           ∧ (let src := w.coldBytes 0 w.bytes;
               x.hazard c { pool := dSpace w.desc == 1, lo := src.foldl (fun a e => min a e.2) (src.headD (0, 0)).2
                            hi := src.foldl (fun a e => max a e.2) 0, write := false, upto := x.cslot + 2 * (n - 1) } = false)
           ∧ (x.quotaOk d pool (linesOf o w.bytes) = true ∨ x.roll = true)) →
         Completes s (.xcmv g pat tc sp off) i x c (x.cslot + 1) fun y e => e.regs = c.regs ∧ e.pend = c.pend ∧ e.cold = c.cold
           ∧ y.reqs = x.reqs ∧ ∃ q, y.xings = x.xings ++ [q] ∧ q.id = x.nextReq ∧ q.core = i.j ∧ q.kind = 2 ∧ q.target = d.idx
             ∧ q.hops = hops c.id d.id ∧ q.walk = w ∧ q.off = o ∧ q.bytes = w.bytes ∧ q.issue = x.cslot)
    ∧ ∀ (g : BitVec 2) (tc : BitVec 3),
    (∀ (kind : Fin 3) (src dst : BitVec 6) (routine : BitVec 6) (flags : BitVec 3) (down : Bool),
      let n := routine.toNat
      let ins : Instr := match kind with
        | 0 => .xcopy g src dst tc routine flags
        | 1 => .xded g src dst tc routine flags
        | 2 => .xpref g src tc routine down
      let pref := kind = 2
      (routineOk s.now kind.val n = false → Stops s ins i c 0x19 0 0)
      ∧ ∀ (ps pd : Line) (ws wd : Walk), routineOk s.now kind.val n = true → c.entry src = some ps → pForm ps = true →
        WalkLegal x ps ws true dRead → (if pref then wd = ws else c.entry dst = some pd ∧ pForm pd = true ∧ WalkLegal x pd wd true dWrite) →
        (¬pref → ∀ b, destBytes n ws = some b → wd.bytes = b) → (kind = 1 → wd.wholePages = true) →
        (n = 2 → dFmt ws.desc = some .nq4 ∧ dFmt wd.desc = some .b16) → (n = 1 → ws.width = 8 ∨ ws.width = 16 ∨ ws.width = 32) →
        (kind = 0 → 8 ≤ n → dFmt ws.desc = some .f32) →
          (16 ≤ (x.queued c.cluster).length → Stops s ins i c 10 0 0)
          ∧ ((x.queued c.cluster).length < 16 → Completes s ins i x c (x.cslot + 1) fun y d => SameArchitecture c d ∧ d.pend = c.pend
              ∧ y.reqs = x.reqs ∧ ∃ q, y.cmds = x.cmds ++ [q] ∧ q.id = x.nextReq ∧ q.core = i.j ∧ q.cluster = c.cluster ∧ q.kind = kind.val
                ∧ q.src = ws ∧ q.tc = tc.toNat ∧ q.routine = n ∧ q.bytes = ws.bytes ∧ q.posted = false
                ∧ q.start = if pref then x.cslot else max (x.cslot + 6144) (x.lastPost c.cluster)))
    ∧ Completes s (.xpost g tc) i x c (x.cslot + 1) fun y d => SameArchitecture c d ∧ d.pend = c.pend ∧ ∃ q, y.joins = x.joins ++ [q]
        ∧ q.core = i.j ∧ q.tc = tc.toNat ∧ q.issue = x.cslot ∧ (∀ n, n ∈ q.xings ↔ ∃ z ∈ x.xings, z.core = i.j ∧ z.posted = false ∧ z.id = n)
        ∧ (∀ n, n ∈ q.cmds ↔ ∃ z ∈ x.cmds, z.core = i.j ∧ z.kind ≠ 2 ∧ z.posted = false ∧ z.id = n)
        ∧ (q.err = true ↔ (∃ z ∈ x.xings, z.core = i.j ∧ z.posted = true ∧ z.err = true)
            ∨ ∃ z ∈ x.cmds, z.core = i.j ∧ z.kind ≠ 2 ∧ z.posted = true ∧ z.err = true)

/-! The host. -/

/-- The host queue registers: TAIL moves forward as far as a full ring, and any other value is dropped, counted and told in OVR; BASE, LOG2N and
CLASS change only while EN is 0, and setting EN clears HEAD and TAIL; writing 1 to OVR clears it; W2BASE takes its field and any write clears W2DISC
(R20, R21, R42, R43). -/
def Obligations.HostRegistersTakeWrites : Prop :=
  ∀ (s : State) (q : BitVec 3) (lane : Lane) (v : BitVec 64), s.Shaped →
    let h := s.now.queue q.toNat
    let v32 := v.toNat % 2 ^ 32
    let ahead (x : Nat) : Nat := (x + (2 ^ 32 - h.head.toNat)) % 2 ^ 32
    let only (ins : Instr) (post : HQueue → Prop) : Prop := Runs s ins fun M => post (M.queue q.toNat)
      ∧ (∀ n, n ≠ q.toNat → M.queue n = s.now.queue n)
      ∧ { M with host := { M.host with queues := s.now.host.queues, unsupported := s.now.host.unsupported } } = s.now
    only (.qtailWrite q lane v) (fun n => (lane = .high → n = h)
        ∧ (lane ≠ .high → (ahead v32 ≤ 2 ^ h.log2n.toNat ∧ ahead h.tail.toNat ≤ ahead v32 → n = { h with tail := BitVec.ofNat 32 v32 })
          ∧ (¬(ahead v32 ≤ 2 ^ h.log2n.toNat ∧ ahead h.tail.toNat ≤ ahead v32) →
              n = { h with ovr := true, dropped := BitVec.ofNat 32 (min (h.dropped.toNat + 1) (2 ^ 32 - 1)) })))
    ∧ only (.qbaseWrite q lane v) (fun n => (h.en = true ∨ lane = .high → n = h)
        ∧ (h.en = false → lane ≠ .high → n = { h with base := BitVec.ofNat 18 (v32 / 2 ^ 12) }))
    ∧ only (.qcfgWrite q lane v) (fun n => (lane = .high → n = h)
        ∧ (lane ≠ .high → h.en = true → n = { h with en := decide (v32 % 2 = 1) })
        ∧ (lane ≠ .high → h.en = false →
            let log := v32 / 16 % 16
            let cls := v32 / 4 % 4
            (log < 6 ∨ 12 < log ∨ cls = 3 → n = h)
            ∧ (6 ≤ log → log ≤ 12 → cls ≠ 3 → n.log2n = BitVec.ofNat 4 log ∧ n.cls = BitVec.ofNat 2 cls ∧ n.base = h.base
                ∧ (v32 % 2 = 1 → n.en = true ∧ n.head = 0 ∧ n.tail = 0) ∧ (v32 % 2 = 0 → n.en = false ∧ n.head = h.head ∧ n.tail = h.tail))))
    ∧ only (.qstatOvrClear q lane v) (fun n => (lane ≠ .high ∧ v32 % 2 = 1 → n = { h with ovr := false })
        ∧ (¬(lane ≠ .high ∧ v32 % 2 = 1) → n = h))
    ∧ Runs s (.w2baseWrite lane v) (fun M => M = { s.now with host := { s.now.host with w2base := M.host.w2base, unsupported := false } }
        ∧ M.host.w2base.toNat = match lane with
          | .full => v.toNat / 2 ^ 30 % 2 ^ 11
          | .low => s.now.host.w2base.toNat / 4 * 4 + v32 / 2 ^ 30
          | .high => v.toNat % 2 ^ 9 * 4 + s.now.host.w2base.toNat % 4)
    ∧ Runs s (.w2discClear lane v) fun M => M = { s.now with host := { s.now.host with w2disc := 0, unsupported := false } }

/-- A write by offset does what a write of the register there does, JWSEL takes its field, and every other location ignores it; an access that is
not 4 or 8 bytes, naturally aligned, is Unsupported Request; BAR2 reaches the window at W2BASE, reads all ones where nothing is populated, and
discards and counts writes there (R20-R22, R56). -/
def Obligations.WindowsReachTheirLocations : Prop :=
  ∀ s : State,
    (∀ (off : BitVec 22) (lane : Lane) (v : BitVec 64),
      let r := off.toNat / 8 * 8
      let q := BitVec.ofNat 3 (r / 0x2000)
      let page := 0x10000 ≤ r ∧ r < 0x20000
      let ins := Instr.registerWrite off lane v
      (page → r % 0x2000 = 0x00 → exec ins s = exec (.qbaseWrite q lane v) s) ∧ (page → r % 0x2000 = 0x08 → exec ins s = exec (.qcfgWrite q lane v) s)
      ∧ (page → r % 0x2000 = 0x10 → exec ins s = exec (.qtailWrite q lane v) s)
      ∧ (page → r % 0x2000 = 0x20 → exec ins s = exec (.qstatOvrClear q lane v) s)
      ∧ (r = 0x2000 → exec ins s = exec (.w2baseWrite lane v) s) ∧ (r = 0x2008 → exec ins s = exec (.w2discClear lane v) s)
      ∧ (r = 0x1020 → lane ≠ .high → Runs s ins fun M =>
          M = { s.now with host := { s.now.host with jwsel := BitVec.ofNat 7 v.toNat, unsupported := false } })
      ∧ (¬(page ∧ (r % 0x2000 = 0x00 ∨ r % 0x2000 = 0x08 ∨ r % 0x2000 = 0x10 ∨ r % 0x2000 = 0x20)) → r ≠ 0x2000 → r ≠ 0x2008 → r ≠ 0x1020 →
          Runs s ins fun M => M = { s.now with host := { s.now.host with unsupported := false } }))
    ∧ (∀ (read : Bool) (off : BitVec 22) (size : Nat), ¬((size = 4 ∨ size = 8) ∧ off.toNat % size = 0) →
        Runs s (.bar0UnsupportedAccess read off size) fun M => M.host.unsupported = true ∧ (read = true → M.host.data = none)
          ∧ { M with host := { M.host with unsupported := s.now.host.unsupported, data := s.now.host.data } } = s.now)
    ∧ (∀ (off : BitVec 36) (len : Nat), Runs s (.bar2Read off len) fun M => { M with host := { M.host with data := s.now.host.data } } = s.now
        ∧ ∃ l, M.host.data = some l ∧ l.length = len ∧ ∀ i < len,
          let a := s.now.host.w2base.toNat * 2 ^ 30 + off.toNat + i
          l[i]? = some (if s.now.populated (a / 65536) then s.warmByte a else 0xFF))
    ∧ ∀ (off : BitVec 36) (bytes : List Byte), Runs s (.bar2Write off bytes) fun M =>
        let base := s.now.host.w2base.toNat * 2 ^ 30 + off.toNat
        (∀ a, M.warm.mem.byte a = if base ≤ a ∧ a < base + bytes.length ∧ s.now.populated (a / 65536) = true then bytes.getD (a - base) 0
          else s.warmByte a)
        ∧ (M.host.w2disc.toNat = if ∀ i < bytes.length, s.now.populated ((base + i) / 65536) = true then s.now.host.w2disc.toNat
          else min (s.now.host.w2disc.toNat + 1) (2 ^ 32 - 1))
        ∧ M.warm.spaces = s.now.warm.spaces ∧ M.journal = s.now.journal ∧ M.host.memory = s.now.host.memory

/-- The command at the head of the queue whose turn it is, if it is of the event's kind: one that fails a check is rejected with its status, in the
journal and with HEAD past it; one that passes is accepted; a LAUNCH whose turn has come enters the launch queue of its priority, and any other such
command starts as COMMAND_START starts it (R45-R49, R55, R101). -/
def Obligations.CommandsAreTaken : Prop :=
  ∀ (s : State) (ins : Instr) (q : Nat) (ok : HostCmd → Bool) (frames : List Nat) (c : HostCmd), s.Shaped →
    takenBy ins = some (q, ok, frames) → s.now.headCmd q = some c → ok c = true →
    let M0 := s.now
    let n := M0.journal.next
    let passed (M : Mach) (kind status : Nat) : Prop := M.journal.next = n + 1 ∧ M.Holds M0.links.clock n kind c status n 0 c.words.toNat
      ∧ (M.queue q).head = (M0.queue q).head + 1 ∧ M.warm = M0.warm ∧ M.ctxs = M0.ctxs
    (M0.checkCmd c ≠ 0 → Runs s ins fun M => passed M 2 (M0.checkCmd c) ∧ M.cmds = M0.cmds ∧ M.launch = M0.launch)
    ∧ (M0.checkCmd c = 0 → ∃ A : Mach, passed A 1 0 ∧ A.cmds = M0.cmds ++ [c] ∧ A.launch = M0.launch
        ∧ (M0.turn c = false → Runs s ins fun M => M = A)
        ∧ (M0.turn c = true → c.kind = 1 → Runs s ins fun M => M = { A with launch := M.launch }
            ∧ ∀ p < 4, M.launch.getD p [] = M0.launch.getD p [] ++ if p = recField c.record 0x002 1 % 4 then
                [{ cmd := n, asid := c.asid, record := c.record, prio := p, since := M0.links.clock, blocked := none
                   ring := none, saved := none }] else [])
        ∧ (M0.turn c = true → c.kind ≠ 1 → Runs s ins fun M => exec (.commandStart n frames) { s with now := A } = .next { s with now := M }))

/-- A command that starts has its START entry, and does its work: a SIGNAL writes its value and ends at once; a MAP of named frames maps every page,
and fails over a mapped one; an UNMAP leaves no page of its range; COPYIN and COPYOUT move their bytes; an ABORT ends its target; TRACE makes or
drops the ring of its context, ACCOUNT writes its 128 bytes, WATCH arms its watchpoint, and QUOTE writes the quote; WATCH, TRACE and ACCOUNT of a
context that is not there fail (R38, R47-R52, R209-R211, R398). -/
def Obligations.CommandsDoTheirWork : Prop :=
  ∀ (s : State) (c : HostCmd) (frames : List Nat), s.now.cmd? c.seq = some c → c.state = .accepted → s.now.turn c = true → c.kind ≠ 1 →
    let M0 := s.now
    let n := M0.journal.next
    let starts (post : Mach → Prop) : Prop := Runs s (.commandStart c.seq frames) fun M =>
      M.Holds M0.links.clock n 3 c 0 c.seq 0 0 ∧ n < M.journal.next ∧ post M
    let done (M : Mach) (status detail : Nat) : Prop := M.cmd? c.seq = some { c with state := .started, result := some (status, detail) }
    let va := c.field 0x18 8
    let len := c.field 0x20 8
    let there (a : Nat) : Prop := ∃ p, M0.warm.leaf c.asid a = some p ∧ M0.warm.leaf c.asid (a / 65536 * 65536) = some p
      ∧ (pteMoor p.word = 0 ∨ pteMoor p.word = 1)
    let unknown := M0.placed c.asid = none ∧ M0.queued c.asid = false
    (c.kind = 7 → starts fun M => M.cmds = M0.cmds.filter (fun d => d.seq != c.seq) ∧ M.Holds M0.links.clock (n + 1) 4 c 0 c.seq 0 0
        ∧ M.host.msix = M0.host.msix ++ [c.queue] ∧ M.warm = M0.warm
        ∧ M.host.memory = if c.field 0x10 8 = 0 then M0.host.memory else M0.host.memory.write (c.field 0x10 8) 8 (c.field 0x18 8))
    ∧ (c.kind = 2 → M0.touches c.asid va len = true → starts fun M => done M 2 0 ∧ M.warm = M0.warm)
    ∧ (c.kind = 2 → M0.touches c.asid va len = false → c.field 0x28 8 ≠ 0 → starts fun M => done M 0 0
        ∧ (∀ a, ¬M.warm.tableByte a → M.warm.mem.byte a = M0.warm.mem.byte a)
        ∧ ∀ i < len / leafSize c.pageLevel, ∃ p, M.warm.leaf c.asid (va + leafSize c.pageLevel * i) = some p ∧ p.pinned = true
          ∧ p.word = pteWord (c.field 0x28 8 + leafSize c.pageLevel * i) ((c.field 0x30 1).testBit 4) ((c.field 0x30 1).testBit 5)
              ((c.field 0x30 1).testBit 6) false false false (if c.deep then 1 else 0))
    ∧ (c.kind = 3 → M0.wholePages c.asid va len = true → starts fun M => ∀ a, va ≤ a → a < va + len → M.warm.leaf c.asid a = none)
    ∧ (c.kind = 6 → (∀ i < c.field 0x28 8, there (va + i)) →
        starts fun M => done M 0 (c.field 0x28 8) ∧ M.warm = M0.warm
          ∧ ∀ i < c.field 0x28 8, ∀ p, M0.warm.phys c.asid (va + i) = some p → M.host.memory.byte (c.field 0x20 8 + i) = s.warmByte p)
    ∧ (c.kind = 5 → let bus := va; let dst := c.field 0x20 8;
        (∀ i < c.field 0x28 8, there (dst + i) ∧ ∀ p, M0.warm.leaf c.asid (dst + i) = some p → pteSh p.word = false) →
        starts fun M => done M 0 (c.field 0x28 8) ∧ M.host.memory = M0.host.memory
          ∧ ∀ i < c.field 0x28 8, ∀ p, M0.warm.phys c.asid (dst + i) = some p →
              (∀ j < c.field 0x28 8, M0.warm.phys c.asid (dst + j) = some p → j = i) → M.warm.mem.byte p = s.hostByte (bus + i))
    ∧ (c.kind = 8 → M0.cmd? (c.field 0x18 8) = none → starts fun M => M.cmds = M0.cmds.filter (fun d => d.seq != c.seq)
        ∧ ∃ detail, (detail = 1 ∨ detail = 2) ∧ M.Holds M0.links.clock (n + 1) 4 c 0 c.seq detail 0)
    ∧ (c.kind = 8 → ∀ d, M0.cmd? (c.field 0x18 8) = some d → d.seq ≠ c.seq → d.kind ≠ 8 → d.state = .accepted → starts fun M =>
        M.Holds M0.links.clock (n + 1) 5 d 5 d.seq 0 0 ∧ M.Holds M0.links.clock (n + 2) 4 c 0 c.seq 0 0
          ∧ M.cmds = M0.cmds.filter fun e => e.seq != c.seq && e.seq != d.seq)
    ∧ (c.kind = 9 → c.debug = 2 ∨ c.debug = 3 ∨ c.debug = 4 → M0.placed c.asid = none → M0.savedCtx c.asid = none → starts fun M =>
        M.Holds M0.links.clock (n + 1) 5 c 2 c.seq 0 0 ∧ M.cmds = M0.cmds.filter fun d => d.seq != c.seq)
    ∧ (c.kind = 9 → c.debug = 8 → M0.byAsid c.asid = none → starts fun M => done M 2 0 ∧ M.ctxs = M0.ctxs)
    ∧ (c.kind = 9 → c.debug = 1 → starts fun M => done M 0 30384
        ∧ M.warm.mem = M0.warm.mem.writeList (c.field 0x1A 4) (M0.quote (c.field 0x20 32)))
    ∧ (c.kind = 9 → c.debug = 5 → ∀ x, M0.placed c.asid = some x → c.field 0x1A 2 < x.watch.length → c.field 0x1A 2 < 4 → starts fun M =>
        done M 0 (if x.begun then x.cslot + (if x.done then 1 else 0) else 0)
          ∧ ∃ y, M.placed c.asid = some y ∧ y.header.debugged = true ∧ y.cores = x.cores ∧ ∃ w, y.watch[c.field 0x1A 2]? = some w ∧ w.hit = 0 ∧ w.untold = []
          ∧ w.addr.toNat = c.field 0x20 8 ∧ w.mask.toNat = c.field 0x28 8 ∧ w.ctl.toNat = c.field 0x30 8 % 2 ^ 16)
    ∧ (c.kind = 9 → c.debug = 6 → ∀ x, M0.placed c.asid = some x → let base := c.field 0x20 8; let size := c.field 0x28 8;
        starts fun M => done M 0 0 ∧ M.ctxs = M0.ctxs ∧ (M.traces = M0.traces.filter (fun t => t.slot != x.slot) ++ if size = 0 then [] else
          [{ slot := x.slot, base, size, mask := BitVec.ofNat 64 (c.field 0x30 8), woff := 32, dropped := 0 }])
          ∧ (size = 0 → M.warm = M0.warm)
          ∧ (size ≠ 0 → M.warm.mem.read base 8 = 32 ∧ M.warm.mem.read (base + 8) 8 = 32
              ∧ ∀ a, a < base ∨ base + 32 ≤ a → M.warm.mem.byte a = s.warmByte a))
    ∧ (c.kind = 9 → c.debug = 7 → ∀ x, M0.placed c.asid = some x → starts fun M => done M 0 0
        ∧ M.warm.mem = M0.warm.mem.write (c.field 0x20 8) 128 (pack 64 x.accountWords))
    ∧ (c.kind = 9 → c.debug = 5 ∨ c.debug = 6 ∨ (c.debug = 7 ∧ M0.savedCtx c.asid = none) → unknown → starts fun M => done M 2 0 ∧ M.warm = M0.warm
        ∧ M.ctxs = M0.ctxs ∧ M.traces = M0.traces)

/-! Keepers and module services. -/

/-- Every step keeps the shape of the module, in the machine and in the copy kept for the slot's rollback. -/
def Obligations.ShapeStays : Prop := ∀ s t : State, s.Shaped → step s = .next t → t.Shaped

/-- Reset returns every register to its reset value, the host queues, W2BASE, W2DISC and JWSEL, BOOTSTAT, ATTEMPTS, KHEAP and the measurements, the
cold stage's, the station clock, CORR, the fault rings and INVDONE among them, ends every context and command, and keeps memory, the drives, the
persisted journal and MSLOT; a boot stage takes the first of its two copies that verifies, its key against the fuses and its signature over header and
body, measures it and goes on, counts each copy that does not, and stops with its number if neither does: the key and the stage-one firmware of a
flash slot, the kernel, each routine, the configuration; without calibration data on either drive the kernel calibrates afresh; the last stage
restores the journal and appends BOOT (R18, R32-R36, R42, R56, R58, R88, R110, R212). -/
def Obligations.ResetAndBootFollowTheirStages : Prop :=
  ∀ s : State, s.Shaped →
    let K := s.now.keepers
    let up (a : BitVec 8) (n : Nat) : BitVec 8 := BitVec.ofNat 8 (min (a.toNat + n) 255)
    let good (f : FlashSlot) : Bool := FlashSlot.good f
    let loads (i : Image) : Bool := Image.good K.rootKey i && Image.routineOk i
    let takes (kind num : Nat) (ok : Image → Bool) (i : Image) (n : Nat) : Prop := ∃ l r, K.copies kind num = l ++ some i :: r ∧ l.length = n ∧ ok i = true
      ∧ ∀ j, some j ∈ l → ok j = false
    let none' (kind num : Nat) (ok : Image → Bool) : Prop := ∀ j, some j ∈ K.copies kind num → ok j = false
    (∃ t, exec .moduleReset s = .next t ∧ (t.todo = [] ∧ t.cur = none ∧ t.snap = none ∧ t.causes = [])
      ∧ (t.now.ctxs = [] ∧ t.now.cmds = [] ∧ t.now.launch = [[], [], [], []] ∧ t.now.traces = [])
      ∧ (t.now.host.queues = List.replicate 8 HQueue.reset ∧ t.now.host.jwsel = 0 ∧ t.now.host.w2base = 0 ∧ t.now.host.w2disc = 0)
      ∧ (t.now.keepers.bootPhase = 0 ∧ t.now.keepers.fstage = 0 ∧ t.now.keepers.attempts = 0 ∧ t.now.keepers.meas = List.replicate 8 0
        ∧ t.now.keepers.kheap = 0 ∧ t.now.keepers.loads = 0 ∧ t.now.keepers.routines = [])
      ∧ (t.now.cold.state = 0 ∧ t.now.cold.t4k = 0xFFFF ∧ t.now.cold.t40k = 0xFFFF ∧ t.now.cold.holds = 0 ∧ t.now.cold.calibrated = false)
      ∧ (t.now.links.clock = 0 ∧ t.now.links.corr = 0 ∧ t.now.links.locked = false ∧ t.now.links.ports = List.replicate 8 Port.reset)
      ∧ (t.now.warm.rings = List.replicate 16 Ring.reset ∧ t.now.warm.invdone = 0 ∧ t.now.warm.invseq = 0 ∧ t.now.warm.markers = [])
      ∧ (t.now.journal.next = s.now.journal.persisted ∧ t.now.journal.saved = s.now.journal.saved)
      ∧ (t.now.warm.mem = s.now.warm.mem ∧ t.now.warm.spaces = [] ∧ t.now.host.memory = s.now.host.memory)
      ∧ t.now.mslot = s.now.mslot ∧ t.now.keepers.flash = K.flash ∧ t.now.keepers.drives = K.drives)
    ∧ (∀ heap : BitVec 11, K.present.any id = false → Runs s (.bootPhase heap) fun M => M = s.now)
    ∧ (∀ heap : BitVec 11, K.present.any id = true → K.bootPhase = 0 →
      (∀ f, K.flash[0]? = some f → good f = true → Runs s (.bootPhase heap) fun M => M.keepers.bootPhase = 1 ∧ M.keepers.rootKey = f.key
        ∧ M.keepers.meas[0]? = some (extend (K.meas.getD 0 0) (Image.bytes f.image)) ∧ M.keepers.attempts = K.attempts)
      ∧ ((∀ f, K.flash[0]? = some f → good f = false) →
        (∀ f, K.flash[1]? = some f → good f = true → Runs s (.bootPhase heap) fun M => M.keepers.bootPhase = 1 ∧ M.keepers.rootKey = f.key
          ∧ M.keepers.meas[0]? = some (extend (K.meas.getD 0 0) (Image.bytes f.image)) ∧ M.keepers.attempts = up K.attempts 1)
        ∧ ((∀ f, K.flash[1]? = some f → good f = false) → Runs s (.bootPhase heap) fun M => M.keepers.bootPhase = 0xF ∧ M.keepers.fstage = 1
          ∧ M.keepers.attempts = up K.attempts 2 ∧ M.keepers.meas = K.meas)))
    ∧ (∀ heap : BitVec 11, K.present.any id = true → K.bootPhase = 1 →
      (heap = 0 ∨ 380 < heap.toNat → Runs s (.bootPhase heap) fun M => M = s.now)
      ∧ (heap ≠ 0 → heap.toNat ≤ 380 →
        (∀ i n, takes 1 0 (Image.good K.rootKey) i n → Runs s (.bootPhase heap) fun M => M.keepers.bootPhase = 2 ∧ M.keepers.kheap = heap
          ∧ M.keepers.attempts = up K.attempts n ∧ M.keepers.meas[1]? = some (extend (K.meas.getD 1 0) (Image.bytes i)))
        ∧ (none' 1 0 (Image.good K.rootKey) → Runs s (.bootPhase heap) fun M => M.keepers.bootPhase = 0xF ∧ M.keepers.fstage = 2
          ∧ M.keepers.attempts = up K.attempts (K.copies 1 0).length ∧ M.keepers.meas = K.meas)))
    ∧ (∀ heap : BitVec 11, K.present.any id = true → K.bootPhase = 2 →
      (∀ n ∈ builtIn, none' 2 n loads → Runs s (.bootPhase heap) fun M => M.keepers.bootPhase = 0xF ∧ M.keepers.fstage = 3)
      ∧ ((∀ n ∈ K.routineNums, ∃ i, takes 2 n loads i 0) → Runs s (.bootPhase heap) fun M => M.keepers.bootPhase = 3
        ∧ M.keepers.attempts = K.attempts ∧ ∀ n ∈ K.routineNums, ∀ i, takes 2 n loads i 0 →
            { num := n, s0 := i.s0, w := i.w, fmin := i.fmin } ∈ M.keepers.routines))
    ∧ (∀ heap : BitVec 11, K.present.any id = true → K.bootPhase = 3 →
      let whole : BitVec 4 := if K.lost.any id then 0xE else 4
      (∀ i n, takes 4 0 (Image.good K.rootKey) i n →
        (∀ j m, takes 3 0 (Image.good K.rootKey) j m → Runs s (.bootPhase heap) fun M => M.keepers.bootPhase = whole ∧ M.keepers.fresh = K.fresh
          ∧ M.keepers.attempts = up K.attempts (m + n) ∧ M.keepers.meas[3]? = some (extend (K.meas.getD 3 0) (Image.bytes j))
          ∧ M.keepers.meas[4]? = some (extend (K.meas.getD 4 0) (Image.bytes i)))
        ∧ (none' 3 0 (Image.good K.rootKey) → Runs s (.bootPhase heap) fun M => M.keepers.bootPhase = whole ∧ M.keepers.fresh = true
          ∧ M.keepers.meas[3]? = K.meas[3]? ∧ M.keepers.meas[4]? = some (extend (K.meas.getD 4 0) (Image.bytes i))))
      ∧ (none' 4 0 (Image.good K.rootKey) → Runs s (.bootPhase heap) fun M => M.keepers.bootPhase = 0xF ∧ M.keepers.fstage = 4))
    ∧ ∀ heap : BitVec 11, K.present.any id = true → K.bootPhase = 3 → K.loadData.bootPhase = 4 ∨ K.loadData.bootPhase = 0xE → Runs s (.bootPhase heap) fun M =>
        M.keepers.bootPhase = K.loadData.bootPhase ∧ M.host.msix = s.now.host.msix ++ [8] ∧ ∃ n, M.journal.next = n + 1
          ∧ SMap.get 0 M.journal.ring (n % 2 ^ 20) = journalEntry n s.now.links.clock 6 0xFF 0 0 n 0 (s.now.journal.persisted - 1) 0

/-- A started command whose work is done ends with its entry, then its signal, the SEQ of the entry with bit 63 set for FAIL, then its vector. With the keepers accepting, an image of an installed routine that
verifies is loaded, measured and counted, and one that does not is counted as an attempt; a quote request gets the quote; the journal goes to the
drives unless both are lost or boot has not restored it; a locked clock steps over an offset above 1 ms and slews over any other, and counts it (R33,
R36, R38-R39, R50, R53-R54, R56, R163, R212). A sparing change names a free place of the same group of 64 and 4 spares for a core or lane that no context
is placed on, a place of an HBM repair while no context is placed, or repairs a lane of a Dretex port; spares take over the numbers of lost keepers,
lowest first; the loss of the last keeper is the safe state, with the journal persisted; the loss of a drive is told in BOOTSTAT and by vector 8
(R11-R12, R25, R29, R184). -/
def Obligations.ServicesAnswerAndPartsAreReplaced : Prop :=
  (∀ s : State,
    let K := s.now.keepers
    let L := s.now.links
    (∀ (c : HostCmd) (status detail : Nat), s.now.cmd? c.seq = some c → c.state = .started → c.result = some (status, detail) →
      Runs s (.commandEnd c.seq) fun M => M.Holds L.clock s.now.journal.next (if status = 0 then 4 else 5) c status c.seq detail 0
        ∧ M.journal.next = s.now.journal.next + 1 ∧ M.cmds = s.now.cmds.filter (fun d => d.seq != c.seq)
        ∧ M.host.msix = s.now.host.msix ++ [c.queue] ∧ M.warm = s.now.warm
        ∧ let a := if c.kind = 1 then recField c.record 0x048 8 else c.field 0x10 8
          M.host.memory = if a = 0 ∨ c.kind = 7 then s.now.host.memory
            else s.now.host.memory.write a 8 (s.now.journal.next + if status = 0 then 0 else 2 ^ 63))
    ∧ (∀ i : Image, K.meas.length = 8 → s.now.accepting = true → i.kind = 2 → 16 ≤ i.num → i.num ≤ 63 → 1 ≤ i.w → i.w ≤ 65535 →
      (Image.good K.rootKey i = true → Runs s (.routineLoad i) fun M => M.keepers.meas[5]? = some (extend (K.meas.getD 5 0) (Image.bytes i))
        ∧ M.keepers.loads = K.loads + 1 ∧ { num := i.num, s0 := i.s0, w := i.w, fmin := i.fmin } ∈ M.keepers.routines
        ∧ (∀ r ∈ M.keepers.routines, r.num = i.num → r.s0 = i.s0 ∧ r.w = i.w) ∧ ∀ r ∈ K.routines, r.num ≠ i.num → r ∈ M.keepers.routines)
      ∧ (Image.good K.rootKey i = false → Runs s (.routineLoad i) fun M =>
          M = { s.now with keepers := { K with attempts := BitVec.ofNat 8 (min (K.attempts.toNat + 1) 255) } }))
    ∧ (∀ nonce : BitVec 256, s.now.accepting = true → Runs s (.quoteRequestMgmt nonce) fun M =>
        M = { s.now with keepers := { K with replies := K.replies ++ [s.now.quote nonce.toNat] } })
    ∧ (K.lost.any (!·) = true → s.now.accepting = true → Runs s .journalPersist fun M =>
        M = { s.now with journal := { s.now.journal with persisted := s.now.journal.next, saved := s.now.journal.ring,
                                                           ms := L.clock / 1000000 } })
    ∧ (K.lost.all id = true ∨ s.now.accepting = false → Runs s .journalPersist fun M =>
        M = { s.now with journal := { s.now.journal with ms := L.clock / 1000000 } })
    ∧ (∀ b : Bool, Runs s (.ptpLock b) fun M => M = { s.now with links := { L with locked := b } })
    ∧ ∀ n : Int, (L.locked = false ∨ n = 0 → Runs s (.clockCorrection n) fun M => M = s.now)
      ∧ (L.locked = true → n ≠ 0 → Runs s (.clockCorrection n) fun M => M.links.corr = BitVec.ofNat 32 (min (L.corr.toNat + 1) (2 ^ 32 - 1))
          ∧ M.links.corrections = L.corrections ++ [n]
          ∧ (1000000 < n → M.links.clock = L.clock + n.toNat ∧ M.links.slew = 0) ∧ (n ≤ 1000000 → M.links.clock = L.clock ∧ M.links.slew = n)))
  ∧ ∀ s : State, s.Shaped →
    let K := s.now.keepers
    let moved (before after : SMap Nat) (l p : Nat) : Prop := (SMap.find after l).getD (68 * (l / 64) + l % 64) = p
      ∧ ∀ q, q ≠ l → SMap.find after q = SMap.find before q
    let vacant (m : SMap Nat) (l p : Nat) : Prop := p / 68 = l / 64
      ∧ ∀ q, q / 64 = l / 64 → q ≠ l → (SMap.find m q).getD (68 * (q / 64) + q % 64) ≠ p
    let used (n : Nat) : Prop := ∃ x ∈ s.now.ctxs, x.taken.contains n = true
    (∀ l p : Nat, (l < 256 → ¬used (l / 8) → vacant s.now.cold.coreMap l p → Runs s (.sparingChange .core l p) fun M =>
        moved s.now.cold.coreMap M.cold.coreMap l p ∧ M = { s.now with cold := { s.now.cold with coreMap := M.cold.coreMap } })
      ∧ (l < 2048 → ¬used (l / 64) → vacant s.now.cold.laneMap l p → Runs s (.sparingChange .lane l p) fun M =>
        moved s.now.cold.laneMap M.cold.laneMap l p ∧ M = { s.now with cold := { s.now.cold with laneMap := M.cold.laneMap } })
      ∧ (s.now.ctxs = [] → Runs s (.sparingChange .hbm l p) fun M => SMap.find M.cold.hbmMap l = some p
        ∧ (∀ q, q ≠ l → SMap.find M.cold.hbmMap q = SMap.find s.now.cold.hbmMap q)
        ∧ M = { s.now with cold := { s.now.cold with hbmMap := M.cold.hbmMap } })
      ∧ (used (l / 8) → Runs s (.sparingChange .core l p) fun M => M = s.now) ∧ (used (l / 64) → Runs s (.sparingChange .lane l p) fun M => M = s.now)
      ∧ (s.now.ctxs ≠ [] → Runs s (.sparingChange .hbm l p) fun M => M = s.now))
    ∧ (∀ l p : Nat, let port := s.now.links.ports.getD (l % 8) Port.reset
        Runs s (.sparingChange .dretex l p) fun M => M.links.ports[l % 8]? = some { port with failed := port.failed - 1 }
          ∧ ∀ n, n ≠ l % 8 → M.links.ports[n]? = s.now.links.ports[n]?)
    ∧ (Runs s .keeperRestart fun M => M.keepers.present.length = 16 ∧ ∀ i < 16, M.keepers.present.getD i false
        = (K.present.getD i false || decide (((List.range i).countP fun j => !K.present.getD j false) < K.spares)))
    ∧ (∀ n : BitVec 4, K.present.getD n.toNat false = true → Runs s (.keeperHandlerFetchFault n) fun M =>
        M.keepers.present = setAt K.present n.toNat false
          ∧ ((setAt K.present n.toNat false).any id = true → M.keepers.bootPhase = K.bootPhase ∧ M.journal = s.now.journal)
          ∧ ((setAt K.present n.toNat false).any id = false → M.keepers.bootPhase = 0xF ∧ M.keepers.fstage = 0
              ∧ (K.lost.all id = false → s.now.accepting = true → M.journal.persisted = M.journal.next)))
    ∧ ∀ d : BitVec 1, Runs s (.nvmeDriveLost d) fun M => M.keepers.lost = setAt K.lost d.toNat true
        ∧ (K.bootPhase = 4 → M.keepers.bootPhase = 0xE) ∧ (K.bootPhase ≠ 4 → M.keepers.bootPhase = K.bootPhase)
        ∧ M.host.msix = s.now.host.msix ++ [8]

/-- The cooldown state goes 0, 1, 2, 3, 4 by a start, a cold stage at or below 4.500 K, a soak of 600 s and a passed calibration, which writes its
data to the drives; above 4.800 K a ready stage holds, and is ready again at 4.400 K; a stop or 300 s of a hold warms it, and every begun context is
then fatal, one that runs once it has frozen at its next slot; at 280 K it is off. COLDSTAT shows what was measured, READY no temperature above
4.800 K, and vector 8 tells each change (R16-R19, R35, R40, R133). -/
def Obligations.ColdStageFollowsItsThresholds : Prop :=
  ∀ s : State,
    let C := s.now.cold
    let at' (ins : Instr) (n : Fin 8) (post : Mach → Prop) : Prop := Runs s ins fun M => M.cold.state = n ∧ post M
    let told (M : Mach) : Prop := M.cold.entered = s.now.links.clock ∧ ∃ l, M.host.msix = s.now.host.msix ++ 8 :: l
    let fatal (M : Mach) : Prop := ∀ k x, s.now.ctx? k = some x → ∀ y, M.ctx? k = some y →
      (x.run = .running → ∃ q ∈ y.stops, q.cause.code = 0x30)
        ∧ (∀ a w n, x.run = .dwelling a w n → y.header.fatal = true ∧ y.header.cause = 0x30) ∧ ∀ a b, x.run = .frozen a b → y.header.fatal = true
    let held (n : Nat) : Prop := C.entered + n * 1000000000 ≤ s.now.links.clock
    (C.state = 0 → s.now.accepting = true → at' .keeperStartCommand 1 told)
    ∧ (C.state = 2 → held 600 → at' .soakTimeout 3 told)
    ∧ (C.state ≠ 2 ∨ ¬held 600 → Runs s .soakTimeout fun M => M = s.now)
    ∧ (C.state = 4 → at' .keeperStopCommand 6 fun M => told M ∧ fatal M) ∧ (C.state = 7 → at' .keeperStopCommand 6 told)
    ∧ (C.state = 5 → held 300 → at' .holdTimeout 6 fun M => told M ∧ fatal M)
    ∧ (C.state ≠ 5 ∨ ¬held 300 → Runs s .holdTimeout fun M => M = s.now)
    ∧ (∀ t u : Nat, s.now.monitored = true →
        let measured (M : Mach) : Prop := M.cold.t4k.toNat = min t 0xFFFF ∧ M.cold.t40k.toNat = min u 0xFFFF
        let goes (n : Fin 8) (post : Mach → Prop) : Prop := at' (.temperatureMeasurement t u) n fun M => measured M ∧ post M
        (C.state = 1 → t ≤ 4500 → goes 2 told) ∧ (C.state = 2 → 4500 < t → goes 1 told) ∧ (C.state = 5 → t ≤ 4400 → goes 4 told)
        ∧ (C.state = 4 → 4800 < t → goes 5 fun M => told M ∧ M.cold.holds = BitVec.ofNat 8 (min (C.holds.toNat + 1) 255))
        ∧ (C.state = 6 → 280000 ≤ t → goes 0 told)
        ∧ (¬(C.state = 1 ∧ t ≤ 4500 ∨ C.state = 2 ∧ 4500 < t ∨ C.state = 5 ∧ t ≤ 4400 ∨ C.state = 4 ∧ 4800 < t ∨ C.state = 6 ∧ 280000 ≤ t) →
            goes C.state fun M => M.ctxs = s.now.ctxs ∧ M.host = s.now.host))
    ∧ ∀ (data config : Option (List Byte)) (w : BitVec 64), C.state = 3 → at' (.calibrationDone false { data, config } w) 7 told
      ∧ (s.now.keepers.fresh = true → data = none → Runs s (.calibrationDone true { data, config } w) fun M => M = s.now)
      ∧ (s.now.keepers.fresh = false ∨ data ≠ none →
        let ends (M : Mach) : Prop := told M ∧ (M.cold.wx ++ M.cold.wm ++ M.cold.wv ++ M.cold.wi = w ∧ M.cold.calibrated = true)
          ∧ ∀ body, data = some body → let i := dataImage 3 body
            (config = none → ∀ (n : Nat) (d : List Image), s.now.keepers.drives[n]? = some d → s.now.keepers.lost[n]? = some false →
              M.keepers.drives[n]? = some (d.filter (fun j => j.kind != 3) ++ [i]))
            ∧ (s.now.keepers.fresh = true → 3 < s.now.keepers.meas.length → M.keepers.fresh = false
                ∧ M.keepers.meas[3]? = some (extend (s.now.keepers.meas.getD 3 0) (Image.bytes i)))
        (C.t4k.toNat ≤ 4800 → at' (.calibrationDone true { data, config } w) 4 ends)
        ∧ (4800 < C.t4k.toNat → at' (.calibrationDone true { data, config } w) 5 ends))

/-- A Dretex flit with a bad CRC changes nothing; one that comes during a retrain is held; any other frees what it acknowledges of the replay
buffer, which then takes what waits, 64 flits at most; and it is taken if it is the next of its class, with the message that it completes: a write,
read or atomic joins the operations to apply, an arrival at a barrier or the end of a replica is kept. The flits of a message that leaves have the
next numbers of its class, the last one completes it, and they stay in the replay buffer, or wait. A timeout sends a flit again; a first lane failure retrains the port, held flits flow when that ends, and the keepers
are told of both (R24-R26, R108, R122, R230). -/
def Obligations.DretexPortsDeliverInOrder : Prop :=
  ∀ s : State, s.Shaped → ∀ p : BitVec 3,
    let P (M : Mach) : Port := M.links.ports.getD p.toNat Port.reset
    let q := P s.now
    let others (M : Mach) : Prop := ∀ n, n ≠ p.toNat → M.links.ports[n]? = s.now.links.ports[n]?
    let still (M : Mach) : Prop := others M ∧ M.links.remote = s.now.links.remote ∧ M.ctxs = s.now.ctxs
    let filled (q r : Port) : Prop := r.replay = q.replay ++ q.heldOut.take (64 - q.replay.length) ∧ r.heldOut = q.heldOut.drop (64 - q.replay.length)
      ∧ r.wire = q.wire ++ q.heldOut.take (64 - q.replay.length)
    let acks (f : Flit) : Port := { q with replay := q.replay.filter fun g => decide (f.acks.getD g.cls 0 ≤ g.seq) }
    let next (f : Flit) : Prop := f.cls ≤ 2 ∧ f.seq = SMap.get 0 q.expect f.cls
    let sound (f : Flit) : Prop := crc32c (toBytes 252 f.payload.toNat) = f.crc
    (∀ f : Flit, ¬sound f → Runs s (.dretexFlitReceive p f) fun M => M = s.now)
    ∧ (∀ f : Flit, sound f → q.retraining = true → Runs s (.dretexFlitReceive p f) fun M => still M
        ∧ P M = { q with heldIn := q.heldIn ++ [f] })
    ∧ (∀ f : Flit, sound f → q.retraining = false →
        (¬next f → Runs s (.dretexFlitReceive p f) fun M => still M ∧ filled (acks f) (P M) ∧ (P M).expect = q.expect)
        ∧ (next f →
          let gets (post : Mach → Prop) : Prop := Runs s (.dretexFlitReceive p f) fun M => others M ∧ filled (acks f) (P M)
            ∧ (P M).expect = SMap.set 0 q.expect f.cls (f.seq + 1) ∧ (P M).next = q.next ∧ post M
          let queued (id : Nat) (m : Msg) : Prop := f.msg = some m → gets fun M =>
            M.links.remote = s.now.links.remote ++ [{ id, port := p.toNat, msg := m, halted := false }] ∧ M.ctxs = s.now.ctxs
          (f.msg = none → gets fun M => M.links.remote = s.now.links.remote ∧ M.ctxs = s.now.ctxs)
          ∧ (∀ src id deps asid cells, queued id (.write src id deps asid cells))
          ∧ (∀ src id deps asid addr op n v e, queued id (.atomic src id deps asid addr op n v e))
          ∧ (∀ src id deps asid addrs, queued id (.read src id deps asid addrs))
          ∧ (∀ src asid beacon t, f.msg = some (.barrier src asid beacon t) → gets fun M =>
              M.links.arrived = s.now.links.arrived ++ [{ src, asid, beacon := some beacon, slot := t }] ∧ M.ctxs = s.now.ctxs)
          ∧ (∀ src asid, f.msg = some (.complete src asid) → (∀ x, s.now.byAsid asid = some x → x.run ≠ .ended) → gets fun M =>
              M.links.arrived = s.now.links.arrived ++ [{ src, asid, beacon := none, slot := 0 }] ∧ M.ctxs = s.now.ctxs)
          ∧ ∀ bytes, f.msg = some (.keeper bytes) → gets fun M => M.links.remote = s.now.links.remote ∧ M.ctxs = s.now.ctxs))
    ∧ (∀ (home : Nat) (m : Msg), (Config.route home).val = p.toNat → let c := Msg.cls m
        ∃ l : List Flit, l ≠ [] ∧ l.getLast?.map (·.msg) = some (some m) ∧ (∀ (i : Nat) (f : Flit), l[i]? = some f →
            f.cls = c ∧ f.seq = SMap.get 0 q.next c + i ∧ sound f ∧ f.acks = (List.range 3).map (SMap.get 0 q.expect) ∧ (i + 1 < l.length → f.msg = none))
          ∧ let r := (s.now.links.emit home m).ports.getD p.toNat Port.reset
            SMap.get 0 r.next c = SMap.get 0 q.next c + l.length ∧ r.expect = q.expect
              ∧ (q.retraining = false → filled { q with heldOut := q.heldOut ++ l } r) ∧ (q.retraining = true → r.heldOut = q.heldOut ++ l ∧ r.wire = q.wire))
    ∧ (∀ n : Nat, Runs s (.dretexReplayTimeout p n) fun M => others M
        ∧ P M = { q with wire := q.wire ++ if q.retraining then [] else q.replay.filter fun f => f.seq == n })
    ∧ (Runs s (.dretexLaneFailure p) fun M => others M ∧ P M = { q with failed := q.failed + 1, retraining := q.retraining || q.failed == 0 }
        ∧ M.keepers.linkLog = s.now.keepers.linkLog ++ [.laneFailed p.toNat])
    ∧ (q.retraining = true →
        (q.heldIn = [] → Runs s (.dretexRetrainComplete p) fun M => still M ∧ (P M).retraining = false ∧ filled q (P M)
          ∧ M.keepers.linkLog = s.now.keepers.linkLog ++ [.retrained p.toNat])
        ∧ ∀ f src id deps asid cells, q.heldIn = [f] → next f → f.msg = some (.write src id deps asid cells) → f.acks = [] → q.heldOut = [] →
          Runs s (.dretexRetrainComplete p) fun M => (P M).retraining = false ∧ (P M).heldIn = []
            ∧ M.links.remote = s.now.links.remote ++ [{ id, port := p.toNat, msg := .write src id deps asid cells, halted := false }]
            ∧ (P M).expect = SMap.set 0 q.expect f.cls (f.seq + 1))
    ∧ (q.retraining = false → Runs s (.dretexRetrainComplete p) fun M => M = s.now)

/-! Launches and contexts. -/

/-- An accepted LAUNCH whose turn has come enters the launch queue of its priority while that has room; one that has waited 50 ms moves to the tail
of the next queue while that has room, or at a later millisecond, and no other moves; the head launch of each queue gets its undo ring on free
frames, and leaves with NOMEM where HBM has none and nothing can be moved; on free clusters, lanes and ticks the head of the highest queue is
placed, with its START entry, its CTXTR and empty TLBs, in the lowest place there is, on clusters that no other context has (R69, R76, R78,
R100-R104, R191). -/
def Obligations.LaunchesAgeAndArePlaced : Prop :=
  ∀ s : State, s.Shaped →
    let M0 := s.now
    let q (M : Mach) (n : Nat) : List Waiting := M.launch.getD n []
    (∀ c, M0.cmd? c.seq = some c →
      let p := recField c.record 0x002 1 % 4
      let free := c.kind = 1 ∧ c.state = .accepted ∧ M0.turn c = true ∧ (∀ l ∈ M0.launch, ∀ w ∈ l, w.cmd ≠ c.seq) ∧ (q M0 p).length < 64
      (free → Runs s (.launchEnqueue c.seq) fun M => { M with launch := M0.launch } = M0 ∧ ∀ n < 4, q M n = q M0 n ++ if n = p then
          [{ cmd := c.seq, asid := c.asid, record := c.record, prio := p, since := M0.links.clock, blocked := none, ring := none, saved := none }] else [])
      ∧ (¬free → Runs s (.launchEnqueue c.seq) fun M => M = M0))
    ∧ (Runs s .launchAging fun M => { M with launch := M0.launch } = M0
      ∧ (∀ n < 4, ∀ w ∈ q M0 n, w.rises M0.links.clock = false ∨ n = 3 → w ∈ q M n)
      ∧ (∀ n < 3, ∀ l w r, q M0 n = l ++ w :: r → w.rises M0.links.clock = true → (∀ u ∈ l, u.rises M0.links.clock = false) →
          (q M0 (n + 1)).length < 64 → { w with since := M0.links.clock, blocked := none } ∈ q M (n + 1))
      ∧ ∀ w ∈ q M0 2, w.rises M0.links.clock = true → 64 ≤ (q M0 3).length → { w with blocked := some (M0.links.clock / 1000000) } ∈ q M 2)
    ∧ (∀ w : Waiting, w.rises M0.links.clock = true ↔ w.since + 50000000 ≤ M0.links.clock ∧ ∀ n, w.blocked = some n → n < M0.links.clock / 1000000)
    ∧ (∀ (f p : Nat) (w : Waiting) (frames : List Nat), p < 4 → (q M0 p).head? = some w → w.ring = none →
        (∀ n, p < n → n < 4 → M0.ringFor (f :: frames) n = none) →
        let n := 16 * recUndo w.record
        (M0.ringFree f n = true → Runs s (.undoRingAllocate (f :: frames)) fun M =>
          q M p = { w with ring := some f } :: (q M0 p).drop 1 ∧ (∀ l, l ≠ p → q M l = q M0 l)
          ∧ M.warm.used = M0.warm.used ++ [(f, n)] ∧ M.ctxs = M0.ctxs ∧ M.cmds = M0.cmds)
        ∧ (M0.ringFree f n = false → M0.ringFits n = false → M0.stuck = true → M0.freeing = false →
          Runs s (.undoRingAllocate (f :: frames)) fun M => q M p = (q M0 p).drop 1 ∧ (∀ d ∈ M.cmds, d.seq ≠ w.cmd) ∧ M.warm = M0.warm))
    ∧ ∀ (p f : Nat) (w : Waiting) (place : Place), M0.head? = some (p, w) → M0.cold.state = 4 → M0.safe = false → w.saved = none → M0.holdsAsid w.asid = false →
        w.ring = some f → placeAmong M0.ctxs w.record (M0.timesOf w.asid w.record) none = some place →
        Runs s .launchPlace fun M => q M p = (q M0 p).drop 1 ∧ (∀ n, n ≠ p → q M n = q M0 n)
          ∧ (∀ c, M0.cmd? w.cmd = some c → M.Holds M0.links.clock M0.journal.next 3 c 0 c.seq 0 0)
          ∧ M.warm.mem = M0.warm.mem ∧ (∃ v : BitVec 64, (place.slot, v) ∈ M.warm.ctxtrs ∧ v.setWidth 8 = w.asid)
          ∧ ∃ x, M.ctxs = M0.ctxs ++ [x] ∧ x.slot = place.slot ∧ (∀ y ∈ M0.ctxs, y.slot ≠ x.slot)
            ∧ (∀ c ∈ x.cores, ∀ e ∈ M.warm.tlbs, e.source < 4096 → e.source / 16 ≠ c.id)
            ∧ x.asid = w.asid ∧ x.record = w.record
            ∧ x.cmd = w.cmd ∧ x.phase = place.phase ∧ x.run = .loading ∧ x.ringAt = (f, 16 * recUndo w.record)
            ∧ ∀ y ∈ M0.ctxs, ∀ n ∈ place.clusters, n ∉ y.taken

/-- A code object that loads puts its words into the stores, and the context starts at the next MSLOT of its phase; one that does not ends the
launch. At its start, and at each serial iteration, every core that takes part stands at its entry points with the registers of R104, and a window
opens; a saved context is restored at its own phase and slot, with its registers and cold banks (R97-R106, R183, R187, R392). -/
def Obligations.ContextsLoadStartAndReturn : Prop :=
  ∀ (s : State) (k : Nat), s.Shaped →
    let M0 := s.now
    let started (x y : Ctx) : Prop := ∀ j c, x.core? j = some c → c.idle = false → ∃ d, y.core? j = some d
      ∧ (d.s.pc = x.entryOf 0 ∧ d.v.pc = x.entryOf 1 ∧ d.m.pc = x.entryOf 2 ∧ d.x.pc = x.entryOf 3 ∧ d.s.loops = [] ∧ d.s.xfer = none)
      ∧ (∀ r : BitVec 5, d.g r = if r = 2 then 0x1C000 else if r = 3 then x.code.gp else if r = 4 then x.code.got else if r = 29 then 0xE00
          else if r = 30 then BitVec.ofNat 64 c.id else if r = 31 then y.coordWord c else 0)
      ∧ (∀ n < 8, (d.tc n).value = BitVec.ofNat 64 (x.field (0x070 + n) 1) ∧ (d.tc n).err = false ∧ d.tk n = BitVec.allOnes 64)
      ∧ (∀ n, (d.mb n).valid = false) ∧ d.pend = [] ∧ d.ops = [] ∧ d.cold = c.cold
    (∀ x, M0.ctx? k = some x →
      (∀ o : Nat, x.run = .starting o → o ≤ M0.mslot → Becomes s (.contextStart k) fun y => y.run = .running ∧ y.origin = M0.mslot ∧ y.cslot = 0
        ∧ y.heat = 0 ∧ y.opening = some [] ∧ (x.cslot = 0 → started x y))
      ∧ (∀ o : Nat, x.run = .starting o → M0.mslot < o → Becomes s (.contextStart k) fun y => y = x)
      ∧ (∀ l, x.run = .running → x.next = some x.cslot → nextSerial x.serialExtents x.serial = some l →
          Becomes s (.serialIterationStart k) fun y => y.serial = l ∧ y.next = none ∧ y.opening = some [] ∧ y.lastCkpt = x.cslot ∧ started x y)
      ∧ (∀ (bases frames : List Nat) (N : Mach) (l : Loaded), x.run = .loading → M0.loaderHalted = false → M0.safe = false → x.header.nomem = false →
          M0.load x bases frames = (N, .ok l) → Runs s (.codeLoad k bases frames) fun M => ∃ y o, M = N.setCtx y ∧ y.slot = k
            ∧ y.run = .starting o ∧ M0.mslot ≤ o ∧ o % 4096 = x.phase % 4096 ∧ o < M0.mslot + 4096 ∧ y.code = l.code
            ∧ ∀ j c, x.core? j = some c → c.idle = false → ∃ d, y.core? j = some d ∧ d.cold = l.cold ∧ d.s.store = l.stores.getD 0 []
              ∧ d.v.store = l.stores.getD 1 [] ∧ d.m.store = l.stores.getD 2 [] ∧ d.x.store = l.stores.getD 3 [])
      ∧ ∀ (bases frames : List Nat) (N : Mach), x.run = .loading → M0.loaderHalted = false → M0.safe = false → x.header.nomem = false →
          M0.load x bases frames = (N, .error .illegal) → Runs s (.codeLoad k bases frames) fun M =>
            (N.movesOf x = [] → ∀ y ∈ M.ctxs, y.slot ≠ k) ∧ ∀ y, M.ctx? k = some y → y.run = .gone)
    ∧ ∀ (p : Nat) (w : Waiting) (y : Ctx) (place : Place), M0.head? = some (p, w) → w.saved = some y → M0.cold.state = 4 → M0.safe = false →
        placeAmong M0.ctxs y.record y.code.time (some y.phase) = some place → Runs s (.restore y.asid) fun M =>
          M.launch.getD p [] = (M0.launch.getD p []).drop 1 ∧ ∃ x, M.ctxs = M0.ctxs ++ [x] ∧ x.slot = place.slot ∧ x.cslot = y.cslot
            ∧ x.phase = y.phase ∧ x.run = y.run ∧ x.serial = y.serial ∧ x.pools = y.pools
            ∧ ∀ j c, y.core? j = some c → ∃ d, x.core? j = some d ∧ d.regs = c.regs ∧ d.mat = c.mat ∧ d.cold = c.cold ∧ d.s = c.s

/-- At a wheel point of a begun context HEAT falls by HEATA, to no less than -4 HEATA; at the module's wheel points E is the charge of sixteen
wheels: above 28,672,000,000 the foghorn sounds, with an interrupt to the keepers, at or below 20,480,000,000 it is clear, and from 64 wheels in a row above 40,960,000,000 on every
running context is stopped (R134, R136-R138). -/
def Obligations.HeatFallsAtWheelPoints : Prop :=
  ∀ s : State,
    let M0 := s.now
    let C := M0.cold
    let e := C.history.foldl (· + ·) C.charge
    (∀ k x, M0.ctx? k = some x →
      let point := x.begun = true ∧ M0.mslot % 4096 = x.phase ∧ ¬(x.run = .running ∧ M0.mslot = x.origin)
      (¬point → Becomes s (.wheelPoint k) fun y => y = x)
      ∧ (point → Becomes s (.wheelPoint k) fun y => y.heat = max (x.heat - x.allow) (-4 * x.allow) ∧ y.cslot = x.cslot ∧ y.cores = x.cores
          ∧ ((∀ a, x.run ≠ .dwelling a 0 2) ∨ C.foghorn = true → y.run = x.run)
          ∧ ∀ a, x.run = .dwelling a 0 2 → C.foghorn = false → a < M0.mslot → ∃ w, y.run = .dwelling a w 2 ∧ M0.mslot ≤ a + 4096 * w
              ∧ a + 4096 * w < M0.mslot + 4096))
    ∧ (M0.mslot % 4096 ≠ 0 → Runs s .heatEvaluation fun M => M = M0)
    ∧ (M0.mslot % 4096 = 0 → Runs s .heatEvaluation fun M => M.cold.charge = 0 ∧ M.cold.history = (C.charge :: C.history).take 15
        ∧ (28672000000 < e → M.cold.foghorn = true) ∧ (e ≤ 20480000000 → M.cold.foghorn = false)
        ∧ (20480000000 < e → e ≤ 28672000000 → M.cold.foghorn = C.foghorn)
        ∧ (28672000000 < e → C.foghorn = false → M.keepers.foghornIrq = true)
        ∧ (e ≤ 40960000000 → M.cold.hot = 0) ∧ (40960000000 < e → M.cold.hot = C.hot + 1)
        ∧ (40960000000 < e → C.hot + 1 < 64 → M.ctxs = M0.ctxs)
        ∧ (40960000000 < e → 64 ≤ C.hot + 1 → ∀ n : Nat, ∀ x, M0.ctxs[n]? = some x → x.live = true →
            (x.asked 0x30 = true → M.ctxs[n]? = some x)
            ∧ (x.asked 0x30 = false → ∃ y q, M.ctxs[n]? = some y ∧ y.stops = x.stops ++ [q] ∧ q.cause.code = 0x30 ∧ q.slot = x.nextStop)))

/-- At the release slot of a barrier the cores held at it go on, their streams moved by the slots of the hold; with HEAT above zero the context
first dwells for the wheels that bring it down, and with the foghorn until that is clear; at a system barrier its arrivals go to the other replicas,
once, and the arrivals of every replica end a stop with its wheel (R26, R114, R121, R122, R135, R137). -/
def Obligations.BarriersReleaseTheirCores : Prop :=
  ∀ (s : State) (k : Nat) (x : Ctx) (b : BitVec 3) (inst : Nat), s.Shaped → s.now.ctx? k = some x →
    let r := x.cslot
    let due := x.run = .running ∧ x.releaseSlot b.toNat inst = some r
    let hot := 0 < x.heat ∧ x.dwelt ≠ some (2 * r) ∧ x.dwelt ≠ some (2 * r + 1)
    let horn := s.now.cold.foghorn = true ∧ x.dwelt ≠ some (2 * r + 1)
    let goes (post : Ctx → Prop) : Prop := Runs s (.barrierRelease k b inst) fun M => ∃ y, M.ctx? k = some y ∧ y.cslot = r ∧ post y
    (¬due → Runs s (.barrierRelease k b inst) fun M => M = s.now)
    ∧ (due → x.beacon b.toNat = 4 → x.replay = none → s.now.links.allArrived x (some b) r = false → goes fun y =>
        y.run = .dwelling s.now.mslot 0 3 ∧ y.cores = x.cores)
    ∧ (due → x.beacon b.toNat = 4 → x.replay = none → x.signalled.contains (b.toNat, r) = false → Runs s (.barrierRelease k b inst) fun M =>
        M.links = x.others.foldl (fun L h => L.emit h (.barrier Config.self.toNat x.asid b r)) s.now.links)
    ∧ (due → x.beacon b.toNat ≠ 4 ∨ x.replay ≠ none ∨ s.now.links.allArrived x (some b) r = true →
      (hot → goes fun y => y.dwelt = some (2 * r) ∧ y.cores = x.cores ∧ ∃ w, y.run = .dwelling s.now.mslot w 0
          ∧ x.heat ≤ w * max 1 x.allow ∧ (w - 1) * max 1 x.allow < x.heat)
      ∧ (¬hot → horn → goes fun y => y.run = .dwelling s.now.mslot 0 2 ∧ y.cores = x.cores)
      ∧ (¬hot → ¬horn → goes fun y => y.run = .running ∧ ∀ j c, x.core? j = some c →
          (∀ t, c.barred = some (b.toNat, t) → x.instance' b.toNat c.cluster = inst → y.core? j = some { c.shift (r - 1 - t) with barred := none })
          ∧ ((∀ t, c.barred ≠ some (b.toNat, t)) ∨ x.instance' b.toNat c.cluster ≠ inst → y.core? j = some c)))
    ∧ ∀ a, x.run = .dwelling a 0 3 →
      (s.now.links.allArrived x (some b) r = false → Runs s (.systemBarrierArrivals k b) fun M => M = s.now)
      ∧ (s.now.links.allArrived x (some b) r = true → Becomes s (.systemBarrierArrivals k b) fun y => y.cores = x.cores
          ∧ ∃ w, 1 ≤ w ∧ y.run = .dwelling a w 3 ∧ s.now.mslot ≤ a + 4096 * w ∧ (w = 1 ∨ a + 4096 * w < s.now.mslot + 4096))

/-- The hold of a checkpoint ends with its last slot, the streams moved by it; a context that reaches its limit with no checkpoint takes the fault
0x1D; the halt line of a core rises once all that it issued has ended (R107, R114, R124). -/
def Obligations.HoldsAndHaltsEnd : Prop :=
  ∀ (s : State) (k : Nat) (x : Ctx), s.Shaped → s.now.ctx? k = some x →
    (x.run = .running → Becomes s (.checkpointHoldEnd k) fun y => y.cslot = x.cslot ∧ ∀ j c, x.core? j = some c →
      (∀ a u, c.hold = some (a, u) → u < x.cslot → y.core? j = some { c.shift (u - a) with hold := none })
      ∧ ((∀ a u, c.hold = some (a, u) → x.cslot ≤ u) → y.core? j = some c))
    ∧ (∀ c, x.run = .running → x.lastCkpt + x.field 0x050 4 = x.cslot → (∀ d ∈ x.cores, d.ckpt = none) → x.cores.find? (fun c => !c.idle) = some c →
        exec (.checkpointOverdue k) s = .next { s with causes := s.causes ++ [{ core := c.idx, lid := c.id, code := 0x1D, stream := 4, word := 0, port := 0, detail := 0 }] })
    ∧ (x.lastCkpt + x.field 0x050 4 ≠ x.cslot ∨ (∃ d ∈ x.cores, d.ckpt ≠ none) → exec (.checkpointOverdue k) s = .next s)
    ∧ ∀ j c, x.core? j = some c →
      (x.run = .running → x.halts c = true → Becomes s (.haltRetire k j) fun y => y.core? j = some { c with line := some x.cslot }
        ∧ ∀ l, l ≠ j → y.core? l = x.core? l)
      ∧ (x.halts c = false → Becomes s (.haltRetire k j) fun y => y = x)

/-! Freezes. -/

/-- A thaw that the disposition of the cause allows is kept with its MSLOT, and any other write of THAW does nothing; a keeper writes registers of
a core, HEAT and HEATA, LPLIM and OCAP, and cold storage through the window of a frozen context; a thawed context resumes at the first MSLOT, 64 slots or more later, that keeps its
phase, in its own slot; a dwell ends with its wheels; an acknowledgement is kept, and ends the interrupt (R125, R136, R143, R172, R177, R178). -/
def Obligations.ContextsThawAndResume : Prop :=
  ∀ (s : State) (k : Nat) (x : Ctx), s.now.ctx? k = some x →
    let now := s.now.mslot
    let runs (M : Mach) : Prop := ∃ y, M.ctx? k = some y ∧ y.run = .running ∧ y.cslot = x.cslot ∧ y.origin = now - x.cslot ∧ y.cores = x.cores
    (∀ v : BitVec 64, (v.getLsbD 0 = false ∨ x.mayThaw = false → Runs s (.thawWrite k { reg := .thaw, v }) fun M => M = s.now)
      ∧ ∀ a, v.getLsbD 0 = true → x.mayThaw = true → x.run = .frozen a none → Runs s (.thawWrite k { reg := .thaw, v }) fun M =>
          ∃ y, M.ctx? k = some y ∧ y.run = .frozen a (some now) ∧ y.cores = x.cores ∧ y.cslot = x.cslot)
    ∧ (∀ (a : Nat) (t : Option Nat) (j : Nat) (c : Core) (v : BitVec 64), x.run = .frozen a t → x.core? j = some c → c.idx = j →
        let writes (reg : WindowReg) (post : Core → Prop) : Prop := Becomes s (.thawWrite k { reg, v }) fun y =>
          (∃ d, y.core? j = some d ∧ d.s = c.s ∧ d.cold = c.cold ∧ d.mat = c.mat ∧ post d) ∧ (∀ l, l ≠ j → y.core? l = x.core? l) ∧ y.run = x.run
        (∀ r : BitVec 5, writes (.g j r) fun d => (∀ q : BitVec 5, d.g q = if q = r ∧ r ≠ 0 then v else c.g q) ∧ d.inb = c.inb ∧ d.outb = c.outb)
        ∧ (∀ i < 8, writes (.sreg j (BitVec.ofNat 12 (0x180 + i))) fun d => d.regs = c.regs
            ∧ d.inp i = { c.inp i with min := v.toNat % 2 ^ 11, cap := v.toNat / 2 ^ 16 % 2 ^ 11 } ∧ ∀ n, n ≠ i → d.inp n = c.inp n)
        ∧ (∀ i < 4, writes (.sreg j (BitVec.ofNat 12 (0x188 + i))) fun d => d.regs = c.regs ∧ d.inb = c.inb
            ∧ d.outp i = { c.outp i with cap := v.toNat % 2 ^ 12 } ∧ ∀ n, n ≠ i → d.outp n = c.outp n)
        ∧ (∀ r : BitVec 3, (writes (.p j r) fun d => d.inb = c.inb ∧ ∀ q : BitVec 3, d.p q = if q = r ∧ r ≠ 0 then v.getLsbD 0 else c.p q)
            ∧ (writes (.tk j r) fun d => d.inb = c.inb ∧ ∀ n, d.tk n = if n = r.toNat then v else c.tk n)
            ∧ (writes (.tc j r) fun d => d.inb = c.inb ∧ ∀ n, d.tc n = if n = r.toNat then { c.tc n with value := v } else c.tc n)
            ∧ (writes (.m j r) fun d => d.inb = c.inb ∧ ∀ n, d.mb n = if n = r.toNat then { c.mb n with value := v } else c.mb n)
            ∧ ∀ row : BitVec 4, writes (.k j r row) fun d => d.inb = c.inb
                ∧ ∀ (q : BitVec 3) (n : Nat), n < 16 → d.k q n = if q = r ∧ n = row.toNat ∧ r ≠ 0 then v else c.k q n)
        ∧ (∀ r : BitVec 2, writes (.lc j r) fun d => d.inb = c.inb ∧ ∀ q : BitVec 2, d.lc q = if q = r then v.setWidth 32 else c.lc q)
        ∧ (∀ r : BitVec 4, writes (.h j r) fun d => d.inb = c.inb ∧ ∀ q : BitVec 4, d.h q = if q = r then v.setWidth 16 else c.h q)
        ∧ (Becomes s (.thawWrite k { reg := .sreg j 0x040, v }) fun y => y = { x with heat := v.toInt })
        ∧ (Becomes s (.thawWrite k { reg := .sreg j 0x041, v }) fun y => y = { x with allow := v.toNat })
        ∧ (∀ w : BitVec 14, Becomes s (.thawWrite k { reg := .cold j w, v }) fun y => (∀ l, l ≠ j → y.core? l = x.core? l) ∧ y.pools = x.pools
            ∧ ∃ d, y.core? j = some d ∧ { d with cold := c.cold } = c ∧ Stored d.cold c.cold (8 * w.toNat) 8 v.toNat)
        ∧ ∀ (cl : Nat) (w : BitVec 17), cl < x.pools.length → Becomes s (.thawWrite k { reg := .pool cl w, v }) fun y => y.cores = x.cores
            ∧ Stored (y.pools.getD cl []) (x.pools.getD cl []) (8 * w.toNat) 8 v.toNat ∧ ∀ n, n ≠ cl → y.pools.getD n [] = x.pools.getD n [])
    ∧ (∀ reg v, (∀ a t, x.run ≠ .frozen a t) → Runs s (.thawWrite k { reg, v }) fun M => M = s.now)
    ∧ (∀ v : BitVec 64, Runs s (.freezeAckWrite k v) fun M => M.ctx? k = some { x with header := { x.header with ack := true } }
        ∧ M.keepers.unacked = s.now.keepers.unacked.filter (fun q => q.1 != k) ∧ M.warm = s.now.warm)
    ∧ (∀ a t m, x.run = .frozen a (some t) → t + 64 ≤ m → m % 4096 = a % 4096 → m < t + 64 + 4096 →
        (now < m → Runs s (.contextResume k) fun M => M = s.now) ∧ (now = m → x.stopsNow = [] → Runs s (.contextResume k) runs))
    ∧ ∀ a w kind, x.run = .dwelling a w kind → (w = 0 ∨ now < a + 4096 * w → Runs s (.contextResume k) fun M => M = s.now)
      ∧ (w ≠ 0 → a + 4096 * w ≤ now → x.stopsNow = [] → Runs s (.contextResume k) runs)

/-- A service answers in g5 to g7 of every core that trapped, and in its ARRIVAL entry; its number is the DETAIL of the cause (log 29); a full undo log under RETAIN moves to the warm ring, is charged, and the context is
thawed; a pre-empted context leaves its clusters and waits at the head of its queue; a closed dump ends its launch; a soft error and an imprecise
hit stop the context, the hit at its next stop or 8,191 slots before the last one allowed. A restore of a window undoes the OLD entries of its windows
and later ones, those of a later window first, each putting its line back, and the cores and queues stand as at its start; replay feeds the carried
effects and arrivals of the log from there on (R172, R179, R182, R185, R192, R196, R199, R200, R207). -/
def Obligations.FrozenContextsAreServed : Prop :=
  ∀ (s : State) (k : Nat) (x : Ctx), s.Shaped → s.now.ctx? k = some x →
    let h := x.header
    (∀ a, x.run = .frozen a none → h.cause = 0x33 → h.serviced = false → h.spill = false → x.replay = none → Runs s (.serviceTrapService k) fun M =>
      ∃ y, M.ctx? k = some y ∧ y.header.serviced = true ∧ y.cslot = x.cslot ∧ ∀ j c, x.core? j = some c → c.idle = false → c.record.cause = 0x33 →
        ∃ d, y.core? j = some d ∧ (∀ r : BitVec 5, r ≠ 5 → r ≠ 6 → d.g r = c.g r)
          ∧ (c.record.detail = 0 → d.g 5 = 0 ∧ d.g 6 = c.g 6)
          ∧ (c.record.detail = 1 → d.g 5 = 0 ∧ d.g 6 = BitVec.ofNat 64 s.now.links.clock)
          ∧ (c.record.detail = 0x800 → (c.g 7).toNat ≤ 4096 → (c.g 6).toNat + (c.g 7).toNat ≤ 0x20000 → d.g 5 = c.g 7)
          ∧ (c.record.detail = 0x800 → 4096 < (c.g 7).toNat ∨ 0x20000 < (c.g 6).toNat + (c.g 7).toNat → d.g 5 = BitVec.allOnes 64)
          ∧ (c.record.detail ≠ 0 → c.record.detail ≠ 1 → c.record.detail ≠ 0x800 → d.g 5 = BitVec.allOnes 64)
          ∧ (y.win.dropping = false → ∃ e ∈ y.warmLog, e.kind = 3 ∧ e.core = j ∧ e.addr = 0x300 + c.record.detail.toNat ∧ e.cslot = x.cslot
              ∧ e.payload.toNat = (d.g 5).toNat + 2 ^ 64 * (d.g 6).toNat + 2 ^ 128 * (d.g 7).toNat))
    ∧ (∀ a, x.run = .frozen a none → h.cause = 0x33 → h.serviced = false → h.spill = true → Runs s (.retainSpill k) fun M =>
      ∃ y, M.ctx? k = some y ∧ y.run = .frozen a (some s.now.mslot) ∧ y.header.serviced = true ∧ y.win.spilled = true
        ∧ y.coldLog.getD (h.core / 8) [] = []
        ∧ let hu := (x.coldLog.getD (h.core / 8) []).length * 512 * s.now.cold.wx.toNat
          y.heat = x.heat + (hu : Nat) ∧ M.cold.charge = s.now.cold.charge + hu)
    ∧ (∀ a, x.run = .frozen a none → h.cause = 0x32 → h.serviced = false → h.fatal = false →
        let leaves (N M : Mach) (z : Ctx) : Prop := M.ctxs = N.ctxs.filter (fun y => y.slot != k) ∧ M.warm.mem = N.warm.mem
          ∧ (∀ v, (k, v) ∉ M.warm.ctxtrs)
          ∧ let p := z.field 0x002 1 % 4
            ∃ w y, M.launch = setAt N.launch p (w :: N.launch.getD p []) ∧ w.saved = some y ∧ w.cmd = z.cmd ∧ w.asid = z.asid ∧ w.record = z.record
              ∧ y.cslot = z.cslot ∧ y.asid = z.asid ∧ y.serial = z.serial
        (∀ z, (s.now.finishWarm k).ctx? k = some z →
          (z.unfinished (s.now.finishWarm k) = true → Runs s (.preemptSave k) fun M => M = s.now.finishWarm k)
          ∧ (z.unfinished (s.now.finishWarm k) = false → Runs s (.preemptSave k) fun M => leaves (s.now.finishWarm k) M z))
        ∧ (x.reqs = [] → x.cmds = [] → x.xings = [] → Runs s (.preemptSave k) fun M => leaves s.now M x))
    ∧ (∀ d ∈ s.now.keepers.dumps, d.isOpen = true → d.slot = k → d.asid = x.asid → Runs s (.dumpClose k) fun M =>
        (s.now.movesOf x = [] → ∀ y ∈ M.ctxs, y.slot ≠ k) ∧ (s.now.movesOf x ≠ [] → ∃ y, M.ctx? k = some y ∧ y.run = .gone)
          ∧ (∀ c ∈ M.cmds, c.seq ≠ x.cmd) ∧ s.now.keepers.dumps.length ≤ M.keepers.dumps.length
          ∧ ∀ (n : Nat) (e : Dump), s.now.keepers.dumps[n]? = some e → ∃ q : Dump, M.keepers.dumps[n]? = some q ∧ q.isOpen = false)
    ∧ (∀ j c, x.core? j = some c → Becomes s (.softError k j) fun y => y = { x with stops := x.stops ++ [{ slot := x.nextStop, cause :=
        { core := j, lid := c.id, code := 0x22, stream := 4, word := 0, port := 0, detail := 0 } }] })
    ∧ (Becomes s (.watchImpreciseFreeze k) fun y => y.cores = x.cores ∧ y.stops.length = x.stops.length ∧ ∀ (n : Nat) (q : Stop), x.stops[n]? = some q →
        ∃ r : Stop, y.stops[n]? = some r ∧ r.cause = q.cause ∧ (q.cause.code ≠ 0x23 ∨ q.cause.stream ≠ 4 → r = q)
          ∧ (q.cause.code = 0x23 → q.cause.stream = 4 → r.slot = min q.slot (max x.nextStop (q.slot - 8191))))
    ∧ (∀ e : Undo, let undone (post : Mach → Ctx → Prop) : Prop := ∃ y, (s.now.undo k e).ctx? k = some y ∧ post (s.now.undo k e) y
        (e.space = 2 → ∀ p, s.now.warm.phys x.asid e.addr = some p →
          undone fun M y => y = x ∧ Stored M.warm.mem s.now.warm.mem p 64 e.payload.toNat)
        ∧ (e.space = 1 → e.core / 8 < x.pools.length → undone fun M y => M.warm = s.now.warm ∧ y.cores = x.cores
          ∧ Stored (y.pools.getD (e.core / 8) []) (x.pools.getD (e.core / 8) []) e.addr 64 e.payload.toNat)
        ∧ (e.space = 0 → ∀ c, x.core? e.core = some c → undone fun M y => M.warm = s.now.warm ∧ y.pools = x.pools
          ∧ ∃ d, y.core? e.core = some d ∧ { d with cold := c.cold } = c ∧ Stored d.cold c.cold e.addr 64 e.payload.toNat))
    ∧ (∀ n : Nat, (x.undoList n).Pairwise (fun a b => b.win ≤ a.win) ∧ ∀ e, e ∈ x.undoList n ↔
        e.kind = 1 ∧ (e ∈ x.warmLog ∨ ∃ l ∈ x.coldLog, e ∈ l) ∧ n ≤ e.win ∧ e.win ≤ x.win.num ∧ ¬(e.own = true ∧ e.win = n))
    ∧ (∀ w : Window, ∃ y, (s.now.restoreTo k w).ctx? k = some y ∧ y.cslot = w.start ∧ y.serial = w.serial ∧ y.heat = w.heat ∧ y.win.num = w.num
        ∧ (y.xings = w.xings ∧ y.joins = w.joins ∧ y.posts = w.posts ∧ y.lanes = w.lanes ∧ y.lastCkpt = w.lastCkpt)
        ∧ ∀ j c c0, x.core? j = some c → c.idle = false → w.cores[j]? = some c0 → ∃ d, y.core? j = some d
          ∧ (d.s = c0.s ∧ d.v = c0.v ∧ d.m = c0.m ∧ d.x = c0.x) ∧ (d.pend = c0.pend ∧ d.ops = c0.ops ∧ d.outb = c0.outb)
          ∧ (d.mat = Matrix.start ∧ d.regs.mesh = c.idx))
    ∧ ∀ (w : Window) (aim : Aim), ∃ y p, (s.now.replayFrom k w aim).ctx? k = some y ∧ y.replay = some p ∧ p.target = aim.target ∧ p.live = aim.live
        ∧ y.posted = [] ∧ y.cslot = w.start ∧ p.feed = (x.warmLog.filter fun e => decide (w.num ≤ e.win) && (e.kind == 2 || e.kind == 3)) ++ aim.rest

/-- Every result that is due reaches its destination at its slot, and no other. Of two for one place the one issued later wins, and of one slot the one
of the later stream. g0, p0 and k0 take none; a mask or a tile takes the enabled units or bits; an accumulator takes the value, its sum with the value
before the slot, or the nearest double to that with the binding of its column; a plane row or column is filled, the planes exchange, or planes and
accumulators become zero; swr sets FLAGS and DPHASE and clears error bits of counters, before the flags and the phase steps of its slot; a byte of the
cold bank or pool is written if its bit of the mask is set; every register, and every byte but those of the window header's flags and count, that no
due result names keeps its value (R115, R120, R141, R143, R188, R217, R249, R254, R290, R333, R339, R369). -/
def Obligations.ResultsLandWhereTheyName : Prop :=
  ∀ (s : State) (k j : Nat) (x : Ctx) (c : Core), s.now.ctx? k = some x → x.core? j = some c → c.idx = j → x.run = .running →
    let due (p : Pend) : Prop := p ∈ c.pend ∧ p.land ≤ x.cslot ∧ p.sends = false
    let named (D : Dest) : Prop := ∃ p, due p ∧ p.dst = D
    let wins (p : Pend) (D : Dest) (at' : Pend → Prop) : Prop := due p ∧ p.dst = D ∧ at' p
      ∧ ∀ q, due q → q.dst = D → at' q → q ≠ p → 4 * q.issue + rank q.stream < 4 * p.issue + rank p.stream
    let only (p : Pend) (D : Dest) : Prop := due p ∧ p.dst = D ∧ ∀ q, due q → q.dst = D → q = p
    let any (_ : Pend) : Prop := True
    Becomes s (.resultLanding k j) fun y => y.cslot = x.cslot ∧ y.reqs = x.reqs ∧ ∃ d, y.core? j = some d
      ∧ (∀ p, p ∈ d.pend ↔ p ∈ c.pend ∧ ¬due p)
      ∧ (∀ r : BitVec 5, (¬named (.g r.toNat) → d.g r = c.g r) ∧ ∀ p, wins p (.g r.toNat) any → d.g r = if r = 0 then 0 else p.value.setWidth 64)
      ∧ (∀ r : BitVec 3, (¬named (.p r.toNat) → d.p r = c.p r) ∧ ∀ p, wins p (.p r.toNat) any → d.p r = (r == 0 || p.value.getLsbD 0))
      ∧ (∀ r : BitVec 2, (¬named (.lc r.toNat) → d.lc r = c.lc r) ∧ ∀ p, wins p (.lc r.toNat) any → d.lc r = p.value.setWidth 32)
      ∧ (∀ r : BitVec 4, (¬named (.h r.toNat) → d.h r = c.h r) ∧ ∀ p, wins p (.h r.toNat) any → d.h r = p.value.setWidth 16)
      ∧ (∀ n, (¬named (.pat n) → d.pat n = c.pat n) ∧ ∀ p, wins p (.pat n) any → d.pat n = p.value.setWidth 512)
      ∧ ((¬named .mesh → d.regs.mesh = c.regs.mesh) ∧ ∀ p, wins p .mesh any → d.regs.mesh = p.value.toNat)
      ∧ ((∀ p r row, due p → p.dst = .k r row ∨ p.dst = .v r row ∨ p.dst = .a r row → row < 16) → ∀ row < 16,
          (∀ (r : BitVec 3) (b : Nat), b < 64 →
            ((∀ p, due p → p.dst = .k r.toNat row → p.mask.getLsbD b = false) → (d.k r row).getLsbD b = (c.k r row).getLsbD b)
            ∧ ∀ p, wins p (.k r.toNat row) (fun q => q.mask.getLsbD b = true) → r ≠ 0 → (d.k r row).getLsbD b = p.value.getLsbD b)
          ∧ (∀ r b : Nat, b < 2048 →
            let covers (p : Pend) : Prop := (p.fine = none ∧ p.mask.getLsbD (b / 32) = true) ∨ ∃ f, p.fine = some f ∧ f.getLsbD b = true
            ((∀ p, due p → p.dst = .v r row → ¬covers p) → (d.tile r row).getLsbD b = (c.tile r row).getLsbD b)
            ∧ ∀ p, wins p (.v r row) covers → (d.tile r row).getLsbD b = p.value.getLsbD b)
          ∧ ∀ r i : Nat, i < 64 → ¬named .clear →
            let old := elem 64 i (c.acc r row).toNat
            let new := elem 64 i (d.acc r row).toNat
            ((∀ p, due p → p.dst = .a r row → p.mask.getLsbD i = false) → new = old)
            ∧ ∀ p, wins p (.a r row) (fun q => q.mask.getLsbD i = true) →
              let v := elem 64 i p.value.toNat
              (p.acc = .set → new = v) ∧ (p.acc = .int → new = (old + v) % 2 ^ 64)
              ∧ ∀ wide l a b, p.acc = .float wide l → f64Shape.val old = some a → (if wide then f64Shape else f32Shape).val v = some b →
                (l = none → Nearest f64Shape new (a + b))
                ∧ ∀ m z, l = some m → f32Shape.val (m.getD i (0, 0)).2 = some z → Nearest f64Shape new (a + b * (((m.getD i (0, 0)).1 + 1 : Nat) * z / 2 ^ 15)))
      ∧ (¬named .clear → (∀ row, ¬named (.shadow row)) → (∀ col, ¬named (.column col)) →
          (¬named .planes → d.mat.active = c.mat.active ∧ d.mat.shadow = c.mat.shadow)
          ∧ ∀ p, c.pend.filter (fun q => q.dst == .planes && decide (q.land ≤ x.cslot)) = [p] → d.mat.active = c.mat.shadow ∧ d.mat.shadow = c.mat.active)
      ∧ (named .clear → (∀ p, due p → ∀ r row, p.dst ≠ .a r row ∧ p.dst ≠ .shadow row ∧ p.dst ≠ .column row) →
          d.mat.active = [] ∧ d.mat.shadow = [] ∧ d.regs.a = [])
      ∧ (¬named .clear → ¬named .planes → (∀ col, ¬named (.column col)) → ∀ row,
          (¬named (.shadow row) → SMap.get 0 d.mat.shadow row = SMap.get 0 c.mat.shadow row)
          ∧ ∀ p, wins p (.shadow row) any → SMap.get 0 d.mat.shadow row = p.value.setWidth 2048)
      ∧ (¬named .clear → ¬named .planes → (∀ row, ¬named (.shadow row)) → ∀ col < 512, ∀ row < 64,
          (¬named (.column col) → elem 4 col (SMap.get 0 d.mat.shadow row).toNat = elem 4 col (SMap.get 0 c.mat.shadow row).toNat)
          ∧ ∀ p, wins p (.column col) any → elem 4 col (SMap.get 0 d.mat.shadow row).toNat = elem 4 row p.value.toNat)
      ∧ (∀ col, (¬named (.scale col) → SMap.get 0 d.mat.scale col = SMap.get 0 c.mat.scale col)
          ∧ ∀ p, wins p (.scale col) any → SMap.get 0 d.mat.scale col = p.value.setWidth 40 ∧ d.mat.bound = true)
      ∧ ((∀ p n, due p → p.dst = .sreg n → p.flags = 0) →
          (∀ n < 6, let raised := ∃ p, due p ∧ p.flags.getLsbD n = true ∧ ∀ l, p.dst ≠ .cold l ∧ p.dst ≠ .pool l
            (¬named (.sreg 0x020) → (d.regs.flags.getLsbD n = true ↔ c.regs.flags.getLsbD n = true ∨ raised))
            ∧ ∀ p, only p (.sreg 0x020) → (d.regs.flags.getLsbD n = true ↔ p.value.getLsbD n = true ∨ raised))
          ∧ (let steps := (c.pend.filter fun q => q.dst == .dphase && decide (q.land ≤ x.cslot)).length
            (¬named (.sreg 0x021) → d.regs.dphase.toNat = (c.regs.dphase.toNat + 17 * steps) % 64)
            ∧ ∀ p, only p (.sreg 0x021) → d.regs.dphase.toNat = (p.value.toNat + 17 * steps) % 64)
          ∧ (¬named (.sreg 0x058) → ∀ n, d.tc n = c.tc n)
          ∧ ∀ p, only p (.sreg 0x058) → ∀ n < 8, d.tc n = if p.value.getLsbD n = true ∧ (c.tc n).errAt < x.cslot then { c.tc n with err := false } else c.tc n)
      ∧ (∀ a, a < 0x1C030 ∨ 0x1C038 ≤ a →
          ((∀ p, due p → p.dst = .cold (a / 64) → p.mask.getLsbD (a % 64) = false) → d.cold.byte a = c.cold.byte a)
          ∧ ∀ p, wins p (.cold (a / 64)) (fun q => q.mask.getLsbD (a % 64) = true) →
              (d.cold.byte a).toNat = p.value.toNat / 2 ^ (8 * (a % 64)) % 256)
      ∧ ∀ a, c.cluster < x.pools.length →
          ((∀ p, due p → p.dst = .pool (a / 64) → p.mask.getLsbD (a % 64) = false) →
            (y.pools.getD c.cluster []).byte a = (x.pools.getD c.cluster []).byte a)
          ∧ ∀ p, wins p (.pool (a / 64)) (fun q => q.mask.getLsbD (a % 64) = true) →
              ((y.pools.getD c.cluster []).byte a).toNat = p.value.toNat / 2 ^ (8 * (a % 64)) % 256

/-! Warm memory. -/

/-- An access that is not ready changes nothing; one whose translation faults halts and is reported, a hard fault stops its context; a read takes
the value of its bytes, and an atomic leaves the exact function of its bytes and operand there, and nothing else changes; both have taken their
value at their home, and land their distance later if they were late; an atomic is logged there, with the value that it returns and the one that it leaves (R84-R86, R172,
R192, R219-R224, R233, R235). -/
def Obligations.AccessesArePerformed : Prop :=
  ∀ (s : State) (k : Nat) (x : Ctx) (c : Core) (r : Req) (ins : Instr), s.Asks k x c r →
    ins = .warmAccessPerform k r.id ∨ ins = .outboundRowApply k r.id ∨ ins = .xoutApply k r.id →
    (x.ready s.now r = false → Runs s ins fun M => M = s.now)
    ∧ (x.ready s.now r = true → r.sys = false →
      (∀ m, r.found s x c = .inr m → Runs s ins fun M => M.warm.mem = s.now.warm.mem ∧ ∃ y f, M.ctx? k = some y
        ∧ y.reqs = x.reqs.map (fun q => if q.id == r.id then { q with held := true } else q) ∧ y.cores = x.cores ∧ y.cslot = x.cslot
        ∧ (lightKind m.kind = true → y.stops = x.stops)
        ∧ (lightKind m.kind = false → ∃ z, y.stops = x.stops ++ [z] ∧ z.cause.core = r.core ∧ z.cause.detail = BitVec.ofNat 64 m.addr
            ∧ z.cause.code = if m.kind = 11 then 0x1F else 0x1E)
        ∧ M.Reports s x m r.act.isWrite f)
      ∧ (∀ spots chk, r.found s x c = .inl (spots, chk) → r.act = .read → Runs s ins fun M => M.warm.mem = s.now.warm.mem ∧ ∃ y q, M.ctx? k = some y
        ∧ y.reqs.find? (fun q => q.id == r.id) = some q ∧ y.stops = x.stops ∧ y.cslot = x.cslot
        ∧ (∀ (j : Nat) (d : Core), y.core? j = some d → ∃ e, x.core? j = some e ∧ d.regs = e.regs ∧ d.cold = e.cold ∧ d.mat = e.mat)
        ∧ (∀ m, r.use = .mailbox m → y.cores = x.cores)
        ∧ q = { r with performed := true, value := q.value, async := r.async || decide (r.home < x.cslot), home := s.now.mslot + r.dist
                       done := x.cslot, met := q.met, got := q.got }
        ∧ (∀ b n, spots = [(0, 8 * b)] → chk = none → r.width = 8 * n → n ≤ 512 → q.value.toNat = s.now.warm.mem.read b n)
        ∧ (spots.Pairwise (fun a b => a.1 + r.width ≤ b.1) → (∀ e ∈ spots, e.1 + r.width ≤ 3072) →
            (∀ e ∈ spots, q.value.toNat / 2 ^ e.1 % 2 ^ r.width = readBits s.now.warm.mem e.2 r.width)
            ∧ ∀ b, chk = some b → q.value.toNat / 2 ^ 3072 % 2 ^ 32 = s.now.warm.mem.read (b / 8) 4))
      ∧ ∀ op b n, r.found s x c = .inl ([(0, 8 * b)], none) → r.act = .atomic op → r.width = 8 * n → n = 4 ∨ n = 8 → x.replay = none →
        r.value.toNat < 2 ^ (8 * n) → r.expect.toNat < 2 ^ (8 * n) → Runs s ins fun M =>
          let old := s.now.warm.mem.read b n
          (∀ a, a < b ∨ b + n ≤ a → M.warm.mem.byte a = s.warmByte a)
          ∧ (∀ fn : AmoFn, op = fn.code.toNat → M.warm.mem.read b n = amoExact fn (8 * n) old r.value.toNat)
          ∧ (op = 16 → M.warm.mem.read b n = if old = r.expect.toNat then r.value.toNat else old)
          ∧ ∃ y q, M.ctx? k = some y ∧ y.reqs.find? (fun q => q.id == r.id) = some q ∧ q.performed = true
            ∧ q.value.setWidth 64 = BitVec.ofNat 64 old ∧ y.cslot = x.cslot
            ∧ (∀ m, r.use = .mailbox m → x.win.dropping = false → x.ringPos < x.ring → x.warmLog.length + 5 ≤ x.ring → ∃ e ∈ y.warmLog,
                e.kind = 3 ∧ e.core = r.core ∧ e.addr = 0x100 + m ∧ e.cslot = x.cslot ∧ e.payload.toNat % 2 ^ 64 = old
                  ∧ e.payload.toNat / 2 ^ 64 % 2 ^ (8 * n) = M.warm.mem.read b n)
            ∧ ∀ j d, y.core? j = some d → ∃ e, x.core? j = some e ∧ d.regs = e.regs ∧ d.mat = e.mat)

/-- A write that its machine performs leaves its queue, and puts the bytes that its mask has at the addresses its elements translate to, and the
check word of a last row, and changes no other byte; the first write of a window to a line keeps its old bytes in an OLD entry; a row leaves its
port's queue, and the last one to apply posts the counter of its walk; the last granule of a crossing ends it and posts (R148, R155, R159, R167,
R191, R219, R227). -/
def Obligations.WritesReachTheirHomes : Prop :=
  ∀ (s : State) (k : Nat) (x : Ctx) (c : Core) (r : Req) (ins : Instr) (spots : List (Nat × Nat)) (chk : Option Nat), s.Asks k x c r →
    ins = .warmAccessPerform k r.id ∨ ins = .outboundRowApply k r.id ∨ ins = .xoutApply k r.id → x.ready s.now r = true →
    r.sys = false → r.act = .write → r.found s x c = .inl (spots, chk) →
    (∀ e ∈ r.elems, if r.width < 8 then e.2 % 8 + r.width ≤ 8 else e.2 % 8 = 0 ∧ r.width % 8 = 0) → Runs s ins fun M =>
      let w := r.width
      let word (a : Nat) : Prop := ∃ b, chk = some b ∧ a ∈ elemBytes 32 b
      (∀ a, (∀ e ∈ spots, a ∉ elemBytes w e.2) → ¬word a → M.warm.mem.byte a = s.warmByte a)
      ∧ (∀ p b n, (p, 8 * b) ∈ spots → 8 * n + 8 ≤ w → (∀ e ∈ spots, e ≠ (p, 8 * b) → b + n ∉ elemBytes w e.2) → ¬word (b + n) →
          (r.mask.toNat / 2 ^ (p + 8 * n) % 256 = 255 → (M.warm.mem.byte (b + n)).toNat = r.value.toNat / 2 ^ (p + 8 * n) % 256)
          ∧ (r.mask.toNat / 2 ^ (p + 8 * n) % 256 = 0 → M.warm.mem.byte (b + n) = s.warmByte (b + n)))
      ∧ ∃ y, M.ctx? k = some y ∧ y.cslot = x.cslot
        ∧ (x.LastWaits r → ∃ q ∈ y.reqs, q.id = r.id ∧ q.performed = true) ∧ (¬x.LastWaits r → ∀ q ∈ y.reqs, q.id ≠ r.id)
        ∧ (∀ a b n p, r.elems = [(0, 8 * a)] → spots = [(0, 8 * b)] → w = 8 * n → 0 < n → a % 64 + n ≤ 64 → a < 2 ^ 48 →
            r.mask.toNat = 2 ^ w - 1 → a / 64 ∉ x.warmSeen → x.win.dropping = false → x.ringPos < x.ring → x.warmLog.length < x.ring →
            s.now.warm.phys x.asid (a / 64 * 64) = some p → ∃ e ∈ y.warmLog, e.kind = 1 ∧ e.space = 2 ∧ e.addr = a / 64 * 64
              ∧ e.cslot = x.cslot ∧ e.payload = BitVec.ofNat 512 (s.now.warm.mem.read p 64))
        ∧ (∀ o gen row post, r.use = .sent o gen row post → ∃ d, y.core? r.core = some d ∧ (d.outp o).queued = (c.outp o).queued - 1
            ∧ ((c.outp o).gen = gen → (d.outp o).applied = (c.outp o).applied + 1)
            ∧ RowPosts x r c d o gen post)
        ∧ ∀ n g q, r.use = .granule n g → x.xings.find? (fun q => q.id == n) = some q → ∃ z, y.xings.find? (fun q => q.id == n) = some z
            ∧ z.done = q.done + 1 ∧ z.posted = decide (cdiv q.bytes 64 ≤ q.done + 1)
            ∧ ∀ e, x.core? q.core = some e → e.idx = q.core → x.Current → cdiv q.bytes 64 ≤ q.done + 1 → ∃ d, y.core? q.core = some d
              ∧ Posted e d q.tc

/-- An access of scope SYS that names no module of the launch halts with fault 12; a read takes its value from the newest write in the send queue that
meets its bytes, if that gives them all; any other access joins the send queue, once for each home module, with its message on the way there, or in
the remote queue of this module if that is its home. A result fills its mailbox and posts its counter, an acknowledgement ends its write when no
other part is out, and both leave the send queue. A remote operation waits while one ahead of it from its port has halted, or until its predecessors
have been applied; then a write changes the bits that it writes of its bytes, an atomic leaves the exact function there, and each answers its
module; a fault halts it where it stands, and a hard one is answered; while the record of an earlier one is held, it waits (R27, R84, R87, R149, R227, R229, R230, R315, R316). -/
def Obligations.SystemAccessesTravel : Prop :=
  (∀ (L : Links) (as : List Nat) (q : SysSend) (l : List Byte), L.forward as = some (q, l) →
    ∃ before after, L.send = before ++ q :: after ∧ (∀ p ∈ after, ∀ e ∈ p.cells, e.1 ∉ as) ∧ l.length = as.length
      ∧ ∀ (i a : Nat) (b : Byte), as[i]? = some a → l[i]? = some b → (a, b, BitVec.allOnes 8) ∈ q.cells)
  ∧ (∀ s : State,
      let L := s.now.links
      (∀ (k : Nat) (x : Ctx) (c : Core) (r : Req) (ins : Instr), s.Asks k x c r →
        ins = .warmAccessPerform k r.id ∨ ins = .outboundRowApply k r.id ∨ ins = .xoutApply k r.id → x.ready s.now r = true → r.sys = true → x.replay = none →
        let miss := x.sysMiss (r.elems ++ (r.check.map fun b => [(0, b)]).getD [])
        (∀ m, miss = some m → Runs s ins fun M => M.links = L ∧ M.warm.mem = s.now.warm.mem ∧ ∃ y z f, M.ctx? k = some y
          ∧ y.reqs = x.reqs.map (fun q => if q.id == r.id then { q with held := true } else q) ∧ y.stops = x.stops ++ [z] ∧ z.cause.code = 0x1E
          ∧ m.kind = 12 ∧ M.Reports s x m r.act.isWrite f)
        ∧ (miss = none →
          (∀ a n, r.elems = [(0, 8 * a)] → r.width = 8 * n → 0 < n → a % 8 + n ≤ 8 → r.check = none → r.queue = 12 →
            let bytes := (List.range n).map (a + ·)
            (∀ (m : Nat) (q : SysSend) (l : List Byte), r.act = .read → r.use = .mailbox m → L.forward bytes = some (q, l) → Runs s ins fun M => M.links = L ∧ M.warm = s.now.warm
              ∧ ∃ y z, M.ctx? k = some y ∧ y.reqs.find? (fun q => q.id == r.id) = some z ∧ z.performed = true
                ∧ z.value = BitVec.ofNat 4096 (ofBytes l) ∧ y.cores = x.cores)
            ∧ (r.act ≠ .read ∨ L.forward bytes = none → Runs s ins fun M => M.warm = s.now.warm ∧ ∃ y q, M.ctx? k = some y
              ∧ y.reqs.find? (fun q => q.id == r.id) = some { r with sent := true } ∧ M.links.send = L.send ++ [q]
              ∧ (q.req = r.id ∧ q.ctx = x.asid.toNat ∧ q.addr = a ∧ q.home = a / 2 ^ 48 % 32 ∧ q.deps = r.seen ∧ q.acked = false)
              ∧ (r.act = .read → q.cells = [] ∧ q.reads = bytes)
              ∧ (r.act = .write → r.mask.toNat = 2 ^ (8 * n) - 1 → q.reads = []
                  ∧ q.cells = (List.range n).map fun i => (a + i, BitVec.ofNat 8 (r.value.toNat / 256 ^ i), BitVec.allOnes 8))
              ∧ (∀ op, r.act = .atomic op → q.msg x.asid (some r)
                  = .atomic Config.self.toNat q.id r.seen x.asid (BitVec.ofNat 48 a) op n (r.value.setWidth 64) r.expect)
              ∧ (q.home ≠ Config.self.toNat → M.links.remote = L.remote ∧ M.links.ports = (L.emit q.home (q.msg x.asid (some r))).ports)
              ∧ (q.home = Config.self.toNat → M.links.ports = L.ports
                  ∧ M.links.remote = L.remote ++ [{ id := q.id, port := 0, msg := q.msg x.asid (some r), halted := false }])))
          ∧ (r.queue ≠ 12 → (∀ m, r.use ≠ .mailbox m) →
            let bytes := r.elems.flatMap fun e => elemBytes r.width e.2
            let goes (post : List SysSend → Prop) : Prop := Runs s ins fun M => M.warm = s.now.warm ∧ ∃ y qs, M.ctx? k = some y
              ∧ y.reqs.find? (fun q => q.id == r.id) = some { r with sent := true, async := true } ∧ M.links.send = L.send ++ qs
              ∧ (∀ q ∈ qs, q.req = r.id ∧ q.ctx = x.asid.toNat) ∧ post qs
            (∀ n, r.act = .write → r.width = 8 * n → goes fun qs => ∀ e ∈ r.elems, ∀ b i, e.2 = 8 * b → i < n →
                r.mask.toNat / 2 ^ (e.1 + 8 * i) % 256 = 255 → ∃ q ∈ qs, q.home = (b + i) / 2 ^ 48 % 32
                  ∧ (b + i, BitVec.ofNat 8 (r.value.toNat / 2 ^ (e.1 + 8 * i)), BitVec.allOnes 8) ∈ q.cells)
            ∧ (r.act = .read → (∀ p ∈ L.send, ∀ c ∈ p.cells, c.1 ∉ bytes ++ (r.check.map fun b => elemBytes 32 b).getD []) →
                goes fun qs => ∀ a ∈ bytes, ∃ q ∈ qs, q.home = a / 2 ^ 48 % 32 ∧ a ∈ q.reads)
            ∧ ∀ (h : Nat) (q : SysSend) (l : List Byte), r.act = .read → r.check = none → bytes ≠ [] → (∀ a ∈ bytes, a / 2 ^ 48 % 32 = h) → L.forward bytes.eraseDups = some (q, l) →
                Runs s ins fun M => M.links = L ∧ M.warm = s.now.warm ∧ ∃ y z, M.ctx? k = some y ∧ y.reqs.find? (fun q => q.id == r.id) = some z
                  ∧ (z.performed = true ∧ z.sent = false ∧ z.async = true ∧ z.home = s.now.mslot)
                  ∧ (r.value = 0 → r.elems.Pairwise (fun a b => a.1 + r.width ≤ b.1) → (∀ e ∈ r.elems, e.1 + r.width ≤ 4096) →
                    ∀ e ∈ r.elems, ∀ b n i, r.width = 8 * n → e.2 = 8 * b → i < n → ∃ m : Nat, bytes.eraseDups[m]? = some (b + i)
                      ∧ (l[m]?).map (fun b : Byte => b.toNat) = some (z.value.toNat / 2 ^ (e.1 + 8 * i) % 256)))))
      ∧ ∀ (id : Nat) (bytes : List Byte) (seen : List Nat),
        (L.send.find? (fun q => q.id == id) = none → Runs s (.systemResultArrival id bytes seen) (fun M => M = s.now)
          ∧ Runs s (.systemAcknowledge id) fun M => M = s.now)
        ∧ ∀ q, L.send.find? (fun q => q.id == id) = some q →
          let answered (M : Mach) : Prop := M.warm = s.now.warm ∧ M.links.send = L.send.filter fun p => p.id != id
          (q.cells = [] → Runs s (.systemAcknowledge id) fun M => M.ctxs = s.now.ctxs ∧ M.warm = s.now.warm
            ∧ M.links.send = L.send.map fun p => if p.id == id then { p with acked := true } else p)
          ∧ ∀ (k : Nat) (x : Ctx) (c : Core) (r : Req), s.Asks k x c r → x.asid.toNat = q.ctx → r.id = q.req →
            (∀ m, r.use = .mailbox m → Runs s (.systemResultArrival id bytes seen) fun M => answered M
              ∧ ∃ y d, M.ctx? k = some y ∧ (∀ z ∈ y.reqs, z.id ≠ r.id)
              ∧ y.core? r.core = some d ∧ (r.id < (c.mb m).landed → d.mb m = c.mb m)
              ∧ ((c.mb m).landed ≤ r.id → (d.mb m).value = BitVec.ofNat 64 (ofBytes bytes) ∧ (d.mb m).valid = decide ((c.mb m).last = r.id))
              ∧ (∀ n, n ≠ m → d.mb n = c.mb n) ∧ { d.regs with m := [], tc := [] } = { c.regs with m := [], tc := [] }
              ∧ (x.Current → Posted c d m) ∧ ∀ n, n ≠ m → d.tc n = c.tc n)
            ∧ (q.cells ≠ [] →
              let part := ∃ p ∈ L.send, p.id ≠ id ∧ p.ctx = q.ctx ∧ p.req = q.req
              (part → Runs s (.systemAcknowledge id) fun M => answered M ∧ M.ctxs = s.now.ctxs)
              ∧ (¬part → Runs s (.systemAcknowledge id) fun M => answered M ∧ ∃ y d, M.ctx? k = some y
                ∧ (x.LastWaits r → ∃ z ∈ y.reqs, z.id = r.id ∧ z.performed = true) ∧ (¬x.LastWaits r → ∀ z ∈ y.reqs, z.id ≠ r.id)
                ∧ y.core? r.core = some d ∧ (r.use = .store → y.cores = x.cores)
                ∧ ∀ o gen row post, r.use = .sent o gen row post → RowPosts x r c d o gen post)))
  ∧ ∀ (s : State) (id : Nat) (q : Remote), s.now.links.remote.find? (fun q => q.id == id) = some q →
      let L := s.now.links
      let old := s.now.warm.mem
      let ahead := ∃ p ∈ L.remote.takeWhile (fun p => p.id != id), p.port = q.port ∧ p.halted = true
      let gone (M : Mach) : Prop := ∀ z ∈ M.links.remote, z.id ≠ id
      (q.halted = true ∨ ahead → Runs s (.remoteApply id) fun M => M = s.now)
      ∧ ∀ (src : Nat) (deps : List Nat) (asid : BitVec 8) (addrs : List Nat) (write : Bool), msgRequest q.msg = some (src, deps, asid, addrs, write) →
        let away (M : Mach) (l : List Msg) : Prop := src ≠ Config.self.toNat → M.links.ports = (l.foldl (fun L m => L.emit src m) L).ports
        (L.applies deps = false → Runs s (.remoteApply id) fun M => M = s.now)
        ∧ (q.halted = false → ¬ahead → L.applies deps = true →
          (∀ W m, s.now.sweep.remoteBytes q.port id asid write addrs = (W, .inr m) →
            let recorded := ∃ r ∈ s.now.warm.rings, ∃ f ∈ r.held, f.source = 4112 + q.port
            (recorded → Runs s (.remoteApply id) fun M => M.warm.mem = old ∧ M.warm.rings = s.now.warm.rings ∧ M.links = L ∧ M.ctxs = s.now.ctxs)
            ∧ (¬recorded → Runs s (.remoteApply id) fun M => M.warm.mem = old
              ∧ (∃ f, M.warm.rings = (s.now.warm.onRing (ringOf asid) fun r => r.raise f).rings ∧ f.source = 4112 + q.port ∧ f.kind = m.kind
                  ∧ f.addr = m.addr ∧ f.asid = asid ∧ f.write = write)
              ∧ ((s.now.holder asid).isSome = true →
                  M.links.remote = L.remote.map fun p => if p.id == id then { p with halted := true } else p)
              ∧ ((s.now.holder asid).isSome = false → gone M)
              ∧ (lightKind m.kind = true → M.ctxs = s.now.ctxs) ∧ (lightKind m.kind = false → away M [.hardFault id (m.kind == 11)])))
          ∧ ∀ W phys, s.now.sweep.remoteBytes q.port id asid write addrs = (W, .inl phys) →
            (∀ num l cells, q.msg = .write src num l asid cells → Runs s (.remoteApply id) fun M => gone M ∧ away M [.ack id]
              ∧ (∀ a, a ∉ phys → M.warm.mem.byte a = s.warmByte a)
              ∧ (phys.Nodup → ∀ (n p : Nat) (e : BitVec 48 × Byte × Byte), cells[n]? = some e → phys[n]? = some p →
                  M.warm.mem.byte p = (s.warmByte p &&& ~~~e.2.2) ||| (e.2.1 &&& e.2.2)))
            ∧ (∀ num l b, q.msg = .read src num l asid b → Runs s (.remoteApply id) fun M => gone M ∧ M.warm.mem = old
                ∧ away M [.result id (phys.map old.byte) (s.now.warm.observed phys)])
            ∧ ∀ num l b p (fn : AmoFn) v e, q.msg = .atomic src num l asid b fn.code.toNat 8 v e → phys = (List.range 8).map (p + ·) →
                Runs s (.remoteApply id) fun M => gone M ∧ Stored M.warm.mem old p 8 (amoExact fn 64 (old.read p 8) v.toNat)
                  ∧ away M [.ack id, .result id (phys.map old.byte) (s.now.warm.observed phys)])

/-- A result that has come to its slot fills its mailbox, which becomes valid if no later access was issued to it; a granule of an xin, and one of a
mesh move, writes its bytes of the cold bank or pool of its core and no other byte but the window header's flags and count, and the last one ends
its crossing and posts; before their slot nothing happens (R149, R159-R161, R188, R217, R219). -/
def Obligations.TransfersLand : Prop :=
  ∀ (s : State) (k : Nat) (x : Ctx), s.now.ctx? k = some x →
    let puts (y : Ctx) (c d : Core) (pool : Bool) (a n : Nat) (v : Nat → Nat) : Prop :=
      let one (m old : Memory) : Prop := ∀ b, pool = true ∨ b < 0x1C030 ∨ 0x1C038 ≤ b →
        (m.byte b).toNat = if a ≤ b ∧ b < a + n then v (b - a) else (old.byte b).toNat
      { d.regs with tc := [] } = { c.regs with tc := [] }
        ∧ if pool then c.cluster < x.pools.length → one (y.pools.getD c.cluster []) (x.pools.getD c.cluster []) else one d.cold c.cold
    let ends (c d : Core) (q z : Xing) : Prop := z.done = q.done + 1 ∧ z.posted = decide (q.bytes ≤ 64 * (q.done + 1))
      ∧ (q.bytes ≤ 64 * (q.done + 1) → x.Current → Posted c d q.tc)
    (∀ c r m, s.Asks k x c r → r.use = .mailbox m →
      (x.lands s.now r = false → Becomes s (.mailboxLanding k r.id) fun y => y = x)
      ∧ (x.lands s.now r = true → Becomes s (.mailboxLanding k r.id) fun y => (∀ q ∈ y.reqs, q.id ≠ r.id) ∧ ∃ d, y.core? r.core = some d
        ∧ (r.id < (c.mb m).landed → d.mb m = c.mb m)
        ∧ ((c.mb m).landed ≤ r.id → (d.mb m).value = ((x.fedLanding r).map fun e => e.payload.setWidth 64).getD (r.value.setWidth 64)
            ∧ (d.mb m).valid = decide ((c.mb m).last = r.id))
        ∧ (∀ n, n ≠ m → d.mb n = c.mb n) ∧ { d.regs with m := [], tc := [] } = { c.regs with m := [], tc := [] }
        ∧ (r.sys = true → x.Current → Posted c d m) ∧ ∀ n, r.sys = false ∨ n ≠ m → d.tc n = c.tc n))
    ∧ (∀ b r n g, s.Asks k x b r → r.use = .granule n g → r.act = .read →
      (x.lands s.now r = false → Runs s (.xinGranuleLanding k r.id) fun M => M = s.now)
      ∧ ∀ q c, x.lands s.now r = true → x.fedLanding r = none → x.xings.find? (fun q => q.id == n) = some q → q.kind = 0 → x.core? q.core = some c → c.idx = q.core →
        Runs s (.xinGranuleLanding k r.id) fun M => M.warm = s.now.warm ∧ ∃ y d z, M.ctx? k = some y ∧ (∀ q ∈ y.reqs, q.id ≠ r.id)
          ∧ y.core? q.core = some d ∧ y.xings.find? (fun q => q.id == n) = some z ∧ ends c d q z
          ∧ puts y c d q.pool (64 * (q.off / 64 + g)) (min 64 (q.bytes - 64 * g)) fun i => r.value.toNat / 2 ^ (8 * i) % 256)
    ∧ ∀ q c, x.xings.find? (fun z => z.id == q.id) = some q → x.core? q.target = some c → c.idx = q.target →
      (x.run ≠ .running ∨ q.meshDue x.cslot = false → Becomes s (.meshLanding k q.id) fun y => y = x)
      ∧ (x.run = .running → q.meshDue x.cslot = true → Becomes s (.meshLanding k q.id) fun y => ∃ d z, y.core? q.target = some d
        ∧ y.xings.find? (fun z => z.id == q.id) = some z ∧ z.done = q.done + 1 ∧ z.posted = decide (q.bytes ≤ 64 * (q.done + 1))
        ∧ (∀ e, x.core? q.core = some e → e.idx = q.core → x.Current → q.bytes ≤ 64 * (q.done + 1) →
            ∃ f, y.core? q.core = some f ∧ Posted e f q.tc)
        ∧ puts y c d q.pool (64 * (q.off / 64 + q.done)) (min 64 (q.bytes - 64 * q.done)) fun i =>
            (SMap.get 0 q.data (64 * q.done + i)).toNat)

/-- The planned row of a port of a running context takes an entry and asks for its bytes, home point 4,096 slots and its interval on; with no entry
it slips with cause 3, with no request slot or tick with cause 10, and a fault halts the port at the row; a row that comes to its landing is READY
in its entry, and the last posts the counter, with the error bit if its checksum fails; a row of an old binding, or one that comes after the core's
halt line has risen, gives its entry back, to the port's minimum until that is full (R107, R133, R147, R154, R156, R158, R168, R375). -/
def Obligations.InboundRowsArrive : Prop :=
  ∀ (s : State) (k j : Nat) (x : Ctx) (c : Core) (p : BitVec 3), s.now.ctx? k = some x → x.core? j = some c → c.idx = j →
    let q := c.inp p.toNat
    let issue := Instr.inboundRowIssue k j p
    let ready := Instr.inboundRowReady k j p
    let stops (code : Nat) : Prop := ∃ t, exec issue s = .next t ∧ t.now.warm.mem = s.now.warm.mem ∧ t.causes = s.causes ++
      [{ core := j, lid := c.id, code, stream := 4, word := 0, port := p.toNat, detail := 0 }]
    (x.run ≠ .running → (q.lateDue s.now.mslot && x.crossesStopped q) = false → Runs s issue fun M => M = s.now)
    ∧ (x.run = .running → q.planDue x.cslot = false → q.next = q.planNext → Runs s issue fun M => M = s.now)
    ∧ (∀ w, x.run = .running → q.walk = some w → q.planDue x.cslot = true → q.next = q.planNext → q.halted = none → q.catchX ≤ s.now.mslot →
        x.replay = none →
      let n := granules w.rowBytes
      let N := s.now.setCtx (x.planRow j p.toNat)
      let noEntry := q.shared + q.min ≤ q.res ∧ c.remainder ≤ x.sharedHeld c.cluster
      let pages := (List.range (granules (cdiv ((w.rowElems q.next).length * w.width) 8))).filterMap fun g =>
        ((w.rowElems q.next).find? fun e => decide (512 * g ≤ e.1)).bind fun e => pageOf s.now x (dSpace w.desc == 3) (e.2 / 8)
      let full := 2048 < x.outstanding j + n ∨ x.ticksOk s.now pages = false
      (noEntry → stops 3) ∧ (¬noEntry → full → stops 10)
      ∧ (¬noEntry → ¬full → ∀ W l, w.resolveRow N.sweep (x.planRow j p.toNat) (16 * c.id + p.toNat) q.next = (W, l) →
        (∀ m, l = .inr m → Runs s issue fun M => M.warm.mem = s.now.warm.mem ∧ ∃ y d f, M.ctx? k = some y ∧ y.core? j = some d
          ∧ (d.inp p.toNat).halted = some q.next ∧ (d.inp p.toNat).next = q.next ∧ (d.inp p.toNat).res = q.res ∧ y.reqs = x.reqs
          ∧ M.Reports s x m false f)
        ∧ ∀ elems chk, l = .inl (elems, chk) → Runs s issue fun M => M.warm.mem = s.now.warm.mem ∧ ∃ y d r, M.ctx? k = some y ∧ y.core? j = some d
          ∧ (d.inp p.toNat).next = q.next + 1 ∧ (d.inp p.toNat).planNext = q.planNext + 1 ∧ (d.inp p.toNat).planX = x.cslot + w.interval
          ∧ (d.inp p.toNat).res = q.res + 1 ∧ (d.inp p.toNat).shared = (if q.res < q.shared + q.min then q.shared else q.shared + 1)
          ∧ (d.inp p.toNat).entries = q.entries ∧ d.regs = c.regs ∧ y.reqs = x.reqs ++ [r]
          ∧ r.use = .row p.toNat q.gen q.next ∧ r.act = .read ∧ r.home = x.cslot + 4096 + w.interval ∧ r.land = r.home + 2048
          ∧ r.elems = elems ∧ r.check = chk ∧ r.sys = (dSpace w.desc == 3) ∧ y.charge = x.charge + n * 512 * s.now.cold.wx.toNat))
    ∧ (x.landingRow s.now j p.toNat = none → Runs s ready fun M => M = s.now)
    ∧ ∀ r gen row, x.landingRow s.now j p.toNat = some r → r.use = .row p.toNat gen row → x.fedLanding r = none →
      let lands (post : Core → Prop) : Prop := Runs s ready fun M => M.warm = s.now.warm ∧ ∃ y d, M.ctx? k = some y
        ∧ (∀ z ∈ y.reqs, z.id ≠ r.id) ∧ y.core? j = some d ∧ post d
      (q.walk = none ∨ q.gen ≠ gen ∨ c.line ≠ none → lands fun d => (d.inp p.toNat).entries = q.entries ∧ d.regs = c.regs
        ∧ (d.inp p.toNat).res = q.res - 1 ∧ (d.inp p.toNat).shared = min q.shared (q.res - 1))
      ∧ ∀ w, q.walk = some w → q.gen = gen → c.line = none → lands fun d =>
        (d.inp p.toNat).entries = q.entries ++ [{ row, value := r.value.setWidth 2048 }] ∧ (d.inp p.toNat).res = q.res
        ∧ (row + 1 < w.rows ∨ row < q.rewalk → d.regs = c.regs)
        ∧ (w.rows ≤ row + 1 → q.rewalk ≤ row → x.Current → Posted c d q.tc
            ∧ (d.tc q.tc).err = ((c.tc q.tc).err || (r.check.isSome && (crcOf q.crc).toNat != r.value.toNat / 2 ^ 3072 % 2 ^ 32))
            ∧ { d.regs with tc := [] } = { c.regs with tc := [] })

/-! Copy engines. -/

/-- A command starts at its slot, with its window moved if it was late. It reads its source granule by granule, and writes what its routine makes of
that to its destination, and no other byte; a fault halts it at the granule. All of a copy of one granule is done in one event: each element of its
source is then in the element of its destination at the same place of the stream. It posts at its slot, with the error bit if it has failed or is
stopped for overrun; one that was held posts when it is done (R164, R165, R168, R219). -/
def Obligations.CopyCommandsRun : Prop :=
  ∀ (s : State) (k : Nat) (x : Ctx) (c : Core) (q : Cmd), s.now.ctx? k = some x → x.cmds.find? (fun z => z.id == q.id) = some q →
    x.core? q.core = some c → c.idx = q.core →
    let found (y : Ctx) (z : Cmd) : Prop := y.cmds.find? (fun z => z.id == q.id) = some z
    let run := Instr.routineComplete k q.id
    let post := Instr.copyCommandPost k q.id
    let N := s.now.sweep
    let source := 4096 + x.engineOf q
    let far : Prop := ∃ p ∈ s.now.links.send, p.ctx = x.asid.toNat ∧ p.req = q.id
    let posts (ins : Instr) (err : Bool) : Prop := Runs s ins fun M => M.warm.mem = s.now.warm.mem ∧ ∃ y z d, M.ctx? k = some y ∧ found y z
      ∧ z.posted = true ∧ z.err = err ∧ y.core? q.core = some d
      ∧ (x.Current → Posted c d q.tc ∧ (d.tc q.tc).err = ((c.tc q.tc).err || err)) ∧ { d.regs with tc := [] } = { c.regs with tc := [] }
    let halts (M : Mach) (m : Miss) (write : Bool) (g : Nat) : Prop := M.warm.mem = s.now.warm.mem ∧ ∃ y z f, M.ctx? k = some y ∧ found y z
      ∧ z.held = true ∧ (q.kind ≠ 2 → q.posted = false → z.late = true) ∧ z.done = q.done ∧ z.faulted = some g ∧ M.Reports s x m write f ∧ (lightKind m.kind = true → y.stops = x.stops)
    ((∀ z ∈ x.cmds, z.id = q.id → x.run ≠ .running ∨ x.startDue z = false) → Becomes s (.copyCommandStart k q.id) fun y => y = x)
    ∧ (x.run = .running → x.startDue q = true → Becomes s (.copyCommandStart k q.id) fun y => y = { x with cmds := y.cmds }
        ∧ found y { q with started := true, start := x.cslot, post := x.cslot + (q.post - q.start) } ∧ y.cmds.map (·.id) = x.cmds.map (·.id))
    ∧ (q.read < q.sources → q.sysSource = false → x.scaleDesc q = none →
      let there := resolve (s.now.olds source (16 + k, q.id)) x.asid source false s.now.warm (q.sourceElems q.read)
      (∀ m, there.2 = .inr m → s.now.engineHeld x q = false → halts (s.now.readGranule k q) m false q.read)
      ∧ ∀ l, there.2 = .inl l → let M := s.now.readGranule k q
        M.warm.mem = s.now.warm.mem ∧ ∃ y z, M.ctx? k = some y ∧ found y z ∧ z.read = q.read + 1 ∧ z.written = q.written ∧ y.cores = x.cores
          ∧ z.data = q.data + readElems s.now.warm.mem q.src.width l * 2 ^ (512 * q.read))
    ∧ (q.written < q.dests → q.sysDest = false → ∀ elems w, q.destElems q.written = (elems, w) →
      let there := resolve (s.now.olds source (16 + k, q.id)) x.asid (source + 8192) true s.now.warm elems
      (∀ m, there.2 = .inr m → s.now.engineHeld x q = false → halts (s.now.writeGranule k q) m true q.written)
      ∧ ∀ l, there.2 = .inl l → (∀ e ∈ elems, if w < 8 then e.2 % 8 + w ≤ 8 else e.2 % 8 = 0 ∧ w % 8 = 0) → let M := s.now.writeGranule k q
        (∃ y z, M.ctx? k = some y ∧ found y z ∧ z.written = q.written + 1 ∧ z.read = q.read)
          ∧ (∀ a, (∀ e ∈ l, a ∉ elemBytes w e.2) → M.warm.mem.byte a = s.warmByte a)
          ∧ ∀ p b n, (p, 8 * b) ∈ l → 8 * n + 8 ≤ w → p + w ≤ 512 → (∀ e ∈ l, e ≠ (p, 8 * b) → b + n ∉ elemBytes w e.2) →
              (M.warm.mem.byte (b + n)).toNat = routineValue q q.data q.scales / 2 ^ (512 * q.written + p + 8 * n) % 256)
    ∧ (q.done = false → x.mayRead N.links q = false → x.mayWrite N.links q = false →
        (q.taken < q.reads ∨ q.written < q.writes ∨ far → Runs s run fun M => M = N)
        ∧ (q.reads ≤ q.taken → q.writes ≤ q.written → ¬far → Runs s run fun M => M.warm = N.warm ∧ ∃ y z, M.ctx? k = some y ∧ found y z
          ∧ z.done = true ∧ z.posted = q.posted ∧ y.cores = x.cores
          ∧ z.err = (q.err || (q.flags.getLsbD 0 && (crcOf q.crc).toNat != q.check.getD 0))))
    ∧ (q.done = true → q.kind = 2 ∨ q.late = false ∨ q.posted = true ∨ x.ahead q ≠ [] ∨ x.run ≠ .running → Runs s run fun M => M = s.now)
    ∧ (x.mayRead N.links q = true → q.kind = 0 → q.routine = 0 → q.flags = 0 → q.sysSource = false → q.sysDest = false → x.replay = none →
        q.sources = 1 → q.dests = 1 → q.taken = 0 → q.written = 0 → q.data = 0 → (∀ i ∈ q.afterW, x.pendingId i = false) →
        ¬far → s.now.engineHeld x q = false →
      let dst := q.dst.spanElems 0 (min 64 q.dst.bytes)
      let olds := N.olds source (16 + k, q.id)
      let reads := resolve olds x.asid source false N.warm (q.sourceElems 0)
      let writes := resolve olds x.asid (source + 8192) true reads.1 dst
      (∀ m, reads.2 = .inr m → Runs s run fun M => halts M m false 0)
      ∧ (∀ l m, reads.2 = .inl l → writes.2 = .inr m → Runs s run fun M => halts M m true 0)
      ∧ ∀ ls ld, reads.2 = .inl ls → writes.2 = .inl ld →
        (∀ z ∈ dst, if q.dst.width < 8 then z.2 % 8 + q.dst.width ≤ 8 else z.2 % 8 = 0 ∧ q.dst.width % 8 = 0) →
        Runs s run fun M => (∃ y z, M.ctx? k = some y ∧ found y z ∧ z.done = true ∧ z.held = q.held ∧ z.err = q.err)
          ∧ (∀ a, (∀ e ∈ ld, a ∉ elemBytes q.dst.width e.2) → M.warm.mem.byte a = s.warmByte a)
          ∧ ∀ p b d n, q.src.width = q.dst.width → (p, 8 * b) ∈ ls → (p, 8 * d) ∈ ld → 8 * n + 8 ≤ q.dst.width → p + q.dst.width ≤ 512 →
              ls.Pairwise (fun a b => a.1 + q.src.width ≤ b.1) → (∀ z ∈ ld, z ≠ (p, 8 * d) → d + n ∉ elemBytes q.dst.width z.2) →
              M.warm.mem.byte (d + n) = s.warmByte (b + n))
    ∧ (x.run = .running → q.kind ≠ 2 → q.late = true → q.done = true → q.posted = false → x.ahead q = [] → posts run q.err)
    ∧ (x.run ≠ .running ∨ x.postDue q = false → Runs s post fun M => M = s.now)
    ∧ (x.run = .running → x.postDue q = true → posts post (!q.done || q.err))

/-- The requests of an xded on the keeper's dedup ring: none is served while a page that it touches is in a move. Its candidate frame first becomes
shared and read-only in every page that maps it; once that is everywhere, the page maps the candidate, shared and in its tier, and its own frame is
given up, if the two frames still hold the same bytes and none of their pages is lost; else it stays as it is, and the candidate's count falls by
one. With no request left the second post is made. An xpref posts when no move waits for it, with the error bit if a page has not come where it was
asked (R70, R169-R171, R379). -/
def Obligations.RemapsAndPrefetchesEnd : Prop :=
  ∀ (s : State) (k : Nat) (x : Ctx) (c : Core) (q : Cmd), s.Shaped → s.now.ctx? k = some x → x.cmds.find? (fun z => z.id == q.id) = some q →
    x.core? q.core = some c → c.idx = q.core →
    let W := s.now.warm
    let ring := s.now.keepers.dedup
    let remap := Instr.dedupRemapService k q.id
    let found (M : Mach) (z : Cmd) : Prop := ∃ y, M.ctx? k = some y ∧ y.cmds.find? (fun z => z.id == q.id) = some z
    let posts (ins : Instr) (err : Bool) (z : Cmd) : Prop := Runs s ins fun M => M.warm = W ∧ found M z
      ∧ ∃ y d, M.ctx? k = some y ∧ y.core? q.core = some d ∧ (x.Current → Posted c d q.tc ∧ (d.tc q.tc).err = ((c.tc q.tc).err || err))
    (q.kind ≠ 1 ∨ q.posted = false ∨ q.second = true → Runs s remap fun M => M = s.now)
    ∧ (q.kind = 1 → q.posted = true → q.second = false →
      let first := ring.find? fun r => r.asid == x.asid && r.cmd == some q.id
      (first = none → posts remap false { q with second := true })
      ∧ ∀ r, first = some r →
        let maps (p : Pte) : Prop := W.leaf r.asid r.page = some p ∨ ∃ e ∈ W.mapping r.shared, W.leaf e.1 e.2 = some p
        let moving := ∃ p, maps p ∧ (pteMoor p.word = 2 ∨ pteMoor p.word = 3)
        let alike := sameFrame W.mem r.own r.shared = true ∧ W.phys r.asid r.page = some (65536 * r.own) ∧ ∀ p, maps p → pteMoor p.word ≠ 4
        let served (post : Mach → Prop) : Prop := Runs s remap fun M => M.keepers.dedup = ring.erase r ∧ M.ctxs = s.now.ctxs ∧ post M
        (moving → Runs s remap fun M => M = s.now)
        ∧ (¬moving → r.mark ≠ 0 → W.invdone < r.mark → Runs s remap fun M => M = s.now)
        ∧ (¬moving → r.mark = 0 → Runs s remap fun M =>
          M.keepers.dedup = (ring.map fun z => if z = r then { r with mark := M.warm.invseq } else z) ∧ M.ctxs = s.now.ctxs
          ∧ ((∀ a ∈ W.spaces, ∀ p ∈ a.ptes, p.level = 3) → W.SameButLeaves M.warm)
          ∧ ((∀ a ∈ W.spaces, ∀ p ∈ a.ptes, 1 ≤ p.level ∧ p.level ≤ 3) →
              ∀ a, ¬W.tableByte a → ¬M.warm.tableByte a → M.warm.mem.byte a = s.warmByte a)
          ∧ ∀ a ∈ M.warm.spaces, ∀ p ∈ a.ptes, p.level = 3 → pteAddr p.word = 65536 * r.shared → pteSh p.word = true ∧ pteW p.word = false)
        ∧ (¬moving → r.mark ≠ 0 → r.mark ≤ W.invdone → alike → r.shared < 2 ^ 25 → served fun M => W.SameButLeaves M.warm
          ∧ SMap.get 0 M.warm.refs r.own = 0
          ∧ ∃ p, M.warm.leaf r.asid r.page = some p ∧ pteAddr p.word = 65536 * r.shared ∧ pteSh p.word = true ∧ pteW p.word = false
            ∧ ∀ e, (W.mappers (65536 * r.shared) 3).head? = some e → pteMoor p.word = pteMoor e.2.word)
        ∧ (¬moving → r.mark ≠ 0 → r.mark ≤ W.invdone → ¬alike → served fun M => M.warm.mem = W.mem ∧ M.warm.spaces = W.spaces
          ∧ SMap.get 0 M.warm.refs r.shared = SMap.get 0 W.refs r.shared - 1))
    ∧ (q.kind = 2 → q.posted = false → (∀ z ∈ x.cmds, z.id = q.id → z = q) →
      let pref := Instr.xprefPost k q.id
      let waits := ∃ m ∈ W.moves, (x.asid.toNat, q.id) ∈ m.who
      let todo := if q.started then q.pages else q.src.warmPages W x.asid
      (q.started = true → q.pages = [] → waits → Runs s pref fun M => M = s.now)
      ∧ (q.started = true → q.pages = [] → ¬waits → posts pref q.err { q with posted := true, done := true })
      ∧ (q.started = false ∨ q.pages ≠ [] → Runs s pref fun M => W.SameButLeaves M.warm ∧ ∃ z, found M z ∧ z.started = true ∧ z.posted = false
        ∧ ((∀ va ∈ todo, ∃ p, W.leaf x.asid va = some p ∧ pteMoor p.word = if q.flags.getLsbD 0 then 1 else 0) →
            z.pages = [] ∧ z.err = q.err ∧ M.warm = W)))

/-! Pages. -/

/-- A write of TLBINV adds a marker behind every access that has not landed, and drops the entries in its range of the sources that have none, and of
the copy engines; with a reserved code it is ignored. A marker leaves a queue when nothing ahead of it is left there, and once it has left all of them, and not in the slot
of its write, INVDONE takes its number and the frames that waited for it are free, but for one that a dedup counts again (R90-R92, R170). -/
def Obligations.InvalidationsPass : Prop :=
  ∀ s : State,
    let W := s.now.warm
    (∀ v : BitVec 64,
      let reserved := v.toNat / 2 ^ 22 % 4 = 3 ∨ v.toNat / 2 ^ 20 % 4 = 3 ∨ v.toNat % 2 ^ 20 ≠ 0
      (reserved → Runs s (.tlbinvWrite v) fun M => M = s.now)
      ∧ (¬reserved → Runs s (.tlbinvWrite v) fun M => M = { s.now with warm := M.warm } ∧ (M.warm.mem = W.mem ∧ M.warm.spaces = W.spaces)
        ∧ M.warm.invseq = W.invseq + 1 ∧ M.warm.invdone = W.invdone ∧ (∀ e ∈ M.warm.tlbs, e ∈ W.tlbs)
        ∧ (∀ e, inRange v e = true → (∀ q ∈ s.now.queuesNow, e.source < 4096 → q.1 = e.source → q.2.any s.now.waits = false) → e ∉ M.warm.tlbs)
        ∧ ∃ m, M.warm.markers = W.markers ++ [m] ∧ m.num = W.invseq + 1 ∧ m.word = v ∧ m.mslot = s.now.mslot ∧ m.old = []
          ∧ ∀ x ∈ s.now.ctxs, ∀ r ∈ x.reqs, ∀ c, x.core? r.core = some c →
              ∃ q ∈ m.queues, q.1 = 16 * c.id + r.queue ∧ (x.slot, r.id) ∈ q.2))
    ∧ ∀ (source : Nat) (m : Marker) (rest : List Marker), W.markers = m :: rest →
      let left := ∃ q ∈ m.queues, q.1 ≠ source ∨ q.2.any s.now.live = true
      (m.mslot < s.now.mslot → ¬left → rest = [] → Runs s (.markerRetire source) fun M => M.warm.markers = [] ∧ M.warm.invdone = m.num
        ∧ M.warm.mem = W.mem ∧ M.warm.spaces = W.spaces ∧ M.warm.freeing = W.freeing.filter (fun f => f.1 != m.num)
        ∧ ∀ f ∈ W.freeing, f.1 = m.num → SMap.get 0 W.refs f.2.1 = 0 → ∀ g, f.2.1 ≤ g → g < f.2.1 + f.2.2 → ∀ u ∈ M.warm.used, ¬(u.1 ≤ g ∧ g < u.1 + u.2))
      ∧ (m.mslot < s.now.mslot → ¬left → Runs s (.markerRetire source) fun M => m.num = M.warm.invdone ∨ ∃ z ∈ rest, M.warm.invdone = z.num)
      ∧ (s.now.mslot ≤ m.mslot ∨ left → Runs s (.markerRetire source) fun M => M.warm.invdone = W.invdone ∧ M.warm.used = W.used
        ∧ M.warm.freeing = W.freeing ∧ M.warm.mem = W.mem ∧ M.warm.markers.map (·.num) = W.markers.map (·.num))

/-- A move completes once its old mapping has left every queue: the page is copied whole, its entry names the new frame and the new tier, the old
frame is to be free after the invalidation of the change, and whoever asked is told; an error ends the move with the page where it was, or lost, and
with it the request that issued it; the frame that failed a write is retired; a page whose home has an uncorrectable error is lost (R63, R65, R70, R71, R92). -/
def Obligations.PagesMove : Prop :=
  ∀ (s : State) (a : BitVec 8) (v : Nat) (m : Move) (p : Pte), s.Shaped → s.MemoryCanonical → s.now.moveOf a v = some m →
    s.now.warm.leaf a v = some p →
    let W := s.now.warm
    let old := pteAddr p.word
    let gone (M : Mach) : Prop := ∀ z ∈ M.warm.moves, z.old ≠ old
    let told (M : Mach) (moved failed : Bool) : Prop := ∀ d ∈ s.now.cmds, m.who = [(256, d.seq)] → ∃ e ∈ M.cmds, e.seq = d.seq
      ∧ e.moved = (if moved then d.moved + 1 else d.moved) ∧ e.failed = (d.failed || failed)
    let lost (M : Mach) (moor : Nat) : Prop := gone M ∧ told M false true ∧ W.SameButLeaves M.warm
      ∧ (∃ q, M.warm.leaf a v = some q ∧ pteMoor q.word = moor ∧ pteAddr q.word = old)
      ∧ (m.up = true → ∀ r ∈ M.warm.rings, ∀ f ∈ r.taken, f.kind = 4 → ∀ q, W.leaf f.asid (f.addr % 2 ^ 48) = some q →
          q.level = p.level → pteAddr q.word = old → moor ≠ 4 ∧ m.fault ≠ some f)
    let fails (err : MoveErr) (moor : Nat) (retire : Bool) : Prop := Runs s (.moveError a v err) fun M => lost M moor
      ∧ M.warm.retired = W.retired ++ if retire then [(m.frame, m.size / 65536)] else []
    (s.now.moveReady m.mark = false → Runs s (.moveComplete a v) fun M => M = s.now)
    ∧ (s.now.moveReady m.mark = true → m.frame < 2 ^ 25 → Runs s (.moveComplete a v) fun M => gone M ∧ told M true false
      ∧ (∀ b, ¬W.leafByte b → M.warm.mem.byte b = if 65536 * m.frame ≤ b ∧ b < 65536 * m.frame + m.size then
          s.warmByte (old + (b - 65536 * m.frame)) else s.warmByte b)
      ∧ (∃ q, M.warm.leaf a v = some q ∧ pteAddr q.word = 65536 * m.frame ∧ pteMoor q.word = (if m.up then 0 else 1)
          ∧ pteRd q.word = pteRd p.word ∧ pteW q.word = pteW p.word ∧ pteX q.word = pteX p.word)
      ∧ ∃ n, (1 ≤ p.level → W.invseq < n) ∧ (W.invdone < n → (n, old / 65536, m.size / 65536) ∈ M.warm.freeing))
    ∧ (p.level = levelOf m.size →
      (if m.up then fails .deepReadIntact 1 false ∧ fails .deepReadLost 4 false ∧ fails .hbmWrite 1 true
        else fails .deepWrite 0 false ∧ fails .hbmRead 4 false)
      ∧ ∀ f : Nat, old ≤ 65536 * f → 65536 * f < old + leafSize p.level → pteMoor p.word < 4 →
        (∀ sp ∈ W.spaces, ∀ q ∈ sp.ptes, pteAddr q.word ≤ 65536 * f → 65536 * f < pteAddr q.word + leafSize q.level → pteMoor q.word < 4 →
          q.level = p.level ∧ pteAddr q.word = old) →
        Runs s (.eccUncorrectable f) fun M => lost M 4)

/-- A write of CONS within PROD gives the records passed to the keeper, and any other is ignored; OVFCNT takes what the keeper writes; BASE changes
while its ring is empty. The oldest record taken is served by its kind: A, or A and D, are set, a shared page gets its own writable copy of what it held at the fault, and its
source goes on; a page of the deep tier starts a move, and the record waits for it, as for any move of its page; without a frame in HBM the keeper
frees one, or the context ends with NOMEM, frozen with cause 0x1E (log 150; R66, R69, R83, R84, R88, R89, R406). -/
def Obligations.FaultsAreServed : Prop :=
  ∀ (s : State) (n : BitVec 4), s.Shaped → s.MemoryCanonical →
    let W := s.now.warm
    let ring (M : Mach) (i : Nat) : Ring := M.warm.rings.getD i Ring.reset
    let r := ring s.now n.toNat
    let others (M : Mach) : Prop := ∀ i, i ≠ n.toNat → ring M i = ring s.now i
    let stood (f : FaultRec) (p : Pte) : Prop := f.snap.Pairwise (fun a b => a.1 < b.1) ∧ ∀ e ∈ f.snap, e.1 < leafSize p.level
    (∀ (f : FaultRec) (p : Pte), f.kind = 3 → W.leaf f.asid (f.addr % 2 ^ 48) = some p → ∃ g : FaultRec, g = { f with snap := g.snap } ∧ stood g p
      ∧ (s.now.raiseFault f).warm.rings = (W.onRing (ringOf f.asid) fun r => r.raise g).rings
      ∧ ∀ i < leafSize p.level, SMap.get 0 g.snap i = s.warmByte (pteAddr p.word + i))
    ∧ (∀ v : BitVec 64,
      let cons : BitVec 32 := v.setWidth 32
      let got := (cons - r.cons).toNat
      ((r.prod - r.cons).toNat < got → Runs s (.frconsWrite n (.cons v)) fun M => M = s.now)
      ∧ (Runs s (.frconsWrite n (.ovfcnt v)) fun M => ring M n.toNat = { r with ovf := v.extractLsb' 32 32 } ∧ others M ∧ M.warm.mem = W.mem)
      ∧ (got ≤ (r.prod - r.cons).toNat → Runs s (.frconsWrite n (.cons v)) fun M => (ring M n.toNat).cons = cons ∧ others M
        ∧ (ring M n.toNat).taken = r.taken ++ r.recs.take got ∧ M.warm.mem = W.mem ∧ M.ctxs = s.now.ctxs
        ∧ (r.held = [] → (ring M n.toNat).recs = r.recs.drop got ∧ (ring M n.toNat).prod = r.prod))
      ∧ (r.prod ≠ r.cons ∨ r.held ≠ [] → Runs s (.frbaseWrite n v) fun M => M = s.now)
      ∧ (r.prod = r.cons → r.held = [] → Runs s (.frbaseWrite n v) fun M => others M ∧ ring M n.toNat = { r with
          base := v.toNat / 2 ^ 6 % 2 ^ 19
          log2n := if 6 ≤ v.toNat / 2 ^ 25 % 16 ∧ v.toNat / 2 ^ 25 % 16 ≤ 12 then v.toNat / 2 ^ 25 % 16 else r.log2n }))
    ∧ ∀ frames : List Nat,
      let serve := Instr.lightFaultService n frames
      (r.taken = [] → Runs s serve fun M => M = s.now)
      ∧ ∀ (f : FaultRec) (rest : List FaultRec), r.taken = f :: rest →
        let closes (post : Mach → Prop) : Prop := Runs s serve fun M => ring M n.toNat = { r with taken := rest } ∧ others M ∧ post M
        let goes (M : Mach) : Prop := ∀ x, s.now.ctx? f.ctx = some x → x.asid = f.asid →
          (∀ q, f.src = 1 → x.reqs.find? (fun q => q.id == f.req) = some q → ∃ y z, M.ctx? f.ctx = some y
            ∧ y.reqs.find? (fun q => q.id == f.req) = some z ∧ z.held = false)
          ∧ ∀ q, f.src = 3 → x.cmds.find? (fun q => q.id == f.req) = some q → ∃ y z, M.ctx? f.ctx = some y
            ∧ y.cmds.find? (fun q => q.id == f.req) = some z ∧ z.held = false
        let va := f.addr % 2 ^ 48
        let leafIs (M : Mach) (p : Pte) (post : BitVec 64 → Prop) : Prop := ∃ q, M.warm.leaf f.asid va = some q ∧ q.va = p.va ∧ post q.word
        (lightKind f.kind = false → closes fun M => M.warm.mem = W.mem ∧ M.warm.spaces = W.spaces ∧ M.ctxs = s.now.ctxs)
        ∧ (lightKind f.kind = true →
          (W.leaf f.asid va = none → closes fun M => goes M ∧ M.warm.mem = W.mem ∧ M.warm.spaces = W.spaces)
          ∧ ∀ p, W.leaf f.asid va = some p →
            let frame := frames.headD 0
            let count := leafSize p.level / 65536
            let free := s.now.freeFrames frame count false = true
            let again : Prop := closes fun M => goes M ∧ M.warm.mem = W.mem ∧ M.warm.spaces = W.spaces
            (f.kind = 1 → closes fun M => goes M ∧ W.SameButLeaves M.warm ∧ leafIs M p fun w => w = p.word ||| 0x20#64)
            ∧ (f.kind = 2 → closes fun M => goes M ∧ W.SameButLeaves M.warm ∧ leafIs M p fun w => w = p.word ||| 0x60#64)
            ∧ (2 < f.kind → pteMoor p.word = 2 ∨ pteMoor p.word = 3 → Runs s serve fun M => M = s.now)
            ∧ (2 < f.kind → pteMoor p.word ≠ 2 → pteMoor p.word ≠ 3 →
              let needs := if f.kind = 3 then pteSh p.word = true ∧ pteMoor p.word = 0 else pteMoor p.word = 1
              (¬needs → again)
              ∧ (needs → free → f.kind = 3 → closes fun M => goes M
                ∧ (leafIs M p fun w => pteAddr w = 65536 * frame ∧ pteW w = true ∧ pteA w = true ∧ pteD w = true ∧ pteSh w = false)
                ∧ (stood f p → ∀ b, ¬W.leafByte b → M.warm.mem.byte b = if 65536 * frame ≤ b ∧ b < 65536 * frame + leafSize p.level then
                    SMap.get 0 f.snap (b - 65536 * frame) else s.warmByte b))
              ∧ (needs → free → f.kind = 4 → Runs s serve fun M => M.warm.rings = W.rings ∧ W.SameButLeaves M.warm ∧ M.ctxs = s.now.ctxs
                ∧ (leafIs M p fun w => pteMoor w = 2) ∧ ∃ m, M.warm.moves = W.moves ++ [m] ∧ m.asid = f.asid ∧ m.vpn = p.va ∧ m.up = true
                  ∧ m.frame = frame ∧ m.who = [(257, 0)] ∧ m.fault = some f)
              ∧ (needs → ¬free → s.now.short count = false → Runs s serve fun M => M = s.now)
              ∧ (needs → ¬free → s.now.short count = true → s.now.freeing = false → s.now.stuck = true → closes fun M => M.warm.mem = W.mem
                ∧ ∀ l x, s.now.ctx? l = some x → x.asid = f.asid → ∃ y, M.ctx? l = some y ∧ y.header.nomem = true ∧ y.cores = x.cores
                  ∧ (f.src ≠ 5 → ∃ z, y.stops = x.stops ++ [z] ∧ z.slot = x.nextStop ∧ z.cause.code = 0x1E))
              ∧ (needs → ¬free → s.now.short count = true → s.now.freeing = true ∨ s.now.stuck = false → Runs s serve fun M =>
                  M.warm.rings = W.rings ∧ W.SameButLeaves M.warm ∧ M.ctxs = s.now.ctxs)))

/-! What the issue of a word leaves alone. -/

/-- The issue of a word of any stream changes no byte of any memory, but the window header's flags and count where MSLOT or HEAT is read (R188,
R192); no register but a token cell and a mailbox's valid bit, since every other result is planned; no plane; nothing that another core or context
holds for its program, and nothing of the module (R115, R176, R290). -/
def Obligations.IssuesLeaveTheRestAlone : Prop :=
  ∀ (s t : State) (i : Issue) (x : Ctx) (c : Core) (ins : Instr), s.Issuing i x c → (encode ins).isSome = true → exec ins s = .next t →
    let header := ∃ g rd n, ins = .srd g rd n
    (∀ l j a, (header → a < 0x1C030 ∨ 0x1C038 ≤ a) → t.coldByte l j a = s.coldByte l j a)
    ∧ (∀ l n a, t.poolByte l n a = s.poolByte l n a) ∧ (∀ a, t.warmByte a = s.warmByte a) ∧ (∀ a, t.hostByte a = s.hostByte a)
    ∧ { t.now with ctxs := [] } = { s.now with ctxs := [] } ∧ (∀ l, l ≠ i.k → t.now.ctx? l = s.now.ctx? l)
    ∧ ∃ y d, t.Holds i.k i.j y d ∧ { d.regs with tk := [], m := [] } = { c.regs with tk := [], m := [] }
      ∧ (∀ n, postedCell ins ≠ some n → d.tk n = c.tk n) ∧ (∀ n, (d.mb n).value = (c.mb n).value)
      ∧ (d.mat.active = c.mat.active ∧ d.mat.shadow = c.mat.shadow) ∧ (d.mat = c.mat ∨ ∃ g m n k fa fw, ins = .tcfg g m n k fa fw)
      ∧ (y.asid = x.asid ∧ y.record = x.record ∧ y.cslot = x.cslot ∧ y.run = x.run ∧ y.code = x.code ∧ y.tdt = x.tdt ∧ y.heat = x.heat)
      ∧ (¬header → y.win = x.win ∧ y.coldLog = x.coldLog ∧ y.warmLog = x.warmLog)
      ∧ ∀ l e, l ≠ i.j → x.core? l = some e → ∃ f, y.core? l = some f ∧ f.regs = e.regs ∧ f.mat = e.mat ∧ f.inb = e.inb ∧ f.outb = e.outb

/-! Freezes. -/

/-- A context that stops with one cause or more is frozen at its slot: the cause it reports is the first by class (faults, slips, stops), then by
code, then by logical core id, and its header holds that cause with its slot, MSLOT and DETAIL; every core that takes part records its own causes,
and keeps its registers, planes, ports, cold bank and results in flight (R172-R175, R178). -/
def Obligations.FreezesRecordTheirCauses : Prop :=
  ∀ (x : Ctx) (mslot : Nat) (causes : List Cause), causes ≠ [] → ∃ r ∈ causes,
    let key (q : Cause) : Nat := (causeClass q.code * 64 + q.code) * 512 + q.lid
    let y := x.freeze mslot causes
    ((∀ q ∈ causes, q.code < 64 ∧ q.lid < 512) → ∀ q ∈ causes, key r ≤ key q)
      ∧ y.run = .frozen mslot none ∧ (y.header.cause = r.code ∧ y.header.core = r.core ∧ y.header.cslot = x.cslot ∧ y.header.mslot = mslot)
      ∧ (y.header.detail = r.detail ∧ y.header.freezes = x.header.freezes + 1 ∧ (r.code = 0x33 → y.header.service = r.detail.toNat))
      ∧ (y.cslot = x.cslot ∧ y.pools = x.pools ∧ y.reqs = x.reqs ∧ y.win = x.win ∧ y.heat = x.heat)
      ∧ ∀ j c, x.core? j = some c → ∃ d, y.core? j = some d ∧ d = { c with record := d.record }
        ∧ (c.idle = true → d = c)
        ∧ (c.idle = false → (∀ q ∈ causes, q.core ≠ c.idx) → d.record.cause = 0 ∧ d.record.reported = false)
        ∧ (c.idle = false → ∀ q ∈ causes, q.core = c.idx → d.record.reported = (r.core == c.idx) ∧ d.record.cause ≤ q.code
            ∧ (q.code < 64 → d.record.causes.getLsbD q.code = true) ∧ ∃ z ∈ causes, z.core = c.idx ∧ d.record.cause = z.code)
        ∧ ∀ q ∈ causes, c.idle = false → (∀ z ∈ causes, z.core = c.idx → z = q) → q.core = c.idx → d.record.word = q.word
            ∧ d.record.stream = q.stream ∧ d.record.detail = q.detail
end

