-- ==== Sys2Proof/Laws/Bits.lean ====
section
/-! SUPPORT. The laws of the sparse map and of memory: reading after writing, and the canonical form that every operation keeps. -/

namespace Sys2Proof.Machine

namespace SMap
variable {α : Type} [DecidableEq α] {d : α}

omit [DecidableEq α] in
@[simp] theorem get_nil (k : Nat) : get d ([] : SMap α) k = d := rfl

omit [DecidableEq α] in
theorem get_cons (i : Nat) (v : α) (r : SMap α) (k : Nat) : get d ((i, v) :: r) k = if i = k then v else get d r k := rfl

/-- A canonical map is canonical from every lower bound below its own. -/
theorem wfFrom_mono {lo lo' : Nat} (h : lo' ≤ lo) {m : SMap α} (hm : wfFrom d lo m = true) : wfFrom d lo' m = true := by
  cases m with
  | nil => rfl
  | cons c r =>
    obtain ⟨i, v⟩ := c
    simp only [wfFrom, Bool.and_eq_true, decide_eq_true_eq] at hm ⊢
    exact ⟨⟨by omega, hm.1.2⟩, hm.2⟩

/-- Below its lower bound a canonical map reads as its default. -/
theorem get_of_wfFrom_lt {lo k : Nat} {m : SMap α} (hm : wfFrom d lo m = true) (h : k < lo) : get d m k = d := by
  induction m generalizing lo with
  | nil => rfl
  | cons c r ih =>
    obtain ⟨i, v⟩ := c
    simp only [wfFrom, Bool.and_eq_true, decide_eq_true_eq] at hm
    rw [get_cons, if_neg (by omega)]
    exact ih hm.2 (by omega)

/-- Dropping entries keeps the canonical form. -/
theorem wfFrom_filter {lo : Nat} {m : SMap α} (p : Nat × α → Bool) (hm : wfFrom d lo m = true) : wfFrom d lo (m.filter p) = true := by
  induction m generalizing lo with
  | nil => rfl
  | cons c r ih =>
    obtain ⟨i, v⟩ := c
    simp only [wfFrom, Bool.and_eq_true, decide_eq_true_eq] at hm
    rw [List.filter_cons]
    split
    · simp only [wfFrom, Bool.and_eq_true, decide_eq_true_eq]
      exact ⟨hm.1, ih hm.2⟩
    · exact wfFrom_mono (by omega) (ih hm.2)

/-- `put` of a value that is not the default keeps the canonical form, from any bound that the key respects. -/
theorem wfFrom_put {lo k : Nat} {v : α} {m : SMap α} (hm : wfFrom d lo m = true) (h : lo ≤ k) (hv : v ≠ d) :
    wfFrom d lo (put m k v) = true := by
  induction m generalizing lo with
  | nil => simp [put, wfFrom, h, hv]
  | cons c r ih =>
    obtain ⟨i, x⟩ := c
    simp only [wfFrom, Bool.and_eq_true, decide_eq_true_eq] at hm
    unfold put
    split
    · simp only [wfFrom, Bool.and_eq_true, decide_eq_true_eq]
      exact ⟨⟨h, hv⟩, ⟨by omega, hm.1.2⟩, hm.2⟩
    · split
      · subst_vars
        simp only [wfFrom, Bool.and_eq_true, decide_eq_true_eq]
        exact ⟨⟨h, hv⟩, hm.2⟩
      · simp only [wfFrom, Bool.and_eq_true, decide_eq_true_eq]
        exact ⟨hm.1, ih hm.2 (by omega)⟩

theorem wf_set {k : Nat} {v : α} {m : SMap α} (hm : wf d m = true) : wf d (set d m k v) = true := by
  unfold set
  split
  · exact wfFrom_filter _ hm
  · exact wfFrom_put hm (Nat.zero_le k) ‹_›

theorem wf_nil : wf d ([] : SMap α) = true := rfl

theorem wf_erase {m : SMap α} (lo hi : Nat) (hm : wf d m = true) : wf d (erase m lo hi) = true := wfFrom_filter _ hm

theorem wf_slice {m : SMap α} (lo hi : Nat) (hm : wf d m = true) : wf d (slice m lo hi) = true := wfFrom_filter _ hm

omit [DecidableEq α] in
theorem get_drop_same (m : SMap α) (k : Nat) : get d (drop m k) k = d := by
  induction m with
  | nil => rfl
  | cons c r ih =>
    obtain ⟨i, x⟩ := c
    unfold drop at ih ⊢
    rw [List.filter_cons]
    split
    · rename_i h
      rw [get_cons, if_neg (by simpa using h)]
      exact ih
    · exact ih

omit [DecidableEq α] in
theorem get_drop_ne (m : SMap α) {k l : Nat} (h : l ≠ k) : get d (drop m k) l = get d m l := by
  induction m with
  | nil => rfl
  | cons c r ih =>
    obtain ⟨i, x⟩ := c
    unfold drop at ih ⊢
    rw [List.filter_cons]
    split
    · rw [get_cons, get_cons, ih]
    · rename_i g
      have : i = k := by simpa using g
      rw [get_cons, if_neg (by omega)]
      exact ih

omit [DecidableEq α] in
theorem get_put_same (m : SMap α) (k : Nat) (v : α) : get d (put m k v) k = v := by
  induction m with
  | nil => simp [put, get_cons]
  | cons c r ih =>
    obtain ⟨i, x⟩ := c
    unfold put
    split
    · simp [get_cons]
    · split
      · simp [get_cons]
      · rw [get_cons, if_neg (by omega)]
        exact ih

omit [DecidableEq α] in
theorem get_put_ne (m : SMap α) {k l : Nat} (v : α) (h : l ≠ k) : get d (put m k v) l = get d m l := by
  induction m with
  | nil => rw [put, get_cons, if_neg (by omega)]
  | cons c r ih =>
    obtain ⟨i, x⟩ := c
    unfold put
    split
    · rw [get_cons, if_neg (by omega)]
    · split
      · subst_vars
        rw [get_cons, get_cons, if_neg (by omega), if_neg (by omega)]
      · rw [get_cons, get_cons, ih]

/-- A key reads as what was written to it, whatever the form of the map. -/
@[simp] theorem get_set_same (m : SMap α) (k : Nat) (v : α) : get d (set d m k v) k = v := by
  unfold set
  split
  · rename_i h; rw [get_drop_same, h]
  · exact get_put_same m k v

/-- Every other key reads as before. -/
theorem get_set_ne (m : SMap α) {k l : Nat} (v : α) (h : l ≠ k) : get d (set d m k v) l = get d m l := by
  unfold set
  split
  · exact get_drop_ne m h
  · exact get_put_ne m v h

/-- Two canonical maps that read alike are one map. -/
theorem ext_of_get {lo lo' : Nat} {m n : SMap α} (hm : wfFrom d lo m = true) (hn : wfFrom d lo' n = true)
    (h : ∀ k, get d m k = get d n k) : m = n := by
  induction m generalizing lo lo' n with
  | nil =>
    cases n with
    | nil => rfl
    | cons c r =>
      obtain ⟨i, v⟩ := c
      simp only [wfFrom, Bool.and_eq_true, decide_eq_true_eq] at hn
      have := h i
      simp only [get_nil, get_cons, if_true] at this
      exact absurd this.symm hn.1.2
  | cons c r ih =>
    obtain ⟨i, v⟩ := c
    simp only [wfFrom, Bool.and_eq_true, decide_eq_true_eq] at hm
    cases n with
    | nil =>
      have := h i
      simp only [get_nil, get_cons, if_true] at this
      exact absurd this hm.1.2
    | cons e q =>
      obtain ⟨j, w⟩ := e
      simp only [wfFrom, Bool.and_eq_true, decide_eq_true_eq] at hn
      have hij : i = j := by
        rcases Nat.lt_trichotomy i j with g | g | g
        · have := h i
          rw [get_cons, if_pos rfl, get_cons, if_neg (by omega), get_of_wfFrom_lt hn.2 (by omega)] at this
          exact absurd this hm.1.2
        · exact g
        · have := h j
          rw [get_cons, if_neg (by omega), get_of_wfFrom_lt hm.2 (by omega), get_cons, if_pos rfl] at this
          exact absurd this.symm hn.1.2
      subst hij
      have hv : v = w := by have := h i; simpa only [get_cons, if_true] using this
      subst hv
      congr 1
      refine ih hm.2 hn.2 fun k => ?_
      by_cases hk : i = k
      · subst hk
        rw [get_of_wfFrom_lt hm.2 (by omega), get_of_wfFrom_lt hn.2 (by omega)]
      · have := h k
        rwa [get_cons, get_cons, if_neg hk, if_neg hk] at this

end SMap

namespace Memory

theorem wf_nil : wf [] = true := rfl

theorem setByte_wf {m : Memory} (a : Nat) (b : Byte) (h : m.wf = true) : (m.setByte a b).wf = true := SMap.wf_set h

@[simp] theorem byte_nil (a : Nat) : byte [] a = 0 := rfl

@[simp] theorem byte_setByte_same (m : Memory) (a : Nat) (b : Byte) : (m.setByte a b).byte a = b := SMap.get_set_same m a b

theorem byte_setByte_ne (m : Memory) {a c : Nat} (b : Byte) (h : c ≠ a) : (m.setByte a b).byte c = m.byte c := SMap.get_set_ne m b h

theorem write_wf {m : Memory} (n a v : Nat) (h : m.wf = true) : (m.write a n v).wf = true := by
  induction n generalizing m a v with
  | zero => exact h
  | succ n ih => exact ih _ _ (setByte_wf _ _ h)

theorem writeMask_wf {m : Memory} (n a v k : Nat) (h : m.wf = true) : (m.writeMask a n v k).wf = true := by
  induction n generalizing m a v k with
  | zero => exact h
  | succ n ih =>
    unfold writeMask
    refine ih _ _ _ ?_
    split
    · exact h
    · exact setByte_wf _ _ h

theorem writeList_wf {m : Memory} (l : List Byte) (a : Nat) (h : m.wf = true) : (m.writeList a l).wf = true := by
  induction l generalizing m a with
  | nil => exact h
  | cons b r ih => exact ih _ (setByte_wf _ _ h)

theorem zero_wf {m : Memory} (lo hi : Nat) (h : m.wf = true) : (m.zero lo hi).wf = true := SMap.wf_erase lo hi h

theorem copy_wf {m : Memory} (src dst n : Nat) (h : m.wf = true) : (m.copy src dst n).wf = true := by
  unfold copy
  generalize SMap.slice m src (src + n) = l
  have hz : (m.zero dst (dst + n)).wf = true := zero_wf _ _ h
  revert hz
  generalize m.zero dst (dst + n) = m'
  intro hz
  induction l generalizing m' with
  | nil => exact hz
  | cons c r ih => exact ih _ (setByte_wf _ _ hz)

/-- A write leaves every byte outside its range alone. -/
theorem byte_write_out {m : Memory} (n a v c : Nat) (h : c < a ∨ a + n ≤ c) : (m.write a n v).byte c = m.byte c := by
  induction n generalizing m a v with
  | zero => rfl
  | succ n ih =>
    unfold write
    rw [ih _ _ (by omega), byte_setByte_ne _ _ (by omega)]

/-- A masked write leaves every byte outside its range alone. -/
theorem byte_writeMask_out {m : Memory} (n a v k c : Nat) (h : c < a ∨ a + n ≤ c) : (m.writeMask a n v k).byte c = m.byte c := by
  induction n generalizing m a v k with
  | zero => rfl
  | succ n ih =>
    unfold writeMask
    rw [ih _ _ _ (by omega)]
    split
    · rfl
    · exact byte_setByte_ne _ _ (by omega)

theorem byte_writeList_out {m : Memory} (l : List Byte) (a c : Nat) (h : c < a ∨ a + l.length ≤ c) :
    (m.writeList a l).byte c = m.byte c := by
  induction l generalizing m a with
  | nil => rfl
  | cons b r ih =>
    unfold writeList
    rw [List.length_cons] at h
    rw [ih _ (by omega), byte_setByte_ne _ _ (by omega)]

/-- A byte read after a write of `n` bytes (R3). -/
theorem byte_write_in {m : Memory} (n a v i : Nat) (h : i < n) :
    (m.write a n v).byte (a + i) = BitVec.ofNat 8 (v / 256 ^ i) := by
  induction n generalizing m a v i with
  | zero => omega
  | succ n ih =>
    unfold write
    cases i with
    | zero =>
      rw [byte_write_out _ _ _ _ (by omega), Nat.add_zero, byte_setByte_same, Nat.pow_zero, Nat.div_one]
    | succ i =>
      rw [show a + (i + 1) = (a + 1) + i by omega, ih _ _ _ (by omega), Nat.div_div_eq_div_mul,
        show 256 * 256 ^ i = 256 ^ (i + 1) by rw [Nat.pow_succ, Nat.mul_comm]]

/-- A read of the bytes just written gives the value written, modulo its width. -/
theorem read_write_same {m : Memory} (n a v : Nat) : (m.write a n v).read a n = v % 256 ^ n := by
  induction n generalizing m a v with
  | zero => simp [read, Nat.mod_one]
  | succ n ih =>
    unfold write read
    rw [byte_write_out _ _ _ _ (by omega), byte_setByte_same, ih _ _, BitVec.toNat_ofNat,
      show (2 : Nat) ^ 8 = 256 from rfl, Nat.pow_succ, Nat.mul_comm (256 ^ n) 256, Nat.mod_mul]

/-- The bytes that a write leaves alone read as before. -/
theorem read_write_out {m : Memory} (n k a b v : Nat) (h : b + k ≤ a ∨ a + n ≤ b) : (m.write a n v).read b k = m.read b k := by
  induction k generalizing b with
  | zero => rfl
  | succ k ih =>
    unfold read
    rw [byte_write_out _ _ _ _ (by omega), ih _ (by omega)]

/-- Bits outside the mask keep their contents, bits inside it take the value's. -/
theorem byte_writeMask_in {m : Memory} (n a v k i : Nat) (h : i < n) :
    (m.writeMask a n v k).byte (a + i)
      = (m.byte (a + i) &&& ~~~(BitVec.ofNat 8 (k / 256 ^ i))) ||| (BitVec.ofNat 8 (v / 256 ^ i) &&& BitVec.ofNat 8 (k / 256 ^ i)) := by
  induction n generalizing m a v k i with
  | zero => omega
  | succ n ih =>
    unfold writeMask
    cases i with
    | zero =>
      rw [byte_writeMask_out _ _ _ _ _ (by omega), Nat.add_zero, Nat.pow_zero, Nat.div_one, Nat.div_one]
      split
      · rename_i hb
        rw [hb]
        have h0 : ~~~(0 : BitVec 8) = BitVec.allOnes 8 := by decide
        rw [h0, BitVec.and_allOnes]
        simp
      · rw [byte_setByte_same]
    | succ i =>
      rw [show a + (i + 1) = (a + 1) + i by omega, ih _ _ _ _ (by omega), Nat.div_div_eq_div_mul, Nat.div_div_eq_div_mul,
        show 256 * 256 ^ i = 256 ^ (i + 1) by rw [Nat.pow_succ, Nat.mul_comm]]
      congr 2
      split
      · rfl
      · exact byte_setByte_ne _ _ (by omega)

end Memory

/-- `setAt` reads back what it wrote, where the index exists. -/
theorem setAt_getElem?_same {α : Type} (l : List α) (n : Nat) (v : α) (h : n < l.length) : (setAt l n v)[n]? = some v := by
  induction l generalizing n with
  | nil => simp at h
  | cons x r ih =>
    cases n with
    | zero => rfl
    | succ n => simpa [setAt] using ih n (by simpa using h)

theorem setAt_getElem?_ne {α : Type} (l : List α) (n m : Nat) (v : α) (h : m ≠ n) : (setAt l n v)[m]? = l[m]? := by
  induction l generalizing n m with
  | nil => simp [setAt]
  | cons x r ih =>
    cases n with
    | zero => cases m with
      | zero => omega
      | succ m => rfl
    | succ n => cases m with
      | zero => rfl
      | succ m => simpa [setAt] using ih n m (by omega)

@[simp] theorem setAt_length {α : Type} (l : List α) (n : Nat) (v : α) : (setAt l n v).length = l.length := by
  induction l generalizing n with
  | nil => rfl
  | cons x r ih => cases n <;> simp [setAt, ih]

end Sys2Proof.Machine
end

