-- ==== Sys2Proof/Laws/State.lean ====
section
/-! SUPPORT. What each update of the state leaves of each field. -/

namespace Sys2Proof.Machine

/-! The machine of a state. -/

@[simp] theorem State.settled_now (s : State) : (s.settled).now = s.now := rfl
@[simp] theorem State.settled_snap (s : State) : (s.settled).snap = s.snap := rfl
@[simp] theorem State.settled_todo (s : State) : (s.settled).todo = s.todo := rfl
@[simp] theorem State.settled_inputs (s : State) : (s.settled).inputs = s.inputs := rfl
@[simp] theorem State.settled_cur (s : State) : (s.settled).cur = none := rfl
@[simp] theorem State.settled_causes (s : State) : (s.settled).causes = s.causes := rfl
@[simp] theorem State.settled_dwell (s : State) : (s.settled).dwell = s.dwell := rfl
@[simp] theorem State.raise_now (s : State) (i : Issue) (lid : Nat) (t : Trouble) : (s.raise i lid t).now = s.now := rfl
@[simp] theorem State.raise_snap (s : State) (i : Issue) (lid : Nat) (t : Trouble) : (s.raise i lid t).snap = s.snap := rfl
@[simp] theorem State.raise_todo (s : State) (i : Issue) (lid : Nat) (t : Trouble) : (s.raise i lid t).todo = s.todo := rfl
@[simp] theorem State.raise_inputs (s : State) (i : Issue) (lid : Nat) (t : Trouble) : (s.raise i lid t).inputs = s.inputs := rfl
@[simp] theorem State.raise_cur (s : State) (i : Issue) (lid : Nat) (t : Trouble) : (s.raise i lid t).cur = s.cur := rfl
@[simp] theorem State.raise_causes (s : State) (i : Issue) (lid : Nat) (t : Trouble) : (s.raise i lid t).causes = s.causes ++ [{ core := i.j, lid, code := t.code, stream := rank i.st, word := i.word, port := t.port, detail := t.detail }] := rfl
@[simp] theorem State.raise_dwell (s : State) (i : Issue) (lid : Nat) (t : Trouble) : (s.raise i lid t).dwell = s.dwell := rfl

/-! A context of the machine. -/

@[simp] theorem Mach.setCtx_mslot (M : Mach) (x : Ctx) : (M.setCtx x).mslot = M.mslot := rfl
@[simp] theorem Mach.setCtx_host (M : Mach) (x : Ctx) : (M.setCtx x).host = M.host := rfl
@[simp] theorem Mach.setCtx_journal (M : Mach) (x : Ctx) : (M.setCtx x).journal = M.journal := rfl
@[simp] theorem Mach.setCtx_keepers (M : Mach) (x : Ctx) : (M.setCtx x).keepers = M.keepers := rfl
@[simp] theorem Mach.setCtx_cold (M : Mach) (x : Ctx) : (M.setCtx x).cold = M.cold := rfl
@[simp] theorem Mach.setCtx_warm (M : Mach) (x : Ctx) : (M.setCtx x).warm = M.warm := rfl
@[simp] theorem Mach.setCtx_links (M : Mach) (x : Ctx) : (M.setCtx x).links = M.links := rfl
@[simp] theorem Mach.setCtx_cmds (M : Mach) (x : Ctx) : (M.setCtx x).cmds = M.cmds := rfl
@[simp] theorem Mach.setCtx_launch (M : Mach) (x : Ctx) : (M.setCtx x).launch = M.launch := rfl
@[simp] theorem Mach.setCtx_ctxs (M : Mach) (x : Ctx) : (M.setCtx x).ctxs = M.ctxs.map fun y => if y.slot == x.slot then x else y := rfl
@[simp] theorem Mach.setCtx_traces (M : Mach) (x : Ctx) : (M.setCtx x).traces = M.traces := rfl
@[simp] theorem Mach.setCtx_kept (M : Mach) (x : Ctx) : (M.setCtx x).kept = M.kept := rfl
@[simp] theorem Mach.setCtx_aside (M : Mach) (x : Ctx) : (M.setCtx x).aside = M.aside := rfl

/-! A core of a context, and the parts of a context that the shared operations change. -/

@[simp] theorem Ctx.setCore_slot (x : Ctx) (c : Core) : (x.setCore c).slot = x.slot := rfl
@[simp] theorem Ctx.setCore_asid (x : Ctx) (c : Core) : (x.setCore c).asid = x.asid := rfl
@[simp] theorem Ctx.setCore_record (x : Ctx) (c : Core) : (x.setCore c).record = x.record := rfl
@[simp] theorem Ctx.setCore_cmd (x : Ctx) (c : Core) : (x.setCore c).cmd = x.cmd := rfl
@[simp] theorem Ctx.setCore_ring (x : Ctx) (c : Core) : (x.setCore c).ring = x.ring := rfl
@[simp] theorem Ctx.setCore_ringPos (x : Ctx) (c : Core) : (x.setCore c).ringPos = x.ringPos := rfl
@[simp] theorem Ctx.setCore_ringAt (x : Ctx) (c : Core) : (x.setCore c).ringAt = x.ringAt := rfl
@[simp] theorem Ctx.setCore_die (x : Ctx) (c : Core) : (x.setCore c).die = x.die := rfl
@[simp] theorem Ctx.setCore_rot (x : Ctx) (c : Core) : (x.setCore c).rot = x.rot := rfl
@[simp] theorem Ctx.setCore_phase (x : Ctx) (c : Core) : (x.setCore c).phase = x.phase := rfl
@[simp] theorem Ctx.setCore_origin (x : Ctx) (c : Core) : (x.setCore c).origin = x.origin := rfl
@[simp] theorem Ctx.setCore_cslot (x : Ctx) (c : Core) : (x.setCore c).cslot = x.cslot := rfl
@[simp] theorem Ctx.setCore_run (x : Ctx) (c : Core) : (x.setCore c).run = x.run := rfl
@[simp] theorem Ctx.setCore_placed (x : Ctx) (c : Core) : (x.setCore c).placed = x.placed := rfl
@[simp] theorem Ctx.setCore_aged (x : Ctx) (c : Core) : (x.setCore c).aged = x.aged := rfl
@[simp] theorem Ctx.setCore_code (x : Ctx) (c : Core) : (x.setCore c).code = x.code := rfl
@[simp] theorem Ctx.setCore_loading (x : Ctx) (c : Core) : (x.setCore c).loading = x.loading := rfl
@[simp] theorem Ctx.setCore_serial (x : Ctx) (c : Core) : (x.setCore c).serial = x.serial := rfl
@[simp] theorem Ctx.setCore_cores (x : Ctx) (c : Core) : (x.setCore c).cores = setAt x.cores c.idx c := rfl
@[simp] theorem Ctx.setCore_pools (x : Ctx) (c : Core) : (x.setCore c).pools = x.pools := rfl
@[simp] theorem Ctx.setCore_tdt (x : Ctx) (c : Core) : (x.setCore c).tdt = x.tdt := rfl
@[simp] theorem Ctx.setCore_heat (x : Ctx) (c : Core) : (x.setCore c).heat = x.heat := rfl
@[simp] theorem Ctx.setCore_allow (x : Ctx) (c : Core) : (x.setCore c).allow = x.allow := rfl
@[simp] theorem Ctx.setCore_charge (x : Ctx) (c : Core) : (x.setCore c).charge = x.charge := rfl
@[simp] theorem Ctx.setCore_win (x : Ctx) (c : Core) : (x.setCore c).win = x.win := rfl
@[simp] theorem Ctx.setCore_windows (x : Ctx) (c : Core) : (x.setCore c).windows = x.windows := rfl
@[simp] theorem Ctx.setCore_coldLog (x : Ctx) (c : Core) : (x.setCore c).coldLog = x.coldLog := rfl
@[simp] theorem Ctx.setCore_warmLog (x : Ctx) (c : Core) : (x.setCore c).warmLog = x.warmLog := rfl
@[simp] theorem Ctx.setCore_coldNext (x : Ctx) (c : Core) : (x.setCore c).coldNext = x.coldNext := rfl
@[simp] theorem Ctx.setCore_tags (x : Ctx) (c : Core) : (x.setCore c).tags = x.tags := rfl
@[simp] theorem Ctx.setCore_unwritten (x : Ctx) (c : Core) : (x.setCore c).unwritten = x.unwritten := rfl
@[simp] theorem Ctx.setCore_warmSeen (x : Ctx) (c : Core) : (x.setCore c).warmSeen = x.warmSeen := rfl
@[simp] theorem Ctx.setCore_poolSeen (x : Ctx) (c : Core) : (x.setCore c).poolSeen = x.poolSeen := rfl
@[simp] theorem Ctx.setCore_lastCkpt (x : Ctx) (c : Core) : (x.setCore c).lastCkpt = x.lastCkpt := rfl
@[simp] theorem Ctx.setCore_opening (x : Ctx) (c : Core) : (x.setCore c).opening = x.opening := rfl
@[simp] theorem Ctx.setCore_next (x : Ctx) (c : Core) : (x.setCore c).next = x.next := rfl
@[simp] theorem Ctx.setCore_dwelt (x : Ctx) (c : Core) : (x.setCore c).dwelt = x.dwelt := rfl
@[simp] theorem Ctx.setCore_signalled (x : Ctx) (c : Core) : (x.setCore c).signalled = x.signalled := rfl
@[simp] theorem Ctx.setCore_waited (x : Ctx) (c : Core) : (x.setCore c).waited = x.waited := rfl
@[simp] theorem Ctx.setCore_reqs (x : Ctx) (c : Core) : (x.setCore c).reqs = x.reqs := rfl
@[simp] theorem Ctx.setCore_nextReq (x : Ctx) (c : Core) : (x.setCore c).nextReq = x.nextReq := rfl
@[simp] theorem Ctx.setCore_xings (x : Ctx) (c : Core) : (x.setCore c).xings = x.xings := rfl
@[simp] theorem Ctx.setCore_cmds (x : Ctx) (c : Core) : (x.setCore c).cmds = x.cmds := rfl
@[simp] theorem Ctx.setCore_joins (x : Ctx) (c : Core) : (x.setCore c).joins = x.joins := rfl
@[simp] theorem Ctx.setCore_posts (x : Ctx) (c : Core) : (x.setCore c).posts = x.posts := rfl
@[simp] theorem Ctx.setCore_engineK (x : Ctx) (c : Core) : (x.setCore c).engineK = x.engineK := rfl
@[simp] theorem Ctx.setCore_lanes (x : Ctx) (c : Core) : (x.setCore c).lanes = x.lanes := rfl
@[simp] theorem Ctx.setCore_ticks (x : Ctx) (c : Core) : (x.setCore c).ticks = x.ticks := rfl
@[simp] theorem Ctx.setCore_watch (x : Ctx) (c : Core) : (x.setCore c).watch = x.watch := rfl
@[simp] theorem Ctx.setCore_stops (x : Ctx) (c : Core) : (x.setCore c).stops = x.stops := rfl
@[simp] theorem Ctx.setCore_done (x : Ctx) (c : Core) : (x.setCore c).done = x.done := rfl
@[simp] theorem Ctx.setCore_header (x : Ctx) (c : Core) : (x.setCore c).header = x.header := rfl
@[simp] theorem Ctx.setCore_victim (x : Ctx) (c : Core) : (x.setCore c).victim = x.victim := rfl
@[simp] theorem Ctx.setCore_replay (x : Ctx) (c : Core) : (x.setCore c).replay = x.replay := rfl
@[simp] theorem Ctx.setCore_posted (x : Ctx) (c : Core) : (x.setCore c).posted = x.posted := rfl
@[simp] theorem Ctx.setCore_services (x : Ctx) (c : Core) : (x.setCore c).services = x.services := rfl
@[simp] theorem Ctx.setCore_retried (x : Ctx) (c : Core) : (x.setCore c).retried = x.retried := rfl
@[simp] theorem Ctx.setCore_account (x : Ctx) (c : Core) : (x.setCore c).account = x.account := rfl
@[simp] theorem Ctx.setCore_index (x : Ctx) (c : Core) : (x.setCore c).index = x.index := rfl
@[simp] theorem Ctx.setCore_reports (x : Ctx) (c : Core) : (x.setCore c).reports = x.reports := rfl
@[simp] theorem Ctx.onWin_slot (x : Ctx) (f : Window → Window) : (x.onWin f).slot = x.slot := rfl
@[simp] theorem Ctx.onWin_asid (x : Ctx) (f : Window → Window) : (x.onWin f).asid = x.asid := rfl
@[simp] theorem Ctx.onWin_record (x : Ctx) (f : Window → Window) : (x.onWin f).record = x.record := rfl
@[simp] theorem Ctx.onWin_cmd (x : Ctx) (f : Window → Window) : (x.onWin f).cmd = x.cmd := rfl
@[simp] theorem Ctx.onWin_ring (x : Ctx) (f : Window → Window) : (x.onWin f).ring = x.ring := rfl
@[simp] theorem Ctx.onWin_ringPos (x : Ctx) (f : Window → Window) : (x.onWin f).ringPos = x.ringPos := rfl
@[simp] theorem Ctx.onWin_ringAt (x : Ctx) (f : Window → Window) : (x.onWin f).ringAt = x.ringAt := rfl
@[simp] theorem Ctx.onWin_die (x : Ctx) (f : Window → Window) : (x.onWin f).die = x.die := rfl
@[simp] theorem Ctx.onWin_rot (x : Ctx) (f : Window → Window) : (x.onWin f).rot = x.rot := rfl
@[simp] theorem Ctx.onWin_phase (x : Ctx) (f : Window → Window) : (x.onWin f).phase = x.phase := rfl
@[simp] theorem Ctx.onWin_origin (x : Ctx) (f : Window → Window) : (x.onWin f).origin = x.origin := rfl
@[simp] theorem Ctx.onWin_cslot (x : Ctx) (f : Window → Window) : (x.onWin f).cslot = x.cslot := rfl
@[simp] theorem Ctx.onWin_run (x : Ctx) (f : Window → Window) : (x.onWin f).run = x.run := rfl
@[simp] theorem Ctx.onWin_placed (x : Ctx) (f : Window → Window) : (x.onWin f).placed = x.placed := rfl
@[simp] theorem Ctx.onWin_aged (x : Ctx) (f : Window → Window) : (x.onWin f).aged = x.aged := rfl
@[simp] theorem Ctx.onWin_code (x : Ctx) (f : Window → Window) : (x.onWin f).code = x.code := rfl
@[simp] theorem Ctx.onWin_loading (x : Ctx) (f : Window → Window) : (x.onWin f).loading = x.loading := rfl
@[simp] theorem Ctx.onWin_serial (x : Ctx) (f : Window → Window) : (x.onWin f).serial = x.serial := rfl
@[simp] theorem Ctx.onWin_cores (x : Ctx) (f : Window → Window) : (x.onWin f).cores = x.cores := rfl
@[simp] theorem Ctx.onWin_pools (x : Ctx) (f : Window → Window) : (x.onWin f).pools = x.pools := rfl
@[simp] theorem Ctx.onWin_tdt (x : Ctx) (f : Window → Window) : (x.onWin f).tdt = x.tdt := rfl
@[simp] theorem Ctx.onWin_heat (x : Ctx) (f : Window → Window) : (x.onWin f).heat = x.heat := rfl
@[simp] theorem Ctx.onWin_allow (x : Ctx) (f : Window → Window) : (x.onWin f).allow = x.allow := rfl
@[simp] theorem Ctx.onWin_charge (x : Ctx) (f : Window → Window) : (x.onWin f).charge = x.charge := rfl
@[simp] theorem Ctx.onWin_win (x : Ctx) (f : Window → Window) : (x.onWin f).win = f x.win := rfl
@[simp] theorem Ctx.onWin_windows (x : Ctx) (f : Window → Window) : (x.onWin f).windows = x.windows := rfl
@[simp] theorem Ctx.onWin_coldLog (x : Ctx) (f : Window → Window) : (x.onWin f).coldLog = x.coldLog := rfl
@[simp] theorem Ctx.onWin_warmLog (x : Ctx) (f : Window → Window) : (x.onWin f).warmLog = x.warmLog := rfl
@[simp] theorem Ctx.onWin_coldNext (x : Ctx) (f : Window → Window) : (x.onWin f).coldNext = x.coldNext := rfl
@[simp] theorem Ctx.onWin_tags (x : Ctx) (f : Window → Window) : (x.onWin f).tags = x.tags := rfl
@[simp] theorem Ctx.onWin_unwritten (x : Ctx) (f : Window → Window) : (x.onWin f).unwritten = x.unwritten := rfl
@[simp] theorem Ctx.onWin_warmSeen (x : Ctx) (f : Window → Window) : (x.onWin f).warmSeen = x.warmSeen := rfl
@[simp] theorem Ctx.onWin_poolSeen (x : Ctx) (f : Window → Window) : (x.onWin f).poolSeen = x.poolSeen := rfl
@[simp] theorem Ctx.onWin_lastCkpt (x : Ctx) (f : Window → Window) : (x.onWin f).lastCkpt = x.lastCkpt := rfl
@[simp] theorem Ctx.onWin_opening (x : Ctx) (f : Window → Window) : (x.onWin f).opening = x.opening := rfl
@[simp] theorem Ctx.onWin_next (x : Ctx) (f : Window → Window) : (x.onWin f).next = x.next := rfl
@[simp] theorem Ctx.onWin_dwelt (x : Ctx) (f : Window → Window) : (x.onWin f).dwelt = x.dwelt := rfl
@[simp] theorem Ctx.onWin_signalled (x : Ctx) (f : Window → Window) : (x.onWin f).signalled = x.signalled := rfl
@[simp] theorem Ctx.onWin_waited (x : Ctx) (f : Window → Window) : (x.onWin f).waited = x.waited := rfl
@[simp] theorem Ctx.onWin_reqs (x : Ctx) (f : Window → Window) : (x.onWin f).reqs = x.reqs := rfl
@[simp] theorem Ctx.onWin_nextReq (x : Ctx) (f : Window → Window) : (x.onWin f).nextReq = x.nextReq := rfl
@[simp] theorem Ctx.onWin_xings (x : Ctx) (f : Window → Window) : (x.onWin f).xings = x.xings := rfl
@[simp] theorem Ctx.onWin_cmds (x : Ctx) (f : Window → Window) : (x.onWin f).cmds = x.cmds := rfl
@[simp] theorem Ctx.onWin_joins (x : Ctx) (f : Window → Window) : (x.onWin f).joins = x.joins := rfl
@[simp] theorem Ctx.onWin_posts (x : Ctx) (f : Window → Window) : (x.onWin f).posts = x.posts := rfl
@[simp] theorem Ctx.onWin_engineK (x : Ctx) (f : Window → Window) : (x.onWin f).engineK = x.engineK := rfl
@[simp] theorem Ctx.onWin_lanes (x : Ctx) (f : Window → Window) : (x.onWin f).lanes = x.lanes := rfl
@[simp] theorem Ctx.onWin_ticks (x : Ctx) (f : Window → Window) : (x.onWin f).ticks = x.ticks := rfl
@[simp] theorem Ctx.onWin_watch (x : Ctx) (f : Window → Window) : (x.onWin f).watch = x.watch := rfl
@[simp] theorem Ctx.onWin_stops (x : Ctx) (f : Window → Window) : (x.onWin f).stops = x.stops := rfl
@[simp] theorem Ctx.onWin_done (x : Ctx) (f : Window → Window) : (x.onWin f).done = x.done := rfl
@[simp] theorem Ctx.onWin_header (x : Ctx) (f : Window → Window) : (x.onWin f).header = x.header := rfl
@[simp] theorem Ctx.onWin_victim (x : Ctx) (f : Window → Window) : (x.onWin f).victim = x.victim := rfl
@[simp] theorem Ctx.onWin_replay (x : Ctx) (f : Window → Window) : (x.onWin f).replay = x.replay := rfl
@[simp] theorem Ctx.onWin_posted (x : Ctx) (f : Window → Window) : (x.onWin f).posted = x.posted := rfl
@[simp] theorem Ctx.onWin_services (x : Ctx) (f : Window → Window) : (x.onWin f).services = x.services := rfl
@[simp] theorem Ctx.onWin_retried (x : Ctx) (f : Window → Window) : (x.onWin f).retried = x.retried := rfl
@[simp] theorem Ctx.onWin_account (x : Ctx) (f : Window → Window) : (x.onWin f).account = x.account := rfl
@[simp] theorem Ctx.onWin_index (x : Ctx) (f : Window → Window) : (x.onWin f).index = x.index := rfl
@[simp] theorem Ctx.onWin_reports (x : Ctx) (f : Window → Window) : (x.onWin f).reports = x.reports := rfl
@[simp] theorem Ctx.countIssue_slot (x : Ctx) (st : Stream) : (x.countIssue st).slot = x.slot := rfl
@[simp] theorem Ctx.countIssue_asid (x : Ctx) (st : Stream) : (x.countIssue st).asid = x.asid := rfl
@[simp] theorem Ctx.countIssue_record (x : Ctx) (st : Stream) : (x.countIssue st).record = x.record := rfl
@[simp] theorem Ctx.countIssue_cmd (x : Ctx) (st : Stream) : (x.countIssue st).cmd = x.cmd := rfl
@[simp] theorem Ctx.countIssue_ring (x : Ctx) (st : Stream) : (x.countIssue st).ring = x.ring := rfl
@[simp] theorem Ctx.countIssue_ringPos (x : Ctx) (st : Stream) : (x.countIssue st).ringPos = x.ringPos := rfl
@[simp] theorem Ctx.countIssue_ringAt (x : Ctx) (st : Stream) : (x.countIssue st).ringAt = x.ringAt := rfl
@[simp] theorem Ctx.countIssue_die (x : Ctx) (st : Stream) : (x.countIssue st).die = x.die := rfl
@[simp] theorem Ctx.countIssue_rot (x : Ctx) (st : Stream) : (x.countIssue st).rot = x.rot := rfl
@[simp] theorem Ctx.countIssue_phase (x : Ctx) (st : Stream) : (x.countIssue st).phase = x.phase := rfl
@[simp] theorem Ctx.countIssue_origin (x : Ctx) (st : Stream) : (x.countIssue st).origin = x.origin := rfl
@[simp] theorem Ctx.countIssue_cslot (x : Ctx) (st : Stream) : (x.countIssue st).cslot = x.cslot := rfl
@[simp] theorem Ctx.countIssue_run (x : Ctx) (st : Stream) : (x.countIssue st).run = x.run := rfl
@[simp] theorem Ctx.countIssue_placed (x : Ctx) (st : Stream) : (x.countIssue st).placed = x.placed := rfl
@[simp] theorem Ctx.countIssue_aged (x : Ctx) (st : Stream) : (x.countIssue st).aged = x.aged := rfl
@[simp] theorem Ctx.countIssue_code (x : Ctx) (st : Stream) : (x.countIssue st).code = x.code := rfl
@[simp] theorem Ctx.countIssue_loading (x : Ctx) (st : Stream) : (x.countIssue st).loading = x.loading := rfl
@[simp] theorem Ctx.countIssue_serial (x : Ctx) (st : Stream) : (x.countIssue st).serial = x.serial := rfl
@[simp] theorem Ctx.countIssue_cores (x : Ctx) (st : Stream) : (x.countIssue st).cores = x.cores := rfl
@[simp] theorem Ctx.countIssue_pools (x : Ctx) (st : Stream) : (x.countIssue st).pools = x.pools := rfl
@[simp] theorem Ctx.countIssue_tdt (x : Ctx) (st : Stream) : (x.countIssue st).tdt = x.tdt := rfl
@[simp] theorem Ctx.countIssue_heat (x : Ctx) (st : Stream) : (x.countIssue st).heat = x.heat := rfl
@[simp] theorem Ctx.countIssue_allow (x : Ctx) (st : Stream) : (x.countIssue st).allow = x.allow := rfl
@[simp] theorem Ctx.countIssue_charge (x : Ctx) (st : Stream) : (x.countIssue st).charge = x.charge := rfl
@[simp] theorem Ctx.countIssue_win (x : Ctx) (st : Stream) : (x.countIssue st).win = x.win := rfl
@[simp] theorem Ctx.countIssue_windows (x : Ctx) (st : Stream) : (x.countIssue st).windows = x.windows := rfl
@[simp] theorem Ctx.countIssue_coldLog (x : Ctx) (st : Stream) : (x.countIssue st).coldLog = x.coldLog := rfl
@[simp] theorem Ctx.countIssue_warmLog (x : Ctx) (st : Stream) : (x.countIssue st).warmLog = x.warmLog := rfl
@[simp] theorem Ctx.countIssue_coldNext (x : Ctx) (st : Stream) : (x.countIssue st).coldNext = x.coldNext := rfl
@[simp] theorem Ctx.countIssue_tags (x : Ctx) (st : Stream) : (x.countIssue st).tags = x.tags := rfl
@[simp] theorem Ctx.countIssue_unwritten (x : Ctx) (st : Stream) : (x.countIssue st).unwritten = x.unwritten := rfl
@[simp] theorem Ctx.countIssue_warmSeen (x : Ctx) (st : Stream) : (x.countIssue st).warmSeen = x.warmSeen := rfl
@[simp] theorem Ctx.countIssue_poolSeen (x : Ctx) (st : Stream) : (x.countIssue st).poolSeen = x.poolSeen := rfl
@[simp] theorem Ctx.countIssue_lastCkpt (x : Ctx) (st : Stream) : (x.countIssue st).lastCkpt = x.lastCkpt := rfl
@[simp] theorem Ctx.countIssue_opening (x : Ctx) (st : Stream) : (x.countIssue st).opening = x.opening := rfl
@[simp] theorem Ctx.countIssue_next (x : Ctx) (st : Stream) : (x.countIssue st).next = x.next := rfl
@[simp] theorem Ctx.countIssue_dwelt (x : Ctx) (st : Stream) : (x.countIssue st).dwelt = x.dwelt := rfl
@[simp] theorem Ctx.countIssue_signalled (x : Ctx) (st : Stream) : (x.countIssue st).signalled = x.signalled := rfl
@[simp] theorem Ctx.countIssue_waited (x : Ctx) (st : Stream) : (x.countIssue st).waited = x.waited := rfl
@[simp] theorem Ctx.countIssue_reqs (x : Ctx) (st : Stream) : (x.countIssue st).reqs = x.reqs := rfl
@[simp] theorem Ctx.countIssue_nextReq (x : Ctx) (st : Stream) : (x.countIssue st).nextReq = x.nextReq := rfl
@[simp] theorem Ctx.countIssue_xings (x : Ctx) (st : Stream) : (x.countIssue st).xings = x.xings := rfl
@[simp] theorem Ctx.countIssue_cmds (x : Ctx) (st : Stream) : (x.countIssue st).cmds = x.cmds := rfl
@[simp] theorem Ctx.countIssue_joins (x : Ctx) (st : Stream) : (x.countIssue st).joins = x.joins := rfl
@[simp] theorem Ctx.countIssue_posts (x : Ctx) (st : Stream) : (x.countIssue st).posts = x.posts := rfl
@[simp] theorem Ctx.countIssue_engineK (x : Ctx) (st : Stream) : (x.countIssue st).engineK = x.engineK := rfl
@[simp] theorem Ctx.countIssue_lanes (x : Ctx) (st : Stream) : (x.countIssue st).lanes = x.lanes := rfl
@[simp] theorem Ctx.countIssue_ticks (x : Ctx) (st : Stream) : (x.countIssue st).ticks = x.ticks := rfl
@[simp] theorem Ctx.countIssue_watch (x : Ctx) (st : Stream) : (x.countIssue st).watch = x.watch := rfl
@[simp] theorem Ctx.countIssue_stops (x : Ctx) (st : Stream) : (x.countIssue st).stops = x.stops := rfl
@[simp] theorem Ctx.countIssue_done (x : Ctx) (st : Stream) : (x.countIssue st).done = x.done := rfl
@[simp] theorem Ctx.countIssue_header (x : Ctx) (st : Stream) : (x.countIssue st).header = x.header := rfl
@[simp] theorem Ctx.countIssue_victim (x : Ctx) (st : Stream) : (x.countIssue st).victim = x.victim := rfl
@[simp] theorem Ctx.countIssue_replay (x : Ctx) (st : Stream) : (x.countIssue st).replay = x.replay := rfl
@[simp] theorem Ctx.countIssue_posted (x : Ctx) (st : Stream) : (x.countIssue st).posted = x.posted := rfl
@[simp] theorem Ctx.countIssue_services (x : Ctx) (st : Stream) : (x.countIssue st).services = x.services := rfl
@[simp] theorem Ctx.countIssue_retried (x : Ctx) (st : Stream) : (x.countIssue st).retried = x.retried := rfl
@[simp] theorem Ctx.countIssue_index (x : Ctx) (st : Stream) : (x.countIssue st).index = x.index := rfl
@[simp] theorem Ctx.countIssue_reports (x : Ctx) (st : Stream) : (x.countIssue st).reports = x.reports := rfl
@[simp] theorem Ctx.resume_slot (x : Ctx) (m : Nat) : (x.resume m).slot = x.slot := rfl
@[simp] theorem Ctx.resume_asid (x : Ctx) (m : Nat) : (x.resume m).asid = x.asid := rfl
@[simp] theorem Ctx.resume_record (x : Ctx) (m : Nat) : (x.resume m).record = x.record := rfl
@[simp] theorem Ctx.resume_cmd (x : Ctx) (m : Nat) : (x.resume m).cmd = x.cmd := rfl
@[simp] theorem Ctx.resume_ring (x : Ctx) (m : Nat) : (x.resume m).ring = x.ring := rfl
@[simp] theorem Ctx.resume_ringPos (x : Ctx) (m : Nat) : (x.resume m).ringPos = x.ringPos := rfl
@[simp] theorem Ctx.resume_ringAt (x : Ctx) (m : Nat) : (x.resume m).ringAt = x.ringAt := rfl
@[simp] theorem Ctx.resume_die (x : Ctx) (m : Nat) : (x.resume m).die = x.die := rfl
@[simp] theorem Ctx.resume_rot (x : Ctx) (m : Nat) : (x.resume m).rot = x.rot := rfl
@[simp] theorem Ctx.resume_phase (x : Ctx) (m : Nat) : (x.resume m).phase = x.phase := rfl
@[simp] theorem Ctx.resume_origin (x : Ctx) (m : Nat) : (x.resume m).origin = m - x.cslot := rfl
@[simp] theorem Ctx.resume_cslot (x : Ctx) (m : Nat) : (x.resume m).cslot = x.cslot := rfl
@[simp] theorem Ctx.resume_run (x : Ctx) (m : Nat) : (x.resume m).run = .running := rfl
@[simp] theorem Ctx.resume_placed (x : Ctx) (m : Nat) : (x.resume m).placed = x.placed := rfl
@[simp] theorem Ctx.resume_aged (x : Ctx) (m : Nat) : (x.resume m).aged = x.aged := rfl
@[simp] theorem Ctx.resume_code (x : Ctx) (m : Nat) : (x.resume m).code = x.code := rfl
@[simp] theorem Ctx.resume_loading (x : Ctx) (m : Nat) : (x.resume m).loading = x.loading := rfl
@[simp] theorem Ctx.resume_serial (x : Ctx) (m : Nat) : (x.resume m).serial = x.serial := rfl
@[simp] theorem Ctx.resume_cores (x : Ctx) (m : Nat) : (x.resume m).cores = x.cores := rfl
@[simp] theorem Ctx.resume_pools (x : Ctx) (m : Nat) : (x.resume m).pools = x.pools := rfl
@[simp] theorem Ctx.resume_tdt (x : Ctx) (m : Nat) : (x.resume m).tdt = x.tdt := rfl
@[simp] theorem Ctx.resume_heat (x : Ctx) (m : Nat) : (x.resume m).heat = x.heat := rfl
@[simp] theorem Ctx.resume_allow (x : Ctx) (m : Nat) : (x.resume m).allow = x.allow := rfl
@[simp] theorem Ctx.resume_charge (x : Ctx) (m : Nat) : (x.resume m).charge = x.charge := rfl
@[simp] theorem Ctx.resume_win (x : Ctx) (m : Nat) : (x.resume m).win = x.win := rfl
@[simp] theorem Ctx.resume_windows (x : Ctx) (m : Nat) : (x.resume m).windows = x.windows := rfl
@[simp] theorem Ctx.resume_coldLog (x : Ctx) (m : Nat) : (x.resume m).coldLog = x.coldLog := rfl
@[simp] theorem Ctx.resume_warmLog (x : Ctx) (m : Nat) : (x.resume m).warmLog = x.warmLog := rfl
@[simp] theorem Ctx.resume_coldNext (x : Ctx) (m : Nat) : (x.resume m).coldNext = x.coldNext := rfl
@[simp] theorem Ctx.resume_tags (x : Ctx) (m : Nat) : (x.resume m).tags = x.tags := rfl
@[simp] theorem Ctx.resume_unwritten (x : Ctx) (m : Nat) : (x.resume m).unwritten = x.unwritten := rfl
@[simp] theorem Ctx.resume_warmSeen (x : Ctx) (m : Nat) : (x.resume m).warmSeen = x.warmSeen := rfl
@[simp] theorem Ctx.resume_poolSeen (x : Ctx) (m : Nat) : (x.resume m).poolSeen = x.poolSeen := rfl
@[simp] theorem Ctx.resume_lastCkpt (x : Ctx) (m : Nat) : (x.resume m).lastCkpt = x.lastCkpt := rfl
@[simp] theorem Ctx.resume_opening (x : Ctx) (m : Nat) : (x.resume m).opening = x.opening := rfl
@[simp] theorem Ctx.resume_next (x : Ctx) (m : Nat) : (x.resume m).next = x.next := rfl
@[simp] theorem Ctx.resume_dwelt (x : Ctx) (m : Nat) : (x.resume m).dwelt = x.dwelt := rfl
@[simp] theorem Ctx.resume_signalled (x : Ctx) (m : Nat) : (x.resume m).signalled = x.signalled := rfl
@[simp] theorem Ctx.resume_waited (x : Ctx) (m : Nat) : (x.resume m).waited = x.waited := rfl
@[simp] theorem Ctx.resume_reqs (x : Ctx) (m : Nat) : (x.resume m).reqs = x.reqs := rfl
@[simp] theorem Ctx.resume_nextReq (x : Ctx) (m : Nat) : (x.resume m).nextReq = x.nextReq := rfl
@[simp] theorem Ctx.resume_xings (x : Ctx) (m : Nat) : (x.resume m).xings = x.xings := rfl
@[simp] theorem Ctx.resume_cmds (x : Ctx) (m : Nat) : (x.resume m).cmds = x.cmds := rfl
@[simp] theorem Ctx.resume_joins (x : Ctx) (m : Nat) : (x.resume m).joins = x.joins := rfl
@[simp] theorem Ctx.resume_posts (x : Ctx) (m : Nat) : (x.resume m).posts = x.posts := rfl
@[simp] theorem Ctx.resume_engineK (x : Ctx) (m : Nat) : (x.resume m).engineK = x.engineK := rfl
@[simp] theorem Ctx.resume_lanes (x : Ctx) (m : Nat) : (x.resume m).lanes = x.lanes := rfl
@[simp] theorem Ctx.resume_ticks (x : Ctx) (m : Nat) : (x.resume m).ticks = x.ticks := rfl
@[simp] theorem Ctx.resume_watch (x : Ctx) (m : Nat) : (x.resume m).watch = x.watch := rfl
@[simp] theorem Ctx.resume_stops (x : Ctx) (m : Nat) : (x.resume m).stops = x.stops := rfl
@[simp] theorem Ctx.resume_done (x : Ctx) (m : Nat) : (x.resume m).done = x.done := rfl
@[simp] theorem Ctx.resume_header (x : Ctx) (m : Nat) : (x.resume m).header = x.header := rfl
@[simp] theorem Ctx.resume_victim (x : Ctx) (m : Nat) : (x.resume m).victim = x.victim := rfl
@[simp] theorem Ctx.resume_replay (x : Ctx) (m : Nat) : (x.resume m).replay = x.replay := rfl
@[simp] theorem Ctx.resume_posted (x : Ctx) (m : Nat) : (x.resume m).posted = x.posted := rfl
@[simp] theorem Ctx.resume_services (x : Ctx) (m : Nat) : (x.resume m).services = x.services := rfl
@[simp] theorem Ctx.resume_retried (x : Ctx) (m : Nat) : (x.resume m).retried = x.retried := rfl
@[simp] theorem Ctx.resume_account (x : Ctx) (m : Nat) : (x.resume m).account = x.account := rfl
@[simp] theorem Ctx.resume_index (x : Ctx) (m : Nat) : (x.resume m).index = x.index := rfl
@[simp] theorem Ctx.resume_reports (x : Ctx) (m : Nat) : (x.resume m).reports = x.reports := rfl
@[simp] theorem Ctx.syncHeader_slot (x : Ctx) : (x.syncHeader).slot = x.slot := rfl
@[simp] theorem Ctx.syncHeader_asid (x : Ctx) : (x.syncHeader).asid = x.asid := rfl
@[simp] theorem Ctx.syncHeader_record (x : Ctx) : (x.syncHeader).record = x.record := rfl
@[simp] theorem Ctx.syncHeader_cmd (x : Ctx) : (x.syncHeader).cmd = x.cmd := rfl
@[simp] theorem Ctx.syncHeader_ring (x : Ctx) : (x.syncHeader).ring = x.ring := rfl
@[simp] theorem Ctx.syncHeader_ringPos (x : Ctx) : (x.syncHeader).ringPos = x.ringPos := rfl
@[simp] theorem Ctx.syncHeader_ringAt (x : Ctx) : (x.syncHeader).ringAt = x.ringAt := rfl
@[simp] theorem Ctx.syncHeader_die (x : Ctx) : (x.syncHeader).die = x.die := rfl
@[simp] theorem Ctx.syncHeader_rot (x : Ctx) : (x.syncHeader).rot = x.rot := rfl
@[simp] theorem Ctx.syncHeader_phase (x : Ctx) : (x.syncHeader).phase = x.phase := rfl
@[simp] theorem Ctx.syncHeader_origin (x : Ctx) : (x.syncHeader).origin = x.origin := rfl
@[simp] theorem Ctx.syncHeader_cslot (x : Ctx) : (x.syncHeader).cslot = x.cslot := rfl
@[simp] theorem Ctx.syncHeader_run (x : Ctx) : (x.syncHeader).run = x.run := rfl
@[simp] theorem Ctx.syncHeader_placed (x : Ctx) : (x.syncHeader).placed = x.placed := rfl
@[simp] theorem Ctx.syncHeader_aged (x : Ctx) : (x.syncHeader).aged = x.aged := rfl
@[simp] theorem Ctx.syncHeader_code (x : Ctx) : (x.syncHeader).code = x.code := rfl
@[simp] theorem Ctx.syncHeader_loading (x : Ctx) : (x.syncHeader).loading = x.loading := rfl
@[simp] theorem Ctx.syncHeader_serial (x : Ctx) : (x.syncHeader).serial = x.serial := rfl
@[simp] theorem Ctx.syncHeader_pools (x : Ctx) : (x.syncHeader).pools = x.pools := rfl
@[simp] theorem Ctx.syncHeader_tdt (x : Ctx) : (x.syncHeader).tdt = x.tdt := rfl
@[simp] theorem Ctx.syncHeader_heat (x : Ctx) : (x.syncHeader).heat = x.heat := rfl
@[simp] theorem Ctx.syncHeader_allow (x : Ctx) : (x.syncHeader).allow = x.allow := rfl
@[simp] theorem Ctx.syncHeader_charge (x : Ctx) : (x.syncHeader).charge = x.charge := rfl
@[simp] theorem Ctx.syncHeader_win (x : Ctx) : (x.syncHeader).win = x.win := rfl
@[simp] theorem Ctx.syncHeader_windows (x : Ctx) : (x.syncHeader).windows = x.windows := rfl
@[simp] theorem Ctx.syncHeader_coldLog (x : Ctx) : (x.syncHeader).coldLog = x.coldLog := rfl
@[simp] theorem Ctx.syncHeader_warmLog (x : Ctx) : (x.syncHeader).warmLog = x.warmLog := rfl
@[simp] theorem Ctx.syncHeader_coldNext (x : Ctx) : (x.syncHeader).coldNext = x.coldNext := rfl
@[simp] theorem Ctx.syncHeader_tags (x : Ctx) : (x.syncHeader).tags = x.tags := rfl
@[simp] theorem Ctx.syncHeader_unwritten (x : Ctx) : (x.syncHeader).unwritten = x.unwritten := rfl
@[simp] theorem Ctx.syncHeader_warmSeen (x : Ctx) : (x.syncHeader).warmSeen = x.warmSeen := rfl
@[simp] theorem Ctx.syncHeader_poolSeen (x : Ctx) : (x.syncHeader).poolSeen = x.poolSeen := rfl
@[simp] theorem Ctx.syncHeader_lastCkpt (x : Ctx) : (x.syncHeader).lastCkpt = x.lastCkpt := rfl
@[simp] theorem Ctx.syncHeader_opening (x : Ctx) : (x.syncHeader).opening = x.opening := rfl
@[simp] theorem Ctx.syncHeader_next (x : Ctx) : (x.syncHeader).next = x.next := rfl
@[simp] theorem Ctx.syncHeader_dwelt (x : Ctx) : (x.syncHeader).dwelt = x.dwelt := rfl
@[simp] theorem Ctx.syncHeader_signalled (x : Ctx) : (x.syncHeader).signalled = x.signalled := rfl
@[simp] theorem Ctx.syncHeader_waited (x : Ctx) : (x.syncHeader).waited = x.waited := rfl
@[simp] theorem Ctx.syncHeader_reqs (x : Ctx) : (x.syncHeader).reqs = x.reqs := rfl
@[simp] theorem Ctx.syncHeader_nextReq (x : Ctx) : (x.syncHeader).nextReq = x.nextReq := rfl
@[simp] theorem Ctx.syncHeader_xings (x : Ctx) : (x.syncHeader).xings = x.xings := rfl
@[simp] theorem Ctx.syncHeader_cmds (x : Ctx) : (x.syncHeader).cmds = x.cmds := rfl
@[simp] theorem Ctx.syncHeader_joins (x : Ctx) : (x.syncHeader).joins = x.joins := rfl
@[simp] theorem Ctx.syncHeader_posts (x : Ctx) : (x.syncHeader).posts = x.posts := rfl
@[simp] theorem Ctx.syncHeader_engineK (x : Ctx) : (x.syncHeader).engineK = x.engineK := rfl
@[simp] theorem Ctx.syncHeader_lanes (x : Ctx) : (x.syncHeader).lanes = x.lanes := rfl
@[simp] theorem Ctx.syncHeader_ticks (x : Ctx) : (x.syncHeader).ticks = x.ticks := rfl
@[simp] theorem Ctx.syncHeader_watch (x : Ctx) : (x.syncHeader).watch = x.watch := rfl
@[simp] theorem Ctx.syncHeader_stops (x : Ctx) : (x.syncHeader).stops = x.stops := rfl
@[simp] theorem Ctx.syncHeader_done (x : Ctx) : (x.syncHeader).done = x.done := rfl
@[simp] theorem Ctx.syncHeader_header (x : Ctx) : (x.syncHeader).header = x.header := rfl
@[simp] theorem Ctx.syncHeader_victim (x : Ctx) : (x.syncHeader).victim = x.victim := rfl
@[simp] theorem Ctx.syncHeader_replay (x : Ctx) : (x.syncHeader).replay = x.replay := rfl
@[simp] theorem Ctx.syncHeader_posted (x : Ctx) : (x.syncHeader).posted = x.posted := rfl
@[simp] theorem Ctx.syncHeader_services (x : Ctx) : (x.syncHeader).services = x.services := rfl
@[simp] theorem Ctx.syncHeader_retried (x : Ctx) : (x.syncHeader).retried = x.retried := rfl
@[simp] theorem Ctx.syncHeader_account (x : Ctx) : (x.syncHeader).account = x.account := rfl
@[simp] theorem Ctx.syncHeader_index (x : Ctx) : (x.syncHeader).index = x.index := rfl
@[simp] theorem Ctx.syncHeader_reports (x : Ctx) : (x.syncHeader).reports = x.reports := rfl

/-! The parts of a core. -/

@[simp] theorem Core.onRegs_id (c : Core) (f : Regs → Regs) : (c.onRegs f).id = c.id := rfl
@[simp] theorem Core.onRegs_idx (c : Core) (f : Regs → Regs) : (c.onRegs f).idx = c.idx := rfl
@[simp] theorem Core.onRegs_idle (c : Core) (f : Regs → Regs) : (c.onRegs f).idle = c.idle := rfl
@[simp] theorem Core.onRegs_s (c : Core) (f : Regs → Regs) : (c.onRegs f).s = c.s := rfl
@[simp] theorem Core.onRegs_v (c : Core) (f : Regs → Regs) : (c.onRegs f).v = c.v := rfl
@[simp] theorem Core.onRegs_m (c : Core) (f : Regs → Regs) : (c.onRegs f).m = c.m := rfl
@[simp] theorem Core.onRegs_x (c : Core) (f : Regs → Regs) : (c.onRegs f).x = c.x := rfl
@[simp] theorem Core.onRegs_regs (c : Core) (f : Regs → Regs) : (c.onRegs f).regs = f c.regs := rfl
@[simp] theorem Core.onRegs_mat (c : Core) (f : Regs → Regs) : (c.onRegs f).mat = c.mat := rfl
@[simp] theorem Core.onRegs_units (c : Core) (f : Regs → Regs) : (c.onRegs f).units = c.units := rfl
@[simp] theorem Core.onRegs_inb (c : Core) (f : Regs → Regs) : (c.onRegs f).inb = c.inb := rfl
@[simp] theorem Core.onRegs_outb (c : Core) (f : Regs → Regs) : (c.onRegs f).outb = c.outb := rfl
@[simp] theorem Core.onRegs_cold (c : Core) (f : Regs → Regs) : (c.onRegs f).cold = c.cold := rfl
@[simp] theorem Core.onRegs_pend (c : Core) (f : Regs → Regs) : (c.onRegs f).pend = c.pend := rfl
@[simp] theorem Core.onRegs_ops (c : Core) (f : Regs → Regs) : (c.onRegs f).ops = c.ops := rfl
@[simp] theorem Core.onRegs_banks (c : Core) (f : Regs → Regs) : (c.onRegs f).banks = c.banks := rfl
@[simp] theorem Core.onRegs_ranges (c : Core) (f : Regs → Regs) : (c.onRegs f).ranges = c.ranges := rfl
@[simp] theorem Core.onRegs_barred (c : Core) (f : Regs → Regs) : (c.onRegs f).barred = c.barred := rfl
@[simp] theorem Core.onRegs_hold (c : Core) (f : Regs → Regs) : (c.onRegs f).hold = c.hold := rfl
@[simp] theorem Core.onRegs_ckpt (c : Core) (f : Regs → Regs) : (c.onRegs f).ckpt = c.ckpt := rfl
@[simp] theorem Core.onRegs_halt (c : Core) (f : Regs → Regs) : (c.onRegs f).halt = c.halt := rfl
@[simp] theorem Core.onRegs_line (c : Core) (f : Regs → Regs) : (c.onRegs f).line = c.line := rfl
@[simp] theorem Core.onRegs_record (c : Core) (f : Regs → Regs) : (c.onRegs f).record = c.record := rfl
@[simp] theorem Core.onRegs_logged (c : Core) (f : Regs → Regs) : (c.onRegs f).logged = c.logged := rfl
@[simp] theorem Core.onRegs_entries (c : Core) (f : Regs → Regs) : (c.onRegs f).entries = c.entries := rfl
@[simp] theorem Core.onRegs_causal (c : Core) (f : Regs → Regs) : (c.onRegs f).causal = c.causal := rfl
@[simp] theorem Core.onRegs_orderR (c : Core) (f : Regs → Regs) : (c.onRegs f).orderR = c.orderR := rfl
@[simp] theorem Core.onRegs_orderW (c : Core) (f : Regs → Regs) : (c.onRegs f).orderW = c.orderW := rfl
@[simp] theorem Core.onRegs_orderS (c : Core) (f : Regs → Regs) : (c.onRegs f).orderS = c.orderS := rfl
@[simp] theorem Core.onRegs_orderT (c : Core) (f : Regs → Regs) : (c.onRegs f).orderT = c.orderT := rfl
@[simp] theorem Core.onRegs_orderK (c : Core) (f : Regs → Regs) : (c.onRegs f).orderK = c.orderK := rfl
@[simp] theorem Core.onRegs_orderA (c : Core) (f : Regs → Regs) : (c.onRegs f).orderA = c.orderA := rfl
@[simp] theorem Core.onMat_id (c : Core) (f : Matrix → Matrix) : (c.onMat f).id = c.id := rfl
@[simp] theorem Core.onMat_idx (c : Core) (f : Matrix → Matrix) : (c.onMat f).idx = c.idx := rfl
@[simp] theorem Core.onMat_idle (c : Core) (f : Matrix → Matrix) : (c.onMat f).idle = c.idle := rfl
@[simp] theorem Core.onMat_s (c : Core) (f : Matrix → Matrix) : (c.onMat f).s = c.s := rfl
@[simp] theorem Core.onMat_v (c : Core) (f : Matrix → Matrix) : (c.onMat f).v = c.v := rfl
@[simp] theorem Core.onMat_m (c : Core) (f : Matrix → Matrix) : (c.onMat f).m = c.m := rfl
@[simp] theorem Core.onMat_x (c : Core) (f : Matrix → Matrix) : (c.onMat f).x = c.x := rfl
@[simp] theorem Core.onMat_regs (c : Core) (f : Matrix → Matrix) : (c.onMat f).regs = c.regs := rfl
@[simp] theorem Core.onMat_mat (c : Core) (f : Matrix → Matrix) : (c.onMat f).mat = f c.mat := rfl
@[simp] theorem Core.onMat_units (c : Core) (f : Matrix → Matrix) : (c.onMat f).units = c.units := rfl
@[simp] theorem Core.onMat_inb (c : Core) (f : Matrix → Matrix) : (c.onMat f).inb = c.inb := rfl
@[simp] theorem Core.onMat_outb (c : Core) (f : Matrix → Matrix) : (c.onMat f).outb = c.outb := rfl
@[simp] theorem Core.onMat_cold (c : Core) (f : Matrix → Matrix) : (c.onMat f).cold = c.cold := rfl
@[simp] theorem Core.onMat_pend (c : Core) (f : Matrix → Matrix) : (c.onMat f).pend = c.pend := rfl
@[simp] theorem Core.onMat_ops (c : Core) (f : Matrix → Matrix) : (c.onMat f).ops = c.ops := rfl
@[simp] theorem Core.onMat_banks (c : Core) (f : Matrix → Matrix) : (c.onMat f).banks = c.banks := rfl
@[simp] theorem Core.onMat_ranges (c : Core) (f : Matrix → Matrix) : (c.onMat f).ranges = c.ranges := rfl
@[simp] theorem Core.onMat_barred (c : Core) (f : Matrix → Matrix) : (c.onMat f).barred = c.barred := rfl
@[simp] theorem Core.onMat_hold (c : Core) (f : Matrix → Matrix) : (c.onMat f).hold = c.hold := rfl
@[simp] theorem Core.onMat_ckpt (c : Core) (f : Matrix → Matrix) : (c.onMat f).ckpt = c.ckpt := rfl
@[simp] theorem Core.onMat_halt (c : Core) (f : Matrix → Matrix) : (c.onMat f).halt = c.halt := rfl
@[simp] theorem Core.onMat_line (c : Core) (f : Matrix → Matrix) : (c.onMat f).line = c.line := rfl
@[simp] theorem Core.onMat_record (c : Core) (f : Matrix → Matrix) : (c.onMat f).record = c.record := rfl
@[simp] theorem Core.onMat_logged (c : Core) (f : Matrix → Matrix) : (c.onMat f).logged = c.logged := rfl
@[simp] theorem Core.onMat_entries (c : Core) (f : Matrix → Matrix) : (c.onMat f).entries = c.entries := rfl
@[simp] theorem Core.onMat_causal (c : Core) (f : Matrix → Matrix) : (c.onMat f).causal = c.causal := rfl
@[simp] theorem Core.onMat_orderR (c : Core) (f : Matrix → Matrix) : (c.onMat f).orderR = c.orderR := rfl
@[simp] theorem Core.onMat_orderW (c : Core) (f : Matrix → Matrix) : (c.onMat f).orderW = c.orderW := rfl
@[simp] theorem Core.onMat_orderS (c : Core) (f : Matrix → Matrix) : (c.onMat f).orderS = c.orderS := rfl
@[simp] theorem Core.onMat_orderT (c : Core) (f : Matrix → Matrix) : (c.onMat f).orderT = c.orderT := rfl
@[simp] theorem Core.onMat_orderK (c : Core) (f : Matrix → Matrix) : (c.onMat f).orderK = c.orderK := rfl
@[simp] theorem Core.onMat_orderA (c : Core) (f : Matrix → Matrix) : (c.onMat f).orderA = c.orderA := rfl
@[simp] theorem Core.setInp_id (c : Core) (i : Nat) (q : InPort) : (c.setInp i q).id = c.id := rfl
@[simp] theorem Core.setInp_idx (c : Core) (i : Nat) (q : InPort) : (c.setInp i q).idx = c.idx := rfl
@[simp] theorem Core.setInp_idle (c : Core) (i : Nat) (q : InPort) : (c.setInp i q).idle = c.idle := rfl
@[simp] theorem Core.setInp_s (c : Core) (i : Nat) (q : InPort) : (c.setInp i q).s = c.s := rfl
@[simp] theorem Core.setInp_v (c : Core) (i : Nat) (q : InPort) : (c.setInp i q).v = c.v := rfl
@[simp] theorem Core.setInp_m (c : Core) (i : Nat) (q : InPort) : (c.setInp i q).m = c.m := rfl
@[simp] theorem Core.setInp_x (c : Core) (i : Nat) (q : InPort) : (c.setInp i q).x = c.x := rfl
@[simp] theorem Core.setInp_regs (c : Core) (i : Nat) (q : InPort) : (c.setInp i q).regs = c.regs := rfl
@[simp] theorem Core.setInp_mat (c : Core) (i : Nat) (q : InPort) : (c.setInp i q).mat = c.mat := rfl
@[simp] theorem Core.setInp_units (c : Core) (i : Nat) (q : InPort) : (c.setInp i q).units = c.units := rfl
@[simp] theorem Core.setInp_inb (c : Core) (i : Nat) (q : InPort) : (c.setInp i q).inb = SMap.set InPort.start c.inb i q := rfl
@[simp] theorem Core.setInp_outb (c : Core) (i : Nat) (q : InPort) : (c.setInp i q).outb = c.outb := rfl
@[simp] theorem Core.setInp_cold (c : Core) (i : Nat) (q : InPort) : (c.setInp i q).cold = c.cold := rfl
@[simp] theorem Core.setInp_pend (c : Core) (i : Nat) (q : InPort) : (c.setInp i q).pend = c.pend := rfl
@[simp] theorem Core.setInp_ops (c : Core) (i : Nat) (q : InPort) : (c.setInp i q).ops = c.ops := rfl
@[simp] theorem Core.setInp_banks (c : Core) (i : Nat) (q : InPort) : (c.setInp i q).banks = c.banks := rfl
@[simp] theorem Core.setInp_ranges (c : Core) (i : Nat) (q : InPort) : (c.setInp i q).ranges = c.ranges := rfl
@[simp] theorem Core.setInp_barred (c : Core) (i : Nat) (q : InPort) : (c.setInp i q).barred = c.barred := rfl
@[simp] theorem Core.setInp_hold (c : Core) (i : Nat) (q : InPort) : (c.setInp i q).hold = c.hold := rfl
@[simp] theorem Core.setInp_ckpt (c : Core) (i : Nat) (q : InPort) : (c.setInp i q).ckpt = c.ckpt := rfl
@[simp] theorem Core.setInp_halt (c : Core) (i : Nat) (q : InPort) : (c.setInp i q).halt = c.halt := rfl
@[simp] theorem Core.setInp_line (c : Core) (i : Nat) (q : InPort) : (c.setInp i q).line = c.line := rfl
@[simp] theorem Core.setInp_record (c : Core) (i : Nat) (q : InPort) : (c.setInp i q).record = c.record := rfl
@[simp] theorem Core.setInp_logged (c : Core) (i : Nat) (q : InPort) : (c.setInp i q).logged = c.logged := rfl
@[simp] theorem Core.setInp_entries (c : Core) (i : Nat) (q : InPort) : (c.setInp i q).entries = c.entries := rfl
@[simp] theorem Core.setInp_causal (c : Core) (i : Nat) (q : InPort) : (c.setInp i q).causal = c.causal := rfl
@[simp] theorem Core.setInp_orderR (c : Core) (i : Nat) (q : InPort) : (c.setInp i q).orderR = c.orderR := rfl
@[simp] theorem Core.setInp_orderW (c : Core) (i : Nat) (q : InPort) : (c.setInp i q).orderW = c.orderW := rfl
@[simp] theorem Core.setInp_orderS (c : Core) (i : Nat) (q : InPort) : (c.setInp i q).orderS = c.orderS := rfl
@[simp] theorem Core.setInp_orderT (c : Core) (i : Nat) (q : InPort) : (c.setInp i q).orderT = c.orderT := rfl
@[simp] theorem Core.setInp_orderK (c : Core) (i : Nat) (q : InPort) : (c.setInp i q).orderK = c.orderK := rfl
@[simp] theorem Core.setInp_orderA (c : Core) (i : Nat) (q : InPort) : (c.setInp i q).orderA = c.orderA := rfl
@[simp] theorem Core.setOutp_id (c : Core) (i : Nat) (q : OutPort) : (c.setOutp i q).id = c.id := rfl
@[simp] theorem Core.setOutp_idx (c : Core) (i : Nat) (q : OutPort) : (c.setOutp i q).idx = c.idx := rfl
@[simp] theorem Core.setOutp_idle (c : Core) (i : Nat) (q : OutPort) : (c.setOutp i q).idle = c.idle := rfl
@[simp] theorem Core.setOutp_s (c : Core) (i : Nat) (q : OutPort) : (c.setOutp i q).s = c.s := rfl
@[simp] theorem Core.setOutp_v (c : Core) (i : Nat) (q : OutPort) : (c.setOutp i q).v = c.v := rfl
@[simp] theorem Core.setOutp_m (c : Core) (i : Nat) (q : OutPort) : (c.setOutp i q).m = c.m := rfl
@[simp] theorem Core.setOutp_x (c : Core) (i : Nat) (q : OutPort) : (c.setOutp i q).x = c.x := rfl
@[simp] theorem Core.setOutp_regs (c : Core) (i : Nat) (q : OutPort) : (c.setOutp i q).regs = c.regs := rfl
@[simp] theorem Core.setOutp_mat (c : Core) (i : Nat) (q : OutPort) : (c.setOutp i q).mat = c.mat := rfl
@[simp] theorem Core.setOutp_units (c : Core) (i : Nat) (q : OutPort) : (c.setOutp i q).units = c.units := rfl
@[simp] theorem Core.setOutp_inb (c : Core) (i : Nat) (q : OutPort) : (c.setOutp i q).inb = c.inb := rfl
@[simp] theorem Core.setOutp_outb (c : Core) (i : Nat) (q : OutPort) : (c.setOutp i q).outb = SMap.set OutPort.start c.outb i q := rfl
@[simp] theorem Core.setOutp_cold (c : Core) (i : Nat) (q : OutPort) : (c.setOutp i q).cold = c.cold := rfl
@[simp] theorem Core.setOutp_pend (c : Core) (i : Nat) (q : OutPort) : (c.setOutp i q).pend = c.pend := rfl
@[simp] theorem Core.setOutp_ops (c : Core) (i : Nat) (q : OutPort) : (c.setOutp i q).ops = c.ops := rfl
@[simp] theorem Core.setOutp_banks (c : Core) (i : Nat) (q : OutPort) : (c.setOutp i q).banks = c.banks := rfl
@[simp] theorem Core.setOutp_ranges (c : Core) (i : Nat) (q : OutPort) : (c.setOutp i q).ranges = c.ranges := rfl
@[simp] theorem Core.setOutp_barred (c : Core) (i : Nat) (q : OutPort) : (c.setOutp i q).barred = c.barred := rfl
@[simp] theorem Core.setOutp_hold (c : Core) (i : Nat) (q : OutPort) : (c.setOutp i q).hold = c.hold := rfl
@[simp] theorem Core.setOutp_ckpt (c : Core) (i : Nat) (q : OutPort) : (c.setOutp i q).ckpt = c.ckpt := rfl
@[simp] theorem Core.setOutp_halt (c : Core) (i : Nat) (q : OutPort) : (c.setOutp i q).halt = c.halt := rfl
@[simp] theorem Core.setOutp_line (c : Core) (i : Nat) (q : OutPort) : (c.setOutp i q).line = c.line := rfl
@[simp] theorem Core.setOutp_record (c : Core) (i : Nat) (q : OutPort) : (c.setOutp i q).record = c.record := rfl
@[simp] theorem Core.setOutp_logged (c : Core) (i : Nat) (q : OutPort) : (c.setOutp i q).logged = c.logged := rfl
@[simp] theorem Core.setOutp_entries (c : Core) (i : Nat) (q : OutPort) : (c.setOutp i q).entries = c.entries := rfl
@[simp] theorem Core.setOutp_causal (c : Core) (i : Nat) (q : OutPort) : (c.setOutp i q).causal = c.causal := rfl
@[simp] theorem Core.setOutp_orderR (c : Core) (i : Nat) (q : OutPort) : (c.setOutp i q).orderR = c.orderR := rfl
@[simp] theorem Core.setOutp_orderW (c : Core) (i : Nat) (q : OutPort) : (c.setOutp i q).orderW = c.orderW := rfl
@[simp] theorem Core.setOutp_orderS (c : Core) (i : Nat) (q : OutPort) : (c.setOutp i q).orderS = c.orderS := rfl
@[simp] theorem Core.setOutp_orderT (c : Core) (i : Nat) (q : OutPort) : (c.setOutp i q).orderT = c.orderT := rfl
@[simp] theorem Core.setOutp_orderK (c : Core) (i : Nat) (q : OutPort) : (c.setOutp i q).orderK = c.orderK := rfl
@[simp] theorem Core.setOutp_orderA (c : Core) (i : Nat) (q : OutPort) : (c.setOutp i q).orderA = c.orderA := rfl
@[simp] theorem Core.landRow_id (c : Core) (d : Dest) (st : Stream) (t u : Nat) (m : BitVec 64) (v : Nat) (f : Flags) (a : AccMode) : (c.landRow d st t u m v f a).id = c.id := rfl
@[simp] theorem Core.landRow_idx (c : Core) (d : Dest) (st : Stream) (t u : Nat) (m : BitVec 64) (v : Nat) (f : Flags) (a : AccMode) : (c.landRow d st t u m v f a).idx = c.idx := rfl
@[simp] theorem Core.landRow_idle (c : Core) (d : Dest) (st : Stream) (t u : Nat) (m : BitVec 64) (v : Nat) (f : Flags) (a : AccMode) : (c.landRow d st t u m v f a).idle = c.idle := rfl
@[simp] theorem Core.landRow_s (c : Core) (d : Dest) (st : Stream) (t u : Nat) (m : BitVec 64) (v : Nat) (f : Flags) (a : AccMode) : (c.landRow d st t u m v f a).s = c.s := rfl
@[simp] theorem Core.landRow_v (c : Core) (d : Dest) (st : Stream) (t u : Nat) (m : BitVec 64) (v : Nat) (f : Flags) (a : AccMode) : (c.landRow d st t u m v f a).v = c.v := rfl
@[simp] theorem Core.landRow_m (c : Core) (d : Dest) (st : Stream) (t u : Nat) (m : BitVec 64) (v : Nat) (f : Flags) (a : AccMode) : (c.landRow d st t u m v f a).m = c.m := rfl
@[simp] theorem Core.landRow_x (c : Core) (d : Dest) (st : Stream) (t u : Nat) (m : BitVec 64) (v : Nat) (f : Flags) (a : AccMode) : (c.landRow d st t u m v f a).x = c.x := rfl
@[simp] theorem Core.landRow_regs (c : Core) (d : Dest) (st : Stream) (t u : Nat) (m : BitVec 64) (v : Nat) (f : Flags) (a : AccMode) : (c.landRow d st t u m v f a).regs = c.regs := rfl
@[simp] theorem Core.landRow_mat (c : Core) (d : Dest) (st : Stream) (t u : Nat) (m : BitVec 64) (v : Nat) (f : Flags) (a : AccMode) : (c.landRow d st t u m v f a).mat = c.mat := rfl
@[simp] theorem Core.landRow_units (c : Core) (d : Dest) (st : Stream) (t u : Nat) (m : BitVec 64) (v : Nat) (f : Flags) (a : AccMode) : (c.landRow d st t u m v f a).units = c.units := rfl
@[simp] theorem Core.landRow_inb (c : Core) (d : Dest) (st : Stream) (t u : Nat) (m : BitVec 64) (v : Nat) (f : Flags) (a : AccMode) : (c.landRow d st t u m v f a).inb = c.inb := rfl
@[simp] theorem Core.landRow_outb (c : Core) (d : Dest) (st : Stream) (t u : Nat) (m : BitVec 64) (v : Nat) (f : Flags) (a : AccMode) : (c.landRow d st t u m v f a).outb = c.outb := rfl
@[simp] theorem Core.landRow_cold (c : Core) (d : Dest) (st : Stream) (t u : Nat) (m : BitVec 64) (v : Nat) (f : Flags) (a : AccMode) : (c.landRow d st t u m v f a).cold = c.cold := rfl
@[simp] theorem Core.landRow_pend (c : Core) (d : Dest) (st : Stream) (t u : Nat) (m : BitVec 64) (v : Nat) (f : Flags) (a : AccMode) : (c.landRow d st t u m v f a).pend = c.pend ++ [{ dst := d, land := u, issue := t, stream := st, mask := m, fine := none, value := BitVec.ofNat 4096 v, flags := f, acc := a }] := rfl
@[simp] theorem Core.landRow_ops (c : Core) (d : Dest) (st : Stream) (t u : Nat) (m : BitVec 64) (v : Nat) (f : Flags) (a : AccMode) : (c.landRow d st t u m v f a).ops = c.ops := rfl
@[simp] theorem Core.landRow_banks (c : Core) (d : Dest) (st : Stream) (t u : Nat) (m : BitVec 64) (v : Nat) (f : Flags) (a : AccMode) : (c.landRow d st t u m v f a).banks = c.banks := rfl
@[simp] theorem Core.landRow_ranges (c : Core) (d : Dest) (st : Stream) (t u : Nat) (m : BitVec 64) (v : Nat) (f : Flags) (a : AccMode) : (c.landRow d st t u m v f a).ranges = c.ranges := rfl
@[simp] theorem Core.landRow_barred (c : Core) (d : Dest) (st : Stream) (t u : Nat) (m : BitVec 64) (v : Nat) (f : Flags) (a : AccMode) : (c.landRow d st t u m v f a).barred = c.barred := rfl
@[simp] theorem Core.landRow_hold (c : Core) (d : Dest) (st : Stream) (t u : Nat) (m : BitVec 64) (v : Nat) (f : Flags) (a : AccMode) : (c.landRow d st t u m v f a).hold = c.hold := rfl
@[simp] theorem Core.landRow_ckpt (c : Core) (d : Dest) (st : Stream) (t u : Nat) (m : BitVec 64) (v : Nat) (f : Flags) (a : AccMode) : (c.landRow d st t u m v f a).ckpt = c.ckpt := rfl
@[simp] theorem Core.landRow_halt (c : Core) (d : Dest) (st : Stream) (t u : Nat) (m : BitVec 64) (v : Nat) (f : Flags) (a : AccMode) : (c.landRow d st t u m v f a).halt = c.halt := rfl
@[simp] theorem Core.landRow_line (c : Core) (d : Dest) (st : Stream) (t u : Nat) (m : BitVec 64) (v : Nat) (f : Flags) (a : AccMode) : (c.landRow d st t u m v f a).line = c.line := rfl
@[simp] theorem Core.landRow_record (c : Core) (d : Dest) (st : Stream) (t u : Nat) (m : BitVec 64) (v : Nat) (f : Flags) (a : AccMode) : (c.landRow d st t u m v f a).record = c.record := rfl
@[simp] theorem Core.landRow_logged (c : Core) (d : Dest) (st : Stream) (t u : Nat) (m : BitVec 64) (v : Nat) (f : Flags) (a : AccMode) : (c.landRow d st t u m v f a).logged = c.logged := rfl
@[simp] theorem Core.landRow_entries (c : Core) (d : Dest) (st : Stream) (t u : Nat) (m : BitVec 64) (v : Nat) (f : Flags) (a : AccMode) : (c.landRow d st t u m v f a).entries = c.entries := rfl
@[simp] theorem Core.landRow_causal (c : Core) (d : Dest) (st : Stream) (t u : Nat) (m : BitVec 64) (v : Nat) (f : Flags) (a : AccMode) : (c.landRow d st t u m v f a).causal = c.causal := rfl
@[simp] theorem Core.landRow_orderR (c : Core) (d : Dest) (st : Stream) (t u : Nat) (m : BitVec 64) (v : Nat) (f : Flags) (a : AccMode) : (c.landRow d st t u m v f a).orderR = c.orderR := rfl
@[simp] theorem Core.landRow_orderW (c : Core) (d : Dest) (st : Stream) (t u : Nat) (m : BitVec 64) (v : Nat) (f : Flags) (a : AccMode) : (c.landRow d st t u m v f a).orderW = c.orderW := rfl
@[simp] theorem Core.landRow_orderS (c : Core) (d : Dest) (st : Stream) (t u : Nat) (m : BitVec 64) (v : Nat) (f : Flags) (a : AccMode) : (c.landRow d st t u m v f a).orderS = c.orderS := rfl
@[simp] theorem Core.landRow_orderT (c : Core) (d : Dest) (st : Stream) (t u : Nat) (m : BitVec 64) (v : Nat) (f : Flags) (a : AccMode) : (c.landRow d st t u m v f a).orderT = c.orderT := rfl
@[simp] theorem Core.landRow_orderK (c : Core) (d : Dest) (st : Stream) (t u : Nat) (m : BitVec 64) (v : Nat) (f : Flags) (a : AccMode) : (c.landRow d st t u m v f a).orderK = c.orderK := rfl
@[simp] theorem Core.landRow_orderA (c : Core) (d : Dest) (st : Stream) (t u : Nat) (m : BitVec 64) (v : Nat) (f : Flags) (a : AccMode) : (c.landRow d st t u m v f a).orderA = c.orderA := rfl
@[simp] theorem Core.land_id (c : Core) (g : Bool) (d : Dest) (st : Stream) (t l : Nat) (v : W64) : (c.land g d st t l v).id = c.id := by unfold Core.land; split <;> rfl
@[simp] theorem Core.land_idx (c : Core) (g : Bool) (d : Dest) (st : Stream) (t l : Nat) (v : W64) : (c.land g d st t l v).idx = c.idx := by unfold Core.land; split <;> rfl
@[simp] theorem Core.land_idle (c : Core) (g : Bool) (d : Dest) (st : Stream) (t l : Nat) (v : W64) : (c.land g d st t l v).idle = c.idle := by unfold Core.land; split <;> rfl
@[simp] theorem Core.land_s (c : Core) (g : Bool) (d : Dest) (st : Stream) (t l : Nat) (v : W64) : (c.land g d st t l v).s = c.s := by unfold Core.land; split <;> rfl
@[simp] theorem Core.land_v (c : Core) (g : Bool) (d : Dest) (st : Stream) (t l : Nat) (v : W64) : (c.land g d st t l v).v = c.v := by unfold Core.land; split <;> rfl
@[simp] theorem Core.land_m (c : Core) (g : Bool) (d : Dest) (st : Stream) (t l : Nat) (v : W64) : (c.land g d st t l v).m = c.m := by unfold Core.land; split <;> rfl
@[simp] theorem Core.land_x (c : Core) (g : Bool) (d : Dest) (st : Stream) (t l : Nat) (v : W64) : (c.land g d st t l v).x = c.x := by unfold Core.land; split <;> rfl
@[simp] theorem Core.land_regs (c : Core) (g : Bool) (d : Dest) (st : Stream) (t l : Nat) (v : W64) : (c.land g d st t l v).regs = c.regs := by unfold Core.land; split <;> rfl
@[simp] theorem Core.land_mat (c : Core) (g : Bool) (d : Dest) (st : Stream) (t l : Nat) (v : W64) : (c.land g d st t l v).mat = c.mat := by unfold Core.land; split <;> rfl
@[simp] theorem Core.land_units (c : Core) (g : Bool) (d : Dest) (st : Stream) (t l : Nat) (v : W64) : (c.land g d st t l v).units = c.units := by unfold Core.land; split <;> rfl
@[simp] theorem Core.land_inb (c : Core) (g : Bool) (d : Dest) (st : Stream) (t l : Nat) (v : W64) : (c.land g d st t l v).inb = c.inb := by unfold Core.land; split <;> rfl
@[simp] theorem Core.land_outb (c : Core) (g : Bool) (d : Dest) (st : Stream) (t l : Nat) (v : W64) : (c.land g d st t l v).outb = c.outb := by unfold Core.land; split <;> rfl
@[simp] theorem Core.land_cold (c : Core) (g : Bool) (d : Dest) (st : Stream) (t l : Nat) (v : W64) : (c.land g d st t l v).cold = c.cold := by unfold Core.land; split <;> rfl
@[simp] theorem Core.land_ops (c : Core) (g : Bool) (d : Dest) (st : Stream) (t l : Nat) (v : W64) : (c.land g d st t l v).ops = c.ops := by unfold Core.land; split <;> rfl
@[simp] theorem Core.land_banks (c : Core) (g : Bool) (d : Dest) (st : Stream) (t l : Nat) (v : W64) : (c.land g d st t l v).banks = c.banks := by unfold Core.land; split <;> rfl
@[simp] theorem Core.land_ranges (c : Core) (g : Bool) (d : Dest) (st : Stream) (t l : Nat) (v : W64) : (c.land g d st t l v).ranges = c.ranges := by unfold Core.land; split <;> rfl
@[simp] theorem Core.land_barred (c : Core) (g : Bool) (d : Dest) (st : Stream) (t l : Nat) (v : W64) : (c.land g d st t l v).barred = c.barred := by unfold Core.land; split <;> rfl
@[simp] theorem Core.land_hold (c : Core) (g : Bool) (d : Dest) (st : Stream) (t l : Nat) (v : W64) : (c.land g d st t l v).hold = c.hold := by unfold Core.land; split <;> rfl
@[simp] theorem Core.land_ckpt (c : Core) (g : Bool) (d : Dest) (st : Stream) (t l : Nat) (v : W64) : (c.land g d st t l v).ckpt = c.ckpt := by unfold Core.land; split <;> rfl
@[simp] theorem Core.land_halt (c : Core) (g : Bool) (d : Dest) (st : Stream) (t l : Nat) (v : W64) : (c.land g d st t l v).halt = c.halt := by unfold Core.land; split <;> rfl
@[simp] theorem Core.land_line (c : Core) (g : Bool) (d : Dest) (st : Stream) (t l : Nat) (v : W64) : (c.land g d st t l v).line = c.line := by unfold Core.land; split <;> rfl
@[simp] theorem Core.land_record (c : Core) (g : Bool) (d : Dest) (st : Stream) (t l : Nat) (v : W64) : (c.land g d st t l v).record = c.record := by unfold Core.land; split <;> rfl
@[simp] theorem Core.land_logged (c : Core) (g : Bool) (d : Dest) (st : Stream) (t l : Nat) (v : W64) : (c.land g d st t l v).logged = c.logged := by unfold Core.land; split <;> rfl
@[simp] theorem Core.land_entries (c : Core) (g : Bool) (d : Dest) (st : Stream) (t l : Nat) (v : W64) : (c.land g d st t l v).entries = c.entries := by unfold Core.land; split <;> rfl
@[simp] theorem Core.land_causal (c : Core) (g : Bool) (d : Dest) (st : Stream) (t l : Nat) (v : W64) : (c.land g d st t l v).causal = c.causal := by unfold Core.land; split <;> rfl
@[simp] theorem Core.land_orderR (c : Core) (g : Bool) (d : Dest) (st : Stream) (t l : Nat) (v : W64) : (c.land g d st t l v).orderR = c.orderR := by unfold Core.land; split <;> rfl
@[simp] theorem Core.land_orderW (c : Core) (g : Bool) (d : Dest) (st : Stream) (t l : Nat) (v : W64) : (c.land g d st t l v).orderW = c.orderW := by unfold Core.land; split <;> rfl
@[simp] theorem Core.land_orderS (c : Core) (g : Bool) (d : Dest) (st : Stream) (t l : Nat) (v : W64) : (c.land g d st t l v).orderS = c.orderS := by unfold Core.land; split <;> rfl
@[simp] theorem Core.land_orderT (c : Core) (g : Bool) (d : Dest) (st : Stream) (t l : Nat) (v : W64) : (c.land g d st t l v).orderT = c.orderT := by unfold Core.land; split <;> rfl
@[simp] theorem Core.land_orderK (c : Core) (g : Bool) (d : Dest) (st : Stream) (t l : Nat) (v : W64) : (c.land g d st t l v).orderK = c.orderK := by unfold Core.land; split <;> rfl
@[simp] theorem Core.land_orderA (c : Core) (g : Bool) (d : Dest) (st : Stream) (t l : Nat) (v : W64) : (c.land g d st t l v).orderA = c.orderA := by unfold Core.land; split <;> rfl
@[simp] theorem StreamSt.shift_store (q : StreamSt) (n : Nat) : (q.shift n).store = q.store := rfl
@[simp] theorem StreamSt.shift_pc (q : StreamSt) (n : Nat) : (q.shift n).pc = q.pc := rfl
@[simp] theorem StreamSt.shift_ready (q : StreamSt) (n : Nat) : (q.shift n).ready = q.ready + n := rfl
@[simp] theorem StreamSt.shift_loops (q : StreamSt) (n : Nat) : (q.shift n).loops = q.loops := rfl
@[simp] theorem StreamSt.shift_xfer (q : StreamSt) (n : Nat) : (q.shift n).xfer = q.xfer.map fun f => { f with last := f.last + n } := rfl
@[simp] theorem Core.shift_id (c : Core) (n : Nat) : (c.shift n).id = c.id := rfl
@[simp] theorem Core.shift_idx (c : Core) (n : Nat) : (c.shift n).idx = c.idx := rfl
@[simp] theorem Core.shift_idle (c : Core) (n : Nat) : (c.shift n).idle = c.idle := rfl
@[simp] theorem Core.shift_s (c : Core) (n : Nat) : (c.shift n).s = c.s.shift n := rfl
@[simp] theorem Core.shift_v (c : Core) (n : Nat) : (c.shift n).v = c.v.shift n := rfl
@[simp] theorem Core.shift_m (c : Core) (n : Nat) : (c.shift n).m = c.m.shift n := rfl
@[simp] theorem Core.shift_x (c : Core) (n : Nat) : (c.shift n).x = c.x.shift n := rfl
@[simp] theorem Core.shift_regs (c : Core) (n : Nat) : (c.shift n).regs = c.regs := rfl
@[simp] theorem Core.shift_mat (c : Core) (n : Nat) : (c.shift n).mat = c.mat := rfl
@[simp] theorem Core.shift_units (c : Core) (n : Nat) : (c.shift n).units = c.units := rfl
@[simp] theorem Core.shift_inb (c : Core) (n : Nat) : (c.shift n).inb = c.inb := rfl
@[simp] theorem Core.shift_outb (c : Core) (n : Nat) : (c.shift n).outb = c.outb := rfl
@[simp] theorem Core.shift_cold (c : Core) (n : Nat) : (c.shift n).cold = c.cold := rfl
@[simp] theorem Core.shift_pend (c : Core) (n : Nat) : (c.shift n).pend = c.pend := rfl
@[simp] theorem Core.shift_ops (c : Core) (n : Nat) : (c.shift n).ops = c.ops := rfl
@[simp] theorem Core.shift_banks (c : Core) (n : Nat) : (c.shift n).banks = c.banks := rfl
@[simp] theorem Core.shift_ranges (c : Core) (n : Nat) : (c.shift n).ranges = c.ranges := rfl
@[simp] theorem Core.shift_barred (c : Core) (n : Nat) : (c.shift n).barred = c.barred := rfl
@[simp] theorem Core.shift_hold (c : Core) (n : Nat) : (c.shift n).hold = c.hold := rfl
@[simp] theorem Core.shift_ckpt (c : Core) (n : Nat) : (c.shift n).ckpt = c.ckpt := rfl
@[simp] theorem Core.shift_halt (c : Core) (n : Nat) : (c.shift n).halt = c.halt := rfl
@[simp] theorem Core.shift_line (c : Core) (n : Nat) : (c.shift n).line = c.line := rfl
@[simp] theorem Core.shift_record (c : Core) (n : Nat) : (c.shift n).record = c.record := rfl
@[simp] theorem Core.shift_logged (c : Core) (n : Nat) : (c.shift n).logged = c.logged := rfl
@[simp] theorem Core.shift_entries (c : Core) (n : Nat) : (c.shift n).entries = c.entries := rfl
@[simp] theorem Core.shift_causal (c : Core) (n : Nat) : (c.shift n).causal = c.causal := rfl
@[simp] theorem Core.shift_orderR (c : Core) (n : Nat) : (c.shift n).orderR = c.orderR := rfl
@[simp] theorem Core.shift_orderW (c : Core) (n : Nat) : (c.shift n).orderW = c.orderW := rfl
@[simp] theorem Core.shift_orderS (c : Core) (n : Nat) : (c.shift n).orderS = c.orderS := rfl
@[simp] theorem Core.shift_orderT (c : Core) (n : Nat) : (c.shift n).orderT = c.orderT := rfl
@[simp] theorem Core.shift_orderK (c : Core) (n : Nat) : (c.shift n).orderK = c.orderK := rfl
@[simp] theorem Core.shift_orderA (c : Core) (n : Nat) : (c.shift n).orderA = c.orderA := rfl

/-! The registers. -/

@[simp] theorem Core.setLc_g (c : Core) (r : Nat) (v : W32) : (c.setLc r v).regs.g = c.regs.g := rfl
@[simp] theorem Core.setLc_p (c : Core) (r : Nat) (v : W32) : (c.setLc r v).regs.p = c.regs.p := rfl
@[simp] theorem Core.setLc_lc (c : Core) (r : Nat) (v : W32) : (c.setLc r v).regs.lc = SMap.set 0 c.regs.lc r v := rfl
@[simp] theorem Core.setLc_m (c : Core) (r : Nat) (v : W32) : (c.setLc r v).regs.m = c.regs.m := rfl
@[simp] theorem Core.setLc_h (c : Core) (r : Nat) (v : W32) : (c.setLc r v).regs.h = c.regs.h := rfl
@[simp] theorem Core.setLc_tc (c : Core) (r : Nat) (v : W32) : (c.setLc r v).regs.tc = c.regs.tc := rfl
@[simp] theorem Core.setLc_v (c : Core) (r : Nat) (v : W32) : (c.setLc r v).regs.v = c.regs.v := rfl
@[simp] theorem Core.setLc_k (c : Core) (r : Nat) (v : W32) : (c.setLc r v).regs.k = c.regs.k := rfl
@[simp] theorem Core.setLc_a (c : Core) (r : Nat) (v : W32) : (c.setLc r v).regs.a = c.regs.a := rfl
@[simp] theorem Core.setLc_pat (c : Core) (r : Nat) (v : W32) : (c.setLc r v).regs.pat = c.regs.pat := rfl
@[simp] theorem Core.setLc_tk (c : Core) (r : Nat) (v : W32) : (c.setLc r v).regs.tk = c.regs.tk := rfl
@[simp] theorem Core.setLc_flags (c : Core) (r : Nat) (v : W32) : (c.setLc r v).regs.flags = c.regs.flags := rfl
@[simp] theorem Core.setLc_dphase (c : Core) (r : Nat) (v : W32) : (c.setLc r v).regs.dphase = c.regs.dphase := rfl
@[simp] theorem Core.setLc_mesh (c : Core) (r : Nat) (v : W32) : (c.setLc r v).regs.mesh = c.regs.mesh := rfl
@[simp] theorem Core.setLc_pend (c : Core) (r : Nat) (v : W32) : (c.setLc r v).pend = c.pend := rfl
@[simp] theorem Core.setLc_cold (c : Core) (r : Nat) (v : W32) : (c.setLc r v).cold = c.cold := rfl
@[simp] theorem Core.setLc_idx (c : Core) (r : Nat) (v : W32) : (c.setLc r v).idx = c.idx := rfl
@[simp] theorem Core.setH_g (c : Core) (r : Nat) (v : BitVec 16) : (c.setH r v).regs.g = c.regs.g := rfl
@[simp] theorem Core.setH_p (c : Core) (r : Nat) (v : BitVec 16) : (c.setH r v).regs.p = c.regs.p := rfl
@[simp] theorem Core.setH_lc (c : Core) (r : Nat) (v : BitVec 16) : (c.setH r v).regs.lc = c.regs.lc := rfl
@[simp] theorem Core.setH_m (c : Core) (r : Nat) (v : BitVec 16) : (c.setH r v).regs.m = c.regs.m := rfl
@[simp] theorem Core.setH_h (c : Core) (r : Nat) (v : BitVec 16) : (c.setH r v).regs.h = SMap.set 0 c.regs.h r v := rfl
@[simp] theorem Core.setH_tc (c : Core) (r : Nat) (v : BitVec 16) : (c.setH r v).regs.tc = c.regs.tc := rfl
@[simp] theorem Core.setH_v (c : Core) (r : Nat) (v : BitVec 16) : (c.setH r v).regs.v = c.regs.v := rfl
@[simp] theorem Core.setH_k (c : Core) (r : Nat) (v : BitVec 16) : (c.setH r v).regs.k = c.regs.k := rfl
@[simp] theorem Core.setH_a (c : Core) (r : Nat) (v : BitVec 16) : (c.setH r v).regs.a = c.regs.a := rfl
@[simp] theorem Core.setH_pat (c : Core) (r : Nat) (v : BitVec 16) : (c.setH r v).regs.pat = c.regs.pat := rfl
@[simp] theorem Core.setH_tk (c : Core) (r : Nat) (v : BitVec 16) : (c.setH r v).regs.tk = c.regs.tk := rfl
@[simp] theorem Core.setH_flags (c : Core) (r : Nat) (v : BitVec 16) : (c.setH r v).regs.flags = c.regs.flags := rfl
@[simp] theorem Core.setH_dphase (c : Core) (r : Nat) (v : BitVec 16) : (c.setH r v).regs.dphase = c.regs.dphase := rfl
@[simp] theorem Core.setH_mesh (c : Core) (r : Nat) (v : BitVec 16) : (c.setH r v).regs.mesh = c.regs.mesh := rfl
@[simp] theorem Core.setH_pend (c : Core) (r : Nat) (v : BitVec 16) : (c.setH r v).pend = c.pend := rfl
@[simp] theorem Core.setH_cold (c : Core) (r : Nat) (v : BitVec 16) : (c.setH r v).cold = c.cold := rfl
@[simp] theorem Core.setH_idx (c : Core) (r : Nat) (v : BitVec 16) : (c.setH r v).idx = c.idx := rfl
@[simp] theorem Core.setV_g (c : Core) (r row : Nat) (v : Row) : (c.setV r row v).regs.g = c.regs.g := rfl
@[simp] theorem Core.setV_p (c : Core) (r row : Nat) (v : Row) : (c.setV r row v).regs.p = c.regs.p := rfl
@[simp] theorem Core.setV_lc (c : Core) (r row : Nat) (v : Row) : (c.setV r row v).regs.lc = c.regs.lc := rfl
@[simp] theorem Core.setV_m (c : Core) (r row : Nat) (v : Row) : (c.setV r row v).regs.m = c.regs.m := rfl
@[simp] theorem Core.setV_h (c : Core) (r row : Nat) (v : Row) : (c.setV r row v).regs.h = c.regs.h := rfl
@[simp] theorem Core.setV_tc (c : Core) (r row : Nat) (v : Row) : (c.setV r row v).regs.tc = c.regs.tc := rfl
@[simp] theorem Core.setV_v (c : Core) (r row : Nat) (v : Row) : (c.setV r row v).regs.v = SMap.set 0 c.regs.v (16 * r + row) v := rfl
@[simp] theorem Core.setV_k (c : Core) (r row : Nat) (v : Row) : (c.setV r row v).regs.k = c.regs.k := rfl
@[simp] theorem Core.setV_a (c : Core) (r row : Nat) (v : Row) : (c.setV r row v).regs.a = c.regs.a := rfl
@[simp] theorem Core.setV_pat (c : Core) (r row : Nat) (v : Row) : (c.setV r row v).regs.pat = c.regs.pat := rfl
@[simp] theorem Core.setV_tk (c : Core) (r row : Nat) (v : Row) : (c.setV r row v).regs.tk = c.regs.tk := rfl
@[simp] theorem Core.setV_flags (c : Core) (r row : Nat) (v : Row) : (c.setV r row v).regs.flags = c.regs.flags := rfl
@[simp] theorem Core.setV_dphase (c : Core) (r row : Nat) (v : Row) : (c.setV r row v).regs.dphase = c.regs.dphase := rfl
@[simp] theorem Core.setV_mesh (c : Core) (r row : Nat) (v : Row) : (c.setV r row v).regs.mesh = c.regs.mesh := rfl
@[simp] theorem Core.setV_pend (c : Core) (r row : Nat) (v : Row) : (c.setV r row v).pend = c.pend := rfl
@[simp] theorem Core.setV_cold (c : Core) (r row : Nat) (v : Row) : (c.setV r row v).cold = c.cold := rfl
@[simp] theorem Core.setV_idx (c : Core) (r row : Nat) (v : Row) : (c.setV r row v).idx = c.idx := rfl
@[simp] theorem Core.setA_g (c : Core) (r row : Nat) (v : AccRow) : (c.setA r row v).regs.g = c.regs.g := rfl
@[simp] theorem Core.setA_p (c : Core) (r row : Nat) (v : AccRow) : (c.setA r row v).regs.p = c.regs.p := rfl
@[simp] theorem Core.setA_lc (c : Core) (r row : Nat) (v : AccRow) : (c.setA r row v).regs.lc = c.regs.lc := rfl
@[simp] theorem Core.setA_m (c : Core) (r row : Nat) (v : AccRow) : (c.setA r row v).regs.m = c.regs.m := rfl
@[simp] theorem Core.setA_h (c : Core) (r row : Nat) (v : AccRow) : (c.setA r row v).regs.h = c.regs.h := rfl
@[simp] theorem Core.setA_tc (c : Core) (r row : Nat) (v : AccRow) : (c.setA r row v).regs.tc = c.regs.tc := rfl
@[simp] theorem Core.setA_v (c : Core) (r row : Nat) (v : AccRow) : (c.setA r row v).regs.v = c.regs.v := rfl
@[simp] theorem Core.setA_k (c : Core) (r row : Nat) (v : AccRow) : (c.setA r row v).regs.k = c.regs.k := rfl
@[simp] theorem Core.setA_a (c : Core) (r row : Nat) (v : AccRow) : (c.setA r row v).regs.a = SMap.set 0 c.regs.a (16 * r + row) v := rfl
@[simp] theorem Core.setA_pat (c : Core) (r row : Nat) (v : AccRow) : (c.setA r row v).regs.pat = c.regs.pat := rfl
@[simp] theorem Core.setA_tk (c : Core) (r row : Nat) (v : AccRow) : (c.setA r row v).regs.tk = c.regs.tk := rfl
@[simp] theorem Core.setA_flags (c : Core) (r row : Nat) (v : AccRow) : (c.setA r row v).regs.flags = c.regs.flags := rfl
@[simp] theorem Core.setA_dphase (c : Core) (r row : Nat) (v : AccRow) : (c.setA r row v).regs.dphase = c.regs.dphase := rfl
@[simp] theorem Core.setA_mesh (c : Core) (r row : Nat) (v : AccRow) : (c.setA r row v).regs.mesh = c.regs.mesh := rfl
@[simp] theorem Core.setA_pend (c : Core) (r row : Nat) (v : AccRow) : (c.setA r row v).pend = c.pend := rfl
@[simp] theorem Core.setA_cold (c : Core) (r row : Nat) (v : AccRow) : (c.setA r row v).cold = c.cold := rfl
@[simp] theorem Core.setA_idx (c : Core) (r row : Nat) (v : AccRow) : (c.setA r row v).idx = c.idx := rfl
@[simp] theorem Core.setPat_g (c : Core) (i : Nat) (v : Line) : (c.setPat i v).regs.g = c.regs.g := rfl
@[simp] theorem Core.setPat_p (c : Core) (i : Nat) (v : Line) : (c.setPat i v).regs.p = c.regs.p := rfl
@[simp] theorem Core.setPat_lc (c : Core) (i : Nat) (v : Line) : (c.setPat i v).regs.lc = c.regs.lc := rfl
@[simp] theorem Core.setPat_m (c : Core) (i : Nat) (v : Line) : (c.setPat i v).regs.m = c.regs.m := rfl
@[simp] theorem Core.setPat_h (c : Core) (i : Nat) (v : Line) : (c.setPat i v).regs.h = c.regs.h := rfl
@[simp] theorem Core.setPat_tc (c : Core) (i : Nat) (v : Line) : (c.setPat i v).regs.tc = c.regs.tc := rfl
@[simp] theorem Core.setPat_v (c : Core) (i : Nat) (v : Line) : (c.setPat i v).regs.v = c.regs.v := rfl
@[simp] theorem Core.setPat_k (c : Core) (i : Nat) (v : Line) : (c.setPat i v).regs.k = c.regs.k := rfl
@[simp] theorem Core.setPat_a (c : Core) (i : Nat) (v : Line) : (c.setPat i v).regs.a = c.regs.a := rfl
@[simp] theorem Core.setPat_pat (c : Core) (i : Nat) (v : Line) : (c.setPat i v).regs.pat = SMap.set 0 c.regs.pat i v := rfl
@[simp] theorem Core.setPat_tk (c : Core) (i : Nat) (v : Line) : (c.setPat i v).regs.tk = c.regs.tk := rfl
@[simp] theorem Core.setPat_flags (c : Core) (i : Nat) (v : Line) : (c.setPat i v).regs.flags = c.regs.flags := rfl
@[simp] theorem Core.setPat_dphase (c : Core) (i : Nat) (v : Line) : (c.setPat i v).regs.dphase = c.regs.dphase := rfl
@[simp] theorem Core.setPat_mesh (c : Core) (i : Nat) (v : Line) : (c.setPat i v).regs.mesh = c.regs.mesh := rfl
@[simp] theorem Core.setPat_pend (c : Core) (i : Nat) (v : Line) : (c.setPat i v).pend = c.pend := rfl
@[simp] theorem Core.setPat_cold (c : Core) (i : Nat) (v : Line) : (c.setPat i v).cold = c.cold := rfl
@[simp] theorem Core.setPat_idx (c : Core) (i : Nat) (v : Line) : (c.setPat i v).idx = c.idx := rfl
@[simp] theorem Core.setTk_g (c : Core) (i : Nat) (v : W64) : (c.setTk i v).regs.g = c.regs.g := rfl
@[simp] theorem Core.setTk_p (c : Core) (i : Nat) (v : W64) : (c.setTk i v).regs.p = c.regs.p := rfl
@[simp] theorem Core.setTk_lc (c : Core) (i : Nat) (v : W64) : (c.setTk i v).regs.lc = c.regs.lc := rfl
@[simp] theorem Core.setTk_m (c : Core) (i : Nat) (v : W64) : (c.setTk i v).regs.m = c.regs.m := rfl
@[simp] theorem Core.setTk_h (c : Core) (i : Nat) (v : W64) : (c.setTk i v).regs.h = c.regs.h := rfl
@[simp] theorem Core.setTk_tc (c : Core) (i : Nat) (v : W64) : (c.setTk i v).regs.tc = c.regs.tc := rfl
@[simp] theorem Core.setTk_v (c : Core) (i : Nat) (v : W64) : (c.setTk i v).regs.v = c.regs.v := rfl
@[simp] theorem Core.setTk_k (c : Core) (i : Nat) (v : W64) : (c.setTk i v).regs.k = c.regs.k := rfl
@[simp] theorem Core.setTk_a (c : Core) (i : Nat) (v : W64) : (c.setTk i v).regs.a = c.regs.a := rfl
@[simp] theorem Core.setTk_pat (c : Core) (i : Nat) (v : W64) : (c.setTk i v).regs.pat = c.regs.pat := rfl
@[simp] theorem Core.setTk_tk (c : Core) (i : Nat) (v : W64) : (c.setTk i v).regs.tk = SMap.set (BitVec.allOnes 64) c.regs.tk i v := rfl
@[simp] theorem Core.setTk_flags (c : Core) (i : Nat) (v : W64) : (c.setTk i v).regs.flags = c.regs.flags := rfl
@[simp] theorem Core.setTk_dphase (c : Core) (i : Nat) (v : W64) : (c.setTk i v).regs.dphase = c.regs.dphase := rfl
@[simp] theorem Core.setTk_mesh (c : Core) (i : Nat) (v : W64) : (c.setTk i v).regs.mesh = c.regs.mesh := rfl
@[simp] theorem Core.setTk_pend (c : Core) (i : Nat) (v : W64) : (c.setTk i v).pend = c.pend := rfl
@[simp] theorem Core.setTk_cold (c : Core) (i : Nat) (v : W64) : (c.setTk i v).cold = c.cold := rfl
@[simp] theorem Core.setTk_idx (c : Core) (i : Nat) (v : W64) : (c.setTk i v).idx = c.idx := rfl
@[simp] theorem Core.setMb_g (c : Core) (i : Nat) (v : Mailbox) : (c.setMb i v).regs.g = c.regs.g := rfl
@[simp] theorem Core.setMb_p (c : Core) (i : Nat) (v : Mailbox) : (c.setMb i v).regs.p = c.regs.p := rfl
@[simp] theorem Core.setMb_lc (c : Core) (i : Nat) (v : Mailbox) : (c.setMb i v).regs.lc = c.regs.lc := rfl
@[simp] theorem Core.setMb_m (c : Core) (i : Nat) (v : Mailbox) : (c.setMb i v).regs.m = SMap.set Mailbox.start c.regs.m i v := rfl
@[simp] theorem Core.setMb_h (c : Core) (i : Nat) (v : Mailbox) : (c.setMb i v).regs.h = c.regs.h := rfl
@[simp] theorem Core.setMb_tc (c : Core) (i : Nat) (v : Mailbox) : (c.setMb i v).regs.tc = c.regs.tc := rfl
@[simp] theorem Core.setMb_v (c : Core) (i : Nat) (v : Mailbox) : (c.setMb i v).regs.v = c.regs.v := rfl
@[simp] theorem Core.setMb_k (c : Core) (i : Nat) (v : Mailbox) : (c.setMb i v).regs.k = c.regs.k := rfl
@[simp] theorem Core.setMb_a (c : Core) (i : Nat) (v : Mailbox) : (c.setMb i v).regs.a = c.regs.a := rfl
@[simp] theorem Core.setMb_pat (c : Core) (i : Nat) (v : Mailbox) : (c.setMb i v).regs.pat = c.regs.pat := rfl
@[simp] theorem Core.setMb_tk (c : Core) (i : Nat) (v : Mailbox) : (c.setMb i v).regs.tk = c.regs.tk := rfl
@[simp] theorem Core.setMb_flags (c : Core) (i : Nat) (v : Mailbox) : (c.setMb i v).regs.flags = c.regs.flags := rfl
@[simp] theorem Core.setMb_dphase (c : Core) (i : Nat) (v : Mailbox) : (c.setMb i v).regs.dphase = c.regs.dphase := rfl
@[simp] theorem Core.setMb_mesh (c : Core) (i : Nat) (v : Mailbox) : (c.setMb i v).regs.mesh = c.regs.mesh := rfl
@[simp] theorem Core.setMb_pend (c : Core) (i : Nat) (v : Mailbox) : (c.setMb i v).pend = c.pend := rfl
@[simp] theorem Core.setMb_cold (c : Core) (i : Nat) (v : Mailbox) : (c.setMb i v).cold = c.cold := rfl
@[simp] theorem Core.setMb_idx (c : Core) (i : Nat) (v : Mailbox) : (c.setMb i v).idx = c.idx := rfl
@[simp] theorem Core.setTc_g (c : Core) (i : Nat) (v : Counter) : (c.setTc i v).regs.g = c.regs.g := rfl
@[simp] theorem Core.setTc_p (c : Core) (i : Nat) (v : Counter) : (c.setTc i v).regs.p = c.regs.p := rfl
@[simp] theorem Core.setTc_lc (c : Core) (i : Nat) (v : Counter) : (c.setTc i v).regs.lc = c.regs.lc := rfl
@[simp] theorem Core.setTc_m (c : Core) (i : Nat) (v : Counter) : (c.setTc i v).regs.m = c.regs.m := rfl
@[simp] theorem Core.setTc_h (c : Core) (i : Nat) (v : Counter) : (c.setTc i v).regs.h = c.regs.h := rfl
@[simp] theorem Core.setTc_tc (c : Core) (i : Nat) (v : Counter) : (c.setTc i v).regs.tc = SMap.set Counter.start c.regs.tc i v := rfl
@[simp] theorem Core.setTc_v (c : Core) (i : Nat) (v : Counter) : (c.setTc i v).regs.v = c.regs.v := rfl
@[simp] theorem Core.setTc_k (c : Core) (i : Nat) (v : Counter) : (c.setTc i v).regs.k = c.regs.k := rfl
@[simp] theorem Core.setTc_a (c : Core) (i : Nat) (v : Counter) : (c.setTc i v).regs.a = c.regs.a := rfl
@[simp] theorem Core.setTc_pat (c : Core) (i : Nat) (v : Counter) : (c.setTc i v).regs.pat = c.regs.pat := rfl
@[simp] theorem Core.setTc_tk (c : Core) (i : Nat) (v : Counter) : (c.setTc i v).regs.tk = c.regs.tk := rfl
@[simp] theorem Core.setTc_flags (c : Core) (i : Nat) (v : Counter) : (c.setTc i v).regs.flags = c.regs.flags := rfl
@[simp] theorem Core.setTc_dphase (c : Core) (i : Nat) (v : Counter) : (c.setTc i v).regs.dphase = c.regs.dphase := rfl
@[simp] theorem Core.setTc_mesh (c : Core) (i : Nat) (v : Counter) : (c.setTc i v).regs.mesh = c.regs.mesh := rfl
@[simp] theorem Core.setTc_pend (c : Core) (i : Nat) (v : Counter) : (c.setTc i v).pend = c.pend := rfl
@[simp] theorem Core.setTc_cold (c : Core) (i : Nat) (v : Counter) : (c.setTc i v).cold = c.cold := rfl
@[simp] theorem Core.setTc_idx (c : Core) (i : Nat) (v : Counter) : (c.setTc i v).idx = c.idx := rfl
@[simp] theorem Core.raiseFlags_g (c : Core) (f : Flags) : (c.raiseFlags f).regs.g = c.regs.g := rfl
@[simp] theorem Core.raiseFlags_p (c : Core) (f : Flags) : (c.raiseFlags f).regs.p = c.regs.p := rfl
@[simp] theorem Core.raiseFlags_lc (c : Core) (f : Flags) : (c.raiseFlags f).regs.lc = c.regs.lc := rfl
@[simp] theorem Core.raiseFlags_m (c : Core) (f : Flags) : (c.raiseFlags f).regs.m = c.regs.m := rfl
@[simp] theorem Core.raiseFlags_h (c : Core) (f : Flags) : (c.raiseFlags f).regs.h = c.regs.h := rfl
@[simp] theorem Core.raiseFlags_tc (c : Core) (f : Flags) : (c.raiseFlags f).regs.tc = c.regs.tc := rfl
@[simp] theorem Core.raiseFlags_v (c : Core) (f : Flags) : (c.raiseFlags f).regs.v = c.regs.v := rfl
@[simp] theorem Core.raiseFlags_k (c : Core) (f : Flags) : (c.raiseFlags f).regs.k = c.regs.k := rfl
@[simp] theorem Core.raiseFlags_a (c : Core) (f : Flags) : (c.raiseFlags f).regs.a = c.regs.a := rfl
@[simp] theorem Core.raiseFlags_pat (c : Core) (f : Flags) : (c.raiseFlags f).regs.pat = c.regs.pat := rfl
@[simp] theorem Core.raiseFlags_tk (c : Core) (f : Flags) : (c.raiseFlags f).regs.tk = c.regs.tk := rfl
@[simp] theorem Core.raiseFlags_flags (c : Core) (f : Flags) : (c.raiseFlags f).regs.flags = c.regs.flags ||| f := rfl
@[simp] theorem Core.raiseFlags_dphase (c : Core) (f : Flags) : (c.raiseFlags f).regs.dphase = c.regs.dphase := rfl
@[simp] theorem Core.raiseFlags_mesh (c : Core) (f : Flags) : (c.raiseFlags f).regs.mesh = c.regs.mesh := rfl
@[simp] theorem Core.raiseFlags_pend (c : Core) (f : Flags) : (c.raiseFlags f).pend = c.pend := rfl
@[simp] theorem Core.raiseFlags_cold (c : Core) (f : Flags) : (c.raiseFlags f).cold = c.cold := rfl
@[simp] theorem Core.raiseFlags_idx (c : Core) (f : Flags) : (c.raiseFlags f).idx = c.idx := rfl
@[simp] theorem Core.setG_p (c : Core) (r : Nat) (v : W64) : (c.setG r v).regs.p = c.regs.p := by unfold Core.setG; split <;> rfl
@[simp] theorem Core.setG_lc (c : Core) (r : Nat) (v : W64) : (c.setG r v).regs.lc = c.regs.lc := by unfold Core.setG; split <;> rfl
@[simp] theorem Core.setG_m (c : Core) (r : Nat) (v : W64) : (c.setG r v).regs.m = c.regs.m := by unfold Core.setG; split <;> rfl
@[simp] theorem Core.setG_h (c : Core) (r : Nat) (v : W64) : (c.setG r v).regs.h = c.regs.h := by unfold Core.setG; split <;> rfl
@[simp] theorem Core.setG_tc (c : Core) (r : Nat) (v : W64) : (c.setG r v).regs.tc = c.regs.tc := by unfold Core.setG; split <;> rfl
@[simp] theorem Core.setG_v (c : Core) (r : Nat) (v : W64) : (c.setG r v).regs.v = c.regs.v := by unfold Core.setG; split <;> rfl
@[simp] theorem Core.setG_k (c : Core) (r : Nat) (v : W64) : (c.setG r v).regs.k = c.regs.k := by unfold Core.setG; split <;> rfl
@[simp] theorem Core.setG_a (c : Core) (r : Nat) (v : W64) : (c.setG r v).regs.a = c.regs.a := by unfold Core.setG; split <;> rfl
@[simp] theorem Core.setG_pat (c : Core) (r : Nat) (v : W64) : (c.setG r v).regs.pat = c.regs.pat := by unfold Core.setG; split <;> rfl
@[simp] theorem Core.setG_tk (c : Core) (r : Nat) (v : W64) : (c.setG r v).regs.tk = c.regs.tk := by unfold Core.setG; split <;> rfl
@[simp] theorem Core.setG_flags (c : Core) (r : Nat) (v : W64) : (c.setG r v).regs.flags = c.regs.flags := by unfold Core.setG; split <;> rfl
@[simp] theorem Core.setG_dphase (c : Core) (r : Nat) (v : W64) : (c.setG r v).regs.dphase = c.regs.dphase := by unfold Core.setG; split <;> rfl
@[simp] theorem Core.setG_mesh (c : Core) (r : Nat) (v : W64) : (c.setG r v).regs.mesh = c.regs.mesh := by unfold Core.setG; split <;> rfl
@[simp] theorem Core.setG_pend (c : Core) (r : Nat) (v : W64) : (c.setG r v).pend = c.pend := by unfold Core.setG; split <;> rfl
@[simp] theorem Core.setG_cold (c : Core) (r : Nat) (v : W64) : (c.setG r v).cold = c.cold := by unfold Core.setG; split <;> rfl
@[simp] theorem Core.setG_idx (c : Core) (r : Nat) (v : W64) : (c.setG r v).idx = c.idx := by unfold Core.setG; split <;> rfl
@[simp] theorem Core.setP_g (c : Core) (r : Nat) (v : Bool) : (c.setP r v).regs.g = c.regs.g := by unfold Core.setP; split <;> rfl
@[simp] theorem Core.setP_lc (c : Core) (r : Nat) (v : Bool) : (c.setP r v).regs.lc = c.regs.lc := by unfold Core.setP; split <;> rfl
@[simp] theorem Core.setP_m (c : Core) (r : Nat) (v : Bool) : (c.setP r v).regs.m = c.regs.m := by unfold Core.setP; split <;> rfl
@[simp] theorem Core.setP_h (c : Core) (r : Nat) (v : Bool) : (c.setP r v).regs.h = c.regs.h := by unfold Core.setP; split <;> rfl
@[simp] theorem Core.setP_tc (c : Core) (r : Nat) (v : Bool) : (c.setP r v).regs.tc = c.regs.tc := by unfold Core.setP; split <;> rfl
@[simp] theorem Core.setP_v (c : Core) (r : Nat) (v : Bool) : (c.setP r v).regs.v = c.regs.v := by unfold Core.setP; split <;> rfl
@[simp] theorem Core.setP_k (c : Core) (r : Nat) (v : Bool) : (c.setP r v).regs.k = c.regs.k := by unfold Core.setP; split <;> rfl
@[simp] theorem Core.setP_a (c : Core) (r : Nat) (v : Bool) : (c.setP r v).regs.a = c.regs.a := by unfold Core.setP; split <;> rfl
@[simp] theorem Core.setP_pat (c : Core) (r : Nat) (v : Bool) : (c.setP r v).regs.pat = c.regs.pat := by unfold Core.setP; split <;> rfl
@[simp] theorem Core.setP_tk (c : Core) (r : Nat) (v : Bool) : (c.setP r v).regs.tk = c.regs.tk := by unfold Core.setP; split <;> rfl
@[simp] theorem Core.setP_flags (c : Core) (r : Nat) (v : Bool) : (c.setP r v).regs.flags = c.regs.flags := by unfold Core.setP; split <;> rfl
@[simp] theorem Core.setP_dphase (c : Core) (r : Nat) (v : Bool) : (c.setP r v).regs.dphase = c.regs.dphase := by unfold Core.setP; split <;> rfl
@[simp] theorem Core.setP_mesh (c : Core) (r : Nat) (v : Bool) : (c.setP r v).regs.mesh = c.regs.mesh := by unfold Core.setP; split <;> rfl
@[simp] theorem Core.setP_pend (c : Core) (r : Nat) (v : Bool) : (c.setP r v).pend = c.pend := by unfold Core.setP; split <;> rfl
@[simp] theorem Core.setP_cold (c : Core) (r : Nat) (v : Bool) : (c.setP r v).cold = c.cold := by unfold Core.setP; split <;> rfl
@[simp] theorem Core.setP_idx (c : Core) (r : Nat) (v : Bool) : (c.setP r v).idx = c.idx := by unfold Core.setP; split <;> rfl
@[simp] theorem Core.setK_g (c : Core) (r row : Nat) (v : BitVec 64) : (c.setK r row v).regs.g = c.regs.g := by unfold Core.setK; split <;> rfl
@[simp] theorem Core.setK_p (c : Core) (r row : Nat) (v : BitVec 64) : (c.setK r row v).regs.p = c.regs.p := by unfold Core.setK; split <;> rfl
@[simp] theorem Core.setK_lc (c : Core) (r row : Nat) (v : BitVec 64) : (c.setK r row v).regs.lc = c.regs.lc := by unfold Core.setK; split <;> rfl
@[simp] theorem Core.setK_m (c : Core) (r row : Nat) (v : BitVec 64) : (c.setK r row v).regs.m = c.regs.m := by unfold Core.setK; split <;> rfl
@[simp] theorem Core.setK_h (c : Core) (r row : Nat) (v : BitVec 64) : (c.setK r row v).regs.h = c.regs.h := by unfold Core.setK; split <;> rfl
@[simp] theorem Core.setK_tc (c : Core) (r row : Nat) (v : BitVec 64) : (c.setK r row v).regs.tc = c.regs.tc := by unfold Core.setK; split <;> rfl
@[simp] theorem Core.setK_v (c : Core) (r row : Nat) (v : BitVec 64) : (c.setK r row v).regs.v = c.regs.v := by unfold Core.setK; split <;> rfl
@[simp] theorem Core.setK_a (c : Core) (r row : Nat) (v : BitVec 64) : (c.setK r row v).regs.a = c.regs.a := by unfold Core.setK; split <;> rfl
@[simp] theorem Core.setK_pat (c : Core) (r row : Nat) (v : BitVec 64) : (c.setK r row v).regs.pat = c.regs.pat := by unfold Core.setK; split <;> rfl
@[simp] theorem Core.setK_tk (c : Core) (r row : Nat) (v : BitVec 64) : (c.setK r row v).regs.tk = c.regs.tk := by unfold Core.setK; split <;> rfl
@[simp] theorem Core.setK_flags (c : Core) (r row : Nat) (v : BitVec 64) : (c.setK r row v).regs.flags = c.regs.flags := by unfold Core.setK; split <;> rfl
@[simp] theorem Core.setK_dphase (c : Core) (r row : Nat) (v : BitVec 64) : (c.setK r row v).regs.dphase = c.regs.dphase := by unfold Core.setK; split <;> rfl
@[simp] theorem Core.setK_mesh (c : Core) (r row : Nat) (v : BitVec 64) : (c.setK r row v).regs.mesh = c.regs.mesh := by unfold Core.setK; split <;> rfl
@[simp] theorem Core.setK_pend (c : Core) (r row : Nat) (v : BitVec 64) : (c.setK r row v).pend = c.pend := by unfold Core.setK; split <;> rfl
@[simp] theorem Core.setK_cold (c : Core) (r row : Nat) (v : BitVec 64) : (c.setK r row v).cold = c.cold := by unfold Core.setK; split <;> rfl
@[simp] theorem Core.setK_idx (c : Core) (r row : Nat) (v : BitVec 64) : (c.setK r row v).idx = c.idx := by unfold Core.setK; split <;> rfl
@[simp] theorem Core.setStream_s_id (c : Core) (q : StreamSt) : (c.setStream .s q).id = c.id := rfl
@[simp] theorem Core.setStream_s_idx (c : Core) (q : StreamSt) : (c.setStream .s q).idx = c.idx := rfl
@[simp] theorem Core.setStream_s_idle (c : Core) (q : StreamSt) : (c.setStream .s q).idle = c.idle := rfl
@[simp] theorem Core.setStream_s_s (c : Core) (q : StreamSt) : (c.setStream .s q).s = q := rfl
@[simp] theorem Core.setStream_s_v (c : Core) (q : StreamSt) : (c.setStream .s q).v = c.v := rfl
@[simp] theorem Core.setStream_s_m (c : Core) (q : StreamSt) : (c.setStream .s q).m = c.m := rfl
@[simp] theorem Core.setStream_s_x (c : Core) (q : StreamSt) : (c.setStream .s q).x = c.x := rfl
@[simp] theorem Core.setStream_s_regs (c : Core) (q : StreamSt) : (c.setStream .s q).regs = c.regs := rfl
@[simp] theorem Core.setStream_s_mat (c : Core) (q : StreamSt) : (c.setStream .s q).mat = c.mat := rfl
@[simp] theorem Core.setStream_s_units (c : Core) (q : StreamSt) : (c.setStream .s q).units = c.units := rfl
@[simp] theorem Core.setStream_s_inb (c : Core) (q : StreamSt) : (c.setStream .s q).inb = c.inb := rfl
@[simp] theorem Core.setStream_s_outb (c : Core) (q : StreamSt) : (c.setStream .s q).outb = c.outb := rfl
@[simp] theorem Core.setStream_s_cold (c : Core) (q : StreamSt) : (c.setStream .s q).cold = c.cold := rfl
@[simp] theorem Core.setStream_s_pend (c : Core) (q : StreamSt) : (c.setStream .s q).pend = c.pend := rfl
@[simp] theorem Core.setStream_s_ops (c : Core) (q : StreamSt) : (c.setStream .s q).ops = c.ops := rfl
@[simp] theorem Core.setStream_s_banks (c : Core) (q : StreamSt) : (c.setStream .s q).banks = c.banks := rfl
@[simp] theorem Core.setStream_s_ranges (c : Core) (q : StreamSt) : (c.setStream .s q).ranges = c.ranges := rfl
@[simp] theorem Core.setStream_s_barred (c : Core) (q : StreamSt) : (c.setStream .s q).barred = c.barred := rfl
@[simp] theorem Core.setStream_s_hold (c : Core) (q : StreamSt) : (c.setStream .s q).hold = c.hold := rfl
@[simp] theorem Core.setStream_s_ckpt (c : Core) (q : StreamSt) : (c.setStream .s q).ckpt = c.ckpt := rfl
@[simp] theorem Core.setStream_s_halt (c : Core) (q : StreamSt) : (c.setStream .s q).halt = c.halt := rfl
@[simp] theorem Core.setStream_s_line (c : Core) (q : StreamSt) : (c.setStream .s q).line = c.line := rfl
@[simp] theorem Core.setStream_s_record (c : Core) (q : StreamSt) : (c.setStream .s q).record = c.record := rfl
@[simp] theorem Core.setStream_s_logged (c : Core) (q : StreamSt) : (c.setStream .s q).logged = c.logged := rfl
@[simp] theorem Core.setStream_s_entries (c : Core) (q : StreamSt) : (c.setStream .s q).entries = c.entries := rfl
@[simp] theorem Core.setStream_s_causal (c : Core) (q : StreamSt) : (c.setStream .s q).causal = c.causal := rfl
@[simp] theorem Core.setStream_s_orderR (c : Core) (q : StreamSt) : (c.setStream .s q).orderR = c.orderR := rfl
@[simp] theorem Core.setStream_s_orderW (c : Core) (q : StreamSt) : (c.setStream .s q).orderW = c.orderW := rfl
@[simp] theorem Core.setStream_s_orderS (c : Core) (q : StreamSt) : (c.setStream .s q).orderS = c.orderS := rfl
@[simp] theorem Core.setStream_s_orderT (c : Core) (q : StreamSt) : (c.setStream .s q).orderT = c.orderT := rfl
@[simp] theorem Core.setStream_s_orderK (c : Core) (q : StreamSt) : (c.setStream .s q).orderK = c.orderK := rfl
@[simp] theorem Core.setStream_s_orderA (c : Core) (q : StreamSt) : (c.setStream .s q).orderA = c.orderA := rfl
@[simp] theorem Core.setStream_v_id (c : Core) (q : StreamSt) : (c.setStream .v q).id = c.id := rfl
@[simp] theorem Core.setStream_v_idx (c : Core) (q : StreamSt) : (c.setStream .v q).idx = c.idx := rfl
@[simp] theorem Core.setStream_v_idle (c : Core) (q : StreamSt) : (c.setStream .v q).idle = c.idle := rfl
@[simp] theorem Core.setStream_v_s (c : Core) (q : StreamSt) : (c.setStream .v q).s = c.s := rfl
@[simp] theorem Core.setStream_v_v (c : Core) (q : StreamSt) : (c.setStream .v q).v = q := rfl
@[simp] theorem Core.setStream_v_m (c : Core) (q : StreamSt) : (c.setStream .v q).m = c.m := rfl
@[simp] theorem Core.setStream_v_x (c : Core) (q : StreamSt) : (c.setStream .v q).x = c.x := rfl
@[simp] theorem Core.setStream_v_regs (c : Core) (q : StreamSt) : (c.setStream .v q).regs = c.regs := rfl
@[simp] theorem Core.setStream_v_mat (c : Core) (q : StreamSt) : (c.setStream .v q).mat = c.mat := rfl
@[simp] theorem Core.setStream_v_units (c : Core) (q : StreamSt) : (c.setStream .v q).units = c.units := rfl
@[simp] theorem Core.setStream_v_inb (c : Core) (q : StreamSt) : (c.setStream .v q).inb = c.inb := rfl
@[simp] theorem Core.setStream_v_outb (c : Core) (q : StreamSt) : (c.setStream .v q).outb = c.outb := rfl
@[simp] theorem Core.setStream_v_cold (c : Core) (q : StreamSt) : (c.setStream .v q).cold = c.cold := rfl
@[simp] theorem Core.setStream_v_pend (c : Core) (q : StreamSt) : (c.setStream .v q).pend = c.pend := rfl
@[simp] theorem Core.setStream_v_ops (c : Core) (q : StreamSt) : (c.setStream .v q).ops = c.ops := rfl
@[simp] theorem Core.setStream_v_banks (c : Core) (q : StreamSt) : (c.setStream .v q).banks = c.banks := rfl
@[simp] theorem Core.setStream_v_ranges (c : Core) (q : StreamSt) : (c.setStream .v q).ranges = c.ranges := rfl
@[simp] theorem Core.setStream_v_barred (c : Core) (q : StreamSt) : (c.setStream .v q).barred = c.barred := rfl
@[simp] theorem Core.setStream_v_hold (c : Core) (q : StreamSt) : (c.setStream .v q).hold = c.hold := rfl
@[simp] theorem Core.setStream_v_ckpt (c : Core) (q : StreamSt) : (c.setStream .v q).ckpt = c.ckpt := rfl
@[simp] theorem Core.setStream_v_halt (c : Core) (q : StreamSt) : (c.setStream .v q).halt = c.halt := rfl
@[simp] theorem Core.setStream_v_line (c : Core) (q : StreamSt) : (c.setStream .v q).line = c.line := rfl
@[simp] theorem Core.setStream_v_record (c : Core) (q : StreamSt) : (c.setStream .v q).record = c.record := rfl
@[simp] theorem Core.setStream_v_logged (c : Core) (q : StreamSt) : (c.setStream .v q).logged = c.logged := rfl
@[simp] theorem Core.setStream_v_entries (c : Core) (q : StreamSt) : (c.setStream .v q).entries = c.entries := rfl
@[simp] theorem Core.setStream_v_causal (c : Core) (q : StreamSt) : (c.setStream .v q).causal = c.causal := rfl
@[simp] theorem Core.setStream_v_orderR (c : Core) (q : StreamSt) : (c.setStream .v q).orderR = c.orderR := rfl
@[simp] theorem Core.setStream_v_orderW (c : Core) (q : StreamSt) : (c.setStream .v q).orderW = c.orderW := rfl
@[simp] theorem Core.setStream_v_orderS (c : Core) (q : StreamSt) : (c.setStream .v q).orderS = c.orderS := rfl
@[simp] theorem Core.setStream_v_orderT (c : Core) (q : StreamSt) : (c.setStream .v q).orderT = c.orderT := rfl
@[simp] theorem Core.setStream_v_orderK (c : Core) (q : StreamSt) : (c.setStream .v q).orderK = c.orderK := rfl
@[simp] theorem Core.setStream_v_orderA (c : Core) (q : StreamSt) : (c.setStream .v q).orderA = c.orderA := rfl
@[simp] theorem Core.setStream_m_id (c : Core) (q : StreamSt) : (c.setStream .m q).id = c.id := rfl
@[simp] theorem Core.setStream_m_idx (c : Core) (q : StreamSt) : (c.setStream .m q).idx = c.idx := rfl
@[simp] theorem Core.setStream_m_idle (c : Core) (q : StreamSt) : (c.setStream .m q).idle = c.idle := rfl
@[simp] theorem Core.setStream_m_s (c : Core) (q : StreamSt) : (c.setStream .m q).s = c.s := rfl
@[simp] theorem Core.setStream_m_v (c : Core) (q : StreamSt) : (c.setStream .m q).v = c.v := rfl
@[simp] theorem Core.setStream_m_m (c : Core) (q : StreamSt) : (c.setStream .m q).m = q := rfl
@[simp] theorem Core.setStream_m_x (c : Core) (q : StreamSt) : (c.setStream .m q).x = c.x := rfl
@[simp] theorem Core.setStream_m_regs (c : Core) (q : StreamSt) : (c.setStream .m q).regs = c.regs := rfl
@[simp] theorem Core.setStream_m_mat (c : Core) (q : StreamSt) : (c.setStream .m q).mat = c.mat := rfl
@[simp] theorem Core.setStream_m_units (c : Core) (q : StreamSt) : (c.setStream .m q).units = c.units := rfl
@[simp] theorem Core.setStream_m_inb (c : Core) (q : StreamSt) : (c.setStream .m q).inb = c.inb := rfl
@[simp] theorem Core.setStream_m_outb (c : Core) (q : StreamSt) : (c.setStream .m q).outb = c.outb := rfl
@[simp] theorem Core.setStream_m_cold (c : Core) (q : StreamSt) : (c.setStream .m q).cold = c.cold := rfl
@[simp] theorem Core.setStream_m_pend (c : Core) (q : StreamSt) : (c.setStream .m q).pend = c.pend := rfl
@[simp] theorem Core.setStream_m_ops (c : Core) (q : StreamSt) : (c.setStream .m q).ops = c.ops := rfl
@[simp] theorem Core.setStream_m_banks (c : Core) (q : StreamSt) : (c.setStream .m q).banks = c.banks := rfl
@[simp] theorem Core.setStream_m_ranges (c : Core) (q : StreamSt) : (c.setStream .m q).ranges = c.ranges := rfl
@[simp] theorem Core.setStream_m_barred (c : Core) (q : StreamSt) : (c.setStream .m q).barred = c.barred := rfl
@[simp] theorem Core.setStream_m_hold (c : Core) (q : StreamSt) : (c.setStream .m q).hold = c.hold := rfl
@[simp] theorem Core.setStream_m_ckpt (c : Core) (q : StreamSt) : (c.setStream .m q).ckpt = c.ckpt := rfl
@[simp] theorem Core.setStream_m_halt (c : Core) (q : StreamSt) : (c.setStream .m q).halt = c.halt := rfl
@[simp] theorem Core.setStream_m_line (c : Core) (q : StreamSt) : (c.setStream .m q).line = c.line := rfl
@[simp] theorem Core.setStream_m_record (c : Core) (q : StreamSt) : (c.setStream .m q).record = c.record := rfl
@[simp] theorem Core.setStream_m_logged (c : Core) (q : StreamSt) : (c.setStream .m q).logged = c.logged := rfl
@[simp] theorem Core.setStream_m_entries (c : Core) (q : StreamSt) : (c.setStream .m q).entries = c.entries := rfl
@[simp] theorem Core.setStream_m_causal (c : Core) (q : StreamSt) : (c.setStream .m q).causal = c.causal := rfl
@[simp] theorem Core.setStream_m_orderR (c : Core) (q : StreamSt) : (c.setStream .m q).orderR = c.orderR := rfl
@[simp] theorem Core.setStream_m_orderW (c : Core) (q : StreamSt) : (c.setStream .m q).orderW = c.orderW := rfl
@[simp] theorem Core.setStream_m_orderS (c : Core) (q : StreamSt) : (c.setStream .m q).orderS = c.orderS := rfl
@[simp] theorem Core.setStream_m_orderT (c : Core) (q : StreamSt) : (c.setStream .m q).orderT = c.orderT := rfl
@[simp] theorem Core.setStream_m_orderK (c : Core) (q : StreamSt) : (c.setStream .m q).orderK = c.orderK := rfl
@[simp] theorem Core.setStream_m_orderA (c : Core) (q : StreamSt) : (c.setStream .m q).orderA = c.orderA := rfl
@[simp] theorem Core.setStream_x_id (c : Core) (q : StreamSt) : (c.setStream .x q).id = c.id := rfl
@[simp] theorem Core.setStream_x_idx (c : Core) (q : StreamSt) : (c.setStream .x q).idx = c.idx := rfl
@[simp] theorem Core.setStream_x_idle (c : Core) (q : StreamSt) : (c.setStream .x q).idle = c.idle := rfl
@[simp] theorem Core.setStream_x_s (c : Core) (q : StreamSt) : (c.setStream .x q).s = c.s := rfl
@[simp] theorem Core.setStream_x_v (c : Core) (q : StreamSt) : (c.setStream .x q).v = c.v := rfl
@[simp] theorem Core.setStream_x_m (c : Core) (q : StreamSt) : (c.setStream .x q).m = c.m := rfl
@[simp] theorem Core.setStream_x_x (c : Core) (q : StreamSt) : (c.setStream .x q).x = q := rfl
@[simp] theorem Core.setStream_x_regs (c : Core) (q : StreamSt) : (c.setStream .x q).regs = c.regs := rfl
@[simp] theorem Core.setStream_x_mat (c : Core) (q : StreamSt) : (c.setStream .x q).mat = c.mat := rfl
@[simp] theorem Core.setStream_x_units (c : Core) (q : StreamSt) : (c.setStream .x q).units = c.units := rfl
@[simp] theorem Core.setStream_x_inb (c : Core) (q : StreamSt) : (c.setStream .x q).inb = c.inb := rfl
@[simp] theorem Core.setStream_x_outb (c : Core) (q : StreamSt) : (c.setStream .x q).outb = c.outb := rfl
@[simp] theorem Core.setStream_x_cold (c : Core) (q : StreamSt) : (c.setStream .x q).cold = c.cold := rfl
@[simp] theorem Core.setStream_x_pend (c : Core) (q : StreamSt) : (c.setStream .x q).pend = c.pend := rfl
@[simp] theorem Core.setStream_x_ops (c : Core) (q : StreamSt) : (c.setStream .x q).ops = c.ops := rfl
@[simp] theorem Core.setStream_x_banks (c : Core) (q : StreamSt) : (c.setStream .x q).banks = c.banks := rfl
@[simp] theorem Core.setStream_x_ranges (c : Core) (q : StreamSt) : (c.setStream .x q).ranges = c.ranges := rfl
@[simp] theorem Core.setStream_x_barred (c : Core) (q : StreamSt) : (c.setStream .x q).barred = c.barred := rfl
@[simp] theorem Core.setStream_x_hold (c : Core) (q : StreamSt) : (c.setStream .x q).hold = c.hold := rfl
@[simp] theorem Core.setStream_x_ckpt (c : Core) (q : StreamSt) : (c.setStream .x q).ckpt = c.ckpt := rfl
@[simp] theorem Core.setStream_x_halt (c : Core) (q : StreamSt) : (c.setStream .x q).halt = c.halt := rfl
@[simp] theorem Core.setStream_x_line (c : Core) (q : StreamSt) : (c.setStream .x q).line = c.line := rfl
@[simp] theorem Core.setStream_x_record (c : Core) (q : StreamSt) : (c.setStream .x q).record = c.record := rfl
@[simp] theorem Core.setStream_x_logged (c : Core) (q : StreamSt) : (c.setStream .x q).logged = c.logged := rfl
@[simp] theorem Core.setStream_x_entries (c : Core) (q : StreamSt) : (c.setStream .x q).entries = c.entries := rfl
@[simp] theorem Core.setStream_x_causal (c : Core) (q : StreamSt) : (c.setStream .x q).causal = c.causal := rfl
@[simp] theorem Core.setStream_x_orderR (c : Core) (q : StreamSt) : (c.setStream .x q).orderR = c.orderR := rfl
@[simp] theorem Core.setStream_x_orderW (c : Core) (q : StreamSt) : (c.setStream .x q).orderW = c.orderW := rfl
@[simp] theorem Core.setStream_x_orderS (c : Core) (q : StreamSt) : (c.setStream .x q).orderS = c.orderS := rfl
@[simp] theorem Core.setStream_x_orderT (c : Core) (q : StreamSt) : (c.setStream .x q).orderT = c.orderT := rfl
@[simp] theorem Core.setStream_x_orderK (c : Core) (q : StreamSt) : (c.setStream .x q).orderK = c.orderK := rfl
@[simp] theorem Core.setStream_x_orderA (c : Core) (q : StreamSt) : (c.setStream .x q).orderA = c.orderA := rfl

end Sys2Proof.Machine
end

