-- ==== Sys2Proof/Laws/Ops.lean ====
section
/-! SUPPORT. What the shared operations do, said once: looking up and replacing contexts and cores, planning results, sequencing,
issuing a word, freezing, thawing and resuming. -/

namespace Sys2Proof.Machine

/-! Contexts of the machine. -/

theorem Mach.slot_of_ctx? {M : Mach} {k : Nat} {x : Ctx} (h : M.ctx? k = some x) : x.slot = k := by
  simpa using List.find?_some h

theorem find_map_same {l : List Ctx} {k : Nat} {x y : Ctx} (h : l.find? (fun z => z.slot == k) = some x) (hy : y.slot = k) :
    (l.map fun z => if z.slot == y.slot then y else z).find? (fun z => z.slot == k) = some y := by
  induction l with
  | nil => simp at h
  | cons a r ih =>
    rw [List.map_cons, List.find?_cons]
    by_cases ha : a.slot = k
    · simp [ha, hy]
    · have hk : (a.slot == k) = false := by simp [ha]
      have hs : (a.slot == y.slot) = false := by simp [hy, ha]
      rw [List.find?_cons, hk] at h
      simp only [hs, Bool.false_eq_true, if_false, hk]
      exact ih h

theorem find_map_ne {l : List Ctx} {k : Nat} {y : Ctx} (hy : y.slot ≠ k) :
    (l.map fun z => if z.slot == y.slot then y else z).find? (fun z => z.slot == k) = l.find? fun z => z.slot == k := by
  induction l with
  | nil => rfl
  | cons a r ih =>
    rw [List.map_cons, List.find?_cons, List.find?_cons]
    by_cases hs : a.slot = y.slot
    · have hk : (a.slot == k) = false := by simp [hs, hy]
      have hyk : (y.slot == k) = false := by simp [hy]
      have hsb : (a.slot == y.slot) = true := by simp [hs]
      simp only [hsb, if_true, hyk, hk]
      exact ih
    · have hsb : (a.slot == y.slot) = false := by simp [hs]
      simp only [hsb, Bool.false_eq_true, if_false]
      cases (a.slot == k) with
      | true => rfl
      | false => exact ih

/-- A context put in the place of one with its slot is found there. -/
theorem Mach.ctx?_setCtx_same {M : Mach} {k : Nat} {x y : Ctx} (h : M.ctx? k = some x) (hy : y.slot = k) :
    (M.setCtx y).ctx? k = some y := find_map_same h hy

/-- Every other slot keeps its context. -/
theorem Mach.ctx?_setCtx_ne {M : Mach} {k : Nat} {y : Ctx} (hy : y.slot ≠ k) : (M.setCtx y).ctx? k = M.ctx? k := find_map_ne hy

theorem Mach.onCtx_some {M : Mach} {k : Nat} {x : Ctx} (h : M.ctx? k = some x) (f : Ctx → Ctx) : M.onCtx k f = M.setCtx (f x) := by
  unfold Mach.onCtx; rw [h]

theorem Mach.onCtx_none {M : Mach} {k : Nat} (h : M.ctx? k = none) (f : Ctx → Ctx) : M.onCtx k f = M := by
  unfold Mach.onCtx; rw [h]

/-- Changing one context leaves the rest of the module alone. -/
theorem Mach.onCtx_module (M : Mach) (k : Nat) (f : Ctx → Ctx) : { M.onCtx k f with ctxs := [] } = { M with ctxs := [] } := by
  unfold Mach.onCtx
  split <;> rfl

@[simp] theorem Mach.onCtx_warm (M : Mach) (k : Nat) (f : Ctx → Ctx) : (M.onCtx k f).warm = M.warm := by unfold Mach.onCtx; split <;> rfl
@[simp] theorem Mach.onCtx_host (M : Mach) (k : Nat) (f : Ctx → Ctx) : (M.onCtx k f).host = M.host := by unfold Mach.onCtx; split <;> rfl
@[simp] theorem Mach.onCtx_mslot (M : Mach) (k : Nat) (f : Ctx → Ctx) : (M.onCtx k f).mslot = M.mslot := by unfold Mach.onCtx; split <;> rfl

/-! Cores of a context. -/

/-- A core put in its own place is found there. -/
theorem Ctx.core?_setCore_same {x : Ctx} {j : Nat} {c d : Core} (h : x.core? j = some c) (hd : d.idx = j) :
    (x.setCore d).core? j = some d := by
  unfold Ctx.core? at h ⊢
  rw [Ctx.setCore_cores, hd]
  exact setAt_getElem?_same _ _ _ (List.getElem?_eq_some_iff.mp h).1

/-- Every other core stays. -/
theorem Ctx.core?_setCore_ne {x : Ctx} {j : Nat} {d : Core} (hd : d.idx ≠ j) : (x.setCore d).core? j = x.core? j := by
  unfold Ctx.core?
  rw [Ctx.setCore_cores]
  exact setAt_getElem?_ne _ _ _ _ (by omega)

theorem Ctx.onCore_some {x : Ctx} {j : Nat} {c : Core} (h : x.core? j = some c) (f : Core → Core) : x.onCore j f = x.setCore (f c) := by
  unfold Ctx.onCore; rw [h]

/-! Streams. -/

@[simp] theorem Core.stream_setStream (c : Core) (st : Stream) (q : StreamSt) : (c.setStream st q).stream st = q := by cases st <;> rfl

theorem Core.stream_setStream_ne (c : Core) {st st' : Stream} (q : StreamSt) (h : st' ≠ st) : (c.setStream st q).stream st' = c.stream st' := by
  cases st <;> cases st' <;> first | rfl | exact absurd rfl h

@[simp] theorem Core.setStream_idx (c : Core) (st : Stream) (q : StreamSt) : (c.setStream st q).idx = c.idx := by cases st <;> rfl
@[simp] theorem Core.setStream_id (c : Core) (st : Stream) (q : StreamSt) : (c.setStream st q).id = c.id := by cases st <;> rfl
@[simp] theorem Core.setStream_idle (c : Core) (st : Stream) (q : StreamSt) : (c.setStream st q).idle = c.idle := by cases st <;> rfl
@[simp] theorem Core.setStream_pend (c : Core) (st : Stream) (q : StreamSt) : (c.setStream st q).pend = c.pend := by cases st <;> rfl
@[simp] theorem Core.setStream_regs (c : Core) (st : Stream) (q : StreamSt) : (c.setStream st q).regs = c.regs := by cases st <;> rfl
@[simp] theorem Core.setStream_mat (c : Core) (st : Stream) (q : StreamSt) : (c.setStream st q).mat = c.mat := by cases st <;> rfl
@[simp] theorem Core.setStream_inb (c : Core) (st : Stream) (q : StreamSt) : (c.setStream st q).inb = c.inb := by cases st <;> rfl
@[simp] theorem Core.setStream_outb (c : Core) (st : Stream) (q : StreamSt) : (c.setStream st q).outb = c.outb := by cases st <;> rfl
@[simp] theorem Core.setStream_cold (c : Core) (st : Stream) (q : StreamSt) : (c.setStream st q).cold = c.cold := by cases st <;> rfl
@[simp] theorem Core.setStream_units (c : Core) (st : Stream) (q : StreamSt) : (c.setStream st q).units = c.units := by cases st <;> rfl
@[simp] theorem Core.setStream_ops (c : Core) (st : Stream) (q : StreamSt) : (c.setStream st q).ops = c.ops := by cases st <;> rfl
@[simp] theorem Core.setStream_record (c : Core) (st : Stream) (q : StreamSt) : (c.setStream st q).record = c.record := by cases st <;> rfl
@[simp] theorem Core.setStream_barred (c : Core) (st : Stream) (q : StreamSt) : (c.setStream st q).barred = c.barred := by cases st <;> rfl
@[simp] theorem Core.setStream_ckpt (c : Core) (st : Stream) (q : StreamSt) : (c.setStream st q).ckpt = c.ckpt := by cases st <;> rfl
@[simp] theorem Core.setStream_halt (c : Core) (st : Stream) (q : StreamSt) : (c.setStream st q).halt = c.halt := by cases st <;> rfl
@[simp] theorem Core.setStream_orderR (c : Core) (st : Stream) (q : StreamSt) : (c.setStream st q).orderR = c.orderR := by cases st <;> rfl
@[simp] theorem Core.setStream_orderW (c : Core) (st : Stream) (q : StreamSt) : (c.setStream st q).orderW = c.orderW := by cases st <;> rfl

/-! Planned results (R115, R176, R290). -/

theorem Core.land_true (c : Core) (d : Dest) (st : Stream) (t l : Nat) (v : W64) :
    (c.land true d st t l v).pend = c.pend ++ [result d st t (t + l) (v.setWidth 4096)] := rfl

theorem Core.land_pend (c : Core) (g : Bool) (d : Dest) (t l : Nat) (v : W64) :
    (c.land g d .s t l v).pend = c.pend ++ scalarResult g d t l v := by
  cases g
  · exact (List.append_nil _).symm
  · rfl

@[simp] theorem Core.land_stream (c : Core) (g : Bool) (d : Dest) (st : Stream) (t l : Nat) (v : W64) (st' : Stream) :
    (c.land g d st t l v).stream st' = c.stream st' := by unfold Core.land; split <;> rfl

/-! Going on after a word. -/

/-- `advance` puts the core's stream past its word and changes nothing else of it. -/
theorem Ctx.core?_advance_same {x : Ctx} {j : Nat} {c : Core} (st : Stream) (r : Nat) (h : x.core? j = some c) (hc : c.idx = j) :
    (x.advance j st r).core? j = some (c.setStream st ((c.stream st).step r)) := by
  unfold Ctx.advance
  rw [Ctx.onCore_some h]
  exact Ctx.core?_setCore_same (d := c.setStream st ((c.stream st).step r)) h (by simpa using hc)

theorem Ctx.core?_advance_ne {x : Ctx} {j l : Nat} (st : Stream) (r : Nat) (hc : ∀ c, x.core? j = some c → c.idx = j) (hl : l ≠ j) :
    (x.advance j st r).core? l = x.core? l := by
  unfold Ctx.advance Ctx.onCore
  split
  · rfl
  · rename_i c h
    have := hc c h
    exact Ctx.core?_setCore_ne (x := x) (by rw [Core.setStream_idx]; omega)

theorem Ctx.advance_eq (x : Ctx) (j : Nat) (st : Stream) (r : Nat) :
    ∃ cores account, x.advance j st r = { x with cores, account } := by
  unfold Ctx.advance Ctx.onCore
  split
  · exact ⟨_, _, rfl⟩
  · exact ⟨_, _, rfl⟩

@[simp] theorem Ctx.advance_slot (x : Ctx) (j : Nat) (st : Stream) (r : Nat) : (x.advance j st r).slot = x.slot := by
  obtain ⟨_, _, h⟩ := x.advance_eq j st r; rw [h]
@[simp] theorem Ctx.advance_cslot (x : Ctx) (j : Nat) (st : Stream) (r : Nat) : (x.advance j st r).cslot = x.cslot := by
  obtain ⟨_, _, h⟩ := x.advance_eq j st r; rw [h]
@[simp] theorem Ctx.advance_reqs (x : Ctx) (j : Nat) (st : Stream) (r : Nat) : (x.advance j st r).reqs = x.reqs := by
  obtain ⟨_, _, h⟩ := x.advance_eq j st r; rw [h]
@[simp] theorem Ctx.advance_stops (x : Ctx) (j : Nat) (st : Stream) (r : Nat) : (x.advance j st r).stops = x.stops := by
  obtain ⟨_, _, h⟩ := x.advance_eq j st r; rw [h]

theorem Ctx.sameContext_advance (x : Ctx) (j : Nat) (st : Stream) (r : Nat) : SameContext x (x.advance j st r) := by
  obtain ⟨_, _, h⟩ := x.advance_eq j st r
  rw [h]
  exact ⟨⟨rfl, rfl, rfl, rfl, rfl, rfl⟩, rfl, rfl, rfl, ⟨rfl, rfl⟩, ⟨rfl, rfl⟩, rfl, rfl⟩

theorem SameContext.trans {x y z : Ctx} (h : SameContext x y) (g : SameContext y z) : SameContext x z where
  place := ⟨g.place.1.trans h.place.1, g.place.2.1.trans h.place.2.1, g.place.2.2.1.trans h.place.2.2.1,
    g.place.2.2.2.1.trans h.place.2.2.2.1, g.place.2.2.2.2.1.trans h.place.2.2.2.2.1, g.place.2.2.2.2.2.trans h.place.2.2.2.2.2⟩
  code := g.code.trans h.code
  pools := g.pools.trans h.pools
  tdt := g.tdt.trans h.tdt
  win := ⟨g.win.1.trans h.win.1, g.win.2.trans h.win.2⟩
  logs := ⟨g.logs.1.trans h.logs.1, g.logs.2.trans h.logs.2⟩
  header := g.header.trans h.header
  heat := g.heat.trans h.heat

theorem SameContext.setCore (x : Ctx) (c : Core) : SameContext x (x.setCore c) :=
  ⟨⟨rfl, rfl, rfl, rfl, rfl, rfl⟩, rfl, rfl, rfl, ⟨rfl, rfl⟩, ⟨rfl, rfl⟩, rfl, rfl⟩

/-! Issuing a word. -/

section
variable {s : State} {i : Issue} {x : Ctx} {c : Core}

theorem State.issueRaw_ok (h : s.Issuing i x c) {f : Issue → Meaning} {y : Ctx} (hf : f i s.now x c = .ok y) :
    s.issueRaw f = .next { s with now := s.now.setCtx y } := by
  unfold State.issueRaw; simp only [h.cur, h.ctx, h.core, hf]

theorem State.issueRaw_cause (h : s.Issuing i x c) {f : Issue → Meaning} {t : Trouble} (hf : f i s.now x c = .error (.cause t)) :
    s.issueRaw f = .next (s.raise i c.id t) := by
  unfold State.issueRaw; simp only [h.cur, h.ctx, h.core, hf]

/-- Two slips at once are both raised (R128). -/
theorem State.issueRaw_both (h : s.Issuing i x c) {f : Issue → Meaning} {t u : Trouble} (hf : f i s.now x c = .error (.both t u)) :
    s.issueRaw f = .next ((s.raise i c.id t).raise i c.id u) := by
  unfold State.issueRaw; simp only [h.cur, h.ctx, h.core, hf]

theorem State.issueRaw_dwell (h : s.Issuing i x c) {f : Issue → Meaning} (hf : f i s.now x c = .error .dwell) :
    s.issueRaw f = .next { s with dwell := some (1, 1) } := by
  unfold State.issueRaw; simp only [h.cur, h.ctx, h.core, hf]

theorem State.issue_ok (h : s.Issuing i x c) {f : Issue → Meaning} {y : Ctx} (hf : f i s.now x c = .ok y) :
    s.issue f = .next { s with now := s.now.setCtx (y.advance i.j i.st (x.cslot + 1)) } :=
  State.issueRaw_ok h (by simp only [hf]; rfl)

theorem State.issue_cause (h : s.Issuing i x c) {f : Issue → Meaning} {t : Trouble} (hf : f i s.now x c = .error (.cause t)) :
    s.issue f = .next (s.raise i c.id t) :=
  State.issueRaw_cause h (by simp only [hf]; rfl)

theorem State.issue_both (h : s.Issuing i x c) {f : Issue → Meaning} {t u : Trouble} (hf : f i s.now x c = .error (.both t u)) :
    s.issue f = .next ((s.raise i c.id t).raise i c.id u) :=
  State.issueRaw_both h (by simp only [hf]; rfl)

/-- A raw meaning that answers a context with core `d` in its place completes. -/
theorem completes_raw (h : s.Issuing i x c) {ins : Instr} {f : Issue → Meaning} (he : exec ins s = s.issueRaw f) {y : Ctx} {d : Core}
    {ready : Nat} {post : Ctx → Core → Prop} (hf : f i s.now x c = .ok y) (hs : y.slot = x.slot) (ht : y.cslot = x.cslot)
    (hc : y.core? i.j = some d) (hd : d.stream i.st = (c.stream i.st).step ready) (hp : post y d) :
    Completes s ins i x c ready post :=
  ⟨{ s with now := s.now.setCtx y }, y, d, he.trans (State.issueRaw_ok h hf), rfl, rfl,
    ⟨Mach.ctx?_setCtx_same h.ctx (hs.trans (Mach.slot_of_ctx? h.ctx)), hc⟩, ht, hd, hp⟩

/-- A meaning that answers a context with core `d` in its place, its stream untouched, completes one slot on. -/
theorem completes_issue (h : s.Issuing i x c) {ins : Instr} {f : Issue → Meaning} (he : exec ins s = s.issue f) {y : Ctx} {d : Core}
    {post : Ctx → Core → Prop} (hf : f i s.now x c = .ok y) (hs : y.slot = x.slot) (ht : y.cslot = x.cslot)
    (hc : y.core? i.j = some d) (hi : d.idx = i.j) (hd : d.stream i.st = c.stream i.st)
    (hp : post (y.advance i.j i.st (x.cslot + 1)) (d.setStream i.st ((d.stream i.st).step (x.cslot + 1)))) :
    Completes s ins i x c (x.cslot + 1) post :=
  ⟨_, _, _, he.trans (State.issue_ok h hf), rfl, rfl,
    ⟨Mach.ctx?_setCtx_same h.ctx (by rw [Ctx.advance_slot, hs]; exact Mach.slot_of_ctx? h.ctx), Ctx.core?_advance_same _ _ hc hi⟩,
    by rw [Ctx.advance_cslot, ht], by rw [Core.stream_setStream, hd], hp⟩

/-- A meaning that only changes its own core. -/
theorem completes_core (h : s.Issuing i x c) {ins : Instr} {f : Issue → Meaning} (he : exec ins s = s.issue f) {d : Core}
    {post : Ctx → Core → Prop} (hf : f i s.now x c = .ok (x.setCore d)) (hi : d.idx = c.idx) (hd : d.stream i.st = c.stream i.st)
    (hp : post ((x.setCore d).advance i.j i.st (x.cslot + 1)) (d.setStream i.st ((d.stream i.st).step (x.cslot + 1)))) :
    Completes s ins i x c (x.cslot + 1) post :=
  completes_issue h he hf rfl rfl (Ctx.core?_setCore_same h.core (hi.trans h.idx)) (hi.trans h.idx) hd hp

/-- A meaning that only plans results. -/
theorem plans_core (h : s.Issuing i x c) {ins : Instr} {f : Issue → Meaning} (he : exec ins s = s.issue f) {d : Core} {ps : List Pend}
    (hf : f i s.now x c = .ok (x.setCore d)) (hi : d.idx = c.idx) (hd : d.stream i.st = c.stream i.st) (hp : d.pend = c.pend ++ ps)
    (hr : d.regs = c.regs) : Plans s ins i x c ps :=
  completes_core h he hf hi hd ⟨by rw [Core.setStream_pend, hp], by rw [Core.setStream_regs, hr]⟩

/-- A scalar result planned by `land`. -/
theorem plans_land (h : s.Issuing i x c) {ins : Instr} {f : Issue → Ctx → Core → Core} (he : exec ins s = s.issueCore f) {g : Bool} {dst : Dest}
    {l : Nat} {v w : W64} (hf : f i x c = c.land g dst .s x.cslot l v) (hv : v = w) : Plans s ins i x c (scalarResult g dst x.cslot l w) :=
  plans_core h (he.trans rfl) (d := c.land g dst .s x.cslot l v) (by simp only [hf]) (by simp) (by simp) (by rw [Core.land_pend, hv]) (by simp)

theorem stops_issue (h : s.Issuing i x c) {ins : Instr} {f : Issue → Meaning} (he : exec ins s = s.issue f) {t : Trouble}
    (hf : f i s.now x c = .error (.cause t)) : Stops s ins i c t.code t.detail t.port :=
  he.trans (State.issue_cause h hf)

theorem stops_raw (h : s.Issuing i x c) {ins : Instr} {f : Issue → Meaning} (he : exec ins s = s.issueRaw f) {t : Trouble}
    (hf : f i s.now x c = .error (.cause t)) : Stops s ins i c t.code t.detail t.port :=
  he.trans (State.issueRaw_cause h hf)

end

end Sys2Proof.Machine
end

