-- ==== Sys2Proof/Laws/PerInstr.lean ====
section
/-! SUPPORT. For every instruction, where its word holds its GAP; an event has no word. -/

namespace Sys2Proof.Laws

/-- Bits 26..25 of a word are its GAP (R274). -/
theorem word_gap (maj : BitVec 5) (g : BitVec 2) (body : BitVec 25) : (word maj g body).extractLsb' 25 2 = g := by
  apply BitVec.eq_of_getLsbD_eq
  intro i hi
  simp only [word, BitVec.getLsbD_extractLsb', BitVec.getLsbD_append]
  have : ¬ 25 + i < 25 := by omega
  have h2 : 25 + i < 25 + 2 := by omega
  simp [hi]

namespace GapField

/-- The GAP operand of an encoded instruction; none for an event. -/
def gap : Instr → Option (BitVec 2)
  | .nop g => some g
  | .alu g .. => some g
  | .muldiv g .. => some g
  | .alui g .. => some g
  | .lih g .. => some g
  | .pcmp g .. => some g
  | .plog g .. => some g
  | .ldc g .. => some g
  | .ldp g .. => some g
  | .stc g .. => some g
  | .stp g .. => some g
  | .wld g .. => some g
  | .wst g .. => some g
  | .mmv g .. => some g
  | .amo g .. => some g
  | .amocas g .. => some g
  | .amof g .. => some g
  | .b g .. => some g
  | .j g .. => some g
  | .jal g .. => some g
  | .jalr g .. => some g
  | .loopImm g .. => some g
  | .loopLc g .. => some g
  | .lcsetReg g .. => some g
  | .lcsetImm g .. => some g
  | .gapl g .. => some g
  | .fence g .. => some g
  | .wait g .. => some g
  | .bar g .. => some g
  | .tokPost g .. => some g
  | .tokExpect g .. => some g
  | .align g .. => some g
  | .ckpt g .. => some g
  | .ckptOvl g .. => some g
  | .sethImm g .. => some g
  | .sethReg g .. => some g
  | .spat g .. => some g
  | .srd g .. => some g
  | .swr g .. => some g
  | .trap g .. => some g
  | .halt g => some g
  | .varith g .. => some g
  | .vlogic g .. => some g
  | .vcmp g .. => some g
  | .vsel g .. => some g
  | .vcvt g .. => some g
  | .vnarrow g .. => some g
  | .vsfu g .. => some g
  | .vrot g .. => some g
  | .vbc g .. => some g
  | .vred g .. => some g
  | .vld g .. => some g
  | .vst g .. => some g
  | .vgath g .. => some g
  | .vsplat g .. => some g
  | .vput g .. => some g
  | .vpop g .. => some g
  | .ksetBox g .. => some g
  | .ksetReg g .. => some g
  | .klog g .. => some g
  | .vloopImm g .. => some g
  | .vloopLc g .. => some g
  | .vgap g .. => some g
  | .vtkPost g .. => some g
  | .vtkExpect g .. => some g
  | .tcfg g .. => some g
  | .ldsw g .. => some g
  | .swap g => some g
  | .mma g .. => some g
  | .mzero g .. => some g
  | .mread g .. => some g
  | .mscl g .. => some g
  | .mloopImm g .. => some g
  | .mloopLc g .. => some g
  | .mgap g .. => some g
  | .mtkPost g .. => some g
  | .mtkExpect g .. => some g
  | .xbind g .. => some g
  | .xfree g .. => some g
  | .xmode g .. => some g
  | .xin g .. => some g
  | .xout g .. => some g
  | .xcmv g .. => some g
  | .xpref g .. => some g
  | .xcopy g .. => some g
  | .xded g .. => some g
  | .xpost g .. => some g
  | .xloopImm g .. => some g
  | .xloopLc g .. => some g
  | .xgap g .. => some g
  | .xtkPost g .. => some g
  | .xtkExpect g .. => some g
  | _ => none

/-- The word of an instruction holds its GAP operand in bits 26..25, and an event has no word. -/
def Statement (i : Instr) : Prop := (encode i).map (fun w => w.extractLsb' 25 2) = gap i

theorem nop g : Statement (.nop g) := congrArg some (word_gap _ _ _)
theorem alu g rd ra rb p fn : Statement (.alu g rd ra rb p fn) := congrArg some (word_gap _ _ _)
theorem muldiv g rd ra rb p fn : Statement (.muldiv g rd ra rb p fn) := congrArg some (word_gap _ _ _)
theorem alui g rd ra fn imm : Statement (.alui g rd ra fn imm) := congrArg some (word_gap _ _ _)
theorem lih g rd imm : Statement (.lih g rd imm) := congrArg some (word_gap _ _ _)
theorem pcmp g pd ra rb cond : Statement (.pcmp g pd ra rb cond) := congrArg some (word_gap _ _ _)
theorem plog g pd op pa pb : Statement (.plog g pd op pa pb) := congrArg some (word_gap _ _ _)
theorem ldc g rd ra size imm : Statement (.ldc g rd ra size imm) := congrArg some (word_gap _ _ _)
theorem ldp g rd ra size imm : Statement (.ldp g rd ra size imm) := congrArg some (word_gap _ _ _)
theorem stc g p rs ra wd imm : Statement (.stc g p rs ra wd imm) := congrArg some (word_gap _ _ _)
theorem stp g p rs ra wd imm : Statement (.stp g p rs ra wd imm) := congrArg some (word_gap _ _ _)
theorem wld g m ra wd acq scope imm : Statement (.wld g m ra wd acq scope imm) := congrArg some (word_gap _ _ _)
theorem wst g p rs ra wd rel scope imm : Statement (.wst g p rs ra wd rel scope imm) := congrArg some (word_gap _ _ _)
theorem mmv g rd m p : Statement (.mmv g rd m p) := congrArg some (word_gap _ _ _)
theorem amo g m ra rb op scope order dbl : Statement (.amo g m ra rb op scope order dbl) := congrArg some (word_gap _ _ _)
theorem amocas g m ra rb scope order dbl : Statement (.amocas g m ra rb scope order dbl) := congrArg some (word_gap _ _ _)
theorem amof g m ra rb op scope order dbl : Statement (.amof g m ra rb op scope order dbl) := congrArg some (word_gap _ _ _)
theorem b g ra rb cond off : Statement (.b g ra rb cond off) := congrArg some (word_gap _ _ _)
theorem j g off : Statement (.j g off) := congrArg some (word_gap _ _ _)
theorem jal g rd off : Statement (.jal g rd off) := congrArg some (word_gap _ _ _)
theorem jalr g rd ra imm : Statement (.jalr g rd ra imm) := congrArg some (word_gap _ _ _)
theorem loopImm g count n : Statement (.loopImm g count n) := congrArg some (word_gap _ _ _)
theorem loopLc g lc n : Statement (.loopLc g lc n) := congrArg some (word_gap _ _ _)
theorem lcsetReg g r lc : Statement (.lcsetReg g r lc) := congrArg some (word_gap _ _ _)
theorem lcsetImm g lc imm : Statement (.lcsetImm g lc imm) := congrArg some (word_gap _ _ _)
theorem gapl g f : Statement (.gapl g f) := congrArg some (word_gap _ _ _)
theorem fence g kind scope : Statement (.fence g kind scope) := congrArg some (word_gap _ _ _)
theorem wait g r kind tc imm : Statement (.wait g r kind tc imm) := congrArg some (word_gap _ _ _)
theorem bar g beacon : Statement (.bar g beacon) := congrArg some (word_gap _ _ _)
theorem tokPost g cell : Statement (.tokPost g cell) := congrArg some (word_gap _ _ _)
theorem tokExpect g cell d : Statement (.tokExpect g cell d) := congrArg some (word_gap _ _ _)
theorem align g k c : Statement (.align g k c) := congrArg some (word_gap _ _ _)
theorem ckpt g tab : Statement (.ckpt g tab) := congrArg some (word_gap _ _ _)
theorem ckptOvl g ovl tab : Statement (.ckptOvl g ovl tab) := congrArg some (word_gap _ _ _)
theorem sethImm g h tid : Statement (.sethImm g h tid) := congrArg some (word_gap _ _ _)
theorem sethReg g h ra : Statement (.sethReg g h ra) := congrArg some (word_gap _ _ _)
theorem spat g pat ra imm : Statement (.spat g pat ra imm) := congrArg some (word_gap _ _ _)
theorem srd g r num : Statement (.srd g r num) := congrArg some (word_gap _ _ _)
theorem swr g r num : Statement (.swr g r num) := congrArg some (word_gap _ _ _)
theorem trap g n : Statement (.trap g n) := congrArg some (word_gap _ _ _)
theorem halt g : Statement (.halt g) := congrArg some (word_gap _ _ _)
theorem varith g vd sa sb sc k fmt fn : Statement (.varith g vd sa sb sc k fmt fn) := congrArg some (word_gap _ _ _)
theorem vlogic g vd sa sb k fmt fn : Statement (.vlogic g vd sa sb k fmt fn) := congrArg some (word_gap _ _ _)
theorem vcmp g kd sa sb k fmt fn : Statement (.vcmp g kd sa sb k fmt fn) := congrArg some (word_gap _ _ _)
theorem vsel g vd sa sb k fmt : Statement (.vsel g vd sa sb k fmt) := congrArg some (word_gap _ _ _)
theorem vcvt g vd sa src dst rnd sat k pos : Statement (.vcvt g vd sa src dst rnd sat k pos) := congrArg some (word_gap _ _ _)
theorem vnarrow g vd a int dst rnd sat k pos : Statement (.vnarrow g vd a int dst rnd sat k pos) := congrArg some (word_gap _ _ _)
theorem vsfu g vd sa k fmt fn : Statement (.vsfu g vd sa k fmt fn) := congrArg some (word_gap _ _ _)
theorem vrot g vd sa axis amount k fmt : Statement (.vrot g vd sa axis amount k fmt) := congrArg some (word_gap _ _ _)
theorem vbc g vd sa axis amount k fmt : Statement (.vbc g vd sa axis amount k fmt) := congrArg some (word_gap _ _ _)
theorem vred g vd sa axis k fmt : Statement (.vred g vd sa axis k fmt) := congrArg some (word_gap _ _ _)
theorem vld g v h gy gx k sp : Statement (.vld g v h gy gx k sp) := congrArg some (word_gap _ _ _)
theorem vst g v h gy gx k sp : Statement (.vst g v h gy gx k sp) := congrArg some (word_gap _ _ _)
theorem vgath g v h gy gx k sp : Statement (.vgath g v h gy gx k sp) := congrArg some (word_gap _ _ _)
theorem vsplat g vd r k dbl : Statement (.vsplat g vd r k dbl) := congrArg some (word_gap _ _ _)
theorem vput g v port k : Statement (.vput g v port k) := congrArg some (word_gap _ _ _)
theorem vpop g v port k : Statement (.vpop g v port k) := congrArg some (word_gap _ _ _)
theorem ksetBox g kd ncol nrow : Statement (.ksetBox g kd ncol nrow) := congrArg some (word_gap _ _ _)
theorem ksetReg g kd r : Statement (.ksetReg g kd r) := congrArg some (word_gap _ _ _)
theorem klog g kd ka kb op : Statement (.klog g kd ka kb op) := congrArg some (word_gap _ _ _)
theorem vloopImm g count n : Statement (.vloopImm g count n) := congrArg some (word_gap _ _ _)
theorem vloopLc g lc n : Statement (.vloopLc g lc n) := congrArg some (word_gap _ _ _)
theorem vgap g f : Statement (.vgap g f) := congrArg some (word_gap _ _ _)
theorem vtkPost g cell : Statement (.vtkPost g cell) := congrArg some (word_gap _ _ _)
theorem vtkExpect g cell d : Statement (.vtkExpect g cell d) := congrArg some (word_gap _ _ _)
theorem tcfg g m n k fa fw : Statement (.tcfg g m n k fa fw) := congrArg some (word_gap _ _ _)
theorem ldsw g src gy gx : Statement (.ldsw g src gy gx) := congrArg some (word_gap _ _ _)
theorem swap g : Statement (.swap g) := congrArg some (word_gap _ _ _)
theorem mma g src ad acc gy gx ovr m : Statement (.mma g src ad acc gy gx ovr m) := congrArg some (word_gap _ _ _)
theorem mzero g ad : Statement (.mzero g ad) := congrArg some (word_gap _ _ _)
theorem mread g a port dst rnd sat first rows : Statement (.mread g a port dst rnd sat first rows) := congrArg some (word_gap _ _ _)
theorem mscl g h gy gx : Statement (.mscl g h gy gx) := congrArg some (word_gap _ _ _)
theorem mloopImm g count n : Statement (.mloopImm g count n) := congrArg some (word_gap _ _ _)
theorem mloopLc g lc n : Statement (.mloopLc g lc n) := congrArg some (word_gap _ _ _)
theorem mgap g f : Statement (.mgap g f) := congrArg some (word_gap _ _ _)
theorem mtkPost g cell : Statement (.mtkPost g cell) := congrArg some (word_gap _ _ _)
theorem mtkExpect g cell d : Statement (.mtkExpect g cell d) := congrArg some (word_gap _ _ _)
theorem xbind g port pat tc len gx gy out : Statement (.xbind g port pat tc len gx gy out) := congrArg some (word_gap _ _ _)
theorem xfree g port out : Statement (.xfree g port out) := congrArg some (word_gap _ _ _)
theorem xmode g idx : Statement (.xmode g idx) := congrArg some (word_gap _ _ _)
theorem xin g pat tc sp off : Statement (.xin g pat tc sp off) := congrArg some (word_gap _ _ _)
theorem xout g pat tc sp off : Statement (.xout g pat tc sp off) := congrArg some (word_gap _ _ _)
theorem xcmv g pat tc sp off : Statement (.xcmv g pat tc sp off) := congrArg some (word_gap _ _ _)
theorem xpref g src tc routine down : Statement (.xpref g src tc routine down) := congrArg some (word_gap _ _ _)
theorem xcopy g src dst tc routine flags : Statement (.xcopy g src dst tc routine flags) := congrArg some (word_gap _ _ _)
theorem xded g src dst tc routine flags : Statement (.xded g src dst tc routine flags) := congrArg some (word_gap _ _ _)
theorem xpost g tc : Statement (.xpost g tc) := congrArg some (word_gap _ _ _)
theorem xloopImm g count n : Statement (.xloopImm g count n) := congrArg some (word_gap _ _ _)
theorem xloopLc g lc n : Statement (.xloopLc g lc n) := congrArg some (word_gap _ _ _)
theorem xgap g f : Statement (.xgap g f) := congrArg some (word_gap _ _ _)
theorem xtkPost g cell : Statement (.xtkPost g cell) := congrArg some (word_gap _ _ _)
theorem xtkExpect g cell d : Statement (.xtkExpect g cell d) := congrArg some (word_gap _ _ _)
theorem qtailWrite q lane v : Statement (.qtailWrite q lane v) := rfl
theorem qbaseWrite q lane v : Statement (.qbaseWrite q lane v) := rfl
theorem qcfgWrite q lane v : Statement (.qcfgWrite q lane v) := rfl
theorem qstatOvrClear q lane v : Statement (.qstatOvrClear q lane v) := rfl
theorem w2baseWrite lane v : Statement (.w2baseWrite lane v) := rfl
theorem w2discClear lane v : Statement (.w2discClear lane v) := rfl
theorem registerWrite off lane v : Statement (.registerWrite off lane v) := rfl
theorem bar0UnsupportedAccess read off size : Statement (.bar0UnsupportedAccess read off size) := rfl
theorem bar2Read off len : Statement (.bar2Read off len) := rfl
theorem bar2Write off bytes : Statement (.bar2Write off bytes) := rfl
theorem illegalCommand q : Statement (.illegalCommand q) := rfl
theorem launch q : Statement (.launch q) := rfl
theorem map q frames : Statement (.map q frames) := rfl
theorem unmap q : Statement (.unmap q) := rfl
theorem migrate q frames : Statement (.migrate q frames) := rfl
theorem copyin q : Statement (.copyin q) := rfl
theorem copyout q : Statement (.copyout q) := rfl
theorem signal q : Statement (.signal q) := rfl
theorem abort q : Statement (.abort q) := rfl
theorem quote q : Statement (.quote q) := rfl
theorem rstepWin q : Statement (.rstepWin q) := rfl
theorem rstepSlot q : Statement (.rstepSlot q) := rfl
theorem rstepWrite q : Statement (.rstepWrite q) := rfl
theorem watch q : Statement (.watch q) := rfl
theorem trace q : Statement (.trace q) := rfl
theorem account q : Statement (.account q) := rfl
theorem resume q : Statement (.resume q) := rfl
theorem commandStart seq frames : Statement (.commandStart seq frames) := rfl
theorem launchEnqueue seq : Statement (.launchEnqueue seq) := rfl
theorem commandEnd seq : Statement (.commandEnd seq) := rfl
theorem journalPersist : Statement (.journalPersist) := rfl
theorem moduleReset : Statement (.moduleReset) := rfl
theorem bootPhase kheap : Statement (.bootPhase kheap) := rfl
theorem routineLoad img : Statement (.routineLoad img) := rfl
theorem quoteRequestMgmt nonce : Statement (.quoteRequestMgmt nonce) := rfl
theorem clockCorrection offset : Statement (.clockCorrection offset) := rfl
theorem keeperStartCommand : Statement (.keeperStartCommand) := rfl
theorem keeperStopCommand : Statement (.keeperStopCommand) := rfl
theorem temperatureMeasurement t4k t40k : Statement (.temperatureMeasurement t4k t40k) := rfl
theorem soakTimeout : Statement (.soakTimeout) := rfl
theorem holdTimeout : Statement (.holdTimeout) := rfl
theorem calibrationDone passed data weights : Statement (.calibrationDone passed data weights) := rfl
theorem sparingChange kind logical physical : Statement (.sparingChange kind logical physical) := rfl
theorem keeperRestart : Statement (.keeperRestart) := rfl
theorem keeperHandlerFetchFault keeper : Statement (.keeperHandlerFetchFault keeper) := rfl
theorem dretexFlitReceive port flit : Statement (.dretexFlitReceive port flit) := rfl
theorem dretexReplayTimeout port seq : Statement (.dretexReplayTimeout port seq) := rfl
theorem dretexLaneFailure port : Statement (.dretexLaneFailure port) := rfl
theorem dretexRetrainComplete port : Statement (.dretexRetrainComplete port) := rfl
theorem launchAging : Statement (.launchAging) := rfl
theorem undoRingAllocate frames : Statement (.undoRingAllocate frames) := rfl
theorem launchPlace : Statement (.launchPlace) := rfl
theorem codeLoad k bases frames : Statement (.codeLoad k bases frames) := rfl
theorem contextStart k : Statement (.contextStart k) := rfl
theorem serialIterationStart k : Statement (.serialIterationStart k) := rfl
theorem haltRetire k j : Statement (.haltRetire k j) := rfl
theorem resultLanding k j : Statement (.resultLanding k j) := rfl
theorem wheelPoint k : Statement (.wheelPoint k) := rfl
theorem heatEvaluation : Statement (.heatEvaluation) := rfl
theorem barrierRelease k beacon inst : Statement (.barrierRelease k beacon inst) := rfl
theorem systemBarrierArrivals k beacon : Statement (.systemBarrierArrivals k beacon) := rfl
theorem checkpointHoldEnd k : Statement (.checkpointHoldEnd k) := rfl
theorem checkpointOverdue k : Statement (.checkpointOverdue k) := rfl
theorem thawWrite k w : Statement (.thawWrite k w) := rfl
theorem freezeAckWrite k v : Statement (.freezeAckWrite k v) := rfl
theorem contextResume k : Statement (.contextResume k) := rfl
theorem serviceTrapService k : Statement (.serviceTrapService k) := rfl
theorem preemptSave k : Statement (.preemptSave k) := rfl
theorem restore asid : Statement (.restore asid) := rfl
theorem dumpClose k : Statement (.dumpClose k) := rfl
theorem retainSpill k : Statement (.retainSpill k) := rfl
theorem softError k j : Statement (.softError k j) := rfl
theorem warmAccessPerform k id : Statement (.warmAccessPerform k id) := rfl
theorem frconsWrite ring w : Statement (.frconsWrite ring w) := rfl
theorem frbaseWrite ring v : Statement (.frbaseWrite ring v) := rfl
theorem lightFaultService ring frames : Statement (.lightFaultService ring frames) := rfl
theorem tlbinvWrite v : Statement (.tlbinvWrite v) := rfl
theorem markerRetire source : Statement (.markerRetire source) := rfl
theorem moveComplete asid vpn : Statement (.moveComplete asid vpn) := rfl
theorem moveError asid vpn err : Statement (.moveError asid vpn err) := rfl
theorem eccUncorrectable frame : Statement (.eccUncorrectable frame) := rfl
theorem xprefPost k id : Statement (.xprefPost k id) := rfl
theorem inboundRowIssue k j port : Statement (.inboundRowIssue k j port) := rfl
theorem inboundRowReady k j port : Statement (.inboundRowReady k j port) := rfl
theorem outboundRowApply k id : Statement (.outboundRowApply k id) := rfl
theorem xinGranuleLanding k id : Statement (.xinGranuleLanding k id) := rfl
theorem xoutApply k id : Statement (.xoutApply k id) := rfl
theorem meshLanding k id : Statement (.meshLanding k id) := rfl
theorem mailboxLanding k id : Statement (.mailboxLanding k id) := rfl
theorem systemResultArrival id value seen : Statement (.systemResultArrival id value seen) := rfl
theorem remoteApply id : Statement (.remoteApply id) := rfl
theorem systemAcknowledge id : Statement (.systemAcknowledge id) := rfl
theorem copyCommandStart k id : Statement (.copyCommandStart k id) := rfl
theorem copyCommandPost k id : Statement (.copyCommandPost k id) := rfl
theorem routineComplete k id : Statement (.routineComplete k id) := rfl
theorem dedupRemapService k id : Statement (.dedupRemapService k id) := rfl
theorem watchImpreciseFreeze k : Statement (.watchImpreciseFreeze k) := rfl
theorem nvmeDriveLost drive : Statement (.nvmeDriveLost drive) := rfl
theorem ptpLock locked : Statement (.ptpLock locked) := rfl

end GapField

end Sys2Proof.Laws
end

