-- ==== Sys2Proof/Tests/Slice0.lean ====
section
/-! SUPPORT. The model's own tests: instructions that break a limit, words written out from the tables of the manual, results worked by
hand, and, for every statement that has hypotheses, states and operands that meet them. -/

open Sys2Proof Sys2Proof.Machine

-- one test after another: elaborated side by side, they ask for more memory than a check has
set_option Elab.async false

/-! Limits (R275, R280-R288): each instruction keeps all of its limits but one. -/

theorem test_limits_scalar :
    (Instr.alu 0 1 2 3 0 .clz).wf = false ∧ (Instr.alu 0 1 2 0 0 .clz).wf = true ∧ (Instr.alui 0 1 2 .slli 64).wf = false
      ∧ (Instr.alui 0 1 2 .slli 63).wf = true ∧ (Instr.loopImm 0 0 0).wf = false ∧ (Instr.loopLc 0 3 0).wf = false
      ∧ (Instr.vloopImm 0 0 0).wf = false ∧ (Instr.mloopLc 0 0 0).wf = false ∧ (Instr.xloopImm 0 0 0).wf = false
      ∧ (Instr.align 0 13 0).wf = false ∧ (Instr.align 0 12 4095).wf = true ∧ (Instr.align 0 3 8).wf = false := by decide

theorem test_limits_vector :
    (Instr.varith 0 1 2 3 1 0 .f32 .add).wf = false ∧ (Instr.varith 0 1 2 3 1 0 .f32 .fma).wf = true
      ∧ (Instr.varith 0 1 2 3 0 0 .f32 .neg).wf = false ∧ (Instr.vlogic 0 1 2 3 0 .f32 .shl).wf = false
      ∧ (Instr.vlogic 0 1 2 3 0 .f32 .xor).wf = true ∧ (Instr.vcmp 0 1 2 3 0 .f32 .ltu).wf = false
      ∧ (Instr.vcmp 0 1 2 3 0 .int32 .uno).wf = false ∧ (Instr.vcvt 0 1 2 .nq4 .f32 .rne false 0 0).wf = false
      ∧ (Instr.vcvt 0 1 2 .f32 .int64 .rne false 0 0).wf = false ∧ (Instr.vcvt 0 1 2 .f32 .int8 .rne false 0 4).wf = false
      ∧ (Instr.vcvt 0 1 2 .f32 .int8 .rne false 0 3).wf = true := by decide

theorem test_limits_rows :
    (Instr.vnarrow 0 1 0 true .int64 .rne false 0 0).wf = false ∧ (Instr.vnarrow 0 1 0 false .f64 .rne false 0 2).wf = false
      ∧ (Instr.vnarrow 0 1 0 false .f64 .rne false 0 1).wf = true ∧ (Instr.vsfu 0 1 2 0 .f64 .rcp).wf = false
      ∧ (Instr.vrot 0 1 2 .col 16 0 .f32).wf = false ∧ (Instr.vrot 0 1 2 .row 63 0 .f32).wf = true
      ∧ (Instr.vbc 0 1 2 .col 16 0 .f32).wf = false ∧ (Instr.vred 0 1 2 .row 0 .f16x2).wf = false
      ∧ (Instr.ksetBox 0 1 65 16).wf = false ∧ (Instr.ksetBox 0 1 64 17).wf = false ∧ (Instr.ksetBox 0 1 64 16).wf = true := by decide

theorem test_limits_matrix_crossing :
    (Instr.ldsw 0 7 1 0).wf = false ∧ (Instr.ldsw 0 8 1 0).wf = true ∧ (Instr.mma 0 0 0 false 0 1 false 0).wf = false
      ∧ (Instr.mma 0 8 0 false 0 0 false 1).wf = false ∧ (Instr.mma 0 8 3 false 0 0 true 16).wf = false
      ∧ (Instr.mma 0 8 3 false 0 0 true 15).wf = true ∧ (Instr.mread 0 0 0 .f64 .rne false 0 0).wf = false
      ∧ (Instr.mread 0 0 0 .f32 .rne false 8 8).wf = false ∧ (Instr.mread 0 0 0 .f32 .rne false 8 7).wf = true
      ∧ (Instr.xbind 0 4 0 0 false 0 0 true).wf = false ∧ (Instr.xbind 0 3 0 0 true 0 0 true).wf = false
      ∧ (Instr.xbind 0 4 0 0 true 0 0 false).wf = true ∧ (Instr.xfree 0 4 true).wf = false := by decide

/-! Words, field by field from the tables (R274-R289): MAJ, GAP, then the fields of the format. -/

theorem test_words_alu :
    decode .s (0b00001#5 ++ 0b01#2 ++ 0b00011#5 ++ 0b00100#5 ++ 0b00101#5 ++ 0b110#3 ++ 0b0000100#7) = some (.alu 1 3 4 5 6 .xor)
      ∧ decode .s (0b00010#5 ++ 0b00#2 ++ 0b00001#5 ++ 0b00010#5 ++ 0b00011#5 ++ 0b000#3 ++ 0b0000101#7) = some (.muldiv 0 1 2 3 0 .rem)
      ∧ decode .s (0b00011#5 ++ 0b10#2 ++ 0b11111#5 ++ 0b00000#5 ++ 0b111#3 ++ 0b100000000001#12) = some (.alui 2 31 0 .slti 0x801)
      ∧ decode .s (0b00100#5 ++ 0b11#2 ++ 0b00111#5 ++ 0b10000000000000000011#20) = some (.lih 3 7 0x80003)
      ∧ decode .s (0b00101#5 ++ 0b00#2 ++ 0b010#3 ++ 0b00001#5 ++ 0b00010#5 ++ 0b101#3 ++ 0b000000000#9) = some (.pcmp 0 2 1 2 .geu)
      ∧ decode .s (0b00110#5 ++ 0b00#2 ++ 0b011#3 ++ 0b0000000000#10 ++ 0b100#3 ++ 0b001#3 ++ 0b010#3 ++ 0b000#3) = some (.plog 0 3 .orn 1 2) := by
  decide +kernel

theorem test_words_memory :
    decode .s (0b00111#5 ++ 0b00#2 ++ 0b00101#5 ++ 0b00010#5 ++ 0b011#3 ++ 0b000000000110#12) = some (.ldc 0 5 2 .hu 6)
      ∧ decode .s (0b01000#5 ++ 0b00#2 ++ 0b00101#5 ++ 0b00010#5 ++ 0b110#3 ++ 0b111111111000#12) = some (.ldp 0 5 2 .d 0xFF8)
      ∧ decode .s (0b01001#5 ++ 0b00#2 ++ 0b001#3 ++ 0b00110#5 ++ 0b00111#5 ++ 0b10#2 ++ 0b0000000011#10) = some (.stc 0 1 6 7 .w 3)
      ∧ decode .s (0b01010#5 ++ 0b00#2 ++ 0b000#3 ++ 0b00110#5 ++ 0b00111#5 ++ 0b00#2 ++ 0b1111111111#10) = some (.stp 0 0 6 7 .b 0x3FF)
      ∧ decode .s (0b01011#5 ++ 0b00#2 ++ 0b001#3 ++ 0b01000#5 ++ 0b11#2 ++ 0b01#2 ++ 0b10#2 ++ 0b00000000010#11)
        = some (.wld 0 1 8 .d true .mod 2)
      ∧ decode .s (0b01100#5 ++ 0b00#2 ++ 0b010#3 ++ 0b01001#5 ++ 0b01010#5 ++ 0b01#2 ++ 0b10#2 ++ 0b11#2 ++ 0b000101#6)
        = some (.wst 0 2 9 10 .h true .sys 5)
      ∧ decode .s (0b01101#5 ++ 0b00#2 ++ 0b00100#5 ++ 0b00011#5 ++ 0b00000#5 ++ 0b101#3 ++ 0b0000000#7) = some (.mmv 0 4 3 5) := by
  decide +kernel

theorem test_words_atomics :
    decode .s (0b01110#5 ++ 0b00#2 ++ 0b00111#5 ++ 0b00001#5 ++ 0b00010#5 ++ 0b0101#4 ++ 0b10#2 ++ 0b11#2 ++ 0b11#2)
        = some (.amo 0 7 1 2 .max .mod .ar true)
      ∧ decode .s (0b01111#5 ++ 0b00#2 ++ 0b00001#5 ++ 0b00010#5 ++ 0b00110#5 ++ 0b0000#4 ++ 0b11#2 ++ 0b01#2 ++ 0b10#2)
        = some (.amocas 0 1 2 3 .sys .acq false)
      ∧ decode .s (0b10000#5 ++ 0b00#2 ++ 0b00001#5 ++ 0b00010#5 ++ 0b00011#5 ++ 0b0010#4 ++ 0b00#2 ++ 0b10#2 ++ 0b10#2)
        = some (.amof 0 1 2 3 .fmax .core .rel false) := by
  decide +kernel

theorem test_words_transfers :
    decode .s (0b10001#5 ++ 0b00#2 ++ 0b00001#5 ++ 0b00010#5 ++ 0b010#3 ++ 0b111111111110#12) = some (.b 0 1 2 .lt 0xFFE)
      ∧ decode .s (0b10010#5 ++ 0b00#2 ++ 0b00000#5 ++ 0b00000000000000010000#20) = some (.j 0 16)
      ∧ decode .s (0b10011#5 ++ 0b00#2 ++ 0b00001#5 ++ 0b11111111111111111111#20) = some (.jal 0 1 0xFFFFF)
      ∧ decode .s (0b10100#5 ++ 0b00#2 ++ 0b00000#5 ++ 0b00001#5 ++ 0b000#3 ++ 0b000000000100#12) = some (.jalr 0 0 1 4)
      ∧ decode .s (0b10101#5 ++ 0b00#2 ++ 0b1#1 ++ 0b000000000011#12 ++ 0b000000000101#12) = some (.loopImm 0 3 5)
      ∧ decode .s (0b10101#5 ++ 0b00#2 ++ 0b0#1 ++ 0b10#2 ++ 0b0000000000#10 ++ 0b000000000101#12) = some (.loopLc 0 2 5)
      ∧ decode .s (0b10110#5 ++ 0b00#2 ++ 0b01001#5 ++ 0b0000#4 ++ 0b0011#4 ++ 0b000000000000#12) = some (.lcsetReg 0 9 3)
      ∧ decode .s (0b10110#5 ++ 0b00#2 ++ 0b00000#5 ++ 0b0001#4 ++ 0b0001#4 ++ 0b000000001001#12) = some (.lcsetImm 0 1 9)
      ∧ decode .s (0b10111#5 ++ 0b00#2 ++ 0b0000000000000000000000111#25) = some (.gapl 0 7) := by
  decide +kernel

theorem test_words_sync :
    decode .s (0b11000#5 ++ 0b00#2 ++ 0b00000#5 ++ 0b0001#4 ++ 0b0010#4 ++ 0b000000000000#12) = some (.fence 0 .rel .mod)
      ∧ decode .s (0b11001#5 ++ 0b00#2 ++ 0b00011#5 ++ 0b0001#4 ++ 0b0101#4 ++ 0b000000000010#12) = some (.wait 0 3 .dwl 5 2)
      ∧ decode .s (0b11010#5 ++ 0b00#2 ++ 0b00000#5 ++ 0b0000#4 ++ 0b0110#4 ++ 0b000000000000#12) = some (.bar 0 6)
      ∧ decode .s (0b11011#5 ++ 0b00#2 ++ 0b00000#5 ++ 0b0000#4 ++ 0b0010#4 ++ 0b000000000000#12) = some (.tokPost 0 2)
      ∧ decode .s (0b11011#5 ++ 0b00#2 ++ 0b00000#5 ++ 0b0001#4 ++ 0b0010#4 ++ 0b000000001000#12) = some (.tokExpect 0 2 8)
      ∧ decode .s (0b11100#5 ++ 0b00#2 ++ 0b00000#5 ++ 0b0000#4 ++ 0b0110#4 ++ 0b000000000101#12) = some (.align 0 6 5)
      ∧ decode .s (0b11101#5 ++ 0b00#2 ++ 0b00000#5 ++ 0b0000#4 ++ 0b0000#4 ++ 0b000000000001#12) = some (.ckpt 0 1)
      ∧ decode .s (0b11101#5 ++ 0b00#2 ++ 0b00000#5 ++ 0b0001#4 ++ 0b1111#4 ++ 0b000000000001#12) = some (.ckptOvl 0 15 1) := by
  decide +kernel

theorem test_words_system :
    decode .s (0b11110#5 ++ 0b00#2 ++ 0b0011#4 ++ 0b0000000000001001#16 ++ 0b000#3 ++ 0b00#2) = some (.sethImm 0 3 9)
      ∧ decode .s (0b11110#5 ++ 0b00#2 ++ 0b0011#4 ++ 0b01000#5 ++ 0b00000000000000#14 ++ 0b01#2) = some (.sethReg 0 3 8)
      ∧ decode .s (0b11110#5 ++ 0b00#2 ++ 0b100001#6 ++ 0b00100#5 ++ 0b111111111111#12 ++ 0b10#2) = some (.spat 0 33 4 0xFFF)
      ∧ decode .s (0b11111#5 ++ 0b00#2 ++ 0b00101#5 ++ 0b0000#4 ++ 0b0000#4 ++ 0b000000000001#12) = some (.srd 0 5 1)
      ∧ decode .s (0b11111#5 ++ 0b00#2 ++ 0b00101#5 ++ 0b0001#4 ++ 0b0000#4 ++ 0b000000100000#12) = some (.swr 0 5 0x20)
      ∧ decode .s (0b11111#5 ++ 0b00#2 ++ 0b00000#5 ++ 0b0010#4 ++ 0b0000#4 ++ 0b000000000111#12) = some (.trap 0 7)
      ∧ decode .s (0b11111#5 ++ 0b00#2 ++ 0b00000#5 ++ 0b0011#4 ++ 0b0000#4 ++ 0b000000000000#12) = some (.halt 0) := by
  decide +kernel

theorem test_words_vector :
    decode .v (0b00001#5 ++ 0b00#2 ++ 0b010#3 ++ 0b0001#4 ++ 0b1000#4 ++ 0b0000#4 ++ 0b011#3 ++ 0b000#3 ++ 0b0000#4)
        = some (.varith 0 2 1 8 0 3 .f32 .add)
      ∧ decode .v (0b00010#5 ++ 0b00#2 ++ 0b010#3 ++ 0b0001#4 ++ 0b0011#4 ++ 0b0000#4 ++ 0b001#3 ++ 0b101#3 ++ 0b0011#4)
        = some (.vlogic 0 2 1 3 1 .int16x2 .shl)
      ∧ decode .v (0b00011#5 ++ 0b00#2 ++ 0b101#3 ++ 0b0001#4 ++ 0b0011#4 ++ 0b0000#4 ++ 0b001#3 ++ 0b010#3 ++ 0b1000#4)
        = some (.vcmp 0 5 1 3 1 .f64 .uno)
      ∧ decode .v (0b00100#5 ++ 0b00#2 ++ 0b010#3 ++ 0b1111#4 ++ 0b0011#4 ++ 0b0000#4 ++ 0b001#3 ++ 0b001#3 ++ 0b0000#4)
        = some (.vsel 0 2 15 3 1 .int32)
      ∧ decode .v (0b00101#5 ++ 0b00#2 ++ 0b010#3 ++ 0b0001#4 ++ 0b1011#4 ++ 0b0100#4 ++ 0b100#3 ++ 0b1#1 ++ 0b001#3 ++ 0b011#3)
        = some (.vcvt 0 2 1 .f32 .int8 .rdi true 1 3)
      ∧ decode .v (0b00110#5 ++ 0b00#2 ++ 0b010#3 ++ 0b0011#4 ++ 0b1110#4 ++ 0b1100#4 ++ 0b001#3 ++ 0b0#1 ++ 0b001#3 ++ 0b000#3)
        = some (.vnarrow 0 2 3 true .int32 .rtz false 1 0)
      ∧ decode .v (0b00111#5 ++ 0b00#2 ++ 0b010#3 ++ 0b0001#4 ++ 0b0000#4 ++ 0b0000#4 ++ 0b001#3 ++ 0b011#3 ++ 0b0010#4)
        = some (.vsfu 0 2 1 1 .f16x2 .ex2)
      ∧ decode .v (0b01000#5 ++ 0b00#2 ++ 0b010#3 ++ 0b0001#4 ++ 0b1#1 ++ 0b001111#6 ++ 0b001#3 ++ 0b001#3 ++ 0b00000#5)
        = some (.vrot 0 2 1 .col 15 1 .int32)
      ∧ decode .v (0b01001#5 ++ 0b00#2 ++ 0b010#3 ++ 0b0001#4 ++ 0b0#1 ++ 0b111111#6 ++ 0b001#3 ++ 0b000#3 ++ 0b00000#5)
        = some (.vbc 0 2 1 .row 63 1 .f32)
      ∧ decode .v (0b01010#5 ++ 0b00#2 ++ 0b010#3 ++ 0b0001#4 ++ 0b1#1 ++ 0b000000#6 ++ 0b001#3 ++ 0b010#3 ++ 0b00000#5)
        = some (.vred 0 2 1 .col 1 .f64) := by
  decide +kernel

theorem test_words_vector_memory :
    decode .v (0b01011#5 ++ 0b00#2 ++ 0b010#3 ++ 0b0011#4 ++ 0b00100#5 ++ 0b00101#5 ++ 0b001#3 ++ 0b00#2 ++ 0b000#3) = some (.vld 0 2 3 4 5 1 .cold)
      ∧ decode .v (0b01100#5 ++ 0b00#2 ++ 0b010#3 ++ 0b0011#4 ++ 0b00100#5 ++ 0b00101#5 ++ 0b001#3 ++ 0b00#2 ++ 0b001#3) = some (.vst 0 2 3 4 5 1 .pool)
      ∧ decode .v (0b01101#5 ++ 0b00#2 ++ 0b010#3 ++ 0b0011#4 ++ 0b00100#5 ++ 0b00101#5 ++ 0b001#3 ++ 0b00#2 ++ 0b000#3) = some (.vgath 0 2 3 4 5 1 .cold)
      ∧ decode .v (0b01110#5 ++ 0b00#2 ++ 0b010#3 ++ 0b000000000#9 ++ 0b00101#5 ++ 0b001#3 ++ 0b00#2 ++ 0b001#3) = some (.vsplat 0 2 5 1 true)
      ∧ decode .v (0b01111#5 ++ 0b00#2 ++ 0b010#3 ++ 0b0011#4 ++ 0b0000000000#10 ++ 0b001#3 ++ 0b00000#5) = some (.vput 0 2 3 1)
      ∧ decode .v (0b10000#5 ++ 0b00#2 ++ 0b010#3 ++ 0b0111#4 ++ 0b0000000000#10 ++ 0b001#3 ++ 0b00000#5) = some (.vpop 0 2 7 1)
      ∧ decode .v (0b10001#5 ++ 0b00#2 ++ 0b010#3 ++ 0b1000000#7 ++ 0b10000#5 ++ 0b0000000#7 ++ 0b000#3) = some (.ksetBox 0 2 64 16)
      ∧ decode .v (0b10001#5 ++ 0b00#2 ++ 0b010#3 ++ 0b000000000#9 ++ 0b00101#5 ++ 0b00000#5 ++ 0b001#3) = some (.ksetReg 0 2 5)
      ∧ decode .v (0b10010#5 ++ 0b00#2 ++ 0b010#3 ++ 0b0011#4 ++ 0b0100#4 ++ 0b0000000000#10 ++ 0b0111#4) = some (.klog 0 2 3 4 .xnor) := by
  decide +kernel

theorem test_words_matrix :
    decode .m (0b00001#5 ++ 0b00#2 ++ 0b001111#6 ++ 0b01#2 ++ 0b11#2 ++ 0b0100#4 ++ 0b0000#4 ++ 0b0000000#7) = some (.tcfg 0 15 1 3 4 0)
      ∧ decode .m (0b00010#5 ++ 0b00#2 ++ 0b1010#4 ++ 0b00100#5 ++ 0b00101#5 ++ 0b00000000000#11) = some (.ldsw 0 10 4 5)
      ∧ decode .m (0b00011#5 ++ 0b00#2 ++ 0b0000000000000000000000000#25) = some (.swap 0)
      ∧ decode .m (0b00100#5 ++ 0b00#2 ++ 0b1010#4 ++ 0b10#2 ++ 0b1#1 ++ 0b00100#5 ++ 0b00101#5 ++ 0b1#1 ++ 0b000111#6 ++ 0b0#1)
        = some (.mma 0 10 2 true 4 5 true 7)
      ∧ decode .m (0b00101#5 ++ 0b00#2 ++ 0b0000#4 ++ 0b11#2 ++ 0b0000000000000000000#19) = some (.mzero 0 3)
      ∧ decode .m (0b00110#5 ++ 0b00#2 ++ 0b01#2 ++ 0b10#2 ++ 0b1011#4 ++ 0b011#3 ++ 0b0#1 ++ 0b1000#4 ++ 0b0111#4 ++ 0b00000#5)
        = some (.mread 0 1 2 .f32 .rup false 8 7)
      ∧ decode .m (0b00111#5 ++ 0b00#2 ++ 0b1101#4 ++ 0b00100#5 ++ 0b00101#5 ++ 0b00000000000#11) = some (.mscl 0 5 4 5) := by
  decide +kernel

theorem test_words_crossing :
    decode .x (0b00001#5 ++ 0b00#2 ++ 0b101#3 ++ 0b000011#6 ++ 0b010#3 ++ 0b1#1 ++ 0b00100#5 ++ 0b00101#5 ++ 0b0#1 ++ 0b0#1)
        = some (.xbind 0 5 3 2 true 4 5 false)
      ∧ decode .x (0b00010#5 ++ 0b00#2 ++ 0b011#3 ++ 0b00000000000000000000#20 ++ 0b1#1 ++ 0b0#1) = some (.xfree 0 3 true)
      ∧ decode .x (0b00011#5 ++ 0b00#2 ++ 0b0000#4 ++ 0b0000000000000#13 ++ 0b00000111#8) = some (.xmode 0 7)
      ∧ decode .x (0b00100#5 ++ 0b00#2 ++ 0b000011#6 ++ 0b010#3 ++ 0b1#1 ++ 0b000000000000001#15) = some (.xin 0 3 2 .pool 1)
      ∧ decode .x (0b00101#5 ++ 0b00#2 ++ 0b000011#6 ++ 0b010#3 ++ 0b0#1 ++ 0b000000000000001#15) = some (.xout 0 3 2 .cold 1)
      ∧ decode .x (0b00110#5 ++ 0b00#2 ++ 0b000011#6 ++ 0b010#3 ++ 0b0#1 ++ 0b100000000000000#15) = some (.xcmv 0 3 2 .cold 0x4000)
      ∧ decode .x (0b00111#5 ++ 0b00#2 ++ 0b000011#6 ++ 0b000000#6 ++ 0b010#3 ++ 0b000101#6 ++ 0b0001#4) = some (.xpref 0 3 2 5 true)
      ∧ decode .x (0b01000#5 ++ 0b00#2 ++ 0b000011#6 ++ 0b000100#6 ++ 0b010#3 ++ 0b000001#6 ++ 0b0110#4) = some (.xcopy 0 3 4 2 1 6)
      ∧ decode .x (0b01001#5 ++ 0b00#2 ++ 0b000011#6 ++ 0b000100#6 ++ 0b010#3 ++ 0b000011#6 ++ 0b0001#4) = some (.xded 0 3 4 2 3 1)
      ∧ decode .x (0b01010#5 ++ 0b00#2 ++ 0b000000#6 ++ 0b010#3 ++ 0b0000000000000000#16) = some (.xpost 0 2) := by
  decide +kernel

/-- The loop, gap and token words of V, M and X (R289). -/
theorem test_words_forms :
    decode .v (0b10011#5 ++ 0b00#2 ++ 0b1#1 ++ 0b000000000011#12 ++ 0b000000000101#12) = some (.vloopImm 0 3 5)
      ∧ decode .m (0b01000#5 ++ 0b00#2 ++ 0b1#1 ++ 0b000000000011#12 ++ 0b000000000101#12) = some (.mloopImm 0 3 5)
      ∧ decode .x (0b01011#5 ++ 0b00#2 ++ 0b1#1 ++ 0b000000000011#12 ++ 0b000000000101#12) = some (.xloopImm 0 3 5)
      ∧ decode .v (0b10011#5 ++ 0b00#2 ++ 0b0#1 ++ 0b01#2 ++ 0b0000000000#10 ++ 0b000000000101#12) = some (.vloopLc 0 1 5)
      ∧ decode .m (0b01000#5 ++ 0b00#2 ++ 0b0#1 ++ 0b01#2 ++ 0b0000000000#10 ++ 0b000000000101#12) = some (.mloopLc 0 1 5)
      ∧ decode .x (0b01011#5 ++ 0b00#2 ++ 0b0#1 ++ 0b01#2 ++ 0b0000000000#10 ++ 0b000000000101#12) = some (.xloopLc 0 1 5)
      ∧ decode .v (0b10100#5 ++ 0b00#2 ++ 0b1000000000000000000000000#25) = some (.vgap 0 0x1000000)
      ∧ decode .m (0b01001#5 ++ 0b00#2 ++ 0b0000000000000000000000001#25) = some (.mgap 0 1)
      ∧ decode .x (0b01100#5 ++ 0b00#2 ++ 0b0000000000000000000000001#25) = some (.xgap 0 1)
      ∧ decode .v (0b10101#5 ++ 0b00#2 ++ 0b00000#5 ++ 0b0000#4 ++ 0b0111#4 ++ 0b000000000000#12) = some (.vtkPost 0 7)
      ∧ decode .m (0b01010#5 ++ 0b00#2 ++ 0b00000#5 ++ 0b0000#4 ++ 0b0111#4 ++ 0b000000000000#12) = some (.mtkPost 0 7)
      ∧ decode .x (0b01101#5 ++ 0b00#2 ++ 0b00000#5 ++ 0b0000#4 ++ 0b0111#4 ++ 0b000000000000#12) = some (.xtkPost 0 7)
      ∧ decode .v (0b10101#5 ++ 0b00#2 ++ 0b00000#5 ++ 0b0001#4 ++ 0b0111#4 ++ 0b000000000011#12) = some (.vtkExpect 0 7 3)
      ∧ decode .m (0b01010#5 ++ 0b00#2 ++ 0b00000#5 ++ 0b0001#4 ++ 0b0111#4 ++ 0b000000000011#12) = some (.mtkExpect 0 7 3)
      ∧ decode .x (0b01101#5 ++ 0b00#2 ++ 0b00000#5 ++ 0b0001#4 ++ 0b0111#4 ++ 0b000000000011#12) = some (.xtkExpect 0 7 3) := by
  decide +kernel

/-- The worked encodings of the manual (17, after R289). -/
theorem test_words_worked :
    decode .s 0x5851B002#32 = some (.wld 0 1 8 .d true .mod 2) ∧ decode .v 0x08860180#32 = some (.varith 0 2 1 8 0 3 .f32 .add)
      ∧ decode .s 0x08000013#32 = none ∧ decode .v 0xB0000000#32 = none ∧ decode .s 0xB0000000#32 = some (.lcsetReg 0 0 0)
      ∧ decode .s 0xB8000000#32 = some (.gapl 0 0) := by decide +kernel

/-! A context of one core, in which a word issues. -/

/-- The launch record of `benchRecord` with more fields: byte offset and value (R94). -/
def testRecord (l : List (Nat × Nat)) : BitVec 4096 :=
  BitVec.ofNat 4096 (l.foldl (fun n q => n + q.2 * 2 ^ (8 * q.1)) benchRecord.toNat)

def testCore : Core := Core.blank 0 0 false

def testCtx (l : List (Nat × Nat)) : Ctx := { Ctx.new 0 1 (testRecord l) 0 [] with run := .running, cores := [testCore] }

/-- The core `c` as core 0 of the context `x` in slot 0. -/
def seat (x : Ctx) (c : Core) : Ctx := { x with slot := 0, cores := [{ c with idx := 0 }] }

def testState (x : Ctx) (c : Core) (st : Stream) : State :=
  { State.reset with now := { Mach.reset with ctxs := [seat x c], keepers.routines := [{ num := 0, s0 := 0, w := 1, fmin := 0 }] }, cur := some { k := 0, j := 0, st, word := 0 } }

/-- Some state in which a word of stream `st` issues meets `P`. -/
def Meets (x : Ctx) (c : Core) (st : Stream) (P : Ctx → Core → Prop) : Prop :=
  ∃ s i y d, s.Issuing i y d ∧ i.st = st ∧ P y d ∧ s = testState x c st

theorem meets {x : Ctx} {c : Core} {st : Stream} {P : Ctx → Core → Prop} (h : P (seat x c) { c with idx := 0 }) : Meets x c st P :=
  ⟨testState x c st, { k := 0, j := 0, st, word := 0 }, seat x c, { c with idx := 0 }, ⟨rfl, rfl, rfl, rfl⟩, rfl, h, rfl⟩

/-- What the word `ins` leaves in the pending results of the core. -/
def landings (x : Ctx) (c : Core) (st : Stream) (ins : Instr) : List (Dest × Nat × Nat) :=
  match exec ins (testState x c st) with
  | .next t => ((t.coreOf 0 0).map fun d => d.pend.map fun p => (p.dst, p.land, p.value.toNat)).getD []
  | _ => []

/-- The causes that the word `ins` records: code and DETAIL. -/
def stopsWith (x : Ctx) (c : Core) (st : Stream) (ins : Instr) : List (Nat × Nat) :=
  match exec ins (testState x c st) with
  | .next t => t.causes.map fun q => (q.code, q.detail.toNat)
  | _ => []

def x0 : Ctx := testCtx []
def c0 : Core := testCore

/-! Results that the manual works out (R246-R258, R292-R296, R326, R327), and one by hand where it works out none. -/

/-- The table of R251, and the F16 example of R247. -/
theorem test_conversions_of_the_manual :
    convert .f32 .f16 rne false 0x7F800000 = (0x7C00, 0) ∧ convert .f32 .f16 rne true 0x7F800000 = (0x7BFF, Flag.sat)
      ∧ convert .f32 .f16 rne false 0x5F800000 = (0x7C00, Flag.ovf ||| Flag.inx) ∧ convert .f32 .f16 rne true 0x5F800000 = (0x7BFF, Flag.sat ||| Flag.inx)
      ∧ convert .f32 .e4m3 rne false 0x7F800000 = (0x7E, Flag.sat) ∧ convert .f32 .e4m3 rne false 0x7FC00001 = (0x7F, 0)
      ∧ convert .f32 .e2m1 rne false 0x7FC00001 = (0, Flag.inv) ∧ convert .f32 .int8 rne true 0xD01502F9 = (0x80, Flag.sat ||| Flag.inx)
      ∧ convert .f32 .f16 rne false 0x477FE600 = (0x7BFF, Flag.inx) := by decide +kernel

/-- The dither of R249: columns 0 to 7 of 1 + 2^-9 in B16. -/
theorem test_dither_of_the_manual :
    [0, 32, 16, 48, 8, 40, 24, 56].map (fun d => (convert .f32 .b16 ⟨.rdi, d⟩ false 0x3F804000).1)
      = [0x3F80, 0x3F80, 0x3F80, 0x3F81, 0x3F80, 0x3F80, 0x3F80, 0x3F81] := by decide +kernel

/-- The sums of R254: 2^24, 1 and 1 in either order; and the NQ4 element of R246. -/
theorem test_sums_of_the_manual :
    (let p := floatSlice .b16 .b16 [0x4B80, 0x3F80, 0x3F80] [0x3F80, 0x3F80, 0x3F80]; accumulate 0 p.1 p.2 none) = 0x4170000000000000
      ∧ (let p := floatSlice .b16 .b16 [0x3F80, 0x3F80, 0x4B80] [0x3F80, 0x3F80, 0x3F80]; accumulate 0 p.1 p.2 none) = 0x4170000020000000
      ∧ nq4Decode f32Shape 8 2 0x3F800001 = (0x3A840001, Flag.inx) := by decide +kernel

/-- The check values of R258. -/
theorem test_approximations_of_the_manual :
    sfu .rsq f32Shape 0x3F800000 = (0x3F7E0000, 0) ∧ sfu .rsq f32Shape 0x40000000 = (0x3F33A000, 0) ∧ sfu .rsq f32Shape 0x40800000 = (0x3EFE0000, 0)
      ∧ sfu .rcp f32Shape 0x3F800000 = (0x3F7C1000, 0) ∧ sfu .ex2 f32Shape 0 = (0x3F816000, 0) ∧ sfu .lg2 f32Shape 0x3F800000 = (0x3CB74000, 0)
      ∧ sfu .rsq f32Shape 0x80000000 = (0xFF800000, Flag.dz) := by decide +kernel

/-- g1 = a and g2 = b. -/
def withOperands (a b : Nat) : Core := (c0.setG 1 (BitVec.ofNat 64 a)).setG 2 (BitVec.ofNat 64 b)

theorem test_add_wraps : landings x0 (withOperands (2 ^ 64 - 1) 2) .s (.alu 0 3 1 2 0 .add) = [(.g 3, 2, 1)] := by decide +kernel
theorem test_sra_keeps_the_sign : landings x0 (withOperands (2 ^ 63) 65) .s (.alu 0 3 1 2 0 .sra) = [(.g 3, 2, 0xC000000000000000)] := by decide +kernel
theorem test_guard_suppresses : landings x0 (withOperands 1 2) .s (.alu 0 3 1 2 1 .add) = [] := by decide +kernel
theorem test_divide_corners :
    landings x0 (withOperands 7 0) .s (.muldiv 0 3 1 2 0 .div) = [(.g 3, 40, 2 ^ 64 - 1)]
      ∧ landings x0 (withOperands 7 0) .s (.muldiv 0 3 1 2 0 .remu) = [(.g 3, 40, 7)]
      ∧ landings x0 (withOperands (2 ^ 63) (2 ^ 64 - 1)) .s (.muldiv 0 3 1 2 0 .div) = [(.g 3, 40, 2 ^ 63)]
      ∧ landings x0 (withOperands (2 ^ 64 - 7) 2) .s (.muldiv 0 3 1 2 0 .rem) = [(.g 3, 40, 2 ^ 64 - 1)] := by decide +kernel
theorem test_lih_extends : landings x0 c0 .s (.lih 0 19 0xBF000) = [(.g 19, 1, 2 ^ 64 - 0x41000 * 4096)] := by decide +kernel

/-- The align of R327: at CSLOT 0x123 the successor issues at 0x145. -/
theorem test_align_of_the_manual :
    (match exec (.align 0 6 5) (testState { x0 with cslot := 0x123 } c0 .s) with
      | .next t => (t.coreOf 0 0).map fun d => d.s.ready
      | _ => none) = some 0x145 := by decide +kernel

/-- The token of R326: posted at 100, it meets a distance of 40 at 140 and no other slot. -/
theorem test_token_of_the_manual :
    stopsWith { x0 with cslot := 140 } { c0 with regs.tk := [(1, 100)] } .x (.xtkExpect 0 1 40) = []
      ∧ stopsWith { x0 with cslot := 141 } { c0 with regs.tk := [(1, 100)] } .x (.xtkExpect 0 1 40) = [(7, 1)] := by decide +kernel

theorem test_invalid_mailbox_slips : stopsWith x0 c0 .s (.mmv 0 4 3 1) = [(2, 0)] := by decide +kernel
theorem test_user_space_ends : stopsWith x0 (withOperands 0x1FFFF 0) .s (.ldc 0 3 1 .d 8) = [(0x13, 0x20000)] := by decide +kernel

/-! Witnesses: encodings and steps. -/

theorem witness_DecodeOfEncode : (Instr.halt 3).wf = true ∧ encode (.halt 3) = some 0xFE030000#32 := by decide

theorem witness_DecodedWordsEncodeBack : decode .m 0x18000000#32 = some (.swap 0) := by decide

def loopAt (start stop : Nat) : Loop := { start, stop, left := 3 }
def streamAt (pc : Nat) (loops : List Loop) : StreamSt := { store := [], pc, ready := 0, loops, xfer := none }

/-- A delay window; the end of two loops, of which the inner has no run left and the outer has; no loop. -/
theorem witness_NopDoesNothingElse :
    Meets x0 { c0 with x := { streamAt 10 [loopAt 1 10] with xfer := some { target := 0, last := 9 } } } .x (fun _ c => (c.stream .x).xfer ≠ none)
      ∧ Meets x0 { c0 with x := streamAt 10 [{ loopAt 4 10 with left := 0 }, loopAt 1 10] } .x (fun _ c => (c.stream .x).xfer = none
          ∧ (c.stream .x).loops.drop 1 = [loopAt 1 10] ∧ (loopAt 1 10).stop = (c.stream .x).pc)
      ∧ Meets x0 c0 .x (fun _ c => (c.stream .x).xfer = none ∧ (c.stream .x).loops.drop 0 = []) :=
  ⟨meets (by decide), meets (by decide), meets (by decide)⟩

/-- The word 0xFE030000 (halt, GAP 3), a word with MAJ 0x16 in V, and an index beyond the store. -/
theorem witness_StepRunsDecodedWord :
    let at' (q : StreamSt) : State :=
      { State.reset with now := { Mach.reset with ctxs := [seat x0 { c0 with s := q, v := q }] }, todo := [.issue 0 0 .s, .close 0] }
    let halt := at' { store := [(7, 0xFE030000)], pc := 7, ready := 0, loops := [], xfer := none }
    let bad := at' { store := [(7, 0xB0000000)], pc := 7, ready := 0, loops := [], xfer := none }
    let out := at' { store := [], pc := 4096, ready := 0, loops := [], xfer := none }
    (∃ x c, (halt.now.fetchAt 0 0 .s).wordAt 0 0 .s = some (x, c, 7, 0xFE030000) ∧ decode .s 0xFE030000 = some (.halt 3))
      ∧ (∃ x c, (bad.now.fetchAt 0 0 .v).wordAt 0 0 .v = some (x, c, 7, 0xB0000000) ∧ decode .v 0xB0000000 = none)
      ∧ ∃ x c w, (out.now.fetchAt 0 0 .s).wordAt 0 0 .s = some (x, c, 4096, w) :=
  ⟨⟨_, _, rfl, by decide⟩, ⟨_, _, rfl, by decide⟩, _, _, _, rfl⟩

theorem witness_SoundStepsNeverStop : State.reset.Sound ∧ ({ State.reset with todo := [.event .heatEvaluation] } : State).Sound := by
  unfold State.Sound; decide

theorem witness_MemoryStaysCanonical :
    ∃ t, ({ State.reset with now.warm.mem := [(5, 1)] } : State).MemoryCanonical
      ∧ step { State.reset with now.warm.mem := [(5, 1)] } = .next t :=
  ⟨_, ⟨by decide, by decide, by intro M h; cases h⟩, rfl⟩

/-! The S stream. -/

theorem witness_AluAndMuldiv :
    Meets x0 c0 .s (fun x c => MulFn.isDiv .remu = true ∧ c.units.divider ≤ x.cslot)
      ∧ Meets x0 { c0 with units.divider := 1 } .s (fun x c => MulFn.isDiv .div = true ∧ x.cslot < c.units.divider)
      ∧ Meets x0 { c0 with units.divider := 1 } .s (fun _ _ => MulFn.isDiv .mulhu = false) :=
  ⟨meets (by decide), meets (by decide), meets (by decide)⟩

theorem witness_Immediates : Meets x0 c0 .s fun _ _ => (Instr.alui 0 1 2 .srai 63).wf = true ∧ (Instr.alui 0 1 2 .addi 0x800).wf = true :=
  meets (by decide)

theorem witness_Predicates : Meets x0 c0 .s fun _ _ => True := meets trivial

theorem witness_CountsHandlesAndMailboxes :
    Meets x0 (c0.setMb 7 { value := 5, valid := true, last := 0, landed := 0 }) .s (fun _ c => (c.mb 7).valid = true)
      ∧ Meets x0 c0 .s (fun _ c => (c.mb 0).valid = false) := ⟨meets (by decide), meets (by decide)⟩

/-- An undo entry of window 0. -/
def testUndo (kind space core addr : Nat) (payload : BitVec 512) : Undo :=
  { kind, space, foreign := false, atomic := false, spilled := false, source := 0, core, cslot := 0, addr, win := 0, payload }

def replaying (feed : List Undo) : Replay :=
  { target := 9, feed, seek := none, found := none, ghosts := [], owed := [], win := 0, tainted := false, live := false, cmd := none }

/-- It feeds reads of MSLOT and of HEAT. -/
def fedReads : Replay := replaying [testUndo 3 2 0 0x701 7, testUndo 3 2 0 0x740 9]

/-- A live read and one that a replay feeds, of MSLOT and of HEAT; the first and the last number of each range that a clause names, and the numbers beside
them; a level of each domain, and none. -/
theorem witness_StateRegisters :
    Meets x0 c0 .s (fun x _ => x.replay = none)
      ∧ Meets { x0 with replay := some fedReads } c0 .s (fun x _ => x.replay = some fedReads ∧ ∀ l ∈ [(0x701, 7), (0x740, 9)],
            fedReads.feed.find? (fun e => e.kind == 3 && e.core == 0 && e.addr == l.1 && e.cslot == x.cslot) = some (testUndo 3 2 0 l.1 l.2))
      ∧ (let R (n : Nat) : Bool := ([(0, 0x003), (0x008, 0x010), (0x018, 0x01F), (0x030, 0x037), (0x040, 0x042), (0x050, 0x057), (0x180, 0x18B)] :
            List (Nat × Nat)).any fun l => decide (l.1 ≤ n) && decide (n ≤ l.2);
          ([0x000, 0x003, 0x008, 0x010, 0x018, 0x01F, 0x030, 0x037, 0x040, 0x042, 0x050, 0x057, 0x180, 0x18B].all R = true)
            ∧ [0x004, 0x007, 0x011, 0x017, 0x022, 0x02F, 0x038, 0x03F, 0x043, 0x04F, 0x059, 0x0FF, 0x140, 0x17F, 0x18C, 0xFFF].any R = false)
      ∧ (0x100 ≤ (0x100#12).toNat ∧ (0x13F#12).toNat ≤ 0x13F)
      ∧ (∀ l ∈ [1, 2, 3, 5, 6], Meets (testCtx [(0x0C4, l - 1)]) c0 .s (fun x _ => 0 < x.field 0x003 1 ∧ x.field 0x0C4 1 = l ∧ (l = 2 → x.extent 3 = none)))
      ∧ Meets x0 c0 .s (fun x _ => x.field 0x003 1 ≤ 1) := by
  refine ⟨meets (by decide +kernel), meets (by decide +kernel), by decide +kernel, by decide, ?_, meets (by decide +kernel)⟩
  simp only [List.forall_mem_cons]
  exact ⟨meets (by decide +kernel), meets (by decide +kernel), meets (by decide +kernel), meets (by decide +kernel), meets (by decide +kernel), by simp⟩

/-- A core whose g1 is `a`, so that the address of an access with offset 0 is `a`. -/
def pointing (a : Nat) : Core := c0.setG 1 (BitVec.ofNat 64 a)

/-- The last place inside, and the first outside, the bank and the pool, for reads, lines of a pattern and writes; a full undo log. -/
theorem witness_ColdAccesses :
    (∀ a ∈ [0x1FFF8, 0x20000, 0xBFFF8, 0xC0000, 0x1BFC0, 0x1C000], Meets x0 (pointing a) .s fun _ c => addrExact (c.g 1) 0 8 = a)
      ∧ Meets x0 (pointing 0x1BFF8) .s (fun x c => c.p 0 = true ∧ addrExact (c.g 1) 0 8 + 8 ≤ 0x1C000
          ∧ x.quotaOk c false [addrExact (c.g 1) 0 8 / 64] = true)
      ∧ Meets x0 c0 .s (fun _ c => c.p 1 = false)
      ∧ Meets x0 { pointing 64 with entries := 512 } .s (fun x c => c.p 0 = true ∧ addrExact (c.g 1) 0 8 + 8 ≤ 0x1C000
          ∧ ¬(x.quotaOk c false [addrExact (c.g 1) 0 8 / 64] = true ∨ x.roll = true))
      ∧ Meets (testCtx [(5, 1)]) { pointing 64 with entries := 512 } .s (fun x _ => x.roll = true) := by
  refine ⟨?_, meets (by decide +kernel), meets (by decide), meets (by decide +kernel), meets (by decide +kernel)⟩
  simp only [List.forall_mem_cons]
  exact ⟨meets (by decide), meets (by decide), meets (by decide), meets (by decide), meets (by decide), meets (by decide), by simp⟩

def testReq (id : Nat) (act : Act) (use : Use) : Req :=
  { id, core := 0, queue := 12, act, use, sys := false, elems := [(0, 512)], width := 64, value := 0, expect := 0, mask := BitVec.allOnes 4096
    opIssue := 0, check := none, issue := 0, home := 0, dist := 0, land := 0, after := [], gone := [], acks := [], scs := []
    async := false, performed := false, done := 0, held := false, sent := false, release := false, acquire := false, met := false, seen := [], got := [], word := 0 }

/-- One address of each kind, at the last place inside and the first outside; the requests of a core are full. -/
theorem witness_WarmAccesses :
    Meets x0 (pointing 0xFFFFFFFFFFF8) .s (fun x c => x.outstanding 0 < 2048 ∧ addrExact (c.g 1) 0 8 < 2 ^ 48)
      ∧ Meets x0 (pointing (2 ^ 48)) .s (fun x c => x.outstanding 0 < 2048 ∧ ¬addrExact (c.g 1) 0 8 < 2 ^ 48)
      ∧ Meets (testCtx [(0x05C, 0x80000000)]) (pointing (2 ^ 53 - 8)) .s (fun x c => x.outstanding 0 < 2048
          ∧ addrExact (c.g 1) 0 8 < 2 ^ 53 ∧ (x.field 0x05C 4).testBit (addrExact (c.g 1) 0 8 / 2 ^ 48) = true)
      ∧ Meets (testCtx [(0x05C, 0x80000000)]) (pointing (2 ^ 53 - 2 ^ 48 - 8)) .s (fun x c =>
          ¬(addrExact (c.g 1) 0 8 < 2 ^ 53 ∧ (x.field 0x05C 4).testBit (addrExact (c.g 1) 0 8 / 2 ^ 48) = true))
      ∧ Meets x0 c0 .s (fun _ c => c.p 7 = false)
      ∧ Meets { x0 with reqs := List.replicate 2048 (testReq 1 .write .store) } c0 .s (fun x _ => 2048 ≤ x.outstanding 0) :=
  ⟨meets (by decide +kernel), meets (by decide +kernel), meets (by decide +kernel), meets (by decide +kernel), meets (by decide),
    meets (by decide +kernel)⟩

/-- A branch that is taken, and one that is not. -/
theorem witness_Transfers :
    Meets x0 c0 .s (fun _ c => condExact .eq (c.g 0) (c.g 1) = true) ∧ Meets x0 c0 .s (fun _ c => condExact .ltu (c.g 0) (c.g 1) = false) :=
  ⟨meets (by decide), meets (by decide)⟩

/-- A loop word at index 10: in a window, one level too deep, across the end of the body around it, beyond the store by one word and not, with
a count of zero and with one. -/
theorem witness_Loops :
    loopParts c0 (.loopImm 0 0 4) = some (1, 4) ∧ loopParts c0 (.vloopLc 0 2 4) = some (0, 4)
      ∧ Meets x0 { c0 with s := { streamAt 10 [] with xfer := some { target := 0, last := 9 } } } .s (fun _ c => (c.stream .s).xfer.isSome = true)
      ∧ Meets x0 { c0 with s := streamAt 10 (List.replicate 4 (loopAt 1 99)) } .s (fun _ c => 4 ≤ (c.stream .s).loops.length)
      ∧ Meets x0 { c0 with s := streamAt 10 [loopAt 1 13] } .s (fun _ c => ∃ t, (c.stream .s).loops.head? = some t ∧ t.start ≤ (c.stream .s).pc
          ∧ (c.stream .s).pc ≤ t.stop ∧ t.stop < (c.stream .s).pc + 4)
      ∧ Meets x0 { c0 with v := streamAt 4092 [] } .v (fun _ c => (c.stream .v).xfer = none ∧ 4095 < (c.stream .v).pc + 4)
      ∧ Meets x0 { c0 with v := streamAt 4091 [] } .v (fun _ c => (c.stream .v).xfer = none ∧ (c.stream .v).pc + 4 ≤ 4095
          ∧ ¬4 ≤ (c.stream .v).loops.length ∧ (c.stream .v).loops.head? = none)
      ∧ gapLength (.mgap 0 0x1FFFFFF) = some 33554431 :=
  ⟨by decide, by decide, meets rfl, meets (by decide), meets ⟨_, rfl, by decide⟩, meets (by decide), meets (by decide), by decide⟩

def waitingAt (v : Nat) (err : Bool) : Core := c0.setTc 7 { value := BitVec.ofNat 64 v, err, errAt := 0 }

/-- bar 0 after the wait at index 0. -/
def barNext : StreamSt := { store := [(1, 0xD0000000)], pc := 0, ready := 0, loops := [], xfer := none }

/-- A token that meets its distance and one that does not; a counter at its target with and without its error bit, and below it with; a wait that is not before a
bar, and one that is, which may dwell once more or not; a table that the object has and the first that it has not. -/
theorem witness_TokensAndWaits :
    postedCell (.vtkPost 0 7) = some 7 ∧ expectedCell (.xtkExpect 0 0 5) = some (0, 5)
      ∧ Meets { x0 with cslot := 9 } (c0.setTk 0 4) .x (fun x c => (c.tk 0).toNat + 5 = x.cslot)
      ∧ Meets { x0 with cslot := 9 } c0 .x (fun x c => (c.tk 0).toNat + 5 ≠ x.cslot)
      ∧ Meets x0 (waitingAt 3 false) .s (fun _ c => ((c.g 0).toNat + 3) % 2 ^ 64 ≤ (c.tc 7).value.toNat ∧ (c.tc 7).err = false)
      ∧ Meets x0 (waitingAt 3 true) .s (fun _ c => ((c.g 0).toNat + 3) % 2 ^ 64 ≤ (c.tc 7).value.toNat ∧ (c.tc 7).err = true)
      ∧ Meets x0 (waitingAt 2 true) .s (fun x c => (c.tc 7).value.toNat < ((c.g 0).toNat + 3) % 2 ^ 64 ∧ ¬c.s.beforeBar x.cslot = true)
      ∧ Meets (testCtx [(0x054, 2)]) { waitingAt 2 false with s := barNext } .s (fun x c => (c.tc 7).value.toNat < ((c.g 0).toNat + 3) % 2 ^ 64
          ∧ c.s.beforeBar x.cslot = true ∧ x.waited < x.field 0x054 4)
      ∧ Meets { testCtx [(0x054, 2)] with waited := 2 } { waitingAt 2 false with s := barNext } .s (fun x c => c.s.beforeBar x.cslot = true
          ∧ x.field 0x054 4 ≤ x.waited) :=
  ⟨by decide, by decide, meets (by decide), meets (by decide), meets (by decide), meets (by decide), meets (by decide), meets (by decide +kernel),
    meets (by decide +kernel)⟩

theorem witness_Barriers :
    Meets x0 c0 .s (fun x _ => x.field 0x068 1 = 0)
      ∧ Meets { testCtx [(0x06F, 1)] with cslot := 1 } { c0 with pend := [result (.g 1) .s 0 2 0] } .s (fun x c => x.field (0x068 + 7) 1 ≠ 0 ∧ c.quiet x.cslot = false)
      ∧ Meets (testCtx [(0x06F, 1)]) c0 .s (fun x c => x.field (0x068 + 7) 1 ≠ 0 ∧ c.quiet x.cslot = true) :=
  ⟨meets (by decide +kernel), meets (by decide +kernel), meets (by decide +kernel)⟩

theorem witness_Checkpoints :
    Meets { x0 with code := { Code.none with live := [[]] } } c0 .s (fun x _ => x.code.live.length ≤ (1#12).toNat)
      ∧ Meets { x0 with code := { Code.none with live := [[]] } } c0 .s (fun x _ => (0#12).toNat < x.code.live.length) :=
  ⟨meets (by decide), meets (by decide)⟩

/-! Witnesses: the V, M and X streams. -/

/-- A 64-byte image from its fields: byte offset and value. -/
def image (l : List (Nat × Nat)) : Line := BitVec.ofNat 512 (l.foldl (fun n q => n + q.2 * 2 ^ (8 * q.1)) 0)

/-- A tensor of 64 by 16 elements, row after row, with every right (R145). -/
def tensorOf (space fmt width : Nat) : Line :=
  image [(8, 64), (12, 16), (16, 1), (20, 1), (0x18, 1), (0x1C, 64), (0x2A, fmt), (0x2B, 2 + 16 * space), (0x2C, 15), (0x00, 64 * width)]

/-- A pattern over tensor 1: `n` rows of 64 elements, one lane, no flags, counter 0 (R146). -/
def patternOf (n : Nat) : Line := image [(0, 1), (3, 1), (4, 64), (5, 1), (8, n - 1), (10, 1), (12, 1)]

def walkOf (n : Nat) : Walk := { pat := patternOf n, desc := tensorOf 2 0xB 1 }

/-- A launch record with two tensors, one lane each way, and 8 ticks; tensor 1 is `d`. -/
def withTensor (d : Line) : Ctx := { testCtx [(0x028, 2), (0x060, 1), (0x061, 1), (0x062, 8)] with tdt := [(1, d)] }

/-- h0 names tensor 1. -/
def handled : Core := c0.setH 0 1

def openPort : InPort := { InPort.start with walk := some (walkOf 16) }
def sendPort (n : Nat) : OutPort := { OutPort.start with walk := some (walkOf n) }

theorem noFit {c : Core} {p : BitVec 2} {n : Nat} (w : Walk) (h : (c.outp p.toNat).walk = some w)
    (l : w.rows < (c.outp p.toNat).sent + c.dueRows p + n) : ¬RowsFit c p n := by
  intro ⟨v, e, r⟩
  rw [h] at e
  cases e
  omega

theorem ofWalk {q : Option Walk} {P : Walk → Prop} (w : Walk) (h : q = some w) (k : P w) : ∀ v, q = some v → P v := by
  intro v e
  rw [h] at e
  cases e
  exact k

theorem witness_VectorWordsBegin :
    vecParts (.vpop 0 1 3 0) = some { ports := [3], wide := false, whole := false, k := 0, rdi := false }
      ∧ Meets x0 c0 .v (fun _ c => [3].find? (fun p => (c.inp p).walk.isNone) = some 3)
      ∧ Meets x0 (c0.setOutp 3 (sendPort 15)) .v (fun _ c => ¬RowsFit c 3 ((List.range 16).countP fun r => c.k 0 r != 0))
      ∧ Meets x0 (c0.setOutp 3 (sendPort 16)) .v (fun x c => RowsFit c 3 ((List.range 16).countP fun r => c.k 0 r != 0)
          ∧ c.units.vector ≤ x.cslot)
      ∧ Meets x0 { c0.setInp 3 openPort with units.vector := 1 } .v (fun x c => ([3].all fun p => (c.inp p).walk.isSome) = true
          ∧ (∀ g v p k, Instr.vpop 0 1 3 0 ≠ .vput g v p k) ∧ x.cslot < c.units.vector)
      ∧ Meets x0 (c0.setInp 3 openPort) .v (fun x c => ([3].all fun p => (c.inp p).walk.isSome) = true ∧ c.units.vector ≤ x.cslot) :=
  ⟨rfl, meets (by decide), meets (noFit (walkOf 15) (by decide +kernel) (by decide +kernel)),
    meets ⟨⟨walkOf 16, by decide +kernel, by decide +kernel⟩, by decide⟩, meets ⟨by decide +kernel, by intros; exact Instr.noConfusion, by decide⟩, meets (by decide +kernel)⟩

theorem witness_MaskWords :
    (Instr.ksetBox 0 1 64 16).wf = true ∧ Meets x0 { c0 with units.mask := 1 } .v (fun x c => x.cslot < c.units.mask)
      ∧ Meets x0 c0 .v (fun x c => c.units.mask ≤ x.cslot) := ⟨by decide, meets (by decide), meets (by decide)⟩

/-- A tensor id that the table does not hold and the last that it does; a tensor without the right, and in the other space; a tile that starts
one row too low and one that does not; a datapath that is occupied, a range in flight, and neither. -/
theorem witness_TileAccesses :
    Meets (withTensor (tensorOf 0 0xB 4)) (c0.setH 0 2) .v (fun x c => ¬((c.h 0).toNat < x.field 0x028 4 ∧ SMap.get 0 x.tdt (c.h 0).toNat ≠ 0))
      ∧ Meets (withTensor (tensorOf 1 0xB 4)) handled .v (fun x c => ((c.h 0).toNat < x.field 0x028 4 ∧ SMap.get 0 x.tdt (c.h 0).toNat ≠ 0)
          ∧ dRead (SMap.get 0 x.tdt (c.h 0).toNat) = true ∧ dSpace (SMap.get 0 x.tdt (c.h 0).toNat) ≠ 0)
      ∧ (let d := tensorOf 0 0xB 4;
          (dFmt d).isSome = true ∧ dWidth d = 32 ∧ dWrite d = true ∧ (15 + 0 < dExt d 1 ∧ ¬15 + 1 < dExt d 1)
          ∧ (63 < dExt d 0 ∧ 0 < dExt d 2 ∧ 0 < dExt d 3)
          ∧ ∀ r ∈ tileRows d [0, 0, 0, 0] (fun r => r) (List.replicate 16 (BitVec.allOnes 64)), r.ok false true (dPerm d) = true)
      ∧ Meets (withTensor (tensorOf 0 0xB 4)) { handled with units.vector := 1 } .v (fun x c => x.cslot < c.units.vector)
      ∧ (∀ n ∈ [0, 1], Meets (withTensor (tensorOf 0 0xB 4)) { handled with
            units.vector := n, ranges := [{ pool := false, lo := 0, hi := 99, write := false, upto := 9 }] } .v (fun x c =>
          (c.units.vector ≤ x.cslot ↔ n = 0) ∧ x.hazard c { pool := false, lo := 64, hi := 4159, write := true, upto := x.cslot + 19 } = true))
      ∧ Meets (withTensor (tensorOf 0 0xB 4)) handled .v (fun x c =>
          x.hazard c { pool := false, lo := 64, hi := 4159, write := true, upto := x.cslot + 19 } = false ∧ x.quotaOk c false [1, 2] = true)
      ∧ Meets (withTensor (tensorOf 0 0xB 4)) { handled with entries := 512 } .v (fun x c =>
          ¬(x.quotaOk c false [1, 2] = true ∨ x.roll = true)) := by
  refine ⟨meets (by decide +kernel), meets (by decide +kernel), by decide +kernel, meets (by decide +kernel), ?_, meets (by decide +kernel),
    meets (by decide +kernel)⟩
  simp only [List.forall_mem_cons]
  exact ⟨meets (by decide +kernel), meets (by decide +kernel), by simp⟩

def testOp (ins : Instr) : Op :=
  { instr := ins, stream := .v, issue := 0, next := 0, rows := 16, period := 1, mask := List.replicate 8 0 ++ List.replicate 8 5, desc := 0
    coord := [], index := [], phase := 0 }

/-- Row 7, whose mask row is zero, and row 15, whose mask row is not; a mask that is zero; a port with no entry, strict and lenient, and with one; a row
whose enabled bytes stand at byte 0 and on. -/
theorem witness_VectorRows :
    (testOp (.varith 0 1 2 3 7 0 .int8x4 .fms)).instr = .varith 0 1 2 3 7 0 .int8x4 .fms ∧ (testOp .keeperRestart).period = 1
      ∧ (2#4).toNat < 8 ∧ (7#4).toNat < 8 ∧ (testOp .keeperRestart).mask.getD 7 0 = 0 ∧ (testOp .keeperRestart).mask.getD 15 0 ≠ 0
      ∧ (testOp .keeperRestart).mask.length = 16 ∧ (List.replicate 16 (0 : BitVec 64)).getD 15 0 = 0
      ∧ (∀ l ∈ [true, false], (c0.setInp 7 { InPort.start with lenient := l }).inp 7 = { InPort.start with lenient := l } ∧ InPort.start.entries = [])
      ∧ (c0.setInp 7 { InPort.start with entries := [{ row := 3, value := 4 }] }).inp 7 = { InPort.start with entries := [{ row := 3, value := 4 }] }
      ∧ 0 ≤ rowAddr (tensorOf 0 0xB 4) [0, 0, 0, 0] := by decide +kernel

theorem witness_FloatShapes : ∀ f ∈ [VFmt.f32, .b16x2, .f16x2, .f64], (viewShape f).isSome = true := by decide

/-- 1 and 2 in binary32, an infinity of each sign, and zero. -/
theorem witness_FloatArithmetic :
    f32Shape.val 0x3F800000 = some 1 ∧ f32Shape.val 0x40000000 = some 2 ∧ (1 : Rat) < 2 ∧ f32Shape.decode 0x7F800000 = .inf false
      ∧ f32Shape.decode 0xFF800000 = .inf true ∧ f32Shape.val 0 = some 0 ∧ 0xFF800000 < 2 ^ f32Shape.width := by decide +kernel

/-- NQ4 weights with K 48, and with K 64; two formats that pair; a busy reader; a scale tensor of 260 bytes whose last block is b0 + 63 = 255. -/
theorem witness_MatrixIsConfigured :
    (¬(Fmt.nq4 = .nq4 → (2#2) = 3)) ∧ (Fmt.nq4 = .nq4 → (3#2) = 3) ∧ pairingOk .b16 .nq4 = true ∧ pairingOk .uint8 .int4 = true
      ∧ pairingOk .f32 .int8 = false
      ∧ Meets x0 { c0 with units.reader := 1 } .m (fun x c => x.cslot < c.units.reader) ∧ Meets x0 c0 .m (fun x c => c.units.reader ≤ x.cslot)
      ∧ (let d := image [(8, 260), (12, 1), (16, 1), (20, 1), (0x18, 1), (0x2A, 5), (0x2B, 1), (0x2C, 1)];
          Meets (withTensor d) { handled.setG 1 192 with mat := { Matrix.start with valid := true, fw := .nq4 } } .m fun x c =>
            (c.mat.valid = true ∧ c.mat.fw = .nq4 ∧ c.units.array ≤ x.cslot)
            ∧ x.tensor (c.h (0#1 ++ 0#3)).toNat = some d ∧ (dSpace d < 2 ∧ dRead d = true ∧ dFmt d = some .uint8 ∧ dDims d = 1 ∧ dStr d 0 = 1)
            ∧ (coords (c.g 1) (c.g 0)).getD 0 0 < dExt d 0 ∧ 260 * ((192 + 63) / 256) + 4 + (192 + 63) % 256 < dExt d 0
            ∧ ∀ n < 64, coldOk (dSpace d == 1) false ((dBase d + (4 + 192 + n)) ^^^ (64 * dPerm d)) 1 = true) :=
  ⟨by decide, by decide, by decide, by decide, by decide, meets (by decide), meets (by decide), meets (by decide +kernel)⟩

def matOn (fa fw : Fmt) : Matrix := { Matrix.start with valid := true, m := 16, n := 16, k := 16, fa, fw }

/-- Before tcfg and after it; an ldsw in flight at its last row and at the one before; a tensor that an ldsw and an mma may read; a row count that the
last accumulator holds, and one more; a port with room for 16 rows, of the format. -/
theorem witness_MatrixWordsBegin :
    Meets x0 c0 .m (fun x c => c.mat.valid = false ∧ c.units.array ≤ x.cslot)
      ∧ Meets { x0 with cslot := 15 } { c0 with mat := matOn .f32 .f32, ops := [testOp (.ldsw 0 8 0 0)] } .m (fun x c => c.mat.valid = true
          ∧ ¬∃ o ∈ c.ops, (∃ g src gy gx, o.instr = .ldsw g src gy gx) ∧ x.cslot < o.issue + o.rows - 1)
      ∧ Meets { x0 with cslot := 14 } { c0 with mat := matOn .f32 .f32, ops := [testOp (.ldsw 0 8 0 0)] } .m (fun x c =>
          ∃ o ∈ c.ops, (∃ g src gy gx, o.instr = .ldsw g src gy gx) ∧ x.cslot < o.issue + o.rows - 1)
      ∧ Meets (withTensor (tensorOf 0 0xB 4)) { handled with mat := matOn .f32 .f32 } .m (fun x c => c.mat.valid = true
          ∧ OperandReady x c 8 0 0 .f32 16 16 16 ∧ c.units.loader ≤ x.cslot)
      ∧ ¬16 * (4 - (3#2).toNat) < (15#6).toNat + 1 ∧ 16 * (4 - (3#2).toNat) < (16#6).toNat + 1
      ∧ Meets x0 ({ c0 with mat := matOn .f32 .f32, units.reader := 1 }.setOutp 3 (sendPort 16)) .m (fun x c => RowsFit c 3 16
          ∧ (∀ w, (c.outp 3).walk = some w → dFmt w.desc = some .f32) ∧ x.cslot < c.units.reader)
      ∧ Meets x0 ({ c0 with mat := matOn .f32 .f32 }.setOutp 3 (sendPort 15)) .m (fun _ c => ¬RowsFit c 3 16) :=
  ⟨meets (by decide), meets ⟨rfl, by intro ⟨o, h, _, l⟩; simp only [List.mem_singleton] at h; subst h; revert l; decide⟩,
    meets ⟨_, .head _, ⟨_, _, _, _, rfl⟩, by decide⟩,
    meets ⟨rfl, ⟨tensorOf 0 0xB 4, by decide +kernel, by decide +kernel, by decide +kernel, by decide +kernel, by decide +kernel⟩, by decide⟩, by decide,
    by decide, meets ⟨⟨walkOf 16, by decide +kernel, by decide +kernel⟩, ofWalk (walkOf 16) (by decide +kernel) (by decide +kernel), by decide⟩,
    meets (noFit (walkOf 15) (by decide +kernel) (by decide +kernel))⟩

/-- A row by handle and by port; a format class of each kind; a depth of one entry and of two; a port with no entry and with two; an mread whose walk is bound as at
its issue, and one whose walk is not. -/
theorem witness_MatrixRows :
    (testOp (.mma 0 8 3 true 0 0 false 0)).instr = .mma 0 8 3 true 0 0 false 0 ∧ 8 ≤ (8#4).toNat ∧ (7#4).toNat < 8 ∧ 15 < (testOp (.swap 0)).rows
      ∧ intClass (matOn .uint4 .int8).fa = true ∧ intClass (matOn .f32 .f32).fa = false ∧ (matOn .uint4 .int8).n ≤ 64
      ∧ (matOn .f32 .f32).k ≤ 64 ∧ 64 < ({ matOn .int4 .int4 with k := 128 }).k ∧ (matOn .b16 .nq4).fw = .nq4 ∧ (matOn .f32 .f32).fw ≠ .nq4
      ∧ (let q := { InPort.start with entries := [{ row := 3, value := 4 }, { row := 4, value := 5 }] };
          (c0.setInp 7 q).inp 7 = q ∧ InPort.start.entries = [] ∧ InPort.start.lenient = false)
      ∧ (∀ n ∈ [2, 3], let u := { sendPort 16 with gen := n }; (c0.setOutp 3 u).outp 3 = u ∧ u.walk = some (walkOf 16)
          ∧ (u.gen = ({ testOp (.swap 0) with index := [2, 1] }).index.headD 0 ↔ n = 2)) := by decide +kernel

theorem patternLegal (n : Nat) (h : n ∈ [1, 16]) : (walkOf n).outside = none ∧ (walkOf n).odd = false ∧ pShape (patternOf n) = true := by
  simp only [List.mem_cons, List.not_mem_nil, or_false] at h
  rcases h with rfl | rfl <;> decide +kernel

/-- A walk of 16 rows, the last inside the tensor; a spat in flight, a bound port, a share of lanes that is full and one that is not; the last core of
the context and the first outside. -/
theorem witness_Ports :
    (let x := withTensor (tensorOf 2 0xB 1)
      let c := c0.setPat 63 (patternOf 16)
      Meets x c .x (fun x c => let p := pBind (c.pat 63) (c.g 0) (c.g 0)
          WalkLegal x p (walkOf 16) true dIn ∧ WalkLegal x p (walkOf 16) true dOut ∧ pShape p = true ∧ pTc p = 0
            ∧ (dWidth (walkOf 16).desc = 64 → pRow p ≤ 32) ∧ pLanes p ≤ x.field 0x060 1 ∧ x.lanesOk c.cluster false (pLanes p) = true)
        ∧ Meets { x with lanes := [{ cluster := 0, out := false, lanes := 1, upto := none, port := none }] } c .x (fun x c =>
            x.lanesOk c.cluster false (pLanes (pBind (c.pat 63) (c.g 0) (c.g 0))) = false)
        ∧ Meets x { c with pend := [result (.pat 63) .s 0 8 0] } .x (fun _ c => ∃ q ∈ c.pend, q.dst = .pat 63)
        ∧ Meets x (c0.setInp 7 openPort) .x (fun _ c => (c.inp 7).walk.isSome = true)
        ∧ Meets x c .x (fun x _ => 8 * x.clusters ≤ (8#8).toNat ∧ (7#8).toNat < 8 * x.clusters)) :=
  ⟨meets ⟨⟨by decide +kernel, by decide +kernel, by decide +kernel, by decide +kernel, by decide +kernel, by decide +kernel⟩,
      ⟨by decide +kernel, by decide +kernel, by decide +kernel, by decide +kernel, by decide +kernel, by decide +kernel⟩, by decide +kernel⟩,
    meets (by decide +kernel), meets ⟨_, .head _, rfl⟩, meets rfl, meets (by decide +kernel)⟩

/-- A crossing of 64 bytes into the last line of the bank that it may write; a mesh move of a row within the core; a plain copy; a full queue. -/
theorem witness_Crossings :
    (let x := withTensor (tensorOf 2 5 1)
      let w : Walk := { pat := patternOf 1, desc := tensorOf 2 5 1 }
      let c := c0.setPat 0 (patternOf 1)
      Meets x c .x (fun x c => c.entry 0 = some (patternOf 1) ∧ WalkLegal x (patternOf 1) w true dIn ∧ WalkLegal x (patternOf 1) w true dOut
          ∧ w.bytes = 64 ∧ coldOk false true (64 * 0x6FF) w.bytes = true ∧ x.lanesOk c.cluster false 1 = true ∧ x.outstanding 0 + 1 ≤ 2048
          ∧ x.ticksOk (testState x c .x).now (w.pages (testState x c .x).now x) = true
          ∧ x.hazard c { pool := false, lo := 64 * 0x6FF, hi := 64 * 0x6FF + 63, write := true, upto := 0 } = false
          ∧ x.quotaOk c false (linesOf (64 * 0x6FF) 64) = true)
        ∧ Meets x c .x (fun x c => routineOk (testState x c .x).now 0 0 = true ∧ routineOk (testState x c .x).now 0 16 = false
            ∧ WalkLegal x (patternOf 1) w true dRead ∧ WalkLegal x (patternOf 1) w true dWrite ∧ (x.queued c.cluster).length < 16)) := by
  refine ⟨meets ⟨by decide +kernel, ⟨?_, ?_, ?_, ?_, ?_, ?_⟩, ⟨?_, ?_, ?_, ?_, ?_, ?_⟩, by decide +kernel⟩,
    meets ⟨by decide +kernel, by decide +kernel, ⟨?_, ?_, ?_, ?_, ?_, ?_⟩, ⟨?_, ?_, ?_, ?_, ?_, ?_⟩, by decide +kernel⟩⟩ <;> decide +kernel

def testCmd (w : Walk) : Cmd :=
  { id := 1, core := 0, cluster := 0, kind := 0, src := w, dst := w, tc := 0, routine := 0, flags := 0, bytes := 0, issue := 0, start := 0
    post := 0, afterR := [], afterW := [], goneR := [], goneW := [], acks := [], scs := [], started := false, read := 0, taken := 0, written := 0, data := 0, scales := 0, crc := [], dcrc := []
    check := none, done := false, err := false, held := false, late := false, posted := false, faulted := none, pages := []
    second := false, seen := [], word := 0 }

theorem witness_MeshMoves :
    (let x := withTensor (tensorOf 1 5 1)
      let w : Walk := { pat := patternOf 1, desc := tensorOf 1 5 1 }
      Meets x (c0.setPat 0 (patternOf 1)) .x (fun x c => x.core? c.regs.mesh = some c ∧ WalkLegal x (patternOf 1) w false dRead
          ∧ (∀ q ∈ w.coldBytes 0 w.bytes, coldOk true false q.2 1 = true) ∧ coldOk false true 0 w.bytes = true
          ∧ x.outstanding 0 + 1 ≤ 2048 ∧ x.hazard c { pool := false, lo := 0, hi := 63, write := true, upto := 0 } = false)
        ∧ Meets { x with cmds := List.replicate 16 (testCmd w) } c0 .x (fun x c => 16 ≤ (x.queued c.cluster).length)) := by
  refine ⟨meets ⟨rfl, ⟨?_, ?_, ?_, ?_, ?_, ?_⟩, by decide +kernel⟩, meets (by decide +kernel)⟩ <;> decide +kernel

/-! Witnesses: the host, the keepers and the services. -/

/-- Every core stands at its own place (decided). -/
def seatedAt (l : List Core) : Bool := (List.range l.length).all fun j => (l[j]?.map (·.idx)) == some j

def seatedOk (x : Ctx) : Bool := (x.win :: x.windows).all (fun w => seatedAt w.cores) && seatedAt x.cores

/-- The shape of the module (decided). -/
def shapedOk (M : Mach) : Bool :=
  decide (M.host.queues.length = 8 ∧ M.host.turn.length = 3 ∧ M.launch.length = 4 ∧ M.warm.rings.length = 16 ∧ M.links.ports.length = 8
      ∧ M.keepers.drives.length = 2 ∧ M.keepers.lost.length = 2 ∧ M.keepers.present.length = 16 ∧ M.keepers.meas.length = 8)
    && M.cmds.all (fun c => decide (c.seq < M.journal.next)) && M.ctxs.all (fun x => decide (x.cmd < M.journal.next) && seatedOk x)
    && M.launch.all (fun q => q.all fun w => decide (w.cmd < M.journal.next) && w.saved.all fun y => decide (y.cmd < M.journal.next) && seatedOk y)
    && M.aside.all (fun a => decide (a.1.cmd < M.journal.next) && seatedOk a.1)
    && (decide (4 ≤ M.keepers.bootPhase.toNat) || M.cmds.isEmpty && M.ctxs.isEmpty && M.aside.isEmpty && M.launch.all (·.isEmpty))
    && (decide (M.warm.spaces.Pairwise fun a b => a.asid ≠ b.asid) && M.links.ports.all fun q => decide (q.replay.length ≤ 64))

theorem seatedAt_idx {l : List Core} (h : seatedAt l = true) (j : Nat) (c : Core) (e : l[j]? = some c) : c.idx = j := by
  have hj : j < l.length := by
    rcases Nat.lt_or_ge j l.length with q | q
    · exact q
    · rw [List.getElem?_eq_none q] at e; cases e
  have := List.all_eq_true.1 h j (List.mem_range.2 hj)
  rw [e] at this
  simpa using this

theorem seated_of_ok {x : Ctx} (h : seatedOk x = true) : x.Seated := by
  rw [seatedOk, Bool.and_eq_true, List.all_eq_true] at h
  exact ⟨fun j c e => seatedAt_idx h.2 j c e, fun w hw j c e => seatedAt_idx (h.1 w hw) j c e⟩

/-- A machine that passes the check has the shape of the module. -/
theorem shaped_of_ok {M : Mach} (h : shapedOk M = true) : ({ State.reset with now := M } : State).Shaped := by
  simp only [shapedOk, Bool.and_eq_true, Bool.or_eq_true, decide_eq_true_eq, List.all_eq_true, Option.all_eq_true, List.isEmpty_iff] at h
  obtain ⟨⟨⟨⟨⟨⟨⟨h1, h2, h3, h4, h5, h6, h7, h8, h9⟩, hc⟩, hx⟩, hl⟩, ha⟩, hb⟩, hs, hr⟩ := h
  refine ⟨⟨⟨h1, h2⟩, h3, h4, hs, h5, hr, ⟨h6, h7⟩, ⟨h8, h9⟩, hc, fun q hq w hw => ⟨(hl q hq w hw).1, fun y hy => ⟨((hl q hq w hw).2 y hy).1,
    seated_of_ok ((hl q hq w hw).2 y hy).2⟩⟩, fun x hm => ⟨(hx x hm).1, seated_of_ok (hx x hm).2⟩,
    fun a hm => ⟨(ha a hm).1, seated_of_ok (ha a hm).2⟩, fun lt => ?_⟩, fun M e => by cases e⟩
  rcases hb with hb | hb
  · exact absurd hb (Nat.not_le.2 lt)
  · exact ⟨hb.1.1.1, hb.1.1.2, hb.1.2, hb.2⟩

/-- A context whose core has taken ckpt.ovl 1, with an overlay of one word for its S stream, and one whose core has taken ckpt. -/
theorem witness_CheckpointsTaken :
    ∀ o ∈ [some 1, none],
      let c : Core := { c0 with ckpt := some { ovl := o, tab := 0, word := 0 } }
      let x := seat { x0 with code := { Code.none with live := [[]], overlays := [(1, 0, 5, [7])] } } c
      x.Seated ∧ x.cores.findSome? (·.ckpt) = some { ovl := o, tab := 0, word := 0 } ∧ x.core? 0 = some c ∧ c.idle = false ∧ c.halt = none
        ∧ (x.code.overlays.filter fun o => o.1 == 1 && o.2.1 == rank .s) = [(1, rank .s, 5, [7])] := by
  simp only [List.forall_mem_cons]
  exact ⟨⟨seated_of_ok (by decide), by decide⟩, ⟨seated_of_ok (by decide), by decide⟩, by simp⟩

/-- The module after boot, its cold stage ready, with nine journal entries. -/
def base : Mach := { Mach.reset with keepers.bootPhase := 4, cold.state := 4, journal.next := 9 }

/-- Some shaped state with machine `M` meets `P`. -/
def Holding (M : Mach) (P : State → Prop) : Prop := ∃ s : State, s.Shaped ∧ P s ∧ s.now = M

theorem holding {M : Mach} {P : State → Prop} (h : shapedOk M = true) (p : P { State.reset with now := M }) : Holding M P :=
  ⟨_, shaped_of_ok h, p, rfl⟩

def onQueue (q : HQueue) : Mach := { base with host.queues := HQueue.reset :: q :: List.replicate 6 HQueue.reset }

def ahead (h : HQueue) (x : Nat) : Nat := (x + (2 ^ 32 - h.head.toNat)) % 2 ^ 32

/-- A ring of 64 that is exactly full, one that would be too full, and a TAIL that moves back, with HEAD at the wrap; LOG2N and CLASS at the ends
of their ranges; EN 0 and 1. -/
theorem witness_HostRegisters :
    Holding (onQueue { HQueue.reset with head := 0xFFFFFFFF, tail := 5 }) (fun s => let h := s.now.queue 1
        (ahead h 63 ≤ 2 ^ h.log2n.toNat ∧ ahead h h.tail.toNat ≤ ahead h 63) ∧ ¬ahead h 64 ≤ 2 ^ h.log2n.toNat
          ∧ ¬ahead h h.tail.toNat ≤ ahead h 4 ∧ h.en = false)
      ∧ Holding (onQueue { HQueue.reset with en := true }) (fun s => (s.now.queue 1).en = true)
      ∧ (0x61 / 16 % 16 = 6 ∧ 0x61 / 4 % 4 = 0 ∧ 0x61 % 2 = 1) ∧ (0xC8 / 16 % 16 = 12 ∧ 0xC8 / 4 % 4 = 2 ∧ 0xC8 % 2 = 0)
      ∧ 0x51 / 16 % 16 < 6 ∧ 12 < 0xD1 / 16 % 16 ∧ 0x6D / 4 % 4 = 3 :=
  ⟨holding (by decide +kernel) (by decide +kernel), holding (by decide +kernel) (by decide +kernel), by decide⟩

/-- The first and the last register of the queue pages, and locations just outside; accesses of 4 and 8 bytes, aligned or not. -/
theorem witness_Windows :
    (0x10000 ≤ (0x10000#22).toNat / 8 * 8 ∧ (0x1FFFF#22).toNat / 8 * 8 < 0x20000 ∧ ¬(0x20000#22).toNat / 8 * 8 < 0x20000)
      ∧ ((0x10000#22).toNat / 8 * 8 % 0x2000 = 0 ∧ (0x1E020#22).toNat / 8 * 8 % 0x2000 = 0x20 ∧ (0x1E024#22).toNat / 8 * 8 % 0x2000 = 0x20)
      ∧ ((0x1E028#22).toNat / 8 * 8 ≠ 0x2000 ∧ (0x1E028#22).toNat / 8 * 8 % 0x2000 = 0x28)
      ∧ ¬((2 = 4 ∨ 2 = 8) ∧ 6 % 2 = 0) ∧ ¬((8 = 4 ∨ 8 = 8) ∧ 4 % 8 = 0) ∧ (4 = 4 ∧ 4 % 4 = 0) := by decide

/-- A queue with one command in its ring: the words of `c`, and what stands in the staging region after it. -/
def oneCommand (c : List (Nat × Nat)) (more : Memory) : Mach :=
  { onQueue { HQueue.reset with en := true, tail := 1 } with warm.mem := more.write 0 64 (image c).toNat }

def hostCmd (seq : Nat) (state : CmdState) (words : List (Nat × Nat)) : HostCmd :=
  { seq, queue := 1, index := 0, words := image words, prev := none, record := testRecord launchFields, state, pages := [], moved := 0, busy := false
    failed := false, count := 0, result := none }
where launchFields : List (Nat × Nat) := [(0x050, 1), (0x060, 1), (0x061, 1), (0x0A0, 1), (0x0A2, 1), (0x0A4, 1), (0x0A6, 1)]

/-- A command that no type names; a SIGNAL whose turn has come, and one behind a command that has not started; a LAUNCH. -/
theorem witness_Commands :
    Holding (oneCommand [] []) (fun s => ∃ c, takenBy (.illegalCommand 1) = some (1, HostCmd.unassigned, []) ∧ s.now.headCmd 1 = some c
        ∧ c.unassigned = true ∧ s.now.checkCmd c ≠ 0)
      ∧ Holding (oneCommand [(0, 7)] []) (fun s => ∃ c, s.now.headCmd 1 = some c ∧ (c.kind == 7) = true ∧ s.now.checkCmd c = 0
          ∧ s.now.turn c = true ∧ c.kind ≠ 1)
      ∧ Holding { oneCommand [(0, 7)] [] with cmds := [hostCmd 4 .accepted [(0, 7)]] } (fun s => ∃ c, s.now.headCmd 1 = some c
          ∧ s.now.checkCmd c = 0 ∧ s.now.turn c = false)
      ∧ Holding (oneCommand [(0, 1), (2, 5), (0x18, 512)] (Memory.write [] 512 512 (testRecord hostCmd.launchFields).toNat)) (fun s =>
          ∃ c, s.now.headCmd 1 = some c ∧ (c.kind == 1) = true ∧ s.now.checkCmd c = 0 ∧ s.now.turn c = true) := by
  refine ⟨holding (by decide +kernel) ⟨(oneCommand [] []).headCmd 1 |>.get (by decide +kernel), rfl, ?_⟩, holding (by decide +kernel)
    ⟨(oneCommand [(0, 7)] []).headCmd 1 |>.get (by decide +kernel), ?_⟩, holding (by decide +kernel)
    ⟨({ oneCommand [(0, 7)] [] with cmds := [hostCmd 4 .accepted [(0, 7)]] } : Mach).headCmd 1 |>.get (by decide +kernel), ?_⟩,
    holding (by decide +kernel) ⟨(oneCommand [(0, 1), (2, 5), (0x18, 512)] (Memory.write [] 512 512
      (testRecord hostCmd.launchFields).toNat)).headCmd 1 |>.get (by decide +kernel), ?_⟩⟩ <;> decide +kernel

/-- Command 4 is accepted, and its turn has come. -/
def started (words : List (Nat × Nat)) (W : Warm) (x : List Ctx) : Mach := { base with cmds := [hostCmd 4 .accepted words], warm := W, ctxs := x }

def testPte (moor : Nat) : Pte := { level := 3, va := 65536, word := pteWord 0x40000000 true true false true true false moor, pinned := false }

/-- The page `p` of ASID 1, its tables in the keeper heap, over memory `m`. -/
def mappedWith (p : Pte) (m : Memory) : Warm := ({ Mach.reset.warm with mem := m, used := [(0x4000, 1)] } : Warm).putLeaf 0 1 p

/-- One page of ASID 1, at 65,536, readable and writable. -/
def mapped (moor : Nat) : Warm := mappedWith (testPte moor) []

/-- The command of `words` is accepted, its turn has come, and `P` holds. -/
abbrev AtWork (words : List (Nat × Nat)) (W : Warm) (x : List Ctx) (P : Mach → HostCmd → Prop) : Prop :=
  ((started words W x).cmd? 4 = some (hostCmd 4 .accepted words) ∧ (started words W x).turn (hostCmd 4 .accepted words) = true
    ∧ (hostCmd 4 .accepted words).kind ≠ 1) ∧ P (started words W x) (hostCmd 4 .accepted words)

/-- Each kind of command that a clause names, at work: over a mapped page and beside it, on the last byte of a present page, with and without
its target. -/
theorem witness_CommandsAtWork :
    AtWork [(0, 7), (0x10, 4096)] Mach.reset.warm [] (fun _ c => c.kind = 7)
      ∧ AtWork [(0, 2), (2, 1), (0x18, 65536), (0x20, 65536), (0x28, 0x40000000), (0x30, 0x70)] (mapped 0) [] (fun M c => c.kind = 2
          ∧ M.touches c.asid (c.field 0x18 8) (c.field 0x20 8) = true)
      ∧ AtWork [(0, 2), (2, 1), (0x18, 131072), (0x20, 65536), (0x28, 0x40000000), (0x30, 0x70)] (mapped 0) [] (fun M c => c.kind = 2
          ∧ M.touches c.asid (c.field 0x18 8) (c.field 0x20 8) = false ∧ c.field 0x28 8 ≠ 0)
      ∧ AtWork [(0, 3), (2, 1), (0x18, 65536), (0x20, 65536)] (mapped 0) [] (fun M c => c.kind = 3
          ∧ M.wholePages c.asid (c.field 0x18 8) (c.field 0x20 8) = true)
      ∧ AtWork [(0, 6), (2, 1), (0x18, 131071), (0x20, 64), (0x28, 1)] (mapped 1) [] (fun M c => c.kind = 6 ∧ c.field 0x28 8 = 1
          ∧ M.warm.leaf c.asid (c.field 0x18 8) = some (testPte 1)
          ∧ M.warm.leaf c.asid (c.field 0x18 8 / 65536 * 65536) = some (testPte 1) ∧ pteMoor (testPte 1).word = 1)
      ∧ AtWork [(0, 5), (2, 1), (0x18, 64), (0x20, 65536), (0x28, 1)] (mapped 0) [] (fun M c => c.kind = 5 ∧ c.field 0x28 8 = 1
          ∧ M.warm.leaf c.asid (c.field 0x20 8) = some (testPte 0) ∧ pteMoor (testPte 0).word = 0 ∧ pteSh (testPte 0).word = false)
      ∧ AtWork [(0, 8), (0x18, 3)] Mach.reset.warm [] (fun M c => c.kind = 8 ∧ M.cmd? (c.field 0x18 8) = none) := by decide +kernel

theorem witness_DebugCommandsAtWork :
    AtWork [(0, 9), (0x18, 4), (2, 1)] Mach.reset.warm [] (fun M c => c.kind = 9 ∧ c.debug = 4 ∧ M.placed c.asid = none ∧ M.savedCtx c.asid = none)
      ∧ AtWork [(0, 9), (0x18, 8), (2, 1)] Mach.reset.warm [] (fun M c => c.kind = 9 ∧ c.debug = 8 ∧ M.byAsid c.asid = none)
      ∧ AtWork [(0, 9), (0x18, 1)] Mach.reset.warm [] (fun _ c => c.kind = 9 ∧ c.debug = 1)
      ∧ AtWork [(0, 9), (0x18, 5), (0x1A, 3), (2, 1)] Mach.reset.warm [x0] (fun M c => c.kind = 9 ∧ c.debug = 5 ∧ M.placed c.asid = some x0
          ∧ c.field 0x1A 2 < x0.watch.length ∧ c.field 0x1A 2 < 4)
      ∧ AtWork [(0, 9), (0x18, 6), (0x28, 64), (2, 1)] Mach.reset.warm [x0] (fun M c => c.kind = 9 ∧ c.debug = 6 ∧ M.placed c.asid = some x0
          ∧ c.field 0x28 8 ≠ 0)
      ∧ AtWork [(0, 9), (0x18, 7), (2, 1)] Mach.reset.warm [x0] (fun M c => c.kind = 9 ∧ c.debug = 7 ∧ M.placed c.asid = some x0)
      ∧ (∀ d ∈ [5, 6, 7], AtWork [(0, 9), (0x18, d), (2, 1)] Mach.reset.warm [] (fun M c => c.kind = 9 ∧ c.debug = d ∧ M.savedCtx c.asid = none
          ∧ M.placed c.asid = none ∧ M.queued c.asid = false))
      ∧ (let c : HostCmd := { hostCmd 4 .accepted [(0, 8), (0x18, 3)] with queue := 2 };
          let M := { started [] Mach.reset.warm [] with cmds := [hostCmd 3 .accepted [(0, 7)], c] };
          M.cmd? 4 = some c ∧ M.turn c = true ∧ c.kind = 8 ∧ M.cmd? (c.field 0x18 8) = some (hostCmd 3 .accepted [(0, 7)])
            ∧ (hostCmd 3 .accepted [(0, 7)]).kind ≠ 8) := by
  decide +kernel

theorem witness_ShapeStays : Holding base fun s => ∃ t, step s = .next t := holding (by decide +kernel) ⟨_, rfl⟩

def testImage (kind num : Nat) : Image :=
  { kind, length := 1, svn := 255, body := [7], sig := 0, crc := crc32c [7], num, s0 := 0, w := 65535, fmin := 0 }

def testSlot : FlashSlot := { key := 1, image := testImage 0 0 }

/-- A copy that is not of its length; a built-in routine as the table of R165 bounds it. -/
def badImage (kind : Nat) : Image := { testImage kind 0 with length := 2 }
def routineImage (n : Nat) : Image := { testImage 2 n with s0 := ((builtInBound n).getD (0, 1)).1, w := ((builtInBound n).getD (0, 1)).2 }

/-- Boot with no keeper; with no copy in the flash, two copies, and a bad one before a copy; with no kernel that is whole, one on drive 0, and one on drive 1; without a
built-in routine, and with all of them; with and without calibration data and configuration, and with one drive left or two. Whether a signature verifies is
computed by R32: the two cases stand side by side. -/
theorem witness_Boot :
    Holding { Mach.reset with keepers.present := List.replicate 16 false } (fun s => s.now.keepers.present.any id = false)
      ∧ Holding Mach.reset (fun s => s.now.keepers.present.any id = true ∧ s.now.keepers.bootPhase = 0
        ∧ (∀ f, s.now.keepers.flash[0]? = some f → FlashSlot.good f = false) ∧ ∀ f, s.now.keepers.flash[1]? = some f → FlashSlot.good f = false)
      ∧ (∀ g, FlashSlot.good testSlot = g → Holding { Mach.reset with keepers.flash := [testSlot, testSlot] } (fun s =>
          s.now.keepers.present.any id = true ∧ s.now.keepers.bootPhase = 0 ∧ s.now.keepers.flash[0]? = some testSlot
            ∧ s.now.keepers.flash[1]? = some testSlot ∧ FlashSlot.good testSlot = g))
      ∧ (∀ l ∈ [([], 0), ([some (badImage 1)], 1)], Image.good 0 (testImage 1 0) = true → Holding { Mach.reset with
            keepers.bootPhase := 1, keepers.drives := if l.2 = 0 then [[testImage 1 0], []] else [[badImage 1], [testImage 1 0]] } (fun s =>
          s.now.keepers.bootPhase = 1 ∧ (380#11) ≠ 0 ∧ (380#11).toNat ≤ 380 ∧ s.now.keepers.rootKey = 0
            ∧ (∃ r, s.now.keepers.copies 1 0 = l.1 ++ some (testImage 1 0) :: r) ∧ ∀ j, some j ∈ l.1 → Image.good 0 j = false))
      ∧ Holding { Mach.reset with keepers.bootPhase := 1, keepers.drives := [[badImage 1], []] } (fun s => s.now.keepers.bootPhase = 1
          ∧ ∀ j, some j ∈ s.now.keepers.copies 1 0 → Image.good s.now.keepers.rootKey j = false)
      ∧ Holding { Mach.reset with keepers.bootPhase := 2, keepers.drives := [[testImage 2 15], []] } (fun s => s.now.keepers.bootPhase = 2 ∧ 15 ∈ builtIn
          ∧ ∀ d ∈ s.now.keepers.drives, ∀ i ∈ d, Image.routineOk i = false)
      ∧ ((∀ n ∈ builtIn, Image.good 0 (routineImage n) = true) → Holding { Mach.reset with
            keepers.bootPhase := 2, keepers.drives := [builtIn.map routineImage, []] } (fun s => s.now.keepers.bootPhase = 2 ∧ s.now.keepers.rootKey = 0
          ∧ ∀ n ∈ s.now.keepers.routineNums, s.now.keepers.copies 2 n = [some (routineImage n), none] ∧ Image.routineOk (routineImage n) = true))
      ∧ (∀ l ∈ [(false, (4 : BitVec 4)), (true, 0xE)], Holding { Mach.reset with
            keepers.bootPhase := 3, keepers.drives := [[testImage 3 0, testImage 4 0], []], keepers.lost := [false, l.1] } (fun s =>
          s.now.keepers.bootPhase = 3 ∧ s.now.keepers.loadData.bootPhase = l.2
            ∧ (∀ n ∈ [3, 4], ∃ r, s.now.keepers.copies n 0 = some (testImage n 0) :: r ∧ Image.good s.now.keepers.rootKey (testImage n 0) = true)
            ∧ s.now.keepers.lost.any id = l.1))
      ∧ Holding { Mach.reset with keepers.bootPhase := 3 } (fun s => s.now.keepers.bootPhase = 3
          ∧ ∀ n ∈ [3, 4], (s.now.keepers.copies n 0).all (·.isNone) = true) := by
  refine ⟨holding (by decide +kernel) (by decide +kernel), holding (by decide +kernel) ⟨rfl, rfl, (by intro f h; cases h), (by intro f h; cases h)⟩,
    fun g hg => holding (by decide +kernel) ⟨rfl, rfl, rfl, rfl, hg⟩, ?_, holding (by decide +kernel) ⟨rfl, ?_⟩,
    holding (by decide +kernel) (by decide +kernel), fun _ => holding (by decide +kernel) (by decide +kernel), ?_,
    holding (by decide +kernel) (by decide +kernel)⟩
  · simp only [List.forall_mem_cons]
    exact ⟨fun _ => holding (by decide +kernel) ⟨rfl, by decide, by decide, rfl, ⟨[none], by decide +kernel⟩, by simp⟩,
      fun _ => holding (by decide +kernel) ⟨rfl, by decide, by decide, rfl, ⟨[], by decide +kernel⟩, by
        intro j h; simp only [List.mem_singleton, Option.some.injEq] at h; subst h; decide +kernel⟩, by simp⟩
  · intro j h
    rw [show ({ State.reset with now := { Mach.reset with keepers.bootPhase := 1, keepers.drives := [[badImage 1], []] } } : State).now.keepers.copies 1 0
      = [some (badImage 1), none] by decide +kernel] at h
    simp only [List.mem_cons, Option.some.injEq, reduceCtorEq, List.not_mem_nil, or_false] at h
    subst h
    decide +kernel
  · simp only [List.forall_mem_cons]
    exact ⟨holding (by decide +kernel) ⟨rfl, by decide +kernel, ⟨⟨[none], by decide +kernel⟩, ⟨[none], by decide +kernel⟩, by simp⟩, by decide⟩,
      holding (by decide +kernel) ⟨rfl, by decide +kernel, ⟨⟨[], by decide +kernel⟩, ⟨[], by decide +kernel⟩, by simp⟩, by decide⟩, by simp⟩

/-- A command whose work is done, with each status; the first and the last installed routine; the drives with one left and none; the clock with and
without its lock. -/
theorem witness_Services :
    (∀ st ∈ [0, 5], let c := { hostCmd 4 .started [(0, 7)] with result := some (st, 1) };
        ({ base with cmds := [c] } : Mach).cmd? 4 = some c ∧ c.state = .started ∧ c.result = some (st, 1))
      ∧ base.accepting = true ∧ Mach.reset.accepting = false ∧ base.keepers.meas.length = 8
      ∧ (∀ n ∈ [16, 63], (testImage 2 n).kind = 2 ∧ 16 ≤ (testImage 2 n).num ∧ (testImage 2 n).num ≤ 63 ∧ 1 ≤ (testImage 2 n).w
          ∧ (testImage 2 n).w ≤ 65535)
      ∧ Image.good 0 { testImage 2 16 with length := 2 } = false
      ∧ ([true, false] : List Bool).any (!·) = true ∧ ([true, true] : List Bool).all id = true
      ∧ ({ base with links.locked := true } : Mach).links.locked = true ∧ (1000000 < (1000001 : Int) ∧ (1000000 : Int) ≤ 1000000)
      ∧ base.links.locked = false := by decide +kernel

/-- A cold stage in a state since 7 ns of the station clock. -/
def cooling (st : Fin 8) (t : BitVec 16) (fresh : Bool) (clock : Nat) : Mach :=
  { base with cold.state := st, cold.entered := 7, cold.t4k := t, keepers.fresh := fresh, links.clock := clock }

/-- Each state of the cold stage, and each threshold and each time from both of its sides; a stage that is to calibrate, cold and too warm, with and
without drives that need the data. -/
theorem witness_ColdStates : ∀ n : Fin 8, ({ base with cold.state := n } : Mach).cold.state = n ∧ ({ base with cold.state := n } : Mach).monitored = true := by
  decide +kernel

theorem witness_ColdStage :
    (4500 ≤ 4500 ∧ 4500 < 4501) ∧ (4400 ≤ 4400 ∧ ¬4401 ≤ 4400) ∧ (4800 < 4801 ∧ ¬4800 < 4800) ∧ (280000 ≤ 280000 ∧ ¬280000 ≤ 279999)
      ∧ (∀ st m, (cooling st 0 false m).cold.state = st ∧ (cooling st 0 false m).cold.entered = 7 ∧ (cooling st 0 false m).links.clock = m)
      ∧ (∀ n ∈ [600, 300], 7 + n * 1000000000 ≤ 7 + n * 1000000000 ∧ 6 + n * 1000000000 < 7 + n * 1000000000)
      ∧ (∀ fresh t, (cooling 3 t fresh 0).cold.state = 3 ∧ (cooling 3 t fresh 0).cold.t4k = t ∧ (cooling 3 t fresh 0).keepers.fresh = fresh
          ∧ (cooling 3 t fresh 0).keepers.meas.length = 8 ∧ (cooling 3 t fresh 0).keepers.drives[1]? = some []
          ∧ (cooling 3 t fresh 0).keepers.lost[1]? = some false)
      ∧ (4800#16).toNat ≤ 4800 ∧ 4800 < (4801#16).toNat ∧ (some [7] : Option (List Byte)) ≠ none ∧ base.accepting = true :=
  ⟨by decide, by decide, by decide, by decide, fun _ _ => ⟨rfl, rfl, rfl⟩, fun _ _ => by omega, fun _ _ => ⟨rfl, rfl, rfl, rfl, rfl, rfl⟩, by decide,
    by decide, by decide, by decide +kernel⟩

/-- The last core to the last place of its group; a core of a cluster in use; one keeper of two, and the last; a drive in service and during boot. -/
theorem witness_Parts :
    Holding base (fun s => 271 / 68 = 255 / 64 ∧ (∀ x ∈ s.now.ctxs, x.taken.contains (255 / 8) = false)
        ∧ ∀ q, q / 64 = 255 / 64 → q ≠ 255 → (SMap.find s.now.cold.coreMap q).getD (68 * (q / 64) + q % 64) ≠ 271)
      ∧ Holding base (fun s => 2175 / 68 = 2047 / 64 ∧ (∀ x ∈ s.now.ctxs, x.taken.contains (2047 / 64) = false) ∧ s.now.ctxs = []
        ∧ ∀ q, q / 64 = 2047 / 64 → q ≠ 2047 → (SMap.find s.now.cold.laneMap q).getD (68 * (q / 64) + q % 64) ≠ 2175)
      ∧ Holding { base with ctxs := [seat x0 c0] } (fun s => ∃ x ∈ s.now.ctxs, x.taken.contains (7 / 8) = true ∧ x.taken.contains (63 / 64) = true)
      ∧ Holding { base with keepers.present := List.replicate 15 false ++ [true] } (fun s => s.now.keepers.present.getD (15#4).toNat false = true
          ∧ (setAt s.now.keepers.present (15#4).toNat false).any id = false ∧ s.now.keepers.lost.all id = false ∧ s.now.accepting = true)
      ∧ Holding base (fun s => (setAt s.now.keepers.present (0#4).toNat false).any id = true ∧ s.now.keepers.bootPhase = 4)
      ∧ Holding { base with keepers.bootPhase := 5 } (fun s => s.now.keepers.bootPhase ≠ 4) := by
  refine ⟨holding (by decide +kernel) ⟨by decide, (by intro x h; cases h), ?_⟩, holding (by decide +kernel) ⟨by decide, (by intro x h; cases h), rfl, ?_⟩,
    holding (by decide +kernel) ⟨_, .head _, by decide +kernel⟩, holding (by decide +kernel) (by decide +kernel), holding (by decide +kernel) (by decide +kernel), holding (by decide +kernel) (by decide +kernel)⟩
  all_goals
    intro q hq _
    first
      | rw [show SMap.find ({ State.reset with now := base } : State).now.cold.coreMap q = none from rfl]
      | rw [show SMap.find ({ State.reset with now := base } : State).now.cold.laneMap q = none from rfl]
    simp only [Option.getD_none]
    omega

def testFlit (crc : BitVec 32) (cls : Nat) (msg : Msg) : Flit := { seq := 0, cls, acks := [0, 0, 0], payload := 1, crc, msg := some msg }

/-- The CRC of that payload. -/
def testCrc : BitVec 32 := crc32c (toBytes 252 1)

/-- A flit of the last class, and one of a class that does not exist; a bad CRC; a port that is retraining, with nothing held and with one write held, and
one that is not; the port by which a module is reached; a context that has not ended, of the ASID of a completion, and none. -/
theorem witness_Dretex :
    Holding base (fun s => let q := s.now.links.ports.getD 7 Port.reset
        (testCrc = (testFlit (testCrc) 2 (.keeper [])).crc ∧ (testFlit (testCrc) 2 (.keeper [])).cls ≤ 2
          ∧ (testFlit 0 2 (.keeper [])).seq = SMap.get 0 q.expect 2) ∧ testCrc ≠ 0 ∧ 2 < 3 ∧ q.retraining = false ∧ s.now.byAsid 1 = none)
      ∧ (∀ held ∈ [[], [{ testFlit (testCrc) 1 (.write 1 2 [] 1 [(65544, 5, 255)]) with acks := [] }]], Holding { base with
          links.ports := List.replicate 7 Port.reset ++ [{ Port.reset with retraining := true, heldIn := held }] } (fun s =>
        let q := s.now.links.ports.getD 7 Port.reset
        q.retraining = true ∧ q.heldIn = held ∧ q.heldOut = [] ∧ ∀ f ∈ held, f.cls ≤ 2 ∧ f.seq = SMap.get 0 q.expect f.cls ∧ f.acks = []))
      ∧ Holding { base with ctxs := [seat x0 c0] } (fun s => ∃ x, s.now.byAsid 1 = some x ∧ x.run ≠ .ended)
      ∧ ({ testFlit testCrc 1 (.keeper []) with msg := none } : Flit).msg = none
      ∧ ∃ p : BitVec 3, (Config.route 1).val = p.toNat := by
  simp only [List.forall_mem_cons]
  exact ⟨holding (by decide +kernel) (by decide +kernel), ⟨holding (by decide +kernel) (by decide +kernel),
    holding (by decide +kernel) (by decide +kernel), by simp⟩, holding (by decide +kernel) ⟨_, rfl, by decide +kernel⟩, trivial,
    BitVec.ofNat 3 (Config.route 1).val, by rw [BitVec.toNat_ofNat, Nat.mod_eq_of_lt (Config.route 1).isLt]⟩

def waiting (since : Nat) (ring : Option Nat) (saved : Option Ctx) : Waiting :=
  { cmd := 4, asid := 5, record := testRecord hostCmd.launchFields, prio := 0, since, blocked := none, ring, saved }

/-- A LAUNCH whose turn has come, and its queue with one place left and none; a launch that has waited 50 ms to the nanosecond, and one that is a nanosecond
short, with the next queue empty and full; one that found that queue full a millisecond ago; one that has no ring yet, with HBM free and full, and one that has a
place. -/
theorem witness_Launches :
    (∀ n ∈ [63, 64], Holding { base with
        cmds := [hostCmd 4 .accepted [(0, 1)]], launch := [List.replicate n { waiting 0 none none with cmd := 3 }, [], [], []] } (fun s => let c := hostCmd 4 .accepted [(0, 1)]
          s.now.cmd? 4 = some c ∧ c.kind = 1 ∧ s.now.turn c = true ∧ (∀ l ∈ s.now.launch, ∀ w ∈ l, w.cmd ≠ 4)
            ∧ (s.now.launch.getD (recField c.record 0x002 1 % 4) []).length = n))
      ∧ Holding { base with links.clock := 50000009, launch := [[waiting 10 none none, waiting 9 none none], [], [], []] } (fun s =>
          s.now.launch.getD 0 [] = [waiting 10 none none] ++ waiting 9 none none :: [] ∧ (waiting 9 none none).rises s.now.links.clock = true
            ∧ (∀ u ∈ [waiting 10 none none], u.rises s.now.links.clock = false) ∧ (s.now.launch.getD 1 []).length < 64)
      ∧ Holding { base with links.clock := 50000009, launch := [[], [], [waiting 9 none none], List.replicate 64 (waiting 0 none none)] } (fun s =>
          s.now.launch.getD 2 [] = [waiting 9 none none] ∧ (waiting 9 none none).rises s.now.links.clock = true ∧ 64 ≤ (s.now.launch.getD 3 []).length)
      ∧ (∀ l ∈ [(49, true), (50, false)], ({ waiting 0 none none with blocked := some l.1 } : Waiting).rises 50000009 = l.2)
      ∧ Holding { base with launch := [[waiting 0 none none], [], [], []] } (fun s => (s.now.launch.getD 0 []).head? = some (waiting 0 none none)
          ∧ (∀ n < 4, 0 < n → (s.now.ringFor [0x4000] n).isNone = true) ∧ s.now.ringFree 0x4000 (16 * recUndo (waiting 0 none none).record) = true)
      ∧ Holding { base with launch := [[waiting 0 none none], [], [], []], warm := { Mach.reset.warm with used := [(0, 0x600000)] } } (fun s =>
          (∀ n < 4, 0 < n → (s.now.ringFor [0x4000] n).isNone = true) ∧ s.now.ringFree 0x4000 (16 * recUndo (waiting 0 none none).record) = false
            ∧ s.now.ringFits (16 * recUndo (waiting 0 none none).record) = false ∧ s.now.stuck = true ∧ s.now.freeing = false)
      ∧ Holding { base with launch := [[waiting 0 (some 0x4000) none], [], [], []] } (fun s => s.now.head? = some (0, waiting 0 (some 0x4000) none)
          ∧ s.now.cold.state = 4 ∧ s.now.safe = false ∧ s.now.holdsAsid 5 = false ∧ ∃ place, placeAmong s.now.ctxs (waiting 0 none none).record
            (s.now.timesOf 5 (waiting 0 none none).record) none = some place) := by
  simp only [List.forall_mem_cons]
  exact ⟨⟨holding (by decide +kernel) (by decide +kernel), holding (by decide +kernel) (by decide +kernel), by simp⟩,
    holding (by decide +kernel) (by decide +kernel), holding (by decide +kernel) (by decide +kernel), by decide +kernel,
    holding (by decide +kernel) (by decide +kernel), holding (by decide +kernel) (by decide +kernel),
    holding (by decide +kernel) ⟨by decide +kernel, by decide +kernel, by decide +kernel, by decide +kernel,
      (placeAmong [] (waiting 0 none none).record (base.timesOf 5 (waiting 0 none none).record) none).get (by decide +kernel), by decide +kernel⟩⟩

/-! Witnesses: contexts. -/

/-- A machine with the context `x`, of which core 0 is `c`. -/
def having (x : Ctx) (c : Core) : Mach := { base with ctxs := [seat x c] }

/-- A name of `.text.` and one stream, and a section header for one word of it. -/
def textName (c : Nat) : List Nat := [46, 116, 101, 120, 116, 46, c, 46, 0]

def sectionHeader (i : Nat) : Nat := (1 + 9 * i) + 2 ^ 32 + 6 * 2 ^ 64 + (488 + 4 * i) * 2 ^ 192 + 4 * 2 ^ 256 + 4 * 2 ^ 448

/-- A code object of four words, one of each stream: header, six section headers, names, text (R382, R383). -/
def testObject : Memory :=
  let header : Nat := 0x464C457F + 2 ^ 32 * (2 + 2 ^ 8 + 2 ^ 16) + 2 ^ 128 * (3 + 2 ^ 16 * 0x5A17 + 2 ^ 32) + 2 ^ 320 * 64 + 2 ^ 480 * 6 + 2 ^ 496 * 5
  let names := 0 :: textName 115 ++ textName 118 ++ textName 109 ++ textName 120
  let at' := 0x40000000
  let m := Memory.write [] at' 64 header
  let m := (List.range 4).foldl (fun m i => Memory.write m (at' + 128 + 64 * i) 64 (sectionHeader i)) m
  let m := Memory.write m (at' + 384) 64 (3 * 2 ^ 32 + 448 * 2 ^ 192 + 37 * 2 ^ 256)
  Memory.write (Memory.write m (at' + 448) 37 (pack 8 names)) (at' + 488) 4 0xF8030000

/-- A context that is to load the object at 65,536. -/
def loadingCtx : Ctx := { testCtx [(0x008, 65536), (0x050, 1)] with run := .loading }

def loadable (mem : Memory) : Mach :=
  { having loadingCtx c0 with warm := mappedWith { testPte 0 with word := pteWord 0x40000000 true true true true true false 0 } mem }

theorem loads_of (p : Mach × Except LoadErr Loaded) (h : (match p.2 with | .ok _ => true | _ => false) = true) : ∃ N l, p = (N, .ok l) := by
  obtain ⟨N, r⟩ := p
  cases r with
  | ok l => exact ⟨N, l, rfl⟩
  | error e => cases h

theorem illegal_of (p : Mach × Except LoadErr Loaded) (h : (match p.2 with | .error .illegal => true | _ => false) = true) :
    ∃ N, p = (N, .error .illegal) := by
  obtain ⟨N, r⟩ := p
  cases r with
  | ok l => cases h
  | error e => cases e <;> first | exact ⟨N, rfl⟩ | cases h

/-- The object loads; without its header it does not. -/
theorem witness_Loads :
    Holding (loadable testObject) (fun s => (s.now.ctx? 0 = some (seat loadingCtx c0) ∧ (seat loadingCtx c0).run = .loading
        ∧ s.now.loaderHalted = false ∧ s.now.safe = false ∧ (seat loadingCtx c0).header.nomem = false) ∧ ∃ N l, s.now.load (seat loadingCtx c0) [] [] = (N, .ok l))
      ∧ Holding (loadable []) (fun s => (s.now.ctx? 0 = some (seat loadingCtx c0) ∧ s.now.loaderHalted = false ∧ s.now.safe = false)
          ∧ ∃ N, s.now.load (seat loadingCtx c0) [] [] = (N, .error .illegal)) :=
  ⟨holding (by decide +kernel) ⟨by decide +kernel, loads_of _ (by decide +kernel)⟩,
    holding (by decide +kernel) ⟨by decide +kernel, illegal_of _ (by decide +kernel)⟩⟩

/-- The slot before the start and the slot of the start; the last iteration but one of a serial level; a saved context that waits. -/
theorem witness_Starts :
    Holding { having { x0 with run := .starting 5 } c0 with mslot := 5 } (fun s => ∃ x, s.now.ctx? 0 = some x ∧ x.run = .starting 5
        ∧ 5 ≤ s.now.mslot ∧ x.cslot = 0)
      ∧ Holding { having { x0 with run := .starting 5 } c0 with mslot := 4 } (fun s => ∃ x, s.now.ctx? 0 = some x ∧ x.run = .starting 5
          ∧ s.now.mslot < 5)
      ∧ Holding (having { testCtx [(0x003, 1), (0x0C8, 3 + 2 ^ 32 * 6)] with next := some 7, cslot := 7, serial := [1] } c0) (fun s => ∃ x,
          s.now.ctx? 0 = some x ∧ x.run = .running ∧ x.next = some x.cslot ∧ nextSerial x.serialExtents x.serial = some [2])
      ∧ Holding { base with launch := [[{ waiting 0 (some 0x4000) (some { x0 with asid := 5 }) with record := x0.record }], [], [], []] } (fun s =>
          ∃ w y place, s.now.head? = some (0, w) ∧ w.saved = some y ∧ s.now.cold.state = 4 ∧ s.now.safe = false
            ∧ placeAmong s.now.ctxs y.record y.code.time (some y.phase) = some place) := by
  refine ⟨holding (by decide +kernel) ⟨_, rfl, rfl, by decide, rfl⟩, holding (by decide +kernel) ⟨_, rfl, rfl, by decide⟩,
    holding (by decide +kernel) ⟨_, rfl, rfl, rfl, by decide +kernel⟩,
    holding (by decide +kernel) ⟨{ waiting 0 (some 0x4000) (some { x0 with asid := 5 }) with record := x0.record }, { x0 with asid := 5 },
      (placeAmong [] x0.record [] (some 0)).get (by decide +kernel), by decide +kernel, rfl, rfl, by decide +kernel, by decide +kernel⟩⟩

/-- A wheel point of a context that runs, of one that dwells for the foghorn with it clear and sounding, and no wheel point; E at each of its thresholds
and one above, and at the 64th wheel above the last. -/
theorem witness_WheelPoints :
    (let s : State := { State.reset with now := { having { x0 with run := .dwelling 1 0 2, phase := 16 } c0 with mslot := 4112 } }
      ∃ x, s.now.ctx? 0 = some x ∧ x.begun = true ∧ s.now.mslot % 4096 = x.phase ∧ ¬(x.run = .running ∧ s.now.mslot = x.origin)
        ∧ x.run = .dwelling 1 0 2 ∧ s.now.cold.foghorn = false ∧ 1 < s.now.mslot)
      ∧ (let s : State := { State.reset with now := having x0 c0 }
          ∃ x, s.now.ctx? 0 = some x ∧ x.run = .running ∧ s.now.mslot = x.origin)
      ∧ (∀ e ∈ [20480000000, 20480000001, 28672000000, 28672000001, 40960000000, 40960000001],
          let s : State := { State.reset with now := { base with cold.charge := 3, cold.history := [1, e - 4], cold.hot := 63 } }
          s.now.cold.history.foldl (· + ·) s.now.cold.charge = e ∧ s.now.mslot % 4096 = 0 ∧ s.now.cold.hot + 1 = 64
            ∧ s.now.cold.foghorn = false)
      ∧ (seat x0 c0).live = true ∧ (seat x0 c0).asked 0x30 = false
      ∧ (seat { x0 with stops := [{ slot := 0, cause := { core := 0, lid := 0, code := 0x30, stream := 4, word := 0, port := 0, detail := 0 } }] } c0).asked 0x30
          = true
      ∧ ({ base with mslot := 4095 } : Mach).mslot % 4096 ≠ 0 :=
  ⟨⟨_, rfl, by decide +kernel⟩, ⟨_, rfl, by decide +kernel⟩, by decide +kernel, by decide +kernel, by decide +kernel, by decide +kernel, by decide⟩

/-- A core held at beacon 7, of the cluster; the release slot, and the slot before; with HEAT one above zero, at zero, and with the foghorn; a beacon of every
replica, before and after their arrivals. -/
def barredCtx (domain : Nat) : Ctx := { testCtx [(0x06F, domain), (0x05C, 3)] with cslot := 9 + barrierLatency domain }
def barredCore : Core := { c0 with barred := some (7, 9) }

/-- The arrival at beacon 7 of the replica of module `h`. -/
def arrivedHere (h : Nat) : List Arrival := [{ src := h, asid := 1, beacon := some 7, slot := 9 + barrierLatency 4 }]

/-- What has arrived is the same whichever module of the launch this one is. -/
theorem allArrived_self {L : Links} {x : Ctx} {b : Option (BitVec 3)} {r : Nat} (v : Bool)
    (h : (∀ n : BitVec 5, ((((List.range 32).filter fun i => (x.field 0x05C 4).testBit i && i != n.toNat).all fun h =>
      L.arrived.contains { src := h, asid := x.asid, beacon := b, slot := r }) == v) = true)) : L.allArrived x b r = v := by
  simpa [Links.allArrived, Ctx.others] using h Config.self

theorem witness_Releases :
    (∀ h ∈ [(1 : Int), 0], Holding (having { barredCtx 1 with heat := h } barredCore) (fun s => ∃ x, s.now.ctx? 0 = some x ∧ x.run = .running
        ∧ x.releaseSlot 7 (x.instance' 7 0) = some x.cslot ∧ x.beacon 7 ≠ 4 ∧ x.heat = h ∧ x.dwelt ≠ some (2 * x.cslot)
        ∧ x.dwelt ≠ some (2 * x.cslot + 1)))
      ∧ Holding { having (barredCtx 1) barredCore with cold.foghorn := true } (fun s => ∃ x, s.now.ctx? 0 = some x
          ∧ x.releaseSlot 7 (x.instance' 7 0) = some x.cslot ∧ ¬0 < x.heat ∧ s.now.cold.foghorn = true ∧ x.dwelt ≠ some (2 * x.cslot + 1))
      ∧ Holding (having { barredCtx 1 with cslot := 8 + barrierLatency 1 } barredCore) (fun s => ∃ x, s.now.ctx? 0 = some x
          ∧ x.releaseSlot 7 (x.instance' 7 0) ≠ some x.cslot)
      ∧ Holding (having (barredCtx 4) barredCore) (fun s => ∃ x, s.now.ctx? 0 = some x ∧ x.run = .running
          ∧ x.releaseSlot 7 (x.instance' 7 0) = some x.cslot ∧ x.beacon 7 = 4 ∧ x.replay = none ∧ x.signalled.contains (7, x.cslot) = false)
      ∧ (∀ l ∈ [([], false), (arrivedHere 0 ++ arrivedHere 1, true)], Holding { having { barredCtx 4 with run := .dwelling 0 0 3 } barredCore with
          links.arrived := l.1 } (fun s => ∃ x, s.now.ctx? 0 = some x ∧ x.run = .dwelling 0 0 3 ∧ s.now.links.allArrived x (some 7) x.cslot = l.2)) := by
  simp only [List.forall_mem_cons]
  refine ⟨⟨holding (by decide +kernel) ⟨_, rfl, by decide +kernel⟩, holding (by decide +kernel) ⟨_, rfl, by decide +kernel⟩, by simp⟩,
    holding (by decide +kernel) ⟨_, rfl, by decide +kernel⟩, holding (by decide +kernel) ⟨_, rfl, by decide +kernel⟩,
    holding (by decide +kernel) ⟨_, rfl, by decide +kernel⟩, holding (by decide +kernel) ⟨_, rfl, rfl, allArrived_self false (by decide +kernel)⟩,
    holding (by decide +kernel) ⟨_, rfl, rfl, allArrived_self true (by decide +kernel)⟩, by simp⟩

/-- The last slot of a hold and the one after it; a context at its limit without and with a checkpoint; a core whose halt has nothing in flight, and one that
has not halted. -/
theorem witness_Holds :
    Holding (having { x0 with cslot := 9 } { c0 with hold := some (1, 8) }) (fun s => ∃ x c, s.now.ctx? 0 = some x ∧ x.core? 0 = some c
        ∧ x.run = .running ∧ c.hold = some (1, 8) ∧ 8 < x.cslot)
      ∧ Holding (having { x0 with cslot := 8 } { c0 with hold := some (1, 8) }) (fun s => ∃ x c, s.now.ctx? 0 = some x ∧ x.core? 0 = some c
          ∧ ∀ a u, c.hold = some (a, u) → x.cslot ≤ u)
      ∧ Holding (having { testCtx [(0x050, 8)] with cslot := 8 } c0) (fun s => ∃ x c, s.now.ctx? 0 = some x ∧ x.run = .running
          ∧ x.lastCkpt + x.field 0x050 4 = x.cslot ∧ (∀ d ∈ x.cores, d.ckpt = none) ∧ x.cores.find? (fun c => !c.idle) = some c)
      ∧ Holding (having { testCtx [(0x050, 8)] with cslot := 8 } { c0 with ckpt := some { ovl := none, tab := 0, word := 0 } }) (fun s => ∃ x,
          s.now.ctx? 0 = some x ∧ ∃ d ∈ x.cores, d.ckpt ≠ none)
      ∧ Holding (having { x0 with cslot := 9 } { c0 with halt := some 3 }) (fun s => ∃ x c, s.now.ctx? 0 = some x ∧ x.core? 0 = some c
          ∧ x.run = .running ∧ x.halts c = true)
      ∧ Holding (having x0 c0) (fun s => ∃ x c, s.now.ctx? 0 = some x ∧ x.core? 0 = some c ∧ x.halts c = false) := by
  refine ⟨holding (by decide +kernel) ⟨_, _, rfl, rfl, by decide +kernel⟩, holding (by decide +kernel) ⟨_, _, rfl, rfl, ?_⟩,
    holding (by decide +kernel) ⟨_, c0, rfl, by decide +kernel⟩, holding (by decide +kernel) ⟨_, rfl, _, .head _, by decide⟩,
    holding (by decide +kernel) ⟨_, _, rfl, rfl, by decide +kernel⟩, holding (by decide +kernel) ⟨_, _, rfl, rfl, by decide +kernel⟩⟩
  intro a u h
  cases h
  decide

def frozenCtx (since : Nat) (thaw : Option Nat) (h : Header) : Ctx := { x0 with run := .frozen since thaw, header := h }

/-- A service that is answered may thaw, and a fault may not; a freeze at 5 that was thawed at 10 resumes at the first slot of its phase, 64 slots later: the slot
before, and that slot; the last wheel of a dwell, and the slot before. -/
theorem witness_Thaws :
    (let x := seat (frozenCtx 5 none { Header.none with cause := 0x33, serviced := true }) c0;
      ({ State.reset with now := having x c0 } : State).now.ctx? 0 = some x ∧ x.mayThaw = true ∧ x.run = .frozen 5 none)
      ∧ (seat (frozenCtx 5 none { Header.none with cause := 0x13 }) c0).mayThaw = false
      ∧ (seat (frozenCtx 5 none Header.none) c0).core? 0 = some c0 ∧ c0.idx = 0 ∧ (seat x0 c0).run = .running
      ∧ 0 < (seat (frozenCtx 5 none Header.none) c0).pools.length ∧ (10 + 64 ≤ 4101 ∧ 4101 % 4096 = 5 % 4096 ∧ 4101 < 10 + 64 + 4096 ∧ 4100 < 4101)
      ∧ (seat (frozenCtx 5 (some 10) Header.none) c0).run = .frozen 5 (some 10) ∧ (seat (frozenCtx 5 (some 10) Header.none) c0).stopsNow = []
      ∧ (2 ≠ 0 ∧ 7 + 4096 * 2 ≤ 8199 ∧ 8198 < 7 + 4096 * 2) ∧ (seat { x0 with run := .dwelling 7 2 0 } c0).run = .dwelling 7 2 0 := by decide +kernel

/-- A move of the page at 65,536, for host command 4. -/
def testMove (up : Bool) : Move :=
  { asid := 1, vpn := 65536, old := 0x40000000, size := 65536, up, frame := 0x4001, who := [(256, 4)], mark := 7 }

/-- A trap of each service that a clause names, its count at the limit and above; a full undo log; a pre-emption with nothing held; an open dump. -/
theorem witness_Frozen :
    (∀ l ∈ [(0, 0), (1, 0), (0x800, 4096), (0x800, 4097), (7, 0)], Holding (having (frozenCtx 5 none { Header.none with cause := 0x33 })
        { c0.setG 7 (BitVec.ofNat 64 l.2) with record := { Record.none with cause := 0x33, detail := BitVec.ofNat 64 l.1 } }) (fun s => ∃ x c,
          s.now.ctx? 0 = some x ∧ x.core? 0 = some c ∧ x.run = .frozen 5 none ∧ x.header.cause = 0x33 ∧ x.header.serviced = false
            ∧ x.header.spill = false ∧ c.idle = false ∧ c.record.cause = 0x33 ∧ c.record.detail.toNat = l.1 ∧ (c.g 7).toNat = l.2
            ∧ (c.g 6).toNat + 4096 ≤ 0x20000))
      ∧ Holding (having (frozenCtx 5 none { Header.none with cause := 0x33, spill := true }) c0) (fun s => ∃ x, s.now.ctx? 0 = some x
          ∧ x.run = .frozen 5 none ∧ x.header.cause = 0x33 ∧ x.header.serviced = false ∧ x.header.spill = true)
      ∧ (∀ l ∈ [([], false), ([{ testReq 1 .write .store with held := true }], true)],
          Holding (having { frozenCtx 5 none { Header.none with cause := 0x32 } with reqs := l.1 } c0) (fun s => ∃ x z, s.now.ctx? 0 = some x
            ∧ x.run = .frozen 5 none ∧ x.header.cause = 0x32 ∧ x.header.serviced = false ∧ x.header.fatal = false ∧ x.reqs = l.1 ∧ x.cmds = []
            ∧ x.xings = [] ∧ (s.now.finishWarm 0).ctx? 0 = some z ∧ z.unfinished (s.now.finishWarm 0) = l.2))
      ∧ (∀ who ∈ [[], [(1, 4)]], Holding { having (frozenCtx 5 none Header.none) c0 with
            warm := { Mach.reset.warm with moves := [{ testMove true with who }] },
            keepers.dumps := [{ slot := 0, asid := 1, file := [], noteAt := 0, noteLen := 0, isOpen := true, short := false }] } (fun s => ∃ x,
          s.now.ctx? 0 = some x ∧ (s.now.movesOf x = [] ↔ who = []) ∧ ∃ d ∈ s.now.keepers.dumps, d.isOpen = true ∧ d.slot = 0 ∧ d.asid = x.asid)) := by
  simp only [List.forall_mem_cons]
  refine ⟨⟨?_, ?_, ?_, ?_, ?_, by simp⟩, holding (by decide +kernel) ⟨_, rfl, by decide +kernel⟩,
    ⟨holding (by decide +kernel) ⟨_, _, rfl, rfl, rfl, rfl, rfl, rfl, rfl, rfl, rfl, by decide +kernel⟩,
      holding (by decide +kernel) ⟨_, _, rfl, rfl, rfl, rfl, rfl, rfl, rfl, rfl, rfl, by decide +kernel⟩, by simp⟩,
    ⟨holding (by decide +kernel) ⟨_, rfl, by decide +kernel, _, .head _, rfl, rfl, rfl⟩,
      holding (by decide +kernel) ⟨_, rfl, by decide +kernel, _, .head _, rfl, rfl, rfl⟩, by simp⟩⟩ <;>
    exact holding (by decide +kernel) ⟨_, _, rfl, rfl, by decide +kernel⟩

/-- A stop for an imprecise hit and one that is none; entries of each space, of which one is of the window and one is another kind; a core of a window that is restored. -/
theorem witness_Restores :
    (let x := seat x0 c0;
      (∀ e ∈ [testUndo 1 1 0 64 7, testUndo 1 0 0 64 7], e.core / 8 < x.pools.length ∧ x.core? e.core = some c0)
        ∧ (mapped 0).phys 1 65536 = some 0x40000000 ∧ (testUndo 1 2 0 65536 7).addr = 65536 ∧ ({ Window.none with cores := [c0] } : Window).cores[0]? = some c0
        ∧ c0.idle = false)
      ∧ (∀ q ∈ ({ x0 with warmLog := [testUndo 1 2 0 65536 7, testUndo 3 2 0 0x100 7] } : Ctx).undoList 0, q = testUndo 1 2 0 65536 7)
      ∧ (∀ n ∈ [(0x23, 4), (0x23, 0), (0x30, 4)], let q : Stop := { slot := 9000, cause := { core := 0, lid := 0, code := n.1, stream := n.2, word := 0, port := 0, detail := 0 } };
          ({ x0 with stops := [q] } : Ctx).stops[0]? = some q) := by decide +kernel

/-- A result of a tile, of which lane 0 is written. -/
def tileResult (issue : Nat) (fine : Option Row) : Pend := { result (.v 2 15) .v issue 9 7 with mask := 1, fine }

/-- Of two results for g31 the later issue, of the last row of a mask, of a lane by its mask and a bit by its bit mask, of an accumulator in each mode; one that is not due. -/
theorem witness_Landings :
    let c := { c0 with pend := [result (.g 31) .s 0 9 1, result (.g 31) .v 0 9 2, result (.k 7 15) .v 0 8 1, tileResult 3 none, tileResult 2 (some 6),
                                { result (.a 3 15) .m 0 9 5 with acc := .float false none }, { result (.a 2 15) .m 0 9 5 with acc := .int },
                                result (.g 31) .s 0 10 2] };
    let s : State := { State.reset with now := having { x0 with cslot := 9 } c };
    ∃ x d, s.now.ctx? 0 = some x ∧ x.core? 0 = some d ∧ d.idx = 0 ∧ x.run = .running
      ∧ (d.pend.filter fun p => decide (p.land ≤ x.cslot) && !p.sends).length = 7
      ∧ (∀ q ∈ d.pend, q.land ≤ x.cslot → q.dst = .g 31 → q ≠ result (.g 31) .v 0 9 2 → 4 * q.issue + rank q.stream < 4 * 0 + rank .v)
      ∧ (∀ q ∈ d.pend, q.land ≤ x.cslot → q.dst = .k 7 15 → q = result (.k 7 15) .v 0 8 1) ∧ (tileResult 3 none).mask.getLsbD (0 / 32) = true
      ∧ (6 : Row).getLsbD 1 = true ∧ (6 : Row).getLsbD 0 = false ∧ (∀ q ∈ d.pend, q.dst ≠ .clear ∧ q.dst ≠ .planes ∧ q.dst ≠ .sreg 0x020)
      ∧ (∀ q ∈ d.pend, q.land ≤ x.cslot → q.dst = .a 3 15 → elem 64 0 q.value.toNat = 5)
      ∧ d.cluster < x.pools.length := ⟨_, _, rfl, rfl, by decide +kernel⟩

/-- Each of the other places, the only result for it: planes, both halves of a shadow plane, scales and the written state registers. -/
theorem witness_OtherLandings :
    ∀ D ∈ [Dest.planes, .clear, .shadow 3, .column 511, .scale 63, .mesh, .pat 63, .lc 3, .h 15, .p 7, .sreg 0x020, .sreg 0x021, .sreg 0x058, .dphase, .cold 0, .pool 3],
      let c := { c0 with pend := [result D .x 0 9 1] };
      let s : State := { State.reset with now := having { x0 with cslot := 9 } c };
      ∃ x d, s.now.ctx? 0 = some x ∧ x.core? 0 = some d ∧ d.pend.filter (fun q => q.dst == D && decide (q.land ≤ x.cslot)) = [result D .x 0 9 1]
        ∧ (result D .x 0 9 1).sends = false ∧ (result D .x 0 9 1).flags = 0 ∧ x.run = .running := by
  simp only [List.forall_mem_cons]
  and_intros <;> first | exact ⟨_, _, rfl, rfl, by decide +kernel⟩ | simp

/-! Witnesses: warm memory. Whether the machine holds an access that it could perform is a free value (R220): an access is ready where it does not. -/

/-- Core 0 of a context has the one access `r`, and warm memory is `W`. -/
def asking (x : Ctx) (c : Core) (W : Warm) (r : Req) : State :=
  { State.reset with now := { having { x with reqs := [r] } c with warm := W } }

/-- Some state in which an access of a core is `r` meets `P`. -/
def Asked (x : Ctx) (c : Core) (W : Warm) (r : Req) (P : State → Ctx → Core → Prop) : Prop :=
  ∃ s y d, s.Asks 0 y d r ∧ P s y d ∧ s = asking x c W r

theorem asked {x : Ctx} {c : Core} {W : Warm} {r : Req} {P : State → Ctx → Core → Prop} (h : r.core = 0)
    (p : P (asking x c W r) (seat { x with reqs := [r] } c) { c with idx := 0 }) : Asked x c W r P :=
  ⟨asking x c W r, seat { x with reqs := [r] } c, { c with idx := 0 }, ⟨rfl, by simp [seat], by rw [h]; rfl, by rw [h]⟩, p, rfl⟩

/-- The machine chooses to hold no access that core 0 has issued in slot 0 (R220: a free value). -/
def FreeToGo : Prop := ∀ queue, Config.hold 1 0 0 queue 0 = false

theorem ready_of {M : Mach} {x : Ctx} {r : Req} (f : FreeToGo)
    (h : (x.free M r && x.asid == 1 && (if x.moves then x.cslot else M.mslot) == 0 && r.core == 0 && r.issue == 0) = true) : x.ready M r = true := by
  simp only [Bool.and_eq_true, beq_iff_eq] at h
  obtain ⟨⟨⟨⟨h, ha⟩, ht⟩, hc⟩, hi⟩ := h
  have := f r.queue
  rw [Ctx.ready, h, Ctx.holds, ha, ht, hc, hi]
  simp [this]

/-- A double word of page 65,536, of which bytes 8 to 15 are `r`'s. -/
def wordReq (act : Act) (use : Use) : Req := { testReq 1 act use with elems := [(0, 8 * 65544)] }

def physBit : Nat := 8 * 0x40000008

/-- A read before its home point and one that is ready; pages that are absent, poisoned and in the deep tier; a read, and atomics on 8 and 4 bytes, of a page
that is there. -/
theorem witness_Accesses :
    Asked x0 c0 (mapped 0) { wordReq .read (.mailbox 0) with home := 1 } (fun s x _ => x.ready s.now { wordReq .read (.mailbox 0) with home := 1 } = false)
      ∧ (FreeToGo → Asked x0 c0 (mapped 0) (wordReq .read (.mailbox 0)) (fun s x c => x.ready s.now (wordReq .read (.mailbox 0)) = true
          ∧ (wordReq .read (.mailbox 0)).found s x c = .inl ([(0, physBit)], none)))
      ∧ (FreeToGo → Asked x0 c0 (mapped 0) { wordReq .read (.granule 5 0) with check := some (8 * 65600) } (fun s x c =>
          x.ready s.now { wordReq .read (.granule 5 0) with check := some (8 * 65600) } = true
            ∧ { wordReq .read (.granule 5 0) with check := some (8 * 65600) }.found s x c = .inl ([(0, physBit)], some (8 * 0x40000040))))
      ∧ (FreeToGo → ∀ l ∈ [(4, (11, false)), (1, (4, true))], Asked x0 c0 (mapped l.1) (wordReq .read (.mailbox 0)) (fun s x c =>
          x.ready s.now (wordReq .read (.mailbox 0)) = true ∧ ∃ m, (wordReq .read (.mailbox 0)).found s x c = .inr m ∧ m.kind = l.2.1
            ∧ lightKind m.kind = l.2.2))
      ∧ (FreeToGo → Asked { x0 with ring := 8 } c0 (mapped 0) (wordReq (.atomic 16) (.mailbox 0)) (fun s x c =>
          x.ready s.now (wordReq (.atomic 16) (.mailbox 0)) = true ∧ (wordReq (.atomic 16) (.mailbox 0)).found s x c = .inl ([(0, physBit)], none)
            ∧ x.replay = none ∧ (0 : BitVec 4096).toNat < 2 ^ 64
            ∧ x.win.dropping = false ∧ x.ringPos < x.ring ∧ x.warmLog.length + 5 ≤ x.ring)) := by
  refine ⟨asked rfl (by decide +kernel), fun h => asked rfl ⟨ready_of h (by decide +kernel), by decide +kernel⟩,
    fun h => asked rfl ⟨ready_of h (by decide +kernel), by decide +kernel⟩, fun h => ?_,
    fun h => asked rfl ⟨ready_of h (by decide +kernel), by decide +kernel⟩⟩
  simp only [List.forall_mem_cons]
  exact ⟨asked rfl ⟨ready_of h (by decide +kernel), ⟨65544, 11, 3, (testPte 4).word⟩, by decide +kernel⟩,
    asked rfl ⟨ready_of h (by decide +kernel), ⟨65544, 4, 3, (testPte 1).word⟩, by decide +kernel⟩, by simp⟩

def testXing (kind bytes : Nat) : Xing :=
  { id := 5, core := 0, kind, walk := walkOf 1, tc := 0, pool := false, off := 0, bytes, issue := 0, target := 0, hops := 0, data := [], next := 0
    done := 0, checksum := false, crc := [], check := none, posted := false, err := false, word := 0 }

/-- A store into a line that the window has not written, with room in the ring; the last row of a port; the last granule of a crossing; an element of four bits
in its byte. -/
theorem witness_Writes (h : FreeToGo) :
    Asked { x0 with ring := 8 } c0 (mapped 0) (wordReq .write .store) (fun s x c => x.ready s.now (wordReq .write .store) = true
        ∧ (wordReq .write .store).found s x c = .inl ([(0, physBit)], none) ∧ 65544 % 64 + 8 ≤ 64 ∧ 65544 / 64 ∉ x.warmSeen
        ∧ x.win.dropping = false ∧ x.ringPos < x.ring ∧ x.warmLog.length < x.ring ∧ s.now.warm.phys x.asid (65544 / 64 * 64) = some 0x40000000
        ∧ (∀ e ∈ (wordReq .write .store).elems, e.2 % 8 = 0 ∧ 64 % 8 = 0))
      ∧ Asked x0 (c0.setOutp 3 { sendPort 16 with gen := 2, sent := 16, queued := 1, applied := 15 }) (mapped 0) (wordReq .write (.sent 3 2 15 (some 7)))
          (fun s x c => x.ready s.now (wordReq .write (.sent 3 2 15 (some 7))) = true ∧ (c.outp 3).gen = 2 ∧ x.replay = none
            ∧ (wordReq .write (.sent 3 2 15 (some 7))).found s x c = .inl ([(0, physBit)], none))
      ∧ Asked { x0 with xings := [testXing 1 64] } c0 (mapped 0) (wordReq .write (.granule 5 0)) (fun s x c =>
          x.ready s.now (wordReq .write (.granule 5 0)) = true ∧ (wordReq .write (.granule 5 0)).found s x c = .inl ([(0, physBit)], none)
            ∧ x.xings.find? (fun q => q.id == 5) = some (testXing 1 64) ∧ cdiv (testXing 1 64).bytes 64 ≤ (testXing 1 64).done + 1
            ∧ x.core? (testXing 1 64).core = some c)
      ∧ (let l : Req := { wordReq .write (.sent 3 2 15 (some 7)) with id := 2 };
          let q : Req := wordReq .write (.sent 3 2 14 none);
          ({ x0 with reqs := [q, l] } : Ctx).LastWaits l ∧ ({ x0 with reqs := [q, l] } : Ctx).Unapplied q 3 2 ∧ ¬({ x0 with reqs := [l] } : Ctx).LastWaits l
            ∧ (({ x0 with reqs := [q, l] } : Ctx).reqs.filter fun z => z.id != q.id && (z.sentPost 0 3 2).isSome) = [l] ∧ x0.Current)
      ∧ (if 4 < 8 then (8 * 65544 + 4) % 8 + 4 ≤ 8 else (8 * 65544 + 4) % 8 = 0 ∧ 4 % 8 = 0) :=
  ⟨asked rfl ⟨ready_of h (by decide +kernel), by decide +kernel⟩, asked rfl ⟨ready_of h (by decide +kernel), by decide +kernel⟩,
    asked rfl ⟨ready_of h (by decide +kernel), by decide +kernel⟩,
    ⟨⟨3, 2, 15, 7, rfl, _, .head _, by decide, rfl, 14, none, rfl⟩, ⟨_, .tail _ (.head _), by decide, rfl, 15, some 7, rfl⟩,
      (by intro ⟨_, _, _, _, _, p, hp, hn, _⟩; simp only [List.mem_singleton] at hp; subst hp; exact hn rfl), by decide +kernel, rfl, rfl⟩, by decide⟩

def sysReq (act : Act) (use : Use) : Req :=
  { wordReq act use with sys := true, elems := [(0, 8 * (2 ^ 48 + 65544))], land := 99, mask := BitVec.ofNat 4096 (2 ^ 64 - 1) }

/-- A write of the double word at 65,544 of module 1, by access 9. -/
def sysWrite : SysSend :=
  { id := 3, ctx := 1, req := 9, home := 1, gran := 0, addr := 2 ^ 48 + 65544, reads := []
    cells := (List.range 8).map fun i => (2 ^ 48 + 65544 + i, 5, 255), deps := [], acked := false }

/-- A context whose launch has modules 0 and 1. -/
def sysCtx : Ctx := testCtx [(0x05C, 3)]

theorem witness_SystemForwards : ({ Mach.reset.links with send := [sysWrite] } : Links).forward ((List.range 8).map (2 ^ 48 + 65544 + ·))
    = some (sysWrite, List.replicate 8 5) := by decide +kernel

/-- An address whose module the launch names is no miss, whichever module this is. -/
theorem noMiss {x : Ctx} {b : Nat} (h : (decide (b / 8 < 2 ^ 53) && (x.field 0x05C 4).testBit (b / 8 / 2 ^ 48)) = true) : x.sysMiss [(0, b)] = none := by
  simp only [Bool.and_eq_true, decide_eq_true_eq] at h
  have ok : x.sysOk (b / 8) = true := by
    simp only [Ctx.sysOk, Bool.and_eq_true, Bool.or_eq_true, decide_eq_true_eq]
    exact ⟨h.1, .inr h.2⟩
  simp only [Ctx.sysMiss, List.find?, ok, Bool.not_true, Option.map_none]

/-- A read and a system write of a core, not yet performed, and a copy command; an access of each guard and range; a context that runs and replays nothing; a landing
that an access of its core waits for. -/
theorem witness_Fences :
    Meets { x0 with reqs := [testReq 1 .read (.mailbox 0), { testReq 2 .write .store with sys := true }], cmds := [testCmd (walkOf 1)] } c0 .s (fun x _ =>
        (∃ r ∈ x.reqs, r.core = 0 ∧ r.performed = false ∧ r.issue ≤ x.cslot ∧ r.act ≠ .write ∧ ∃ q ∈ x.reqs, q.sys = true)
          ∧ ∃ q ∈ x.cmds, q.core = 0 ∧ q.kind ≠ 2 ∧ q.done = false)
      ∧ (∀ l ∈ [(x0, 65536), (sysCtx, 2 ^ 48)], Meets l.1 (pointing l.2) .s (fun x c => x.outstanding 0 < 2048 ∧ c.p 0 = true
          ∧ (addrExact (c.g 1) 0 8 < 2 ^ 48 ∨ (addrExact (c.g 1) 0 8 < 2 ^ 53 ∧ (x.field 0x05C 4).testBit (addrExact (c.g 1) 0 8 / 2 ^ 48) = true))))
      ∧ x0.run = .running ∧ x0.replay = none
      ∧ (let q := { testReq 1 .read (.mailbox 0) with gone := [7], scs := [7] }; ({ x0 with reqs := [q] } : Ctx).reqs[0]? = some q ∧ q.core = 0 ∧ 7 ∈ q.gone) := by
  simp only [List.forall_mem_cons]
  exact ⟨meets (by decide +kernel), ⟨meets (by decide +kernel), meets (by decide +kernel), by simp⟩, by decide +kernel⟩

/-- A read, a write and an atomic of a module of the launch, and of an address beyond every module; a row of the launch's; each where the machine does not hold it. -/
theorem witness_SystemAccesses (h : FreeToGo) :
    (∀ l ∈ [(Act.read, Use.mailbox 7), (.write, .store), (.atomic 16, .mailbox 7)],
        Asked sysCtx c0 Mach.reset.warm (sysReq l.1 l.2) (fun s y _ => y.ready s.now (sysReq l.1 l.2) = true ∧ y.replay = none
          ∧ y.sysMiss (sysReq l.1 l.2).elems = none ∧ s.now.links.send = [])
        ∧ Asked x0 c0 Mach.reset.warm { sysReq l.1 l.2 with elems := [(0, 2 ^ 56)] } (fun s y _ =>
          y.ready s.now { sysReq l.1 l.2 with elems := [(0, 2 ^ 56)] } = true ∧ (y.sysMiss [(0, 2 ^ 56)]).isSome = true))
      ∧ (∀ a ∈ [Act.write, .read], Asked sysCtx c0 Mach.reset.warm { sysReq a (.sent 0 0 3 none) with queue := 8 } (fun s y _ =>
          y.ready s.now { sysReq a (.sent 0 0 3 none) with queue := 8 } = true ∧ y.sysMiss (sysReq a (.sent 0 0 3 none)).elems = none))
      ∧ (2 ^ 48 + 65544) % 8 + 8 ≤ 8 ∧ (sysReq .write .store).mask.toNat = 2 ^ (8 * 8) - 1 := by
  simp only [List.forall_mem_cons]
  refine ⟨⟨⟨?_, ?_⟩, ⟨?_, ?_⟩, ⟨?_, ?_⟩, by simp⟩, ⟨?_, ?_, by simp⟩, by decide, by decide +kernel⟩
  all_goals first
    | exact asked rfl ⟨ready_of h (by decide +kernel), by decide +kernel, noMiss (b := 8 * (2 ^ 48 + 65544)) (by decide +kernel), by decide +kernel⟩
    | exact asked rfl ⟨ready_of h (by decide +kernel), noMiss (b := 8 * (2 ^ 48 + 65544)) (by decide +kernel)⟩
    | exact asked rfl ⟨ready_of h (by decide +kernel), by decide +kernel⟩

/-- An answer for an access that has been sent, and for none; a mailbox that an earlier access filled and one that a later one did; an acknowledgement of a read's
part, of a write that is whole, and of one of which another part is out. -/
theorem witness_SystemAnswers :
    (let l := [{ sysWrite with req := 1 }];
      l.find? (fun q => q.id == 3) = some { sysWrite with req := 1 } ∧ l.find? (fun q => q.id == 4) = none ∧ ({ sysWrite with cells := [] } : SysSend).cells = [])
      ∧ Asked x0 c0 Mach.reset.warm (sysReq .read (.mailbox 7)) (fun s x c => x.asid.toNat = ({ sysWrite with req := 1 } : SysSend).ctx
          ∧ (sysReq .read (.mailbox 7)).id = ({ sysWrite with req := 1 } : SysSend).req ∧ (c.mb 7).landed ≤ 1
          ∧ (s.now.ctxs.find? fun y => y.asid.toNat == 1) = some x)
      ∧ Asked x0 (c0.setMb 7 { value := 0, valid := true, last := 2, landed := 2 }) Mach.reset.warm (sysReq .read (.mailbox 7)) (fun _ _ c =>
          1 < (c.mb 7).landed)
      ∧ (∀ l ∈ [([{ sysWrite with req := 1 }], false), ([{ sysWrite with req := 1 }, { sysWrite with req := 1, id := 4 }], true)],
          decide (∃ p ∈ l.1, p.id ≠ 3 ∧ p.ctx = 1 ∧ p.req = 1) = l.2) :=
  ⟨by decide +kernel, asked rfl (by decide +kernel), asked rfl (by decide +kernel), by decide +kernel⟩

def testFault (kind : Nat) (write : Bool) : FaultRec :=
  { source := 12, kind, src := 1, asid := 1, write, fetch := false, raised := false, unit := 0, port := 0, level := 3, addr := 65544, cslot := 0
    mslot := 0, position := 0, entry := 0, ctx := 0, req := 1, snap := [] }

def remoteOf (port : Nat) (halted : Bool) (msg : Msg) : Remote := { id := 4 + port, port, msg, halted }

/-- A machine in whose remote queue stands one operation, and whose page has a mooring. -/
def remoteAt (moor : Nat) (msg : Msg) : Mach := { base with warm := mapped moor, links.remote := [remoteOf 7 false msg] }

/-- A remote write, read and atomic of a page that is there, of one in the deep tier and of one that is lost; one that is halted, and one behind it on its port;
a predecessor that has not been applied here. -/
theorem witness_RemoteOperations :
    (∀ l ∈ [(Msg.write 1 2 [] 1 [(65544, 5, 255)], true, 1), (.read 1 2 [] 1 [65544], false, 1), (.atomic 1 2 [] 1 65544 AmoFn.add.code.toNat 8 5 0, true, 8)],
        (remoteAt 0 l.1).links.remote.find? (fun q => q.id == 11) = some (remoteOf 7 false l.1)
          ∧ msgRequest l.1 = some (1, [], 1, (List.range l.2.2).map (65544 + ·), l.2.1)
          ∧ ((remoteAt 0 l.1).sweep.remoteBytes 7 11 1 l.2.1 ((List.range l.2.2).map (65544 + ·))).2 = .inl ((List.range l.2.2).map (0x40000008 + ·))
          ∧ ∀ m ∈ [(1, true), (4, false)], (match ((remoteAt m.1 l.1).sweep.remoteBytes 7 11 1 l.2.1 ((List.range l.2.2).map (65544 + ·))).2 with
              | .inr k => some (lightKind k.kind)
              | .inl _ => none) = some m.2)
      ∧ (base.holder 1).isSome = false ∧ ((having x0 c0).holder 1).isSome = true
      ∧ (∀ k ∈ [0, 1], (decide (∃ r ∈ ({ Mach.reset.warm with rings := [{ Ring.reset with held := List.replicate k { testFault 4 false with source := 4119 } }] } : Warm).rings,
          ∃ f ∈ r.held, f.source = 4112 + 7)) = decide (k = 1))
      ∧ base.links.applies [] = true ∧ base.links.applies [2 ^ 53 * Config.self.toNat] = false ∧ ((List.range 8).map (0x40000008 + ·)).Nodup
      ∧ (let l := [remoteOf 7 true (.read 1 2 [] 1 [65544]), { remoteOf 7 false (.read 1 2 [] 1 [65544]) with id := 12 }];
          ∃ p ∈ l.takeWhile (fun p => p.id != 12), p.port = 7 ∧ p.halted = true) := by
  simp only [List.forall_mem_cons]
  refine ⟨⟨by decide +kernel, by decide +kernel, by decide +kernel, by simp⟩, by decide +kernel, by decide +kernel, by decide +kernel, rfl, ?_, by decide +kernel, _, .head _, by decide⟩
  simp [Links.applies, homeOf, base, Mach.reset]

/-- A result whose slot has come, and one slot before, for a mailbox, and for the last granule of a crossing; a mesh move whose granule is due, and one slot before. -/
theorem witness_TransfersLand :
    (∀ l ∈ [(9, true), (8, false)], Asked { x0 with cslot := l.1 } c0 Mach.reset.warm { wordReq .read (.mailbox 7) with performed := true, land := 9 }
        (fun s x c => x.lands s.now { wordReq .read (.mailbox 7) with performed := true, land := 9 } = l.2 ∧ (c.mb 7).landed ≤ 1))
      ∧ (∀ l ∈ [(9, true), (8, false)], Asked { x0 with cslot := l.1, xings := [testXing 0 64] } c0 Mach.reset.warm
          { wordReq .read (.granule 5 0) with performed := true, land := 9 } (fun s x c => x.lands s.now { wordReq .read (.granule 5 0) with
            performed := true, land := 9 } = l.2 ∧ x.xings.find? (fun q => q.id == 5) = some (testXing 0 64) ∧ x.core? 0 = some c))
      ∧ (∀ l ∈ [(26, true), (25, false)], let x := seat { x0 with cslot := l.1, xings := [testXing 2 64] } c0
          ({ State.reset with now := having { x0 with cslot := l.1, xings := [testXing 2 64] } c0 } : State).now.ctx? 0 = some x
            ∧ x.run = .running ∧ x.xings.find? (fun q => q.id == 5) = some (testXing 2 64)
            ∧ (testXing 2 64).meshDue x.cslot = l.2) := by
  simp only [List.forall_mem_cons]
  refine ⟨⟨asked rfl (by decide +kernel), asked rfl (by decide +kernel), by simp⟩, ⟨asked rfl (by decide +kernel), asked rfl (by decide +kernel), by simp⟩,
    by decide +kernel, by decide +kernel, by simp⟩

/-- A port whose walk begins at va 65,536, with its plan at row `n`. -/
def walkAt : Walk := { pat := patternOf 16, desc := tensorOf 2 5 1024 }

def portAt (n : Nat) : InPort :=
  { InPort.start with walk := some walkAt, planNext := n, next := n, popped := n, cap := 1, min := 1 }

/-- A running context whose port 7 has its plan at row `n`, over a page of a mooring. -/
def rowState (n moor : Nat) : State :=
  { State.reset with now := { having { withTensor (tensorOf 2 5 1024) with code := Code.none } (c0.setInp 7 (portAt n)) with warm := mapped moor } }

/-- The last row of a plan; the plan that is done; no entry left; no tick left; a page that is there, and one that is not; the row of an old binding, and the last
row of this one. -/
theorem witness_InboundRows :
    (∀ moor, ∃ y d w, (rowState 15 moor).now.ctx? 0 = some y ∧ y.core? 0 = some d ∧ d.idx = 0 ∧ y.run = .running ∧ y.replay = none
        ∧ (d.inp 7).walk = some w ∧ (d.inp 7).planDue y.cslot = true ∧ (d.inp 7).next = (d.inp 7).planNext ∧ (d.inp 7).halted = none
        ∧ (d.inp 7).catchX ≤ 0 ∧ ¬((d.inp 7).shared + (d.inp 7).min ≤ (d.inp 7).res ∧ d.remainder ≤ y.sharedHeld d.cluster)
        ∧ ¬2048 < y.outstanding 0 + granules w.rowBytes)
      ∧ (∀ moor ∈ [0, 1], ∃ y w, (rowState 15 moor).now.ctx? 0 = some y ∧ (portAt 15).walk = some w ∧ y.ticksOk (rowState 15 moor).now
            ((List.range (granules (cdiv ((w.rowElems 15).length * w.width) 8))).filterMap fun g =>
              ((w.rowElems 15).find? fun e => decide (512 * g ≤ e.1)).bind fun e => pageOf (rowState 15 moor).now y (dSpace w.desc == 3) (e.2 / 8)) = true
          ∧ (match (w.resolveRow ((rowState 15 moor).now.setCtx (y.planRow 0 7)).sweep (y.planRow 0 7) 7 15).2 with
            | .inl _ => 0
            | .inr m => m.kind) = 4 * moor
          ∧ y.landingRow (rowState 15 moor).now 0 7 = none)
      ∧ x0.ticksOk base [0] = false
      ∧ Holding { base with ctxs := [seat (frozenCtx 5 none Header.none) c0] } (fun s => ∃ x, s.now.ctx? 0 = some x ∧ x.run ≠ .running
          ∧ ((portAt 15).lateDue s.now.mslot && x.crossesStopped (portAt 15)) = false)
      ∧ (portAt 16).planDue 0 = false
      ∧ (let d := c0.setInp 7 { portAt 15 with res := 1, cap := 9, min := 0 };
          let x := seat (withTensor (tensorOf 2 5 1024)) { d with inb := SMap.set InPort.start d.inb 0 { InPort.start with min := 128 } };
          ∀ c ∈ x.cores, (c.inp 7).shared + (c.inp 7).min ≤ (c.inp 7).res ∧ c.remainder ≤ x.sharedHeld c.cluster)
      ∧ c0.line = none ∧ { c0 with line := some 3 }.line ≠ none
      ∧ (let r := { testReq 1 .read (.row 7 0 15) with queue := 7, performed := true };
          Asked x0 (c0.setInp 7 (portAt 15)) Mach.reset.warm r (fun s x c => x.landingRow s.now 0 7 = some r ∧ (c.inp 7).gen = 0
            ∧ (∃ w, (c.inp 7).walk = some w ∧ w.rows ≤ 15 + 1) ∧ x.replay = none)) :=
  ⟨fun moor => ⟨_, _, walkAt, rfl, rfl, by decide +kernel⟩, by
      simp only [List.forall_mem_cons]
      exact ⟨⟨_, walkAt, rfl, by decide +kernel⟩, ⟨_, walkAt, rfl, by decide +kernel⟩, by simp⟩, by
      have h : x0.field 0x062 2 = 0 := by decide +kernel
      have t : x0.ticks = [] := rfl
      simp [Ctx.ticksOk, h, t],
    holding (by decide +kernel) ⟨_, rfl, by decide +kernel⟩, by decide +kernel, by decide +kernel, rfl, by decide,
    asked rfl ⟨by decide +kernel, by decide +kernel, ⟨{ pat := patternOf 16, desc := tensorOf 2 5 1024 }, by decide +kernel⟩, rfl⟩⟩

/-! Witnesses: copy engines and pages. -/

def copyWalk : Walk := { pat := patternOf 1, desc := tensorOf 2 5 1024 }

def copyCmd : Cmd := { testCmd copyWalk with start := 5, post := 9, bytes := 64 }

/-- A context with the one command `q`. -/
def copying (q : Cmd) (t : Nat) : Ctx := seat { x0 with cslot := t, cmds := [q] } c0

def copyState (q : Cmd) (t moor : Nat) : State :=
  { State.reset with now := { having { x0 with cslot := t, cmds := [q] } c0 with warm := mapped moor } }

/-- What a translation ends in: nothing, or the kind of its fault. -/
def missKind (p : Warm × (List (Nat × Nat) ⊕ Miss)) : Option Nat := match p.2 with
  | .inl _ => none
  | .inr m => some m.kind

/-- A command at its start slot and one before; a granule left to read, and to write, over a page that is there and one that is not, with what its one granule
needs; a command with no work to do, one that is not done, and one that waits for its results; one that is done, and one that was held; at its post slot and one
before. -/
theorem witness_CopyCommands :
    (∀ t, (copyState copyCmd t 0).now.ctx? 0 = some (copying copyCmd t) ∧ (copying copyCmd t).run = .running
        ∧ (copying copyCmd t).cmds.find? (fun z => z.id == 1) = some copyCmd ∧ (copying copyCmd t).core? 0 = some { c0 with idx := 0 })
      ∧ ((copying copyCmd 5).startDue copyCmd = true ∧ (copying copyCmd 4).startDue copyCmd = false)
      ∧ (let q := { copyCmd with started := true }; (copying q 9).mayRead Mach.reset.links q = true)
      ∧ ((copying copyCmd 9).mayRead Mach.reset.links copyCmd = false ∧ (copying copyCmd 9).mayWrite Mach.reset.links copyCmd = false
        ∧ copyCmd.taken < copyCmd.reads ∧ copyCmd.done = false ∧ base.links.send = [])
      ∧ (let q := { copyCmd with started := true, read := 1, taken := 1, written := 1 };
          (copying q 9).mayRead Mach.reset.links q = false ∧ (copying q 9).mayWrite Mach.reset.links q = false ∧ q.reads ≤ q.taken ∧ q.writes ≤ q.written)
      ∧ (copyCmd.read < copyCmd.sources ∧ copyCmd.written < copyCmd.dests ∧ copyCmd.sources = 1 ∧ copyCmd.dests = 1 ∧ copyCmd.sysSource = false
        ∧ copyCmd.sysDest = false ∧ (copying copyCmd 9).scaleDesc copyCmd = none ∧ copyCmd.kind = 0 ∧ copyCmd.routine = 0 ∧ copyCmd.flags = 0
        ∧ copyCmd.afterW = [])
      ∧ (∀ l ∈ [(0, none), (1, some 4)], (copyState copyCmd 9 l.1).now.engineHeld (copying copyCmd 9) copyCmd = false
        ∧ missKind (resolve [] 1 4096 false (copyState copyCmd 9 l.1).now.warm (copyCmd.sourceElems 0)) = l.2
        ∧ missKind (resolve [] 1 12288 true (copyState copyCmd 9 l.1).now.warm (copyCmd.destElems 0).1) = l.2)
      ∧ ((∀ z ∈ copyWalk.spanElems 0 copyWalk.bytes, z.2 % 8 = 0) ∧ copyWalk.width % 8 = 0)
      ∧ (let q := { copyCmd with late := true, done := true }; (copying q 9).ahead q = [] ∧ q.posted = false ∧ (copying q 9).Current)
      ∧ (let q := { copyCmd with started := true, done := true }; (copying copyCmd 9).postDue q = true ∧ (copying copyCmd 8).postDue q = false) := by
  refine ⟨fun t => ⟨rfl, rfl, rfl, rfl⟩, ?_⟩
  and_intros <;> decide +kernel

/-- A request of the ring for command 1, the page at 65,536 of ASID 1 in frame 0x4000, with frame 0x4001 its candidate. -/
def testRemap (mark : Nat) : Remap := { ring := 0, asid := 1, page := 65536, own := 0x4000, shared := 0x4001, cmd := some 1, mark }

/-- An xded with no request left; one with no marker yet, one whose marker is one short of INVDONE, and one whose marker has been reached, over frames that hold the
same bytes and over frames that do not, while its page stands still and while it moves; an xpref whose pages have not been decided, whose move goes on, and whose page
is where it was asked. -/
theorem witness_Remaps :
    (let q := { copyCmd with kind := 1, posted := true };
      (copying q 9).cmds.find? (fun z => z.id == 1) = some q ∧ q.second = false
        ∧ (∀ l ∈ [([], none), ([testRemap 7], some (testRemap 7))], l.1.find? (fun r => r.asid == (copying q 9).asid && r.cmd == some q.id) = l.2))
      ∧ (∀ l ∈ [(0, false), (2, true)], (mapped l.1).leaf 1 65536 = some (testPte l.1) ∧ (mapped l.1).mapping 0x4001 = []
          ∧ (pteMoor (testPte l.1).word == 2) = l.2 ∧ pteMoor (testPte l.1).word ≠ 3 ∧ pteMoor (testPte l.1).word ≠ 4)
      ∧ ((testRemap 0).mark = 0 ∧ (testRemap 7).mark ≠ 0 ∧ ({ mapped 0 with invdone := 6 } : Warm).invdone < 7 ∧ 7 ≤ ({ mapped 0 with invdone := 7 } : Warm).invdone
        ∧ (testRemap 7).shared < 2 ^ 25)
      ∧ (sameFrame [] 0x4000 0x4001 = true ∧ (mapped 0).phys 1 65536 = some (65536 * 0x4000) ∧ sameFrame [(65536 * 0x4001, 1)] 0x4000 0x4001 = false)
      ∧ (∀ a ∈ (mapped 0).spaces, ∀ p ∈ a.ptes, p.level = 3)
      ∧ (let q := { copyCmd with kind := 2, started := true };
          (copying q 9).cmds.find? (fun z => z.id == 1) = some q ∧ (∀ z ∈ (copying q 9).cmds, z.id = q.id → z = q) ∧ q.pages = []
            ∧ decide (∃ m ∈ (mapped 0).moves, ((1 : BitVec 8).toNat, 1) ∈ m.who) = false)
      ∧ decide (∃ m ∈ [{ testMove true with who := [(1, 1)] }], ((1 : BitVec 8).toNat, 1) ∈ m.who) = true
      ∧ ({ copyCmd with kind := 2 }.started = false ∧ { copyCmd with kind := 2, pages := [65536] }.pages ≠ [])
      ∧ (∀ va ∈ copyWalk.warmPages (mapped 0) 1, (mapped 0).leaf 1 va = some (testPte 0)) ∧ pteMoor (testPte 0).word = 0 := by
  and_intros <;> decide +kernel

def testMarker (mslot : Nat) (queues : List (Nat × List (Nat × Nat))) : Marker := { num := 7, word := 0, mslot, queues, old := [], fresh := [] }

/-- Words with each reserved code and the one beside it; the only marker, an MSLOT after its write with nothing ahead of it, and in the slot of its write; an access
ahead of it that has not landed. -/
theorem witness_Invalidations :
    ((3 * 2 ^ 22 : Nat) / 2 ^ 22 % 4 = 3 ∧ (3 * 2 ^ 20 : Nat) / 2 ^ 20 % 4 = 3 ∧ 1 % 2 ^ 20 ≠ 0)
      ∧ ¬((2 * 2 ^ 22 + 2 * 2 ^ 20 : Nat) / 2 ^ 22 % 4 = 3 ∨ (2 * 2 ^ 22 + 2 * 2 ^ 20 : Nat) / 2 ^ 20 % 4 = 3 ∨ (2 * 2 ^ 22 + 2 * 2 ^ 20 : Nat) % 2 ^ 20 ≠ 0)
      ∧ (let M := { base with mslot := 5, warm := { mapped 0 with markers := [testMarker 4 [(12, [])]] } };
          M.warm.markers = [testMarker 4 [(12, [])]] ∧ (testMarker 4 [(12, [])]).mslot < M.mslot
            ∧ ¬∃ q ∈ (testMarker 4 [(12, [])]).queues, q.1 ≠ 12 ∨ q.2.any M.live = true)
      ∧ 5 ≤ (testMarker 5 []).mslot
      ∧ (let M := { having { x0 with reqs := [testReq 1 .read (.mailbox 0)] } c0 with mslot := 5 };
          ∃ q ∈ (testMarker 4 [(12, [(0, 1)])]).queues, q.1 ≠ 12 ∨ q.2.any M.live = true) := by
  refine ⟨by decide, by decide, ⟨rfl, by decide, ?_⟩, by decide, ⟨_, .head _, by decide +kernel⟩⟩
  intro ⟨q, h, r⟩
  simp only [testMarker, List.mem_singleton] at h
  subst h
  rcases r with r | r
  · exact r rfl
  · cases r

def moving (up : Bool) (done : Nat) : State :=
  { State.reset with now := { base with mslot := 5, cmds := [hostCmd 4 .started [(0, 4)]], warm := { mapped (if up then 2 else 3) with
      moves := [testMove up], invdone := done, markers := if done < 7 then [testMarker 4 [(12, [(0, 1)])]] else [] }, ctxs := [seat { x0 with
      reqs := [testReq 1 .read (.mailbox 0)] } c0] } }

/-- A move each way, whose old mapping has left every queue, and one that a queue still holds; the page's own frame. -/
theorem witness_Moves :
    (∀ up ∈ [true, false], (moving up 7).MemoryCanonical ∧ (moving up 7).now.moveOf 1 65536 = some (testMove up)
        ∧ (moving up 7).now.warm.leaf 1 65536 = some (testPte (if up then 2 else 3)) ∧ (moving up 7).now.moveReady 7 = true
        ∧ (moving up 6).now.moveReady 7 = false ∧ (testMove up).frame < 2 ^ 25 ∧ shapedOk (moving up 7).now = true
        ∧ (testPte 0).level = levelOf (testMove up).size)
      ∧ (pteAddr (testPte 2).word ≤ 65536 * 0x4000 ∧ 65536 * 0x4000 < pteAddr (testPte 2).word + leafSize (testPte 2).level
        ∧ pteMoor (testPte 2).word < 4 ∧ (testPte 2).va = 65536)
      ∧ (∀ sp ∈ (mapped 2).spaces, ∀ q ∈ sp.ptes, sp.asid = 1 ∧ q = testPte 2) := by
  refine ⟨?_, by decide +kernel, by decide +kernel⟩
  intro up h
  refine ⟨⟨by revert up; decide +kernel, by revert up; decide +kernel, by intro M e; cases e⟩, by revert up; decide +kernel, by revert up; decide +kernel,
    by revert up; decide +kernel, by revert up; decide +kernel, by revert up; decide +kernel⟩

/-- A full HBM, with one page of a mooring. -/
def full (moor : Nat) : Warm := { mapped moor with used := [(0, 0x600000)] }

/-- Ring 15 with one record in it and one taken; the words at which CONS reaches PROD and passes it; a page for each outcome of the check: none, A, D, shared, and of
the deep tier, with a frame that is free; and a page that is absent. -/
theorem witness_Faults :
    (let r := { Ring.reset with prod := 3, cons := 2, recs := [testFault 4 false], taken := [testFault 1 false] };
      Holding { base with warm := { mapped 1 with rings := List.replicate 15 Ring.reset ++ [r] } } (fun s => s.MemoryCanonical
          ∧ (s.now.warm.rings.getD 15 Ring.reset).taken = [testFault 1 false]
          ∧ (let q := s.now.warm.rings.getD 15 Ring.reset;
              (3 - q.cons).toNat ≤ (q.prod - q.cons).toNat ∧ (q.prod - q.cons).toNat < (4 - q.cons).toNat ∧ q.prod ≠ q.cons)
          ∧ s.now.freeFrames 0x4001 1 false = true ∧ s.now.warm.leaf 1 65544 = some (testPte 1) ∧ s.now.warm.leaf 1 131072 = none))
      ∧ lightKind 4 = true ∧ lightKind 8 = false ∧ (testFault 3 true).kind = 3 ∧ (mapped 0).leaf 1 ((testFault 3 true).addr % 2 ^ 48) = some (testPte 0)
      ∧ (let l := [(8, (5 : Byte)), (65535, 6)]; l.Pairwise (fun a b => a.1 < b.1) ∧ ∀ e ∈ l, e.1 < leafSize (testPte 0).level)
      ∧ leafCheck 3 (testPte 0).word true false = none ∧ leafCheck 3 (pteWord 0 true true false false true false 0) false false = some 1
      ∧ leafCheck 3 (pteWord 0 true true false true false false 0) true false = some 2
      ∧ leafCheck 3 (pteWord 0 true false false true true true 0) true false = some 3
      ∧ (∀ m ∈ [1, 2, 3], leafCheck 3 (testPte m).word false false = some 4) ∧ (pteMoor (testPte 1).word = 1 ∧ pteMoor (testPte 3).word ≠ 1)
      ∧ (Ring.reset.prod = Ring.reset.cons ∧ Ring.reset.held = [])
      ∧ (({ base with warm := mapped 1 } : Mach).freeFrames 0x4000 1 false = false ∧ ({ base with warm := mapped 1 } : Mach).short 1 = false)
      ∧ (∀ l ∈ [(1, true), (0, false)], ({ base with warm := full l.1 } : Mach).freeFrames 0x4001 1 false = false
          ∧ ({ base with warm := full l.1 } : Mach).short 1 = true ∧ ({ base with warm := full l.1 } : Mach).freeing = false
          ∧ ({ base with warm := full l.1 } : Mach).stuck = l.2)
      ∧ ({ base with warm := { full 1 with moves := [testMove false] } } : Mach).freeing = true := by
  refine ⟨holding (by decide +kernel) ⟨⟨by decide +kernel, by decide +kernel, (by intro M e; cases e)⟩, by decide +kernel⟩, by decide +kernel⟩

/-- An issue that goes on, in each kind of stream. -/
theorem witness_Issues :
    ∃ s t i x c, s.Issuing i x c ∧ (encode (.srd 0 1 0)).isSome = true ∧ exec (.srd 0 1 0) s = .next t :=
  ⟨testState x0 c0 .s, _, { k := 0, j := 0, st := .s, word := 0 }, seat x0 c0, { c0 with idx := 0 }, ⟨rfl, rfl, rfl, rfl⟩, by decide, rfl⟩

def testCause (core code : Nat) : Cause := { core, lid := core, code, stream := 0, word := 0, port := 0, detail := 0 }

/-- Two causes of one core, of two classes, and one of another; a cause that is the only one of its core. -/
theorem witness_Freezes :
    [testCause 0 0x13, testCause 0 0x3F, testCause 511 0x01] ≠ [] ∧ (∀ q ∈ [testCause 0 0x13, testCause 0 0x3F, testCause 511 0x01], q.code < 64 ∧ q.lid < 512)
      ∧ (∀ z ∈ [testCause 0 0x13, testCause 0 0x3F, testCause 511 0x01], z.core = 511 → z = testCause 511 0x01) := by decide
end

/-! SUPPORT. The services of the keepers: the journal and the ends of commands, routines, the clock, sparing, lost keepers and drives. -/

namespace Sys2Proof.Machine

/-! The journal (R53-R56). -/

@[simp] theorem Mach.persist_ring (M : Mach) : M.persist.journal.ring = M.journal.ring := by unfold Mach.persist; split <;> rfl
@[simp] theorem Mach.persist_next (M : Mach) : M.persist.journal.next = M.journal.next := by unfold Mach.persist; split <;> rfl

/-- Persisting the journal changes nothing else. -/
theorem Mach.persist_frame (M : Mach) : M.persist = { M with journal := M.persist.journal } := by unfold Mach.persist; split <;> rfl

theorem Mach.persist_of_drive {M : Mach} (hd : M.keepers.lost.all id = false) (ha : M.accepting = true) :
    M.persist = { M with journal := M.journal.persist } := by
  simp only [Mach.persist, hd, ha, Bool.not_true, Bool.or_self, Bool.false_eq_true, if_false]

theorem Mach.persist_of_none {M : Mach} (h : M.keepers.lost.all id = true ∨ M.accepting = false) : M.persist = M := by
  unfold Mach.persist
  rw [if_pos]
  rcases h with h | h <;> simp only [h, Bool.not_false, Bool.true_or, Bool.or_true]

section
variable (M : Mach) (kind queue asid status : Nat) (ref : Option Nat) (index detail rec : Nat)

@[simp] theorem Mach.entry_ring : (M.entry kind queue asid status ref index detail rec).journal.ring
    = SMap.set 0 M.journal.ring (M.journal.next % 2 ^ 20)
        (journalEntry M.journal.next M.links.clock kind queue asid status (ref.getD M.journal.next) index detail rec) := by
  by_cases h : 4096 ≤ M.journal.next + 1 - M.journal.persisted <;> simp only [Mach.entry, h, if_true, if_false, Mach.persist_ring]

@[simp] theorem Mach.entry_next : (M.entry kind queue asid status ref index detail rec).journal.next = M.journal.next + 1 := by
  by_cases h : 4096 ≤ M.journal.next + 1 - M.journal.persisted <;> simp only [Mach.entry, h, if_true, if_false, Mach.persist_next]

/-- An entry changes nothing but the journal. -/
theorem Mach.entry_frame : M.entry kind queue asid status ref index detail rec
    = { M with journal := (M.entry kind queue asid status ref index detail rec).journal } := by
  unfold Mach.entry
  by_cases h : 4096 ≤ M.journal.next + 1 - M.journal.persisted
  · rw [if_pos h]; exact Mach.persist_frame _
  · rw [if_neg h]

@[simp] theorem Mach.entry_host : (M.entry kind queue asid status ref index detail rec).host = M.host := by rw [Mach.entry_frame]
@[simp] theorem Mach.entry_keepers : (M.entry kind queue asid status ref index detail rec).keepers = M.keepers := by rw [Mach.entry_frame]
@[simp] theorem Mach.entry_warm : (M.entry kind queue asid status ref index detail rec).warm = M.warm := by rw [Mach.entry_frame]
@[simp] theorem Mach.entry_cmds : (M.entry kind queue asid status ref index detail rec).cmds = M.cmds := by rw [Mach.entry_frame]

end

/-! The end of a command (R50). -/

section
variable (M : Mach) (c : HostCmd) (status detail : Nat)

@[simp] theorem Mach.endCmd_warm : (M.endCmd c status detail).warm = M.warm := by
  unfold Mach.endCmd; dsimp only [Mach.raiseVector]; split <;> simp [Mach.hostWrite]

@[simp] theorem Mach.endCmd_cmds : (M.endCmd c status detail).cmds = M.cmds.filter fun d => d.seq != c.seq := by
  unfold Mach.endCmd; dsimp only; split <;> simp [Mach.hostWrite]

@[simp] theorem Mach.endCmd_msix : (M.endCmd c status detail).host.msix = M.host.msix ++ [c.queue] := by
  unfold Mach.endCmd; dsimp only [Mach.raiseVector]; split <;> simp [Mach.hostWrite]

/-- The signal of an end (R50). -/
@[simp] theorem Mach.endCmd_memory : (M.endCmd c status detail).host.memory
    = if c.signalAt = 0 ∨ c.kind = 7 then M.host.memory
      else M.host.memory.write c.signalAt 8 (M.journal.next + if status = 0 then 0 else 2 ^ 63) := by
  unfold Mach.endCmd
  by_cases h : status = 0 <;> by_cases g : c.signalAt = 0 ∨ c.kind = 7 <;> simp [h, g, Mach.raiseVector, Mach.hostWrite]

theorem Mach.endCmd_journal : (M.endCmd c status detail).journal
    = (M.entry (if status = 0 then 4 else 5) c.queue c.asid.toNat status (some c.seq) c.index detail 0).journal := by
  unfold Mach.endCmd
  by_cases h : status = 0 <;> by_cases g : c.signalAt = 0 ∨ c.kind = 7 <;> simp [h, g, Mach.raiseVector, Mach.hostWrite]

@[simp] theorem Mach.endCmd_next : (M.endCmd c status detail).journal.next = M.journal.next + 1 := by
  rw [Mach.endCmd_journal, Mach.entry_next]

/-- The journal holds the entry of the end. -/
theorem Mach.endCmd_holds : (M.endCmd c status detail).Holds M.links.clock M.journal.next (if status = 0 then 4 else 5) c status c.seq detail 0 := by
  unfold Mach.Holds
  rw [Mach.endCmd_journal, Mach.entry_ring, SMap.get_set_same]
  rfl

end

theorem Mach.endDone_of_result {M : Mach} {c : HostCmd} {status detail : Nat} (hs : c.state = .started) (hr : c.result = some (status, detail)) :
    M.endDone c = M.endCmd c status detail := by
  simp [Mach.endDone, hs, hr]

theorem commandEnd_ends (s : State) {c : HostCmd} {status detail : Nat} (hc : s.now.cmd? c.seq = some c) (hs : c.state = .started)
    (hr : c.result = some (status, detail)) : exec (.commandEnd c.seq) s = .next { s with now := s.now.endCmd c status detail } := by
  show execCommandEnd c.seq s = _
  simp only [execCommandEnd, State.onMach, hc, Mach.endDone_of_result hs hr]

/-! Routines (R163). -/

/-- A counter that saturates (R36, R212). -/
theorem saturating_succ {w : Nat} (v : BitVec w) :
    (if v = BitVec.allOnes w then v else v + 1) = BitVec.ofNat w (min (v.toNat + 1) (2 ^ w - 1)) := by
  have hv := v.isLt
  split
  · rename_i h
    rw [show min (v.toNat + 1) (2 ^ w - 1) = v.toNat by rw [h, BitVec.toNat_allOnes]; omega, BitVec.ofNat_toNat, BitVec.setWidth_eq]
  · rename_i h
    have hn : v.toNat ≠ 2 ^ w - 1 := fun e => h (BitVec.eq_of_toNat_eq (by rw [e, BitVec.toNat_allOnes]))
    rw [show min (v.toNat + 1) (2 ^ w - 1) = v.toNat + 1 by omega, BitVec.ofNat_add, BitVec.ofNat_toNat, BitVec.setWidth_eq]
    rfl

theorem Keepers.failed_eq (K : Keepers) : K.failed = { K with attempts := BitVec.ofNat 8 (min (K.attempts.toNat + 1) 255) } :=
  congrArg (fun a => { K with attempts := a }) (saturating_succ K.attempts)

theorem Image.routineOk_of_installed {i : Image} (hk : i.kind = 2) (hn : 16 ≤ i.num) (hm : i.num ≤ 63) (hw : 1 ≤ i.w) (hv : i.w ≤ 65535) :
    Image.routineOk i = true := by
  simp [Image.routineOk, hk, hm, hw, hv, show ¬i.num < 16 by omega]

section
variable {K : Keepers} {i : Image} (hr : Image.routineOk i = true) (hn : 16 ≤ i.num)
include hr hn

theorem Keepers.install_good (hg : Image.good K.rootKey i = true) : K.install i = { K.measure 5 i with
    routines := K.routines.filter (fun r => r.num != i.num) ++ [Image.routine i], loads := K.loads + 1 } := by
  simp [Keepers.install, hr, hg, show ¬i.num < 16 by omega]

theorem Keepers.install_bad (hg : Image.good K.rootKey i = false) : K.install i = K.failed := by
  simp [Keepers.install, hr, hg, show ¬i.num < 16 by omega]

end

/-! The station clock (R212). -/

@[simp] theorem Mach.traceTo_links (M : Mach) (who : Trace → Bool) (event cslot asid core data : Nat) :
    (M.traceTo who event cslot asid core data).links = M.links := by
  unfold Mach.traceTo; dsimp only; split <;> rfl

@[simp] theorem Mach.traceTo_keepers (M : Mach) (who : Trace → Bool) (event cslot asid core data : Nat) :
    (M.traceTo who event cslot asid core data).keepers = M.keepers := by
  unfold Mach.traceTo; dsimp only; split <;> rfl

@[simp] theorem Mach.traceEach_links (M : Mach) (event data : Nat) : (M.traceEach event data).links = M.links := by
  unfold Mach.traceEach
  generalize (M.traces.map (·.slot)).eraseDups = l
  induction l generalizing M with
  | nil => rfl
  | cons k r ih => rw [List.foldl_cons, ih, Mach.traceTo_links]

theorem Mach.correct_of_unlocked {M : Mach} {n : Int} (h : M.links.locked = false ∨ n = 0) : M.correct n = M := by
  unfold Mach.correct
  rw [if_pos]
  rcases h with h | h <;> simp [h]

/-- What a correction of a locked clock leaves of the links. -/
theorem Mach.correct_links {M : Mach} {n : Int} (hl : M.links.locked = true) (hn : n ≠ 0) :
    let L : Links := { M.links with corr := BitVec.ofNat 32 (min (M.links.corr.toNat + 1) (2 ^ 32 - 1)), corrections := M.links.corrections ++ [n] }
    (M.correct n).links = if 1000000 < n then { L with clock := L.clock + n.toNat, slew := 0 } else { L with slew := n } := by
  simp only [Mach.correct, hl, ← saturating_succ]
  simp [hn]

/-! Sparing (R11). -/

namespace SMap
variable {α : Type}

theorem find_cons (i : Nat) (v : α) (r : SMap α) (k : Nat) : find ((i, v) :: r) k = if i = k then some v else find r k := by
  unfold find
  by_cases h : i = k
  · rw [List.find?_cons_of_pos (by simpa using h), if_pos h, Option.map_some]
  · rw [List.find?_cons_of_neg (by simpa using h), if_neg h]

theorem find_drop_same (m : SMap α) (k : Nat) : find (drop m k) k = none := by
  simp [find, drop, List.find?_filter]

theorem find_drop_ne (m : SMap α) {k l : Nat} (h : l ≠ k) : find (drop m k) l = find m l := by
  unfold find drop
  rw [List.find?_filter]
  congr 2
  funext c
  by_cases hc : c.1 = l <;> simp [hc, h]

theorem find_put_same (m : SMap α) (k : Nat) (v : α) : find (put m k v) k = some v := by
  induction m with
  | nil => simp [put, find_cons]
  | cons c r ih =>
    obtain ⟨i, x⟩ := c
    unfold put
    split
    · simp [find_cons]
    · split
      · simp [find_cons]
      · rw [find_cons, if_neg (by omega), ih]

theorem find_put_ne (m : SMap α) {k l : Nat} (v : α) (h : l ≠ k) : find (put m k v) l = find m l := by
  induction m with
  | nil => rw [put, find_cons, if_neg (by omega)]
  | cons c r ih =>
    obtain ⟨i, x⟩ := c
    unfold put
    split
    · rw [find_cons, if_neg (by omega)]
    · split
      · subst_vars
        rw [find_cons, find_cons, if_neg (by omega), if_neg (by omega)]
      · rw [find_cons, find_cons, ih]

end SMap

/-- A place of the group of `l` that no other number of the group has. -/
def Vacant (m : SMap Nat) (l p : Nat) : Prop :=
  p / 68 = l / 64 ∧ ∀ q, q / 64 = l / 64 → q ≠ l → (SMap.find m q).getD (physical q) ≠ p

theorem respare_of_vacant {m : SMap Nat} {limit l p : Nat} (hl : l < limit) (hv : Vacant m l p) :
    respare m limit l p = if p = physical l then m.drop l else m.put l p := by
  have free : ((List.range 64).any fun i => 64 * (l / 64) + i != l && (SMap.find m (64 * (l / 64) + i)).getD (physical (64 * (l / 64) + i)) == p)
      = false := by
    simp only [List.any_eq_false, List.mem_range, Bool.and_eq_true, bne_iff_ne, beq_iff_eq, not_and]
    exact fun i hi => hv.2 _ (by omega)
  unfold respare
  simp only [free, hv.1, ne_eq, not_true_eq_false, Bool.false_eq_true, or_false, show ¬limit ≤ l by omega, if_false]

/-- The number takes the vacant place. -/
theorem find_respare_same {m : SMap Nat} {limit l p : Nat} (hl : l < limit) (hv : Vacant m l p) :
    (SMap.find (respare m limit l p) l).getD (physical l) = p := by
  rw [respare_of_vacant hl hv]
  split
  · rename_i h; rw [SMap.find_drop_same, Option.getD_none, h]
  · rw [SMap.find_put_same, Option.getD_some]

/-- Every other number keeps its place. -/
theorem find_respare_ne {m : SMap Nat} {limit l p q : Nat} (hq : q ≠ l) : SMap.find (respare m limit l p) q = SMap.find m q := by
  unfold respare
  dsimp only
  split
  · rfl
  · split
    · exact SMap.find_drop_ne m hq
    · exact SMap.find_put_ne m p hq

/-- A context is placed on cluster `n`. -/
def Mach.Used (M : Mach) (n : Nat) : Prop := ∃ x ∈ M.ctxs, x.taken.contains n = true

theorem Mach.used_iff (M : Mach) (n : Nat) : M.Used n ↔ (M.ctxs.any fun x => x.taken.contains n) = true := List.any_eq_true.symm

section
variable {s : State} {l p : Nat}

theorem sparingChange_core (hu : ¬s.now.Used (l / 8)) :
    exec (.sparingChange .core l p) s
      = .next { s with now := { s.now with cold := { s.now.cold with coreMap := respare s.now.cold.coreMap 256 l p } } } := by
  show execSparingChange .core l p s = _
  simp only [execSparingChange, State.onMach, if_neg (mt (Mach.used_iff _ _).mpr hu)]

theorem sparingChange_lane (hu : ¬s.now.Used (l / 64)) :
    exec (.sparingChange .lane l p) s
      = .next { s with now := { s.now with cold := { s.now.cold with laneMap := respare s.now.cold.laneMap 2048 l p } } } := by
  show execSparingChange .lane l p s = _
  simp only [execSparingChange, State.onMach, if_neg (mt (Mach.used_iff _ _).mpr hu)]

theorem sparingChange_core_used (hu : s.now.Used (l / 8)) : exec (.sparingChange .core l p) s = .next s := by
  show execSparingChange .core l p s = _
  simp only [execSparingChange, State.onMach, if_pos ((Mach.used_iff _ _).mp hu)]

theorem sparingChange_lane_used (hu : s.now.Used (l / 64)) : exec (.sparingChange .lane l p) s = .next s := by
  show execSparingChange .lane l p s = _
  simp only [execSparingChange, State.onMach, if_pos ((Mach.used_iff _ _).mp hu)]

end

/-! Lost keepers (R12, R184). -/

/-- The numbers of the present keepers once `n` spares have taken over those of lost ones, lowest first. -/
def spared : Nat → List Bool → List Bool
  | _, [] => []
  | n, p :: l => if p || n == 0 then p :: spared n l else true :: spared (n - 1) l

@[simp] theorem spared_length (n : Nat) (l : List Bool) : (spared n l).length = l.length := by
  induction l generalizing n with
  | nil => rfl
  | cons p r ih => unfold spared; split <;> simp [ih]

/-- A keeper is present if it was, or if fewer than `n` before it were lost. -/
theorem spared_getD {n : Nat} {l : List Bool} {i : Nat} (hi : i < l.length) : (spared n l).getD i false
    = (l.getD i false || decide (((List.range i).countP fun j => !l.getD j false) < n)) := by
  induction l generalizing n i with
  | nil => simp at hi
  | cons p r ih =>
    cases i with
    | zero =>
      unfold spared
      cases p <;> by_cases hn : n = 0 <;> simp [hn, Nat.pos_iff_ne_zero]
    | succ i =>
      have hr : i < r.length := by simpa using hi
      have lost : ((List.range (i + 1)).countP fun j => !(p :: r).getD j false)
          = ((List.range i).countP fun j => !r.getD j false) + if p then 0 else 1 := by
        rw [List.range_succ_eq_map, List.countP_cons, List.countP_map]
        cases p <;> rfl
      rw [lost, List.getD_cons_succ]
      unfold spared
      cases p with
      | true => exact ih hr
      | false =>
        by_cases hn : n = 0
        · subst hn
          exact (ih hr).trans (by simp)
        · rw [if_neg (by simpa using hn), List.getD_cons_succ, ih hr, if_neg Bool.false_ne_true]
          congr 2
          exact propext (by omega)

/-- One step of a restart: the keepers decided so far, and the spares left. -/
def spareStep (r : List Bool × Nat) (p : Bool) : List Bool × Nat := if p || r.2 == 0 then (r.1 ++ [p], r.2) else (r.1 ++ [true], r.2 - 1)

theorem foldl_spareStep (l acc : List Bool) (n : Nat) : (l.foldl spareStep (acc, n)).1 = acc ++ spared n l := by
  induction l generalizing acc n with
  | nil => exact (List.append_nil _).symm
  | cons p r ih =>
    rw [List.foldl_cons]
    unfold spared
    split
    · rename_i h
      rw [show spareStep (acc, n) p = (acc ++ [p], n) from if_pos h, ih, List.append_assoc, List.singleton_append]
    · rename_i h
      rw [show spareStep (acc, n) p = (acc ++ [true], n - 1) from if_neg h, ih, List.append_assoc, List.singleton_append]

theorem Keepers.restart_present (K : Keepers) : K.restart.present = spared K.spares K.present :=
  foldl_spareStep K.present [] K.spares

/-! What a freeze leaves of a header: its cause (R173). -/

theorem Ctx.dropOldest_header {x y : Ctx} (h : x.dropOldest = some y) : y.header = x.header := by
  unfold Ctx.dropOldest at h
  split at h
  · exact absurd h (by simp)
  · obtain rfl := Option.some.inj h
    rfl

@[simp] theorem Ctx.makeRoom_header (x : Ctx) (n fuel : Nat) : (x.makeRoom n fuel).1.header = x.header := by
  induction fuel generalizing x with
  | zero => rfl
  | succ fuel ih =>
    unfold Ctx.makeRoom
    split
    · rfl
    · split
      · rfl
      · rename_i y hy
        rw [ih, Ctx.dropOldest_header hy]

@[simp] theorem Ctx.append_header (x : Ctx) (group : List Undo) : (x.append group).header = x.header := by
  unfold Ctx.append
  split
  · rfl
  · dsimp only
    split
    · rename_i y hy
      exact (congrArg (fun r => r.1.header) hy).symm.trans (x.makeRoom_header _ _)
    · rename_i y hy
      rw [Ctx.syncHeader_header, Ctx.onWin_header]
      exact (congrArg (fun r => r.1.header) hy).symm.trans (x.makeRoom_header _ _)

@[simp] theorem Ctx.logOld_header (x : Ctx) (j : Nat) (pool : Bool) (line : Nat) (old : BitVec 512) :
    (x.logOld j pool line old).header = x.header := by
  unfold Ctx.logOld
  split
  · rfl
  · dsimp only
    repeat' split
    all_goals rfl

@[simp] theorem Ctx.sawWrite_header (x : Ctx) (t : Nat) (hit : Nat × Nat × Nat → Bool) : (x.sawWrite t hit).header = x.header := by
  unfold Ctx.sawWrite
  split
  · rfl
  · split <;> rfl

@[simp] theorem Ctx.writeLine_header (x : Ctx) (j : Nat) (pool : Bool) (line issue value mask : Nat) :
    (x.writeLine j pool line issue value mask).header = x.header := by
  have kept (old : BitVec 512) (t : Nat) (hit : Nat × Nat × Nat → Bool) : ((x.logOld j pool line old).sawWrite t hit).header = x.header := by
    rw [Ctx.sawWrite_header, Ctx.logOld_header]
  unfold Ctx.writeLine
  split
  · rfl
  · dsimp only
    split
    · exact kept _ _ _
    · split <;> split
      case isTrue.isTrue | isFalse.isTrue => exact (Ctx.append_header _ _).trans (kept _ _ _)
      case isTrue.isFalse | isFalse.isFalse => exact kept _ _ _

@[simp] theorem Ctx.onCore_header (x : Ctx) (j : Nat) (f : Core → Core) : (x.onCore j f).header = x.header := by
  unfold Ctx.onCore; split <;> rfl

@[simp] theorem Ctx.landOne_header (x : Ctx) (j : Nat) (c : Core) (p : Pend) : (x.landOne j c p).header = x.header := by
  unfold Ctx.landOne
  dsimp only
  split <;> simp

/-- Steps that keep the header keep it together. -/
theorem foldl_header {α : Type} {f : Ctx → α → Ctx} (hf : ∀ x a, (f x a).header = x.header) (l : List α) (x : Ctx) :
    (l.foldl f x).header = x.header := by
  induction l generalizing x with
  | nil => rfl
  | cons a r ih => rw [List.foldl_cons, ih, hf]

@[simp] theorem Ctx.settle_header (x : Ctx) (j : Nat) : (x.settle j).header = x.header := by
  unfold Ctx.settle
  split
  · rfl
  · rename_i c _
    exact (Ctx.onCore_header _ _ _).trans (foldl_header (fun y p => y.landOne_header j c p) _ _)

/-- One cause that is no slip of a port is the cause of the freeze. -/
theorem Ctx.stop_cause (x : Ctx) (mslot : Nat) {q : Cause} (hq : q.code ≠ 1) : (x.stop mslot [q]).header.cause = q.code := by
  have noPort : ([q].filter fun q => q.code == 1) = [] := by simp [hq]
  have kept : ((List.range (((x.freeze mslot [q]).freeRows mslot).cores.length)).foldl (fun x j => x.settle j)
      ((x.freeze mslot [q]).freeRows mslot)).header = (x.freeze mslot [q]).header := foldl_header (fun y j => y.settle_header j) _ _
  unfold Ctx.stop
  simp only [noPort, List.foldl_nil, kept]
  rfl

theorem Mach.stopped_cause (M : Mach) (x : Ctx) {q : Cause} (hq : q.code ≠ 1) : (M.stopped x [q]).header.cause = q.code := by
  unfold Mach.stopped
  dsimp only
  split
  · exact x.stop_cause _ hq
  · exact x.stop_cause _ hq

/-- The keepers that are present, the drives that are lost and the phase of boot stay. -/
structure SameKeepers (M N : Mach) : Prop where
  present : N.keepers.present = M.keepers.present
  lost : N.keepers.lost = M.keepers.lost
  phase : N.keepers.bootPhase = M.keepers.bootPhase

theorem SameKeepers.refl (M : Mach) : SameKeepers M M := ⟨rfl, rfl, rfl⟩

theorem SameKeepers.trans {M N P : Mach} (h : SameKeepers M N) (g : SameKeepers N P) : SameKeepers M P :=
  ⟨g.present.trans h.present, g.lost.trans h.lost, g.phase.trans h.phase⟩

theorem SameKeepers.accepting {M N : Mach} (h : SameKeepers M N) : N.accepting = M.accepting := by
  unfold Mach.accepting; rw [h.phase]

theorem SameKeepers.foldl {α : Type} {f : Mach → α → Mach} (hf : ∀ M a, SameKeepers M (f M a)) (l : List α) (M : Mach) :
    SameKeepers M (l.foldl f M) := by
  induction l generalizing M with
  | nil => exact .refl M
  | cons a r ih => exact (hf M a).trans (ih _)

theorem sameKeepers_setCtx (M : Mach) (x : Ctx) : SameKeepers M (M.setCtx x) := ⟨rfl, rfl, rfl⟩

theorem sameKeepers_openDump (M : Mach) : SameKeepers M M.openDump := by
  unfold Mach.openDump
  split
  · exact .refl M
  · dsimp only
    split
    · exact .refl M
    · exact ⟨rfl, rfl, rfl⟩

theorem sameKeepers_spill (M : Mach) (k : Nat) : SameKeepers M (M.spill k) := by
  unfold Mach.spill
  split
  · exact .refl M
  · exact ⟨rfl, rfl, rfl⟩

theorem sameKeepers_trace (M : Mach) (x : Ctx) (event core data : Nat) : SameKeepers M (M.trace x event core data) := by
  constructor <;> simp [Mach.trace]

/-- A freeze with cause 0x34 ends nothing and rolls nothing back: no more than a dump opens. -/
theorem sameKeepers_freezeCtx (M : Mach) (k : Nat) {q : Cause} (hq : q.code = 0x34) : SameKeepers M (M.freezeCtx k [q]) := by
  unfold Mach.freezeCtx
  split
  · exact .refl M
  · rename_i x _
    have cause : (M.stopped x [q]).header.cause = 0x34 := (M.stopped_cause x (by omega)).trans hq
    have frozen (core : Nat) : SameKeepers M
        ((((M.setCtx (M.stopped x [q])).signalFreeze (M.stopped x [q])).spill k).trace (M.stopped x [q]) 1 core 0x34) :=
      ((⟨rfl, rfl, rfl⟩ : SameKeepers M ((M.setCtx (M.stopped x [q])).signalFreeze (M.stopped x [q]))).trans (sameKeepers_spill _ k)).trans
        (sameKeepers_trace _ _ _ _ _)
    have steps : fatalCode 0x34 = false := rfl
    simp only [cause, steps, Bool.and_false, Bool.false_eq_true, if_false, show ¬(0x34 = 0x31) by decide, show ¬(0x34 = 0x21 ∨ 0x34 = 0x22) by decide]
    generalize (if (M.stopped x [q]).header.core < (M.stopped x [q]).cores.length then (M.stopped x [q]).header.core else 0xFFFF) = core
    split
    · exact (frozen _).trans (sameKeepers_openDump _)
    · split
      · exact (frozen _).trans (sameKeepers_openDump _)
      · exact frozen _

/-- The safe state (R184): the contexts freeze, the journal is persisted, vector 8 is raised. -/
theorem Mach.safeState_eq (M : Mach) : ∃ N, SameKeepers M N
    ∧ M.safeState = { N.persist with keepers := { N.keepers with bootPhase := 0xF, fstage := 0 } }.raiseVector 8 := by
  refine ⟨_, SameKeepers.foldl (fun M x => ?_) M.ctxs M, rfl⟩
  split
  · exact sameKeepers_setCtx _ _
  · exact sameKeepers_freezeCtx _ _ rfl
  · exact sameKeepers_setCtx _ _
  · exact sameKeepers_setCtx _ _
  · exact sameKeepers_setCtx _ _
  · exact sameKeepers_setCtx _ _
  · exact .refl _

/-- A present keeper is lost: the last of them takes the module to its safe state. -/
theorem Mach.loseKeeper_eq {M : Mach} {n : Nat} (h : M.keepers.present.getD n false = true) : ∃ ctxs,
    let N : Mach := { M with ctxs, keepers := { M.keepers with present := setAt M.keepers.present n false } }
    M.loseKeeper n = if (setAt M.keepers.present n false).any id then N else N.safeState := by
  have here : ¬(!M.keepers.present.getD n false) = true := by rw [h]; decide
  exact ⟨_, if_neg here⟩

/-! The clauses about the keepers' services, each for its event. -/

/-- A started command whose work is done ends: its entry, its signal, its vector (R50). -/
theorem commandEnd_runs (s : State) {c : HostCmd} {status detail : Nat} (hc : s.now.cmd? c.seq = some c) (hs : c.state = .started)
    (hr : c.result = some (status, detail)) : Runs s (.commandEnd c.seq) fun M =>
      M.Holds s.now.links.clock s.now.journal.next (if status = 0 then 4 else 5) c status c.seq detail 0
        ∧ M.journal.next = s.now.journal.next + 1 ∧ M.cmds = s.now.cmds.filter (fun d => d.seq != c.seq)
        ∧ M.host.msix = s.now.host.msix ++ [c.queue] ∧ M.warm = s.now.warm
        ∧ M.host.memory = if c.signalAt = 0 ∨ c.kind = 7 then s.now.host.memory
            else s.now.host.memory.write c.signalAt 8 (s.now.journal.next + if status = 0 then 0 else 2 ^ 63) :=
  ⟨_, commandEnd_ends s hc hs hr, Mach.endCmd_holds .., Mach.endCmd_next .., Mach.endCmd_cmds .., Mach.endCmd_msix .., Mach.endCmd_warm ..,
    Mach.endCmd_memory ..⟩

section
variable {s : State} {i : Image} (hm : s.now.keepers.meas.length = 8) (ha : s.now.accepting = true) (hr : Image.routineOk i = true) (hn : 16 ≤ i.num)

include ha in
theorem routineLoad_eq : exec (.routineLoad i) s = .next { s with now := { s.now with keepers := s.now.keepers.install i } } := by
  show execRoutineLoad i s = _
  simp only [execRoutineLoad, State.onMach, ha, if_true]

include hm ha hr hn in
theorem routineLoad_good (hg : Image.good s.now.keepers.rootKey i = true) : Runs s (.routineLoad i) fun M =>
    M.keepers.meas[5]? = some (extend (s.now.keepers.meas.getD 5 0) (Image.bytes i)) ∧ M.keepers.loads = s.now.keepers.loads + 1
      ∧ { num := i.num, s0 := i.s0, w := i.w, fmin := i.fmin } ∈ M.keepers.routines
      ∧ (∀ r ∈ M.keepers.routines, r.num = i.num → r.s0 = i.s0 ∧ r.w = i.w)
      ∧ ∀ r ∈ s.now.keepers.routines, r.num ≠ i.num → r ∈ M.keepers.routines := by
  refine ⟨_, routineLoad_eq ha, ?_⟩
  rw [Keepers.install_good hr hn hg]
  refine ⟨setAt_getElem?_same _ _ _ (by omega), rfl, by simp [Image.routine], fun r h e => ?_, fun r h e => ?_⟩
  · rcases List.mem_append.mp h with h | h
    · exact absurd e (by simpa using (List.mem_filter.mp h).2)
    · rw [List.mem_singleton.mp h]
      exact ⟨rfl, rfl⟩
  · exact List.mem_append_left _ (List.mem_filter.mpr ⟨h, by simpa using e⟩)

include ha hr hn in
theorem routineLoad_bad (hg : Image.good s.now.keepers.rootKey i = false) : Runs s (.routineLoad i) fun M =>
    M = { s.now with keepers := { s.now.keepers with attempts := BitVec.ofNat 8 (min (s.now.keepers.attempts.toNat + 1) 255) } } :=
  ⟨_, routineLoad_eq ha, by rw [Keepers.install_bad hr hn hg, Keepers.failed_eq]⟩

end

theorem quoteRequest_replies {s : State} (nonce : BitVec 256) (ha : s.now.accepting = true) : Runs s (.quoteRequestMgmt nonce) fun M =>
    M = { s.now with keepers := { s.now.keepers with replies := s.now.keepers.replies ++ [s.now.quote nonce.toNat] } } := by
  refine ⟨_, rfl, ?_⟩
  dsimp only
  rw [if_pos ha]

theorem journalPersist_saves {s : State} (hd : s.now.keepers.lost.any (!·) = true) (ha : s.now.accepting = true) : Runs s .journalPersist fun M =>
    M = { s.now with journal := { s.now.journal with persisted := s.now.journal.next, saved := s.now.journal.ring
                                                     ms := s.now.links.clock / 1000000 } } := by
  have left : s.now.keepers.lost.all id = false := by rw [List.all_eq_not_any_not, Bool.not_eq_false']; exact hd
  refine ⟨_, rfl, ?_⟩
  dsimp only
  rw [Mach.persist_of_drive left ha]
  rfl

theorem journalPersist_keeps {s : State} (h : s.now.keepers.lost.all id = true ∨ s.now.accepting = false) : Runs s .journalPersist fun M =>
    M = { s.now with journal := { s.now.journal with ms := s.now.links.clock / 1000000 } } := by
  refine ⟨_, rfl, ?_⟩
  dsimp only
  rw [Mach.persist_of_none h]

theorem clockCorrection_none {s : State} {n : Int} (h : s.now.links.locked = false ∨ n = 0) : Runs s (.clockCorrection n) fun M => M = s.now :=
  ⟨_, rfl, Mach.correct_of_unlocked h⟩

theorem clockCorrection_counts {s : State} {n : Int} (hl : s.now.links.locked = true) (hn : n ≠ 0) : Runs s (.clockCorrection n) fun M =>
    M.links.corr = BitVec.ofNat 32 (min (s.now.links.corr.toNat + 1) (2 ^ 32 - 1)) ∧ M.links.corrections = s.now.links.corrections ++ [n]
      ∧ (1000000 < n → M.links.clock = s.now.links.clock + n.toNat ∧ M.links.slew = 0)
      ∧ (n ≤ 1000000 → M.links.clock = s.now.links.clock ∧ M.links.slew = n) := by
  refine ⟨_, rfl, ?_⟩
  dsimp only
  rw [Mach.correct_links hl hn]
  split
  · exact ⟨rfl, rfl, fun _ => ⟨rfl, rfl⟩, fun h => by omega⟩
  · exact ⟨rfl, rfl, fun h => by omega, fun _ => ⟨rfl, rfl⟩⟩

/-! The clauses about parts that are replaced. -/

/-- What a sparing change does to a map (R11). -/
def Moved (before after : SMap Nat) (l p : Nat) : Prop :=
  (SMap.find after l).getD (physical l) = p ∧ ∀ q, q ≠ l → SMap.find after q = SMap.find before q

theorem moved_respare {m : SMap Nat} {limit l p : Nat} (hl : l < limit) (hv : Vacant m l p) : Moved m (respare m limit l p) l p :=
  ⟨find_respare_same hl hv, fun _ hq => find_respare_ne hq⟩

theorem sparingChange_hbm {s : State} (l p : Nat) (h : s.now.ctxs = []) : Runs s (.sparingChange .hbm l p) fun M =>
    SMap.find M.cold.hbmMap l = some p ∧ (∀ q, q ≠ l → SMap.find M.cold.hbmMap q = SMap.find s.now.cold.hbmMap q)
      ∧ M = { s.now with cold := { s.now.cold with hbmMap := M.cold.hbmMap } } := by
  have free : s.now.ctxs.isEmpty = true := by rw [h]; rfl
  refine ⟨{ s.now with cold := { s.now.cold with hbmMap := s.now.cold.hbmMap.put l p } }, ?_, SMap.find_put_same _ _ _,
    fun q hq => SMap.find_put_ne _ _ hq, rfl⟩
  show execSparingChange .hbm l p s = _
  simp only [execSparingChange, State.onMach, free, if_true]

theorem sparingChange_hbm_used {s : State} (l p : Nat) (h : s.now.ctxs ≠ []) : Runs s (.sparingChange .hbm l p) fun M => M = s.now := by
  refine ⟨_, rfl, ?_⟩
  exact if_neg (by simpa using h)

theorem sparingChange_dretex {s : State} (hs : s.Shaped) (l p : Nat) : Runs s (.sparingChange .dretex l p) fun M =>
    M.links.ports[l % 8]? = some { s.now.links.ports.getD (l % 8) Port.reset with
        failed := (s.now.links.ports.getD (l % 8) Port.reset).failed - 1 }
      ∧ ∀ n, n ≠ l % 8 → M.links.ports[n]? = s.now.links.ports[n]? := by
  have hp := hs.1.ports
  exact ⟨_, rfl, setAt_getElem?_same _ _ _ (by omega), fun n hn => setAt_getElem?_ne _ _ _ _ hn⟩

theorem keeperRestart_spares {s : State} (hs : s.Shaped) : Runs s .keeperRestart fun M => M.keepers.present.length = 16
    ∧ ∀ i < 16, M.keepers.present.getD i false = (s.now.keepers.present.getD i false
        || decide (((List.range i).countP fun j => !s.now.keepers.present.getD j false) < s.now.keepers.spares)) := by
  have hl := hs.1.keepers.1
  refine ⟨_, rfl, ?_⟩
  dsimp only
  rw [Keepers.restart_present, spared_length]
  exact ⟨hl, fun i hi => spared_getD (by omega)⟩

theorem keeperHandlerFetchFault_loses {s : State} (n : BitVec 4) (hn : s.now.keepers.present.getD n.toNat false = true) :
    let after := setAt s.now.keepers.present n.toNat false
    Runs s (.keeperHandlerFetchFault n) fun M => M.keepers.present = after
      ∧ (after.any id = true → M.keepers.bootPhase = s.now.keepers.bootPhase ∧ M.journal = s.now.journal)
      ∧ (after.any id = false → M.keepers.bootPhase = 0xF ∧ M.keepers.fstage = 0
          ∧ (s.now.keepers.lost.all id = false → s.now.accepting = true → M.journal.persisted = M.journal.next)) := by
  intro after
  refine ⟨_, rfl, ?_⟩
  obtain ⟨ctxs, lost⟩ := Mach.loseKeeper_eq hn
  dsimp only at lost ⊢
  rw [lost]
  cases left : after.any id with
  | true =>
    rw [if_pos rfl]
    exact ⟨rfl, fun _ => ⟨rfl, rfl⟩, nofun⟩
  | false =>
    rw [if_neg Bool.false_ne_true]
    obtain ⟨N, same, safe⟩ := Mach.safeState_eq { s.now with ctxs, keepers := { s.now.keepers with present := after } }
    rw [safe]
    refine ⟨same.present, nofun, fun _ => ⟨rfl, rfl, fun hd ha => ?_⟩⟩
    have drive : N.keepers.lost.all id = false := by rw [same.lost]; exact hd
    have persisted := Mach.persist_of_drive drive (same.accepting.trans ha)
    simp only [Mach.raiseVector, persisted]
    rfl

theorem nvmeDriveLost_tells {s : State} (d : BitVec 1) : Runs s (.nvmeDriveLost d) fun M =>
    M.keepers.lost = setAt s.now.keepers.lost d.toNat true ∧ (s.now.keepers.bootPhase = 4 → M.keepers.bootPhase = 0xE)
      ∧ (s.now.keepers.bootPhase ≠ 4 → M.keepers.bootPhase = s.now.keepers.bootPhase) ∧ M.host.msix = s.now.host.msix ++ [8] :=
  ⟨_, rfl, rfl, fun h => if_pos h, fun h => if_neg h, rfl⟩

/-- Settles O38, clause by clause: the services of the keepers, then the replacement of parts. The one clause with more to it than its event's own
equation is the loss of the last keeper: the freezes of the safe state, all of cause 0x34, leave the drives and the phase of boot as they were, so that
the journal is persisted. When vector 8 is raised is log 63's choice (R19). -/
theorem servicesAnswerAndPartsAreReplaced : Obligations.ServicesAnswerAndPartsAreReplaced := by
  refine ⟨fun s => ⟨fun c status detail hc hs hr => commandEnd_runs s hc hs hr, fun i hm ha hk hn hx hw hv => ?_,
    fun nonce ha => quoteRequest_replies nonce ha, journalPersist_saves, journalPersist_keeps, fun b => ⟨_, rfl, rfl⟩,
    fun n => ⟨clockCorrection_none, clockCorrection_counts⟩⟩, fun s hs => ⟨fun l p => ?_, sparingChange_dretex hs, keeperRestart_spares hs,
    keeperHandlerFetchFault_loses, nvmeDriveLost_tells⟩⟩
  · have ok := Image.routineOk_of_installed hk hn hx hw hv
    exact ⟨routineLoad_good hm ha ok hn, routineLoad_bad ha ok hn⟩
  · exact ⟨fun hl hu hv => ⟨_, sparingChange_core hu, moved_respare hl hv, rfl⟩, fun hl hu hv => ⟨_, sparingChange_lane hu, moved_respare hl hv, rfl⟩,
      sparingChange_hbm l p, fun hu => ⟨_, sparingChange_core_used hu, rfl⟩, fun hu => ⟨_, sparingChange_lane_used hu, rfl⟩,
      sparingChange_hbm_used l p⟩

end Sys2Proof.Machine

/-! SUPPORT. What the start of a MAP does to the tables of a new address space. -/

namespace Sys2Proof.Machine

/-! The tables of an address space that is new (R74, log 111). -/

theorem SMap.get_erase_in {α : Type} {d : α} (m : SMap α) {lo hi k : Nat} (h : lo ≤ k ∧ k < hi) : SMap.get d (SMap.erase m lo hi) k = d := by
  induction m with
  | nil => rfl
  | cons c r ih =>
    obtain ⟨i, x⟩ := c
    unfold SMap.erase at ih ⊢
    rw [List.filter_cons]
    split
    · rename_i out
      have ne : i ≠ k := by rintro rfl; simp [h] at out
      rw [SMap.get_cons, if_neg ne]
      exact ih
    · exact ih

/-- A zeroed range reads 0. -/
theorem Memory.byte_zero_in (m : Memory) {lo hi a : Nat} (h : lo ≤ a ∧ a < hi) : (m.zero lo hi).byte a = 0 := SMap.get_erase_in m h

@[simp] theorem Warm.setSpace_mem (W : Warm) (s : Space) : (W.setSpace s).mem = W.mem := by unfold Warm.setSpace; split <;> rfl

section
variable {W : Warm} {heap : Nat} {a : BitVec 8}

/-- The space that the keeper makes for a new ASID: a level-1 table, and nothing in it. -/
def newSpace (heap : Nat) (a : BitVec 8) : Space := { asid := a, root := heap + 2 ^ 21 * a.toNat, tabs := [], ptes := [] }

theorem Warm.openSpace_new (new : W.space a = none) : W.openSpace heap a
    = { W with mem := W.mem.zero (newSpace heap a).root ((newSpace heap a).root + 2 ^ 21), spaces := W.spaces ++ [newSpace heap a] } := by
  have other (t : Space) (ht : t ∈ W.spaces) : ¬(t.asid == a) = true := List.find?_eq_none.mp new t ht
  have unlisted : (W.spaces.any fun t => t.asid == a) = false := List.any_eq_false.mpr other
  simp only [Warm.openSpace, Warm.spaceOf, new, Option.isSome_none, Option.getD_none, Warm.setSpace, unlisted, Bool.false_eq_true, if_false]
  rfl

theorem Warm.spaceOf_openSpace_new (new : W.space a = none) : (W.openSpace heap a).spaceOf heap a = newSpace heap a := by
  have found : (W.openSpace heap a).space a = some (newSpace heap a) := by
    rw [Warm.openSpace_new new]
    unfold Warm.space at new ⊢
    rw [List.find?_append, new, Option.none_or]
    simp [newSpace]
  rw [Warm.spaceOf, found, Option.getD_some]

/-- The first leaf of a new space, if it needs no table of levels 2 and 3: the level-1 table is cleared, and the leaf's entry written there. -/
theorem Warm.putLeaf_new_mem (new : W.space a = none) {p : Pte} (level : p.level = 1) : (W.putLeaf heap a p).mem
    = (W.mem.zero (newSpace heap a).root ((newSpace heap a).root + 2 ^ 21)).write ((newSpace heap a).root + 8 * (p.va / 2 ^ 30)) 8 p.word.toNat := by
  unfold Warm.putLeaf
  simp only [Warm.spaceOf_openSpace_new new, level, Warm.setSpace_mem]
  rw [Warm.openSpace_new new]
  rfl

/-- So a byte of that table beside the leaf's entry reads 0, whatever it held. -/
theorem Warm.byte_putLeaf_new (new : W.space a = none) {p : Pte} (level : p.level = 1) {b : Nat}
    (table : (newSpace heap a).root ≤ b ∧ b < (newSpace heap a).root + 2 ^ 21)
    (beside : b < (newSpace heap a).root + 8 * (p.va / 2 ^ 30) ∨ (newSpace heap a).root + 8 * (p.va / 2 ^ 30) + 8 ≤ b) :
    (W.putLeaf heap a p).mem.byte b = 0 := by
  rw [Warm.putLeaf_new_mem new level, Memory.byte_write_out _ _ _ _ beside, Memory.byte_zero_in _ table]

end

/-- A MAP of one page of 1 GiB for ASID 1: [2^30, 2^31) is to map HBM at 2^30, to be read, written and fetched from. -/
def mapCmd : HostCmd :=
  { seq := 0, queue := 0, index := 0, words := BitVec.ofNat 512 (2 + 2 ^ 16 * 1 + 2 ^ 192 * 2 ^ 30 + 2 ^ 256 * 2 ^ 30 + 2 ^ 320 * 2 ^ 30 + 2 ^ 384 * 0x78)
    prev := none, record := 0, state := .accepted, pages := [], moved := 0, busy := false, failed := false, count := 0, result := none }

/-- The module after boot with the keeper heap at 2^31. HBM keeps what it held before a reset, and so the first byte of the place where the level-1 table
of ASID 1 is to stand holds 1. -/
def staleHeap : Mach :=
  { Mach.reset with
    keepers := { Mach.reset.keepers with bootPhase := 4, kheap := 2 }
    journal := { Mach.reset.journal with next := 1 }
    warm := { Mach.reset.warm with mem := [(2 ^ 31 + 2 ^ 21, 1)] }
    cmds := [mapCmd] }

/-- The leaf that the command makes. -/
def mapLeaf : Pte := mapCmd.leafAt (2 ^ 30) (2 ^ 30) true

theorem startCmd_mapCmd_warm : (staleHeap.startCmd mapCmd []).warm = (staleHeap.warm.take 0x4000 0x4000).putLeaf (2 ^ 31) 1 mapLeaf := by
  decide +kernel

/-- The space of ASID 1 holds that leaf and no table, and so no entry but the leaf's. -/
theorem startCmd_mapCmd_spaces : (staleHeap.startCmd mapCmd []).warm.spaces = [{ newSpace (2 ^ 31) 1 with ptes := [mapLeaf] }] := by
  decide +kernel

theorem not_tableByte_mapCmd : ¬(staleHeap.startCmd mapCmd []).warm.tableByte (2 ^ 31 + 2 ^ 21) := by
  unfold Warm.tableByte Warm.leafByte
  rw [startCmd_mapCmd_spaces]
  simp only [List.mem_singleton, exists_eq_left, newSpace, List.not_mem_nil, false_and, exists_false, or_false]
  rintro ⟨e, he, below, -⟩
  have entry : ({ newSpace (2 ^ 31) 1 with ptes := [mapLeaf] } : Space).entry mapLeaf.level mapLeaf.va = some (2 ^ 31 + 2 ^ 21 + 8) := by decide +kernel
  have place : 2 ^ 31 + 2 ^ 21 + 8 = e := Option.some.inj (entry.symm.trans he)
  omega

/-- A command whose turn has come starts (R49). -/
theorem commandStart_starts (s : State) {c : HostCmd} (frames : List Nat) (hc : s.now.cmd? c.seq = some c) (ha : c.state = .accepted)
    (ht : s.now.turn c = true) (hk : c.kind ≠ 1) : exec (.commandStart c.seq frames) s = .next { s with now := s.now.startCmd c frames } := by
  show execCommandStart c.seq frames s = _
  simp only [execCommandStart, State.onMach, hc, ha, ht, hk, ne_eq, not_false_eq_true, and_self, if_true]

/-- Refutes O35: its clause that a MAP of named frames changes no byte of warm memory but in entries of leaves and pointers. The first MAP of an ASID
opens its address space, and so clears the 2 MiB of its level-1 table (R74, R77, log 111), whose other entries are bytes of the keeper heap that are in
no entry of a leaf or a pointer. `staleHeap` holds 1 in the first of them, as HBM does that a reset has left alone; `mapCmd`, which passes every check
of R48, starts there, and the byte is 0. -/
theorem not_commandsDoTheirWork : ¬Obligations.CommandsDoTheirWork := by
  intro holds
  have named : staleHeap.cmd? mapCmd.seq = some mapCmd := by decide +kernel
  have turn : staleHeap.turn mapCmd = true := by decide +kernel
  have other : mapCmd.kind ≠ 1 := by decide +kernel
  obtain ⟨-, -, map, -⟩ := holds { State.reset with now := staleHeap } mapCmd [] named rfl turn other
  obtain ⟨M, run, -, -, -, kept, -⟩ := map (by decide +kernel) (by decide +kernel) (by decide +kernel)
  have ends : staleHeap.startCmd mapCmd [] = M :=
    congrArg State.now (Host.Outcome.next.inj ((commandStart_starts { State.reset with now := staleHeap } [] named rfl turn other).symm.trans run))
  subst ends
  have cleared : (staleHeap.startCmd mapCmd []).warm.mem.byte (2 ^ 31 + 2 ^ 21) = 0 := by
    rw [startCmd_mapCmd_warm]
    exact Warm.byte_putLeaf_new (by decide +kernel) (by decide +kernel) (by decide +kernel) (by decide +kernel)
  have held : staleHeap.warm.mem.byte (2 ^ 31 + 2 ^ 21) = 1 := by decide +kernel
  exact absurd (cleared.symm.trans ((kept _ not_tableByte_mapCmd).trans held)) (by decide)

end Sys2Proof.Machine

/-! SUPPORT. A keeper taking a command: the events by which it does, its rejection or acceptance, and its turn. -/

namespace Sys2Proof.Machine

theorem setAt_getD {α : Type} (l : List α) {n : Nat} (v : α) (m : Nat) (d : α) (h : n < l.length) :
    (setAt l n v).getD m d = if m = n then v else l.getD m d := by
  split
  · subst m
    rw [List.getD_eq_getElem?_getD, setAt_getElem?_same l n v h, Option.getD_some]
  · rename_i other
    rw [List.getD_eq_getElem?_getD, setAt_getElem?_ne l n m v other, ← List.getD_eq_getElem?_getD]

/-! The event and the head of its queue (R45). -/

/-- Each event of `takenBy` takes the head of that queue, which is one of the eight. -/
theorem takenBy_exec {ins : Instr} {q : Nat} {ok : HostCmd → Bool} {frames : List Nat} (h : takenBy ins = some (q, ok, frames)) :
    q < 8 ∧ ∀ s : State, exec ins s = .next { s with now := s.now.takeCmd q ok frames } := by
  unfold takenBy at h
  split at h
  case h_18 => exact nomatch h
  all_goals
    obtain ⟨rfl, rfl, rfl⟩ := h
    exact ⟨BitVec.isLt _, fun _ => rfl⟩

/-- The command at the head of a queue is numbered by the next entry of the journal, and stands as one that is accepted. -/
theorem Mach.headCmd_fields {M : Mach} {q : Nat} {c : HostCmd} (h : M.headCmd q = some c) :
    c.seq = M.journal.next ∧ c.queue = q ∧ c.state = .accepted := by
  unfold Mach.headCmd at h
  split at h
  · exact nomatch h
  · obtain rfl := Option.some.inj h
    dsimp only
    split <;> exact ⟨rfl, rfl, rfl⟩

/-! The entry of a command that is taken, and HEAD past it (R46, R48, R55). -/

section
variable (M : Mach) (kind queue asid status : Nat) (ref : Option Nat) (index detail rec : Nat)

@[simp] theorem Mach.entry_ctxs : (M.entry kind queue asid status ref index detail rec).ctxs = M.ctxs := by rw [Mach.entry_frame]
@[simp] theorem Mach.entry_launch : (M.entry kind queue asid status ref index detail rec).launch = M.launch := by rw [Mach.entry_frame]
@[simp] theorem Mach.entry_links : (M.entry kind queue asid status ref index detail rec).links = M.links := by rw [Mach.entry_frame]

end

/-- HEAD moves on by one in the queue of the command. -/
theorem Mach.passHead_head (M : Mach) {q : Nat} (seq : Nat) (h : q < M.host.queues.length) :
    ((M.passHead q seq).queue q).head = (M.queue q).head + 1 := by
  simp only [Mach.queue, Mach.passHead, setAt_getD _ _ _ _ h, if_true]

/-- A command taken: its entry, with its words, and HEAD past it. -/
def Mach.takeHead (M : Mach) (kind : Nat) (c : HostCmd) (status : Nat) : Mach :=
  (M.entry kind c.queue c.asid.toNat status none c.index 0 c.words.toNat).passHead c.queue c.seq

section
variable (M : Mach) (kind : Nat) (c : HostCmd) (status : Nat)

theorem Mach.reject_eq_takeHead : M.reject c status = M.takeHead 2 c status := rfl
theorem Mach.accept_eq_takeHead : M.accept c = { M.takeHead 1 c 0 with cmds := M.cmds ++ [c] } := rfl

@[simp] theorem Mach.takeHead_next : (M.takeHead kind c status).journal.next = M.journal.next + 1 := Mach.entry_next ..
@[simp] theorem Mach.takeHead_warm : (M.takeHead kind c status).warm = M.warm := Mach.entry_warm ..
@[simp] theorem Mach.takeHead_ctxs : (M.takeHead kind c status).ctxs = M.ctxs := Mach.entry_ctxs ..
@[simp] theorem Mach.takeHead_cmds : (M.takeHead kind c status).cmds = M.cmds := Mach.entry_cmds ..
@[simp] theorem Mach.takeHead_launch : (M.takeHead kind c status).launch = M.launch := Mach.entry_launch ..
@[simp] theorem Mach.takeHead_links : (M.takeHead kind c status).links = M.links := Mach.entry_links ..

@[simp] theorem Mach.accept_launch : (M.accept c).launch = M.launch := Mach.takeHead_launch ..
@[simp] theorem Mach.accept_links : (M.accept c).links = M.links := Mach.takeHead_links ..

theorem Mach.takeHead_holds : (M.takeHead kind c status).Holds M.links.clock M.journal.next kind c status M.journal.next 0 c.words.toNat := by
  show SMap.get 0 (M.entry kind c.queue c.asid.toNat status none c.index 0 c.words.toNat).journal.ring _ = _
  rw [Mach.entry_ring, SMap.get_set_same, Option.getD_none]

theorem Mach.takeHead_head (h : c.queue < M.host.queues.length) : ((M.takeHead kind c status).queue c.queue).head = (M.queue c.queue).head + 1 := by
  unfold Mach.takeHead
  rw [Mach.passHead_head _ _ (by rwa [Mach.entry_host]), Mach.queue, Mach.entry_host]
  rfl

end

/-! The turn of an accepted command (R49, R101). -/

section
variable {M : Mach} {c : HostCmd}

/-- A command that is numbered past those before it is found by its number. -/
theorem Mach.accept_cmd? (fresh : ∀ d ∈ M.cmds, d.seq < c.seq) : (M.accept c).cmd? c.seq = some c := by
  have others : M.cmds.find? (fun d => d.seq == c.seq) = none :=
    List.find?_eq_none.mpr fun d hd same => absurd (fresh d hd) (by rw [eq_of_beq same]; exact Nat.lt_irrefl _)
  show (M.cmds ++ [c]).find? (fun d => d.seq == c.seq) = some c
  rw [List.find?_append, others, Option.none_or, List.find?_cons_of_pos (by exact beq_self_eq_true _)]

/-- Its own acceptance does not change whether its turn has come. -/
theorem Mach.accept_turn : (M.accept c).turn c = M.turn c := by
  simp [Mach.turn, Mach.accept_eq_takeHead, List.all_append]

section
variable {seq : Nat} (frames : List Nat) (named : M.cmd? seq = some c)
include named

theorem Mach.firstTurn_of_not_turn (ht : M.turn c = false) : M.firstTurn seq frames = M := by
  simp only [Mach.firstTurn, named, ht, Bool.not_false, if_true]

theorem Mach.firstTurn_launch (ht : M.turn c = true) (hk : c.kind = 1) : M.firstTurn seq frames = M.enqueue c := by
  simp only [Mach.firstTurn, named, ht, hk, Bool.not_true, Bool.false_eq_true, if_true, if_false]

theorem Mach.firstTurn_other (ht : M.turn c = true) (hk : c.kind ≠ 1) : M.firstTurn seq frames = M.startCmd c frames := by
  simp only [Mach.firstTurn, named, ht, hk, Bool.not_true, Bool.false_eq_true, if_false]

end

/-- The launch as it waits in the launch unit. -/
def HostCmd.waiting (c : HostCmd) (since : Nat) : Waiting :=
  { cmd := c.seq, asid := c.asid, record := c.record, prio := Mach.prioOf c, since, blocked := none, ring := none, saved := none }

/-- A launch that does not wait yet joins the queue of its priority, if that has room. -/
theorem Mach.enqueue_joins (fresh : ∀ l ∈ M.launch, ∀ w ∈ l, w.cmd < c.seq) (room : (M.launch.getD (Mach.prioOf c) []).length < 64) :
    M.enqueue c = { M with launch := setAt M.launch (Mach.prioOf c) (M.launch.getD (Mach.prioOf c) [] ++ [c.waiting M.links.clock]) } := by
  have absent : (M.launch.any fun l => l.any fun w => w.cmd == c.seq) = false :=
    List.any_eq_false.mpr fun l hl waits => by
      obtain ⟨w, hw, same⟩ := List.any_eq_true.mp waits
      exact absurd (fresh l hl w hw) (by rw [eq_of_beq same]; exact Nat.lt_irrefl _)
  have free : decide (64 ≤ (M.launch.getD (Mach.prioOf c) []).length) = false := decide_eq_false (Nat.not_le.mpr room)
  simp only [Mach.enqueue, absent, free, Bool.or_self, Bool.false_eq_true, if_false]
  rfl

/-- So does one that has just been accepted: acceptance leaves the launch unit and the clock as they were. -/
theorem Mach.accept_enqueue (fresh : ∀ l ∈ M.launch, ∀ w ∈ l, w.cmd < c.seq) (room : (M.launch.getD (Mach.prioOf c) []).length < 64) :
    (M.accept c).enqueue c = { M.accept c with
      launch := setAt M.launch (Mach.prioOf c) (M.launch.getD (Mach.prioOf c) [] ++ [c.waiting M.links.clock]) } := by
  rw [Mach.enqueue_joins (by rwa [Mach.accept_launch]) (by rwa [Mach.accept_launch])]
  simp only [Mach.accept_launch, Mach.accept_links]

/-- A LAUNCH whose turn has come passes the checks only while the queue of its priority has room (R101). -/
theorem Mach.room_of_checkCmd (passes : M.checkCmd c = 0) (ht : M.turn c = true) (hk : c.kind = 1) :
    (M.launch.getD (Mach.prioOf c) []).length < 64 := by
  refine Nat.lt_of_not_le fun full => absurd passes ?_
  have last : c.kind = 1 ∧ M.turn c ∧ 64 ≤ (M.launch.getD (Mach.prioOf c) []).length := ⟨hk, ht, full⟩
  unfold Mach.checkCmd
  rw [if_pos last]
  repeat' split
  all_goals decide

/-! The head command of a queue (R46, R48). -/

section
variable {q : Nat} {ok : HostCmd → Bool} (frames : List Nat) (head : M.headCmd q = some c) (named : ok c = true)
include head named

theorem Mach.takeCmd_rejects (fails : M.checkCmd c ≠ 0) : M.takeCmd q ok frames = M.reject c (M.checkCmd c) := by
  simp only [Mach.takeCmd, head, named, fails, Bool.not_true, Bool.false_eq_true, ne_eq, not_false_eq_true, if_true, if_false]

theorem Mach.takeCmd_accepts (passes : M.checkCmd c = 0) : M.takeCmd q ok frames = (M.accept c).firstTurn c.seq frames := by
  simp only [Mach.takeCmd, head, named, passes, Bool.not_true, Bool.false_eq_true, ne_eq, not_true_eq_false, if_false]

end

end

/-- Settles O34: the event takes the head of its queue, whose number is that of its entry. In a module of its shape no command and no waiting launch
has that number yet, so the accepted command is the one found by it, and a LAUNCH that passes the checks finds the room that they ask for. -/
theorem commandsAreTaken : Obligations.CommandsAreTaken := by
  intro s ins q ok frames c shaped event head named M0 n passed
  obtain ⟨eight, run⟩ := takenBy_exec event
  obtain ⟨number, rfl, accepted⟩ := Mach.headCmd_fields head
  have there : c.queue < M0.host.queues.length := by rw [shaped.1.host.1]; exact eight
  have taken (kind status : Nat) : passed (M0.takeHead kind c status) kind status :=
    ⟨Mach.takeHead_next .., Mach.takeHead_holds .., Mach.takeHead_head _ _ _ _ there, Mach.takeHead_warm .., Mach.takeHead_ctxs ..⟩
  refine ⟨fun fails => ⟨M0.reject c (M0.checkCmd c), ?_, taken 2 _, Mach.takeHead_cmds .., Mach.takeHead_launch ..⟩,
    fun passes => ⟨M0.accept c, taken 1 0, rfl, Mach.accept_launch .., ?_⟩⟩
  · rw [run, Mach.takeCmd_rejects frames head named fails]
  have found : (M0.accept c).cmd? c.seq = some c := Mach.accept_cmd? (number ▸ shaped.1.commands)
  have accepts : exec ins s = .next { s with now := (M0.accept c).firstTurn c.seq frames } := by
    rw [run, Mach.takeCmd_accepts frames head named passes]
  refine ⟨fun early => ?_, fun due launch => ?_, fun due other => ?_⟩
  · exact ⟨_, accepts, Mach.firstTurn_of_not_turn frames found (Mach.accept_turn.trans early)⟩
  · have fresh : ∀ l ∈ M0.launch, ∀ w ∈ l, w.cmd < c.seq := fun l hl w hw => number ▸ (shaped.1.waiting l hl w hw).1
    have prio : Mach.prioOf c < M0.launch.length := by rw [shaped.1.launch]; exact Nat.mod_lt _ (by decide)
    rw [Mach.firstTurn_launch frames found (Mach.accept_turn.trans due) launch,
      Mach.accept_enqueue fresh (Mach.room_of_checkCmd passes due launch)] at accepts
    refine ⟨_, accepts, rfl, fun p _ => ?_⟩
    dsimp only
    rw [setAt_getD _ _ _ _ prio, HostCmd.waiting, number]
    by_cases own : p = Mach.prioOf c
    · subst own
      rw [if_pos rfl]
      exact (congrArg _ (if_pos rfl)).symm
    · rw [if_neg own]
      exact ((congrArg _ (if_neg own)).trans (List.append_nil _)).symm
  · refine ⟨_, accepts, ?_⟩
    have starts := commandStart_starts { s with now := M0.accept c } frames found accepted (Mach.accept_turn.trans due) other
    rw [number] at starts
    rw [Mach.firstTurn_other frames found (Mach.accept_turn.trans due) other]
    exact starts

end Sys2Proof.Machine
